-- ==== Sys2Proof/Word.lean ====
section
/-!
DEFINITION. The words of the machine and their plainest arithmetic (spec 00 R3, R7, R8; 04 R89).
-/

namespace Sys2Proof

/-- A 64-bit scalar register, address or special register (04 R89). -/
abbrev Word := BitVec 64

/-- One byte of memory (00 R3). -/
abbrev Byte := BitVec 8

/-- One 32-bit vector lane (04 R89). -/
abbrev Lane := BitVec 32

/-- A vector register: 128 lanes, lane 0 first (04 R89). -/
abbrev VReg := List Lane

/-- A predicate register: bit l belongs to lane l (04 R89). -/
abbrev Pred := BitVec 128

/-- Zero extension to a word (00 R8). -/
def zext {n : Nat} (x : BitVec n) : Word := x.setWidth 64

/-- Sign extension to a word (00 R8). -/
def sext {n : Nat} (x : BitVec n) : Word := x.signExtend 64

/-- The bits [hi:lo] of a bit vector as a number (00 R3). -/
def bitsN {n : Nat} (x : BitVec n) (hi lo : Nat) : Nat := x.toNat / 2 ^ lo % 2 ^ (hi + 1 - lo)

/-- The bits of a number, `len` of them from `lo` (00 R3). -/
def nbits (x lo len : Nat) : Nat := x / 2 ^ lo % 2 ^ len

/-- Bit i of a bit vector as a truth value, false beyond its width. -/
def bit {n : Nat} (x : BitVec n) (i : Nat) : Bool := x.getLsbD i

/-- A vector register with every lane zero. -/
def vzero : VReg := List.replicate 128 0#32

/-- Lane l of a vector register. -/
def lane (v : VReg) (l : Nat) : Lane := v.getD l 0#32

/-- A predicate with every bit set, as p0 always reads (02 R43). -/
def pall : Pred := BitVec.allOnes 128

end Sys2Proof
end

