-- ==== Sys2Proof/Syntax.lean ====
section
/-!
DEFINITION. The instructions: one constructor for each row of spec/opcode_table.json.
The syllable operations carry the operands of their encoding (spec 02 R47 to R57).
The rows without an encoding are the events of the other agents (spec 95), with what the agent supplies.
-/

namespace Sys2Proof

/-- The bundle slots in the order of R41. -/
inductive Slot | s0 | s1 | v0 | v1 | v2 | f | k | m0 | m1 | a | e
  deriving DecidableEq, Repr

/-- Element formats of the FMT field (02 R48). -/
inductive Fmt | f32 | bf16 | f16 | i32 | i8
  deriving DecidableEq, Repr

/-- Integer formats of the shifts and saturating sums (04 R97). -/
inductive IFmt | i32 | i8
  deriving DecidableEq, Repr

/-- The RM field: the mode of FCTL or an override (02 R48). -/
inductive RM | fctl | rne | rz | ru | rd | rs
  deriving DecidableEq, Repr

/-- Conditions of CMP (02 R49). -/
inductive Cond | eq | ne | lt | le | gt | ge | ltu | leu | gtu | geu
  deriving DecidableEq, Repr

/-- Conditions of VCMP (02 R49). -/
inductive VCond | eq | ne | lt | le | gt | ge
  deriving DecidableEq, Repr

/-- Widths of SEXT and ZEXT (04 R92). -/
inductive ExtW | w8 | w16 | w32
  deriving DecidableEq, Repr

/-- Key formats of bundle slot K (02 R48). -/
inductive KF | f32 | bf16 | i32
  deriving DecidableEq, Repr

/-- Sizes of scalar loads and stores (08 R187). -/
inductive Size | d64 | d32 | d16 | d8
  deriving DecidableEq, Repr

/-- Sizes of atomics (02 R55). -/
inductive ASize | d32 | d64
  deriving DecidableEq, Repr

/-- Scopes of FENCE (09 R227). -/
inductive Scope | ctx | core | die | pkg | grp
  deriving DecidableEq, Repr

/-- Access paths with their codes (09 R220). -/
inductive Path | ls | cp | mx | sv | fb | bk
  deriving DecidableEq, Repr

/-- Operand formats of the matrix engine (02 R48). -/
inductive MF | bf16 | f16 | sb
  deriving DecidableEq, Repr

/-- Modes of MMR (06 R165). -/
inductive MMode | classical | recombined | fallback
  deriving DecidableEq, Repr

/-- Output formats of MDRAIN (06 R157). -/
inductive OFmt | f32 | bf16 | f16
  deriving DecidableEq, Repr

/-- What an LS queue does with an entry when it is performed (09 R223). -/
inductive LsAct
  /-- perform all that is left of the entry -/
  | whole
  /-- perform bytes off to off+len-1 of a weak entry; a piece may be repeated -/
  | piece (off len : Nat)
  /-- a weak load takes its value from an earlier access of the stretch -/
  | elide
  /-- a weak load takes its bytes off to off+len-1 from earlier accesses of the stretch -/
  | elidePart (off len : Nat)
  /-- what is left of a weak store is dropped: it has been performed in pieces, or later stores of the stretch cover it -/
  | drop
  deriving DecidableEq, Repr

/-- The signature of a group operation (12 R289). -/
inductive GSig
  | coll (op oper root len : Nat)
  | barr
  | huddle (agbx : Bool) (oper site : Nat)
  deriving DecidableEq, Repr

/-- The decided outcome of a huddle round (12 R306). -/
inductive Verdict
  | value (v : Nat)
  | mismatch (code : Nat)
  | void
  deriving DecidableEq, Repr

/-- What a message of a group operation says (12 R296, R300, R302, R306). -/
inductive GBody
  | openNotice (rbuf : Word)
  | step (ent : Nat) (ctr : Option Nat)
  | abort (fcode mem : Nat)
  | barr
  | contrib (v : Nat)
  | outcome (v : Verdict)
  | voidReq
  deriving DecidableEq, Repr

/-- A message of a group operation (12 R289): where it goes, who sent it, which operation. -/
structure GMsg where
  /-- rank that receives it -/
  dst : Nat
  /-- rank that sent it -/
  src : Nat
  /-- top region of the program on the destination die -/
  top : Nat
  gid : Nat
  gen : Nat
  seq : Nat
  /-- member index of the sender -/
  mem : Nat
  sig : GSig
  body : GBody
  deriving DecidableEq, Repr

/-- A piece of a page of a checkpoint image (14 R347, R348): generation, rank, own image or mirror, the link key from
which its seal derives; address, size and attributes of the page; bytes by their place in it, its poisoned granules. -/
structure ImgPiece where
  gen : Nat
  rank : Nat
  mirror : Bool
  key : Nat
  va : Nat
  size : Nat
  attr : Nat
  bytes : List (Nat × Byte)
  poison : List Nat
  /-- the last piece of the image, and the first -/
  last : Bool
  first : Bool := false
  deriving DecidableEq, Repr

/-- What a fabric packet carries (11 R270, R271; 12 R295). -/
inductive Pay
  /-- bytes written at a remote address (FPUT, FPUT.S) -/
  | put (addr : Word) (data : List Byte)
  /-- elements reduced at a remote address (FPUT.R) -/
  | red (op : BitVec 6) (addr : Word) (data : List Byte)
  /-- a piece of a message for the link receive queue (FSEND): the message's length -/
  | msg (total : Nat) (data : List Byte)
  /-- a request for bytes (FGET): remote address and length -/
  | getReq (addr : Word) (len : Nat)
  /-- a part of a plan entry: group, generation, sequence number, sending member, entry, kind 0 to 2, operator,
  place in RBUF, place in the sender's SBUF, bytes of the whole entry, counter stepped after its last byte -/
  | chunk (gid gen seq mem ent kind oper doff soff total : Nat) (data : List Byte) (step : Option Nat) (sig : GSig)
  /-- a message of a group operation (12 R289) -/
  | group (m : GMsg)
  /-- the handshake of an exchange of state-vector halves: group, serial, local bit, global bit (07 R175); its number among the
  exchanges of the pair, and whether its sender has lost the one before -/
  | shake (gid serial b g no : Nat) (lost : Bool)
  /-- amplitudes of an exchange, in ascending position (07 R174) -/
  | amps (gid serial b g : Nat) (data : List Byte)
  /-- a piece of a checkpoint image on its way to a cistern (14 R348, R351) -/
  | image (i : ImgPiece)
  /-- nothing: the place in its flow of a packet whose command has ended -/
  | empty
  deriving DecidableEq, Repr

/-- A fabric packet (11 R268, R270): ranks, program, places, route version, flow sequence number. -/
structure Pkt where
  src : Nat
  dst : Nat
  /-- top region of the program on the destination die (DRID, R265), and on the source die -/
  top : Nat
  stop : Nat
  /-- package and die of the destination and of the source -/
  pkg : Nat
  die : Nat
  spkg : Nat
  sdie : Nat
  ver : Nat
  seq : Nat
  /-- place among the strong packets of its flow -/
  ord : Nat
  strong : Bool
  /-- the seal verifies under the program's link key (13 R324) -/
  good : Bool
  /-- the link key under which a packet of this package left (13 R324) -/
  key : Nat := 0
  /-- place of the oldest strong packet of its flow not acknowledged when it left (R271) -/
  low : Nat := 0
  /-- the command's number at the source, and its number of packets -/
  cmd : Nat
  cnt : Nat
  /-- arrival counter stepped when the command has been performed (R276 CEN, CTR) -/
  ctr : Option Nat
  pay : Pay
  deriving DecidableEq, Repr

/-- What an acknowledgement says (11 R272): program at the source, ranks and sequence number of the packet, flags,
a remote fault and its address, answered bytes; or the plan entry without data that has been applied (12 R295). -/
inductive Ack
  | packet (top src dst seq : Nat) (fl : BitVec 8) (fail : Option (Nat × Word)) (data : List Byte)
  | step (top gid seq ent : Nat)
  deriving DecidableEq, Repr

/-- Who makes a firmware request and what its header says (15 R357). -/
structure Req where
  die : Nat
  rid : Nat
  tag : Nat
  /-- none: the host queue; some t: the service ring of top region t -/
  sup : Option Nat
  /-- a reserved field of the request is nonzero, or its OPC is none of the table -/
  rsv : Bool
  /-- where the argument block or the report lies in host memory (PTR) -/
  ptr : Word
  deriving DecidableEq, Repr

/-- What one attempt of the boot ROM meets (15 R352), and the rotation domain that firmware then serves. -/
structure BootTry where
  addrOk : Bool
  fetchOk : Bool
  signatureOk : Bool
  versionOk : Bool
  lengthOk : Bool
  image : List Byte
  /-- what the fabric manager fixes for the package (11 R262, R263): its index, N, P and G in ns, the active planes -/
  pkg : Nat := 0
  rotN : Nat := 2
  slotP : Nat := 10000
  guardG : Nat := 400
  planes : List Nat := [0]
  deriving DecidableEq, Repr

/-- The owner given to a frame by request 0x0D (15 R357; 13 R322). -/
inductive Owner
  | free
  | region0
  | top (r : Nat)
  | slot (n : Nat)
  deriving DecidableEq, Repr

/-- The kind of a frame (13 R315, R322). -/
inductive FrameKind | dram | scratch | direct
  deriving DecidableEq, Repr

/-- Where a soft error strikes (14 R344, R345). -/
inductive ErrSite
  /-- a byte address of the die's storage -/
  | memory (d : Nat) (a : Nat)
  /-- scalar, vector, predicate or address register of a context: kind 0 x, 1 v, 2 p, 3 a -/
  | reg (c kind n : Nat)
  | tileRow (c t row : Nat)
  | queueEntry (c q e : Nat)
  | dictEntry (k kid i : Nat)
  | holdEntry (c n : Nat)
  deriving DecidableEq, Repr

/-- Where an arriving packet comes from: place n of the package's own wire, or the light of a fibre port; or what firmware
copies, unread, into the cistern of a program's new die (14 R351). -/
inductive PktFrom
  | wire (n : Nat)
  | fibre (p : Pkt)
  | image (top : Nat) (ps : List ImgPiece)
  deriving DecidableEq, Repr

/-- The instructions of the opcode table. In the events, c is a context of the package (die 256 core 4 ctx),
k a core (die 64 core), d a die, n a place in a list of the state. -/
inductive Instr where
  -- Bundle slots S0 and S1: scalar (R51)
  /-- `ADD` (R92) -/
  | add (rd ra rb : BitVec 6)
  /-- `SUB` (R92) -/
  | sub (rd ra rb : BitVec 6)
  /-- `MUL` (R92) -/
  | mul (rd ra rb : BitVec 6)
  /-- `MULH` (R92) -/
  | mulh (rd ra rb : BitVec 6)
  /-- `MULHU` (R92) -/
  | mulhu (rd ra rb : BitVec 6)
  /-- `DIV` (R94) -/
  | div (rd ra rb : BitVec 6)
  /-- `DIVU` (R94) -/
  | divu (rd ra rb : BitVec 6)
  /-- `REM` (R94) -/
  | rem (rd ra rb : BitVec 6)
  /-- `REMU` (R94) -/
  | remu (rd ra rb : BitVec 6)
  /-- `AND` (R92) -/
  | and (rd ra rb : BitVec 6)
  /-- `OR` (R92) -/
  | or (rd ra rb : BitVec 6)
  /-- `XOR` (R92) -/
  | xor (rd ra rb : BitVec 6)
  /-- `ANDN` (R92) -/
  | andn (rd ra rb : BitVec 6)
  /-- `SHL` (R92) -/
  | shl (rd ra rb : BitVec 6)
  /-- `SHR` (R92) -/
  | shr (rd ra rb : BitVec 6)
  /-- `SRA` (R92) -/
  | sra (rd ra rb : BitVec 6)
  /-- `MIN` (R92) -/
  | min (rd ra rb : BitVec 6)
  /-- `MAX` (R92) -/
  | max (rd ra rb : BitVec 6)
  /-- `MINU` (R92) -/
  | minu (rd ra rb : BitVec 6)
  /-- `MAXU` (R92) -/
  | maxu (rd ra rb : BitVec 6)
  /-- `CMP.cc` (R93) -/
  | cmp (cc : Cond) (pd : BitVec 4) (ra rb : BitVec 6)
  /-- `SEL` (R92) -/
  | sel (rd ra rb : BitVec 6) (pc : BitVec 4)
  /-- `CLZ` (R92) -/
  | clz (rd ra : BitVec 6)
  /-- `CTZ` (R92) -/
  | ctz (rd ra : BitVec 6)
  /-- `POPC` (R92) -/
  | popc (rd ra : BitVec 6)
  /-- `LEA` (R92) -/
  | lea (rd ra rb : BitVec 6) (sh : BitVec 2)
  /-- `SEXT` (R92) -/
  | sext (rd ra : BitVec 6) (ew : ExtW)
  /-- `ZEXT` (R92) -/
  | zext (rd ra : BitVec 6) (ew : ExtW)
  /-- `ADDI` (R95) -/
  | addi (rd ra : BitVec 6) (imm : BitVec 12)
  /-- `ANDI` (R95) -/
  | andi (rd ra : BitVec 6) (imm : BitVec 12)
  /-- `ORI` (R95) -/
  | ori (rd ra : BitVec 6) (imm : BitVec 12)
  /-- `XORI` (R95) -/
  | xori (rd ra : BitVec 6) (imm : BitVec 12)
  /-- `SHLI` (R95) -/
  | shli (rd ra : BitVec 6) (sh : BitVec 6)
  /-- `SHRI` (R95) -/
  | shri (rd ra : BitVec 6) (sh : BitVec 6)
  /-- `SRAI` (R95) -/
  | srai (rd ra : BitVec 6) (sh : BitVec 6)
  /-- `MOVI` (R96) -/
  | movi (rd : BitVec 6) (imm : BitVec 18)
  /-- `MOVHI` (R96) -/
  | movhi (rd : BitVec 6) (hw : BitVec 2) (imm : BitVec 16)
  -- Bundle slot S1: control, waits and system (R52)
  /-- `BR` (R108) -/
  | br (off : BitVec 19)
  /-- `BRC` (R108) -/
  | brc (pc : BitVec 4) (neg : Bool) (off : BitVec 19)
  /-- `CALL` (R109) -/
  | call (rd : BitVec 6) (off : BitVec 18)
  /-- `RET` (R109) -/
  | ret (ra : BitVec 6)
  /-- `BKTJ` (R135) -/
  | bktj (tbl : BitVec 2) (ra : BitVec 6)
  /-- `BKTSET` (R134) -/
  | bktset (tbl : BitVec 2) (ra : BitVec 6)
  /-- `WAITT` (R206) -/
  | waitt (ra : BitVec 6)
  /-- `WAITANY` (R206) -/
  | waitany (ra : BitVec 6)
  /-- `FFRDY` (R206) -/
  | ffrdy (rd ra : BitVec 6)
  /-- `RBWAIT` (R208) -/
  | rbwait (ring : BitVec 5)
  /-- `YIELD` (R255) -/
  | yield
  /-- `SPAWN` (R250) -/
  | spawn (ra : BitVec 6)
  /-- `JOIN` (R252) -/
  | join (ra : BitVec 6)
  /-- `JOIN.W` (R252) -/
  | joinW (ra : BitVec 6)
  /-- `DONE` (R254) -/
  | done
  /-- `TRAP` (R339) -/
  | trap (imm : BitVec 18)
  /-- `RFE` (R340) -/
  | rfe
  /-- `MFS` (R60) -/
  | mfs (rd : BitVec 6) (n : BitVec 12)
  /-- `MTS` (R61) -/
  | mts (n : BitVec 12) (ra : BitVec 6)
  /-- `MTS` (R205) -/
  | tagsWrite (ra : BitVec 6)
  /-- `MTS` (R61) -/
  | fstatusWrite (ra : BitVec 6)
  /-- `MTS` (R76) -/
  | fctlWrite (ra : BitVec 6)
  /-- `MTS` (R151) -/
  | rowprogWrite (ra : BitVec 6)
  /-- `KEYSEL.GEN` (R320) -/
  | keyselGen (ra : BitVec 6)
  /-- `KEYSEL.KILL` (R320) -/
  | keyselKill (ra : BitVec 6)
  /-- `HALT` (R341) -/
  | halt (ra : BitVec 6)
  /-- `CKWAIT` (R350) -/
  | ckwait
  -- Bundle slots V0 to V2: vector (R53)
  /-- `VADD` (R98) -/
  | vadd (fmt : Fmt) (rm : RM) (vd va vb : BitVec 6)
  /-- `VSUB` (R98) -/
  | vsub (fmt : Fmt) (rm : RM) (vd va vb : BitVec 6)
  /-- `VMUL` (R98) -/
  | vmul (fmt : Fmt) (rm : RM) (vd va vb : BitVec 6)
  /-- `VFMA` (R98) -/
  | vfma (fmt : Fmt) (rm : RM) (vd va vb : BitVec 6)
  /-- `VFMS` (R98) -/
  | vfms (fmt : Fmt) (rm : RM) (vd va vb : BitVec 6)
  /-- `VFNMA` (R98) -/
  | vfnma (fmt : Fmt) (rm : RM) (vd va vb : BitVec 6)
  /-- `VMIN` (R98) -/
  | vmin (fmt : Fmt) (vd va vb : BitVec 6)
  /-- `VMAX` (R98) -/
  | vmax (fmt : Fmt) (vd va vb : BitVec 6)
  /-- `VABS` (R98) -/
  | vabs (fmt : Fmt) (vd va : BitVec 6)
  /-- `VNEG` (R98) -/
  | vneg (fmt : Fmt) (vd va : BitVec 6)
  /-- `VAND` (R99) -/
  | vand (vd va vb : BitVec 6)
  /-- `VOR` (R99) -/
  | vor (vd va vb : BitVec 6)
  /-- `VXOR` (R99) -/
  | vxor (vd va vb : BitVec 6)
  /-- `VSHL` (R99) -/
  | vshl (fmt : IFmt) (vd va vb : BitVec 6)
  /-- `VSHR` (R99) -/
  | vshr (fmt : IFmt) (vd va vb : BitVec 6)
  /-- `VSRA` (R99) -/
  | vsra (fmt : IFmt) (vd va vb : BitVec 6)
  /-- `VADDS` (R99) -/
  | vadds (fmt : IFmt) (vd va vb : BitVec 6)
  /-- `VSUBS` (R99) -/
  | vsubs (fmt : IFmt) (vd va vb : BitVec 6)
  /-- `VCMP.cc` (R100) -/
  | vcmp (cc : VCond) (fmt : Fmt) (pd : BitVec 4) (va vb : BitVec 6)
  /-- `VSEL` (R101) -/
  | vsel (vd va vb : BitVec 6) (pc : BitVec 4)
  /-- `VMOV` (R101) -/
  | vmov (vd va : BitVec 6)
  /-- `VBCST` (R101) -/
  | vbcst (vd : BitVec 6) (ra : BitVec 6)
  /-- `VEXT` (R101) -/
  | vext (rd : BitVec 6) (va : BitVec 6) (rb : BitVec 6)
  /-- `VINS` (R101) -/
  | vins (vd : BitVec 6) (ra rb : BitVec 6)
  /-- `VIOTA` (R101) -/
  | viota (vd : BitVec 6)
  /-- `VCVT` (R102) -/
  | vcvt (fmt : Fmt) (rm : RM) (sfmt : Fmt) (vd va : BitVec 6)
  /-- `VCMPR` (R103) -/
  | vcmpr (vd va : BitVec 6) (pb : BitVec 4)
  /-- `VEXPD` (R104) -/
  | vexpd (vd va : BitVec 6) (pb : BitVec 4)
  /-- `VRSUM` (R105) -/
  | vrsum (fmt : Fmt) (rm : RM) (rd : BitVec 6) (va : BitVec 6) (pb : BitVec 4)
  /-- `VRMAX` (R105) -/
  | vrmax (fmt : Fmt) (rd : BitVec 6) (va : BitVec 6) (pb : BitVec 4)
  /-- `VRMIN` (R105) -/
  | vrmin (fmt : Fmt) (rd : BitVec 6) (va : BitVec 6) (pb : BitVec 4)
  -- Bundle slot V2 only (R53)
  /-- `XCOPY` (R106) -/
  | xcopy (vd va : BitVec 6) (rb : BitVec 6)
  -- Bundle slots V0 to V2: vector (R53)
  /-- `PAND` (R107) -/
  | pand (pd pa pb : BitVec 4)
  /-- `POR` (R107) -/
  | por (pd pa pb : BitVec 4)
  /-- `PXOR` (R107) -/
  | pxor (pd pa pb : BitVec 4)
  /-- `PANDN` (R107) -/
  | pandn (pd pa pb : BitVec 4)
  /-- `PNOT` (R107) -/
  | pnot (pd pa : BitVec 4)
  /-- `PCNT` (R107) -/
  | pcnt (rd : BitVec 6) (pa : BitVec 4)
  /-- `PFIRST` (R107) -/
  | pfirst (rd : BitVec 6) (pa : BitVec 4)
  -- Bundle slot F: special functions (R54)
  /-- `EXP2` (R122) -/
  | exp2 (fmt : Fmt) (rm : RM) (vd va : BitVec 6)
  /-- `LOG2` (R122) -/
  | log2 (fmt : Fmt) (rm : RM) (vd va : BitVec 6)
  /-- `RCP` (R122) -/
  | rcp (fmt : Fmt) (rm : RM) (vd va : BitVec 6)
  /-- `RSQ` (R122) -/
  | rsq (fmt : Fmt) (rm : RM) (vd va : BitVec 6)
  /-- `SIN` (R124) -/
  | sin (fmt : Fmt) (rm : RM) (vd va : BitVec 6)
  /-- `COS` (R124) -/
  | cos (fmt : Fmt) (rm : RM) (vd va : BitVec 6)
  /-- `TANH` (R122) -/
  | tanh (fmt : Fmt) (rm : RM) (vd va : BitVec 6)
  /-- `ERF` (R122) -/
  | erf (fmt : Fmt) (rm : RM) (vd va : BitVec 6)
  /-- `RND` (R126) -/
  | rnd (fmt : Fmt) (vd : BitVec 6)
  /-- `SEED` (R127) -/
  | seed (ra : BitVec 6)
  -- Bundle slot K: sorting and selection (R54)
  /-- `CXS` (R129) -/
  | cxs (kf : KF) (desc : Bool) (vd va : BitVec 6) (j db : BitVec 3)
  /-- `CXSI` (R129) -/
  | cxsi (kf : KF) (desc : Bool) (vd va : BitVec 6) (j db : BitVec 3)
  /-- `VMAXI` (R130) -/
  | vmaxi (kf : KF) (rd : BitVec 6) (va : BitVec 6) (pb : BitVec 4)
  /-- `VMINI` (R130) -/
  | vmini (kf : KF) (rd : BitVec 6) (va : BitVec 6) (pb : BitVec 4)
  /-- `VNORMSEL` (R131) -/
  | vnormsel (kf : KF) (vd va : BitVec 6) (pb : BitVec 4) (j : BitVec 3)
  -- Bundle slots M0 and M1: memory and atomics (R55)
  /-- `LD` (R187) -/
  | ld (sz : Size) (ep : BitVec 2) (na : Bool) (rd ra : BitVec 6) (off : BitVec 6)
  /-- `LD.S` (R187) -/
  | ldS (sz : Size) (ep : BitVec 2) (na : Bool) (rd ra : BitVec 6) (off : BitVec 6)
  /-- `ST` (R187) -/
  | st (sz : Size) (ep : BitVec 2) (na : Bool) (rd ra : BitVec 6) (off : BitVec 6)
  /-- `ST.S` (R187) -/
  | stS (sz : Size) (ep : BitVec 2) (na : Bool) (rd ra : BitVec 6) (off : BitVec 6)
  /-- `VLD` (R188) -/
  | vld (fmt : Fmt) (ep : BitVec 2) (na : Bool) (vd : BitVec 6) (ra : BitVec 6) (off : BitVec 6)
  /-- `VLD.S` (R188) -/
  | vldS (fmt : Fmt) (ep : BitVec 2) (na : Bool) (vd : BitVec 6) (ra : BitVec 6) (off : BitVec 6)
  /-- `VST` (R188) -/
  | vst (fmt : Fmt) (ep : BitVec 2) (na : Bool) (vd : BitVec 6) (ra : BitVec 6) (off : BitVec 6)
  /-- `VST.S` (R188) -/
  | vstS (fmt : Fmt) (ep : BitVec 2) (na : Bool) (vd : BitVec 6) (ra : BitVec 6) (off : BitVec 6)
  /-- `LDF` (R191) -/
  | ldf (rd ra : BitVec 6) (off : BitVec 6)
  /-- `STE` (R192) -/
  | ste (rd ra : BitVec 6) (off : BitVec 6)
  /-- `PREFT` (R200) -/
  | preft (tag : BitVec 6) (ra : BitVec 6) (off : BitVec 6) (ep : BitVec 2)
  /-- `PIN` (R198) -/
  | pin (win : BitVec 3) (ra rb : BitVec 6)
  /-- `UNPIN` (R199) -/
  | unpin (win : BitVec 3)
  /-- `PHASE` (R195) -/
  | phase (ra rb : BitVec 6)
  /-- `QALIGN` (R228) -/
  | qalign
  /-- `FENCE.scope` (R229) -/
  | fence (sc : Scope)
  /-- `XFENCE` (R230) -/
  | xfence (pf pt : Path)
  /-- `QPOP` (R158) -/
  | qpop (vd : BitVec 6) (q : BitVec 3)
  /-- `RBREL` (R208) -/
  | rbrel (ring : BitVec 5)
  /-- `AADD` (R214) -/
  | aadd (sz : ASize) (rd ra rb : BitVec 6)
  /-- `AAND` (R214) -/
  | aand (sz : ASize) (rd ra rb : BitVec 6)
  /-- `AOR` (R214) -/
  | aor (sz : ASize) (rd ra rb : BitVec 6)
  /-- `AXOR` (R214) -/
  | axor (sz : ASize) (rd ra rb : BitVec 6)
  /-- `AMIN` (R214) -/
  | amin (sz : ASize) (rd ra rb : BitVec 6)
  /-- `AMAX` (R214) -/
  | amax (sz : ASize) (rd ra rb : BitVec 6)
  /-- `ASWP` (R214) -/
  | aswp (sz : ASize) (rd ra rb : BitVec 6)
  /-- `CAS` (R214) -/
  | cas (sz : ASize) (rd ra rb : BitVec 6)
  /-- `AFADD` (R214) -/
  | afadd (rd ra rb : BitVec 6)
  /-- `ARED` (R216) -/
  | ared (op : BitVec 6) (ra rb rv : BitVec 6)
  -- Bundle slot A: address and loop (R56)
  /-- `LOOP` (R112) -/
  | loop (ra : BitVec 6) (imm : BitVec 14)
  /-- `REPLAY` (R117) -/
  | replay (s : BitVec 4) (ra : BitVec 6) (imm : BitVec 14)
  /-- `ASET` (R115) -/
  | aset (ad : BitVec 4) (ra : BitVec 6) (imm : BitVec 14)
  /-- `AINC` (R115) -/
  | ainc (rd : BitVec 6) (ad : BitVec 4) (imm : BitVec 14)
  /-- `ASTR` (R115) -/
  | astr (ad : BitVec 4) (ra : BitVec 6) (lvl : BitVec 3)
  /-- `SCL` (R143) -/
  | scl (e : BitVec 4) (ra : BitVec 6) (c : BitVec 3)
  -- Bundle slot E: engines (R57)
  /-- `MMA` (R153) -/
  | mma (mf : MF) (td : BitVec 4) (ra rb : BitVec 6) (n : BitVec 4)
  /-- `MMR` (R154) -/
  | mmr (mf : MF) (mode : MMode) (td : BitVec 4) (ra rb : BitVec 6)
  /-- `MLOAD` (R155) -/
  | mload (td : BitVec 4) (ra : BitVec 6)
  /-- `MDRAIN` (R157) -/
  | mdrain (of_ : OFmt) (clr : Bool) (q : BitVec 3) (td : BitVec 4)
  /-- `MZERO` (R156) -/
  | mzero (td : BitVec 4) (n : BitVec 4)
  /-- `MXSAVE` (R159) -/
  | mxsave (ra : BitVec 6)
  /-- `MXREST` (R159) -/
  | mxrest (ra : BitVec 6)
  /-- `MTALLOC` (R137) -/
  | mtalloc (n m : BitVec 4)
  /-- `MTFREE` (R138) -/
  | mtfree
  /-- `CPY` (R203) -/
  | cpy (dr sr : Bool) (ra rb : BitVec 6) (tag : BitVec 6)
  /-- `CPYM` (R209) -/
  | cpym (ra rb rc : BitVec 6) (tag : BitVec 6)
  /-- `CPYR` (R211) -/
  | cpyr (op : BitVec 6) (ra rb : BitVec 6) (tag : BitVec 6)
  /-- `RBINIT` (R207) -/
  | rbinit (ring : BitVec 5) (ra rb : BitVec 6)
  /-- `SVINIT` (R179) -/
  | svinit (ra rb : BitVec 6) (tag : BitVec 6)
  /-- `SVAPPLY` (R179) -/
  | svapply (ra rb : BitVec 6) (tag : BitVec 6)
  /-- `SVDIAG` (R179) -/
  | svdiag (ra rb : BitVec 6) (tag : BitVec 6)
  /-- `SVPROB` (R179) -/
  | svprob (ra rb rc : BitVec 6) (tag : BitVec 6)
  /-- `SVNORM` (R179) -/
  | svnorm (ra rb : BitVec 6) (tag : BitVec 6)
  /-- `SVMAP` (R179) -/
  | svmap (ra rb : BitVec 6) (tag : BitVec 6)
  /-- `FSEND` (R280) -/
  | fsend (ra rb : BitVec 6) (tag : BitVec 6)
  /-- `FRECV` (R280) -/
  | frecv (ra rb : BitVec 6) (tag : BitVec 6)
  /-- `FPUT` (R279) -/
  | fput (ra rb : BitVec 6) (tag : BitVec 6)
  /-- `FPUT.S` (R279) -/
  | fputS (ra rb : BitVec 6) (tag : BitVec 6)
  /-- `FPUT.R` (R279) -/
  | fputR (op : BitVec 6) (ra rb : BitVec 6) (tag : BitVec 6)
  /-- `FGET` (R279) -/
  | fget (ra rb : BitVec 6) (tag : BitVec 6)
  /-- `FEXPECT` (R281) -/
  | fexpect (clr : Bool) (ra rb : BitVec 6) (tag : BitVec 6)
  /-- `FPORT` (R285) -/
  | fport (ra rb : BitVec 6) (tag : BitVec 6)
  /-- `FROUTE` (R282) -/
  | froute (rd rb : BitVec 6) (port : Bool)
  /-- `COLL` (R290) -/
  | coll (ra : BitVec 6) (tag : BitVec 6)
  /-- `COLLW` (R290) -/
  | collw (ra : BitVec 6)
  /-- `AGB` (R304) -/
  | agb (pc : BitVec 4) (rb : BitVec 6)
  /-- `AGBX` (R304) -/
  | agbx (ra rb : BitVec 6)
  /-- `AGWAIT` (R304) -/
  | agwait
  /-- `BARR` (R302) -/
  | barr (rb : BitVec 6) (tag : BitVec 6)
  /-- `TLBI` (R318) -/
  | tlbi (ra rb : BitVec 6) (tag : BitVec 6)
  /-- `CKPT` (R348) -/
  | ckpt (ra : BitVec 6) (tag : BitVec 6)
  /-- `AADD.H` (R214) -/
  | aaddH (sz : ASize) (rd ra rb : BitVec 6)
  /-- `AAND.H` (R214) -/
  | aandH (sz : ASize) (rd ra rb : BitVec 6)
  /-- `AOR.H` (R214) -/
  | aorH (sz : ASize) (rd ra rb : BitVec 6)
  /-- `AXOR.H` (R214) -/
  | axorH (sz : ASize) (rd ra rb : BitVec 6)
  /-- `AMIN.H` (R214) -/
  | aminH (sz : ASize) (rd ra rb : BitVec 6)
  /-- `AMAX.H` (R214) -/
  | amaxH (sz : ASize) (rd ra rb : BitVec 6)
  /-- `ASWP.H` (R214) -/
  | aswpH (sz : ASize) (rd ra rb : BitVec 6)
  /-- `CAS.H` (R214) -/
  | casH (sz : ASize) (rd ra rb : BitVec 6)
  /-- `AFADD.H` (R214) -/
  | afaddH (rd ra rb : BitVec 6)
  /-- `ARED.H` (R216) -/
  | aredH (op : BitVec 6) (ra rb rv : BitVec 6)
  -- Events of the other agents, without an encoding (95)
  /-- `BUNDLE_ISSUE` (R44) -/
  | bundleIssue (k : Nat)
  /-- `LS_ACCESS_PERFORMED` (R221) -/
  | lsAccessPerformed (c n : Nat) (act : LsAct)
  /-- `BANK_ATOMIC_PERFORMED` (R213) -/
  | bankAtomicPerformed (c : Nat) (home : Bool)
  /-- `BKTSET_DATA_ARRIVAL` (R134) -/
  | bktsetDataArrival (c : Nat)
  /-- `PREEMPTION` (R258) -/
  | preemption (c : Nat)
  /-- `FRECV_COPY_COMPLETE` (R280) -/
  | frecvCopyComplete (c n : Nat)
  /-- `WATCHDOG_EXPIRY` (R256) -/
  | watchdogExpiry (c : Nat)
  /-- `PREFETCH_COMPLETE` (R200) -/
  | prefetchComplete (k n : Nat)
  /-- `RING_SLOT_CLAIM` (R208) -/
  | ringSlotClaim (k n : Nat)
  /-- `COPY_PAGE_REACH` (R212) -/
  | copyPageReach (k n len : Nat)
  /-- `CPYM_LANDING` (R209) -/
  | cpymLanding (k n : Nat)
  /-- `COPY_COMPLETE` (R204) -/
  | copyComplete (k n : Nat)
  /-- `MATRIX_ALLOC_GRANT` (R137) -/
  | matrixAllocGrant (k : Nat)
  /-- `MATRIX_COMMAND_COMPLETE` (R142) -/
  | matrixCommandComplete (k : Nat)
  /-- `MATRIX_LINE_FETCH` (R149) -/
  | matrixLineFetch (k : Nat)
  /-- `MATRIX_COMMAND_START` (R140) -/
  | matrixCommandStart (k : Nat)
  /-- `RECORD_POP` (R25) -/
  | recordPop (c : Nat)
  /-- `EDDY_COMMAND_COMPLETE` (R181) -/
  | eddyCommandComplete (d : Nat)
  /-- `EXCHANGE_DATA` (R174): the amplitudes that have arrived -/
  | exchangeData (d : Nat) (data : List (BitVec 8))
  /-- `EDDY_COMMAND_START` (R181) -/
  | eddyCommandStart (d : Nat)
  /-- `COLLECTIVE_START` (R296) -/
  | collectiveStart (d n : Nat)
  /-- `BARR_ARRIVAL_SEND` (R302) -/
  | barrArrivalSend (d n : Nat)
  /-- `CKPT_COMPLETE` (R348) -/
  | ckptComplete (d n : Nat)
  /-- `PHASE_DRAIN_END` (R196) -/
  | phaseDrainEnd (d : Nat)
  /-- `BUDGET_PERIOD` (R257) -/
  | budgetPeriod (d r : Nat)
  /-- `SERVICE_RING_POLL` (R359) -/
  | serviceRingPoll (d top : Nat)
  /-- `PACKET_ARRIVAL` (R268) -/
  | packetArrival (d : Nat) (pf : PktFrom)
  /-- `TLBI_COMPLETE` (R318) -/
  | tlbiComplete (d n : Nat)
  /-- `OPEN_NOTICE_ARRIVAL` (R296) -/
  | openNoticeArrival (d : Nat) (m : GMsg)
  /-- `PLAN_STEP_ARRIVAL` (R296) -/
  | planStepArrival (d : Nat) (m : GMsg)
  /-- `ABORT_NOTICE_ARRIVAL` (R300) -/
  | abortNoticeArrival (d : Nat) (m : GMsg)
  /-- `BARR_ARRIVAL_RECEIVE` (R302) -/
  | barrArrivalReceive (d : Nat) (m : GMsg)
  /-- `HUDDLE_CONTRIBUTION_ARRIVAL` (R306) -/
  | huddleContributionArrival (d : Nat) (m : GMsg)
  /-- `HUDDLE_OUTCOME_ARRIVAL` (R306) -/
  | huddleOutcomeArrival (d : Nat) (m : GMsg)
  /-- `VOID_REQUEST_ARRIVAL` (R306) -/
  | voidRequestArrival (d : Nat) (m : GMsg)
  /-- `FABRIC_SLOT_BOUNDARY` (R263) -/
  | fabricSlotBoundary (plane : Nat)
  /-- `ACK_ARRIVAL` (R272) -/
  | ackArrival (d : Nat) (a : Ack)
  /-- `STALE_NOTICE` (R268) -/
  | staleNotice (d top src dst seq ver : Nat)
  /-- `AUTH_FAIL_NOTICE` (R324) -/
  | authFailNotice (d top src dst seq : Nat)
  /-- `EXCHANGE_HANDSHAKE` (R175): what the partner's handshake says -/
  | exchangeHandshake (d gid serial b g : Nat)
  /-- `PIN_LINE_FETCH` (R198) -/
  | pinLineFetch (c w n : Nat)
  /-- `REGISTER_WRITEBACK` (R35) -/
  | registerWriteback (c : Nat)
  /-- `LOAD_DATA_RETURN` (R187) -/
  | loadDataReturn (c n : Nat)
  /-- `QUANTUM_EXPIRY` (R256) -/
  | quantumExpiry (c : Nat)
  /-- `BUDGET_EXHAUSTED` (R258) -/
  | budgetExhausted (d r : Nat)
  /-- `TRAP_ENTRY` (R332) -/
  | trapEntry (c : Nat)
  /-- `FRAMING_RECEIVED` (R264) -/
  | framingReceived (plane slot sender : Nat)
  /-- `RING_SATURATION` (R283) -/
  | ringSaturation (ring : Nat)
  /-- `DATA_WINDOW_START` (R263) -/
  | dataWindowStart (plane : Nat)
  /-- `HELD_PACKET_TIMEOUT` (R268) -/
  | heldPacketTimeout (d n : Nat)
  /-- `STALE_RETRANSMIT_TIMEOUT` (R268) -/
  | staleRetransmitTimeout (d n : Nat)
  /-- `ROUTE_WAIT_TIMEOUT` (R267) -/
  | routeWaitTimeout (d n : Nat)
  /-- `FRECV_TIMEOUT` (R280) -/
  | frecvTimeout (c : Nat)
  /-- `WAKE_HINT` (R287) -/
  | wakeHint (port : Nat)
  /-- `COLLECTIVE_TIMEOUT` (R300) -/
  | collectiveTimeout (d n : Nat)
  /-- `MEMBER_LOST_REPORT` (R300) -/
  | memberLostReport (d top rank : Nat)
  /-- `HUDDLE_TIMEOUT` (R306) -/
  | huddleTimeout (c : Nat)
  /-- `OUTCOME_RESEND` (R306) -/
  | outcomeResend (d n mem : Nat)
  /-- `LINK_KEY_INSTALL` (R325): the key of an encapsulation, none where it does not open -/
  | linkKeyInstall (d slot top : Nat) (opened : Option Nat)
  /-- `POWER_ON` (R352) -/
  | powerOn (t : BootTry)
  /-- `BOOT_RETRY` (R352) -/
  | bootRetry (t : BootTry)
  /-- `PKGRESET` (R360) -/
  | pkgreset
  /-- `HQPROD` (R356) -/
  | hqprod (w : Word)
  /-- `BAR0_REGISTER_WRITE` (R356) -/
  | bar0RegisterWrite (off : Nat) (w : Word)
  /-- `FUNCTION_LEVEL_RESET` (R360) -/
  | functionLevelReset
  /-- `CURRENT_LIMIT` (R326) -/
  | currentLimit (on : Bool)
  /-- `THERMAL_THROTTLE` (R326) -/
  | thermalThrottle (d : Nat) (on : Bool)
  /-- `THERMAL_TRIP` (R326) -/
  | thermalTrip (d : Nat)
  /-- `RING_HEAT_WRITE` (R283) -/
  | ringHeatWrite (ring heat : Nat)
  /-- `CREATE_REGION` (R245) -/
  | createRegion (q : Req) (rcb : BitVec 2048)
  /-- `CHANGE_REGION` (R245) -/
  | changeRegion (q : Req) (rcb : BitVec 2048)
  /-- `MAKE_RUNNABLE` (R357) -/
  | makeRunnable (q : Req)
  /-- `MAKE_NOT_RUNNABLE` (R258) -/
  | makeNotRunnable (q : Req)
  /-- `DESTROY_REGION` (R357) -/
  | destroyRegion (q : Req)
  /-- `BIND_KERNEL` (R30) -/
  | bindKernel (q : Req) (image : List Byte) (kid : Nat) (mask vbase : Word)
  /-- `PUSH_RECORDS` (R260) -/
  | pushRecords (q : Req) (recs : List (BitVec 256))
  /-- `HANDLER_VECTOR` (R331) -/
  | handlerVector (q : Req) (kid entry : Nat)
  /-- `BREAKPOINT` (R343) -/
  | breakpoint (q : Req) (num kid pc : Nat) (en : Bool)
  /-- `ROUTE_TABLE` (R266) -/
  | routeTable (q : Req) (ents : List Word) (ver : Nat)
  /-- `GROUP_ENTRY` (R288) -/
  | groupEntry (q : Req) (gid : Nat) (ent : Word) (ranks : List Nat)
  /-- `ASSIGN_KEY_SLOT` (R319) -/
  | assignKeySlot (q : Req) (slot : Nat)
  /-- `RECLAIM_KEY_SLOT` (R319) -/
  | reclaimKeySlot (q : Req) (slot : Nat)
  /-- `PAGE_TABLE_ROOT` (R314) -/
  | pageTableRoot (q : Req) (root : Word)
  /-- `FRAME_OWNER` (R322) -/
  | frameOwner (q : Req) (kind : FrameKind) (frame : Nat) (owner : Owner)
  /-- `CISTERN_ALLOTMENT` (R347) -/
  | cisternAllotment (q : Req) (size : Nat)
  /-- `ATTEST` (R355) -/
  | attest (q : Req) (nonce : BitVec 256)
  /-- `READ_RING_STATUS` (R283) -/
  | readRingStatus (q : Req) (ring : Nat)
  /-- `REGISTER_SERVICE_RING` (R359) -/
  | registerServiceRing (q : Req) (va : Word)
  /-- `WITHDRAW_SERVICE_RING` (R359) -/
  | withdrawServiceRing (q : Req)
  /-- `FRAMING_LOST` (R264) -/
  | framingLost (plane : Nat)
  /-- `SOFT_ERROR` (R345) -/
  | softError (site : ErrSite) (correctable : Bool)
  /-- `EXCHANGE_PARTNER_TIMEOUT` (R181) -/
  | exchangePartnerTimeout (d : Nat) (lost : Bool)
  deriving DecidableEq, Repr

end Sys2Proof
end

