-- ==== Sys2Proof/WellFormed.lean ====
section
/-!
DEFINITION. Which instructions are well formed: the checks of spec 02 R44 step 3 that one syllable decides alone.
A word that decodes to an ill-formed instruction is an illegal encoding (0x01).
-/

namespace Sys2Proof

/-- Floating element formats (02 R48). -/
def Fmt.isFloat : Fmt → Bool
  | .f32 | .bf16 | .f16 => true
  | .i32 | .i8 => false

/-- An even register name, the first of a pair (06 R144). -/
def even (r : BitVec 6) : Bool := r.toNat % 2 == 0

/-- The reduction operator codes of 08 R210. -/
def validOp (n : Nat) : Bool :=
  n ≤ 5 || (8 ≤ n && n ≤ 13) || (16 ≤ n && n ≤ 18) || (20 ≤ n && n ≤ 22) || (24 ≤ n && n ≤ 26)

/-- The assigned special-register numbers (02 R58). -/
def assignedSR (n : BitVec 12) : Bool :=
  [0x000, 0x001, 0x002, 0x003, 0x004, 0x008, 0x010, 0x011, 0x020, 0x021, 0x022, 0x023, 0x030].contains n.toNat

/-- The special registers whose MTS is a row of its own in the opcode table. -/
def ownWrite (n : BitVec 12) : Bool := [0x001, 0x002, 0x003, 0x008].contains n.toNat

/-- The conversions of VCVT and the RM each accepts (04 R102). -/
def cvtOk (fmt : Fmt) (rm : RM) (sfmt : Fmt) : Bool :=
  fmt != sfmt &&
  match sfmt, fmt with
  | .bf16, .f32 | .f16, .f32 => rm == .fctl
  | .i8, _ => rm == .fctl
  | .i32, .i8 => rm == .fctl
  | _, _ => true

/-- What the fabric manager fixes is in its range (11 R262, R263). -/
def BootTry.ok (t : BootTry) : Bool :=
  decide (2 ≤ t.rotN) && decide (t.rotN ≤ 256) && decide (t.pkg < t.rotN) && !t.planes.isEmpty &&
  t.planes.all (fun p => decide (p < 64)) &&
  decide (2500 ≤ t.slotP) && decide (t.slotP ≤ 40000) && t.slotP % 100 == 0 && decide (400 ≤ t.guardG) && decide (t.guardG < t.slotP)

/-- A request header that names a die and a region id of the machine (15 R357). -/
def Req.ok (q : Req) : Bool := decide (q.die < 4) && decide (q.rid < 4096) && decide (q.tag < 65536)

/-- Well-formedness of one instruction. -/
def Instr.wf : Instr → Bool
  | .add .. => true
  | .sub .. => true
  | .mul .. => true
  | .mulh .. => true
  | .mulhu .. => true
  | .div .. => true
  | .divu .. => true
  | .rem .. => true
  | .remu .. => true
  | .and .. => true
  | .or .. => true
  | .xor .. => true
  | .andn .. => true
  | .shl .. => true
  | .shr .. => true
  | .sra .. => true
  | .min .. => true
  | .max .. => true
  | .minu .. => true
  | .maxu .. => true
  | .cmp _ pd _ _ => pd != 0#4
  | .sel .. => true
  | .clz .. => true
  | .ctz .. => true
  | .popc .. => true
  | .lea .. => true
  | .sext .. => true
  | .zext .. => true
  | .addi .. => true
  | .andi .. => true
  | .ori .. => true
  | .xori .. => true
  | .shli .. => true
  | .shri .. => true
  | .srai .. => true
  | .movi .. => true
  | .movhi .. => true
  | .br .. => true
  | .brc pc neg _ => !(pc == 0#4 && neg)
  | .call .. => true
  | .ret .. => true
  | .bktj .. => true
  | .bktset .. => true
  | .waitt .. => true
  | .waitany .. => true
  | .ffrdy .. => true
  | .rbwait .. => true
  | .yield => true
  | .spawn ra => ra.toNat % 4 == 0 && ra != 0#6
  | .join .. => true
  | .joinW ra => ra != 0#6
  | .done => true
  | .trap .. => true
  | .rfe => true
  | .mfs _ n => assignedSR n
  | .mts n _ => assignedSR n && !ownWrite n
  | .tagsWrite .. => true
  | .fstatusWrite .. => true
  | .fctlWrite .. => true
  | .rowprogWrite .. => true
  | .keyselGen .. => true
  | .keyselKill .. => true
  | .halt .. => true
  | .ckwait => true
  | .vadd fmt rm _ _ _ => fmt.isFloat || rm == .fctl
  | .vsub fmt rm _ _ _ => fmt.isFloat || rm == .fctl
  | .vmul fmt rm _ _ _ => fmt.isFloat || rm == .fctl
  | .vfma fmt rm _ _ _ => fmt.isFloat || rm == .fctl
  | .vfms fmt rm _ _ _ => fmt.isFloat || rm == .fctl
  | .vfnma fmt rm _ _ _ => fmt.isFloat || rm == .fctl
  | .vmin .. => true
  | .vmax .. => true
  | .vabs .. => true
  | .vneg .. => true
  | .vand .. => true
  | .vor .. => true
  | .vxor .. => true
  | .vshl .. => true
  | .vshr .. => true
  | .vsra .. => true
  | .vadds .. => true
  | .vsubs .. => true
  | .vcmp _ _ pd _ _ => pd != 0#4
  | .vsel .. => true
  | .vmov .. => true
  | .vbcst .. => true
  | .vext .. => true
  | .vins .. => true
  | .viota .. => true
  | .vcvt fmt rm sfmt _ _ => cvtOk fmt rm sfmt
  | .vcmpr .. => true
  | .vexpd .. => true
  | .vrsum fmt rm _ _ _ => fmt.isFloat || rm == .fctl
  | .vrmax .. => true
  | .vrmin .. => true
  | .xcopy .. => true
  | .pand pd _ _ => pd != 0#4
  | .por pd _ _ => pd != 0#4
  | .pxor pd _ _ => pd != 0#4
  | .pandn pd _ _ => pd != 0#4
  | .pnot pd _ => pd != 0#4
  | .pcnt .. => true
  | .pfirst .. => true
  | .exp2 fmt _ _ _ => fmt.isFloat
  | .log2 fmt _ _ _ => fmt.isFloat
  | .rcp fmt _ _ _ => fmt.isFloat
  | .rsq fmt _ _ _ => fmt.isFloat
  | .sin fmt _ _ _ => fmt.isFloat
  | .cos fmt _ _ _ => fmt.isFloat
  | .tanh fmt _ _ _ => fmt.isFloat
  | .erf fmt _ _ _ => fmt.isFloat
  | .rnd fmt _ => fmt == .f32 || fmt == .i32
  | .seed .. => true
  | .cxs _ _ _ _ j _ => j != 7#3
  | .cxsi _ _ vd va j _ => j != 7#3 && even vd && even va
  | .vmaxi .. => true
  | .vmini .. => true
  | .vnormsel kf _ _ _ j => kf != .i32 && j != 7#3
  | .ld .. => true
  | .ldS .. => true
  | .st .. => true
  | .stS .. => true
  | .vld .. => true
  | .vldS .. => true
  | .vst .. => true
  | .vstS .. => true
  | .ldf .. => true
  | .ste .. => true
  | .preft .. => true
  | .pin _ ra _ => even ra
  | .unpin .. => true
  | .phase .. => true
  | .qalign => true
  | .fence .. => true
  | .xfence pf pt => pf != pt
  | .qpop .. => true
  | .rbrel .. => true
  | .aadd .. => true
  | .aand .. => true
  | .aor .. => true
  | .axor .. => true
  | .amin .. => true
  | .amax .. => true
  | .aswp .. => true
  | .cas .. => true
  | .afadd .. => true
  | .ared op _ _ _ => validOp op.toNat
  | .loop _ imm => imm != 0#14 && !bit imm 13
  | .replay _ _ imm => imm != 0#14 && !bit imm 13
  | .aset .. => true
  | .ainc .. => true
  | .astr _ _ lvl => lvl.toNat <= 4
  | .scl e _ c => e.toNat + c.toNat + 1 <= 16
  | .mma _ _ ra rb _ => even ra && even rb
  | .mmr _ _ td ra rb => even ra && even rb && td.toNat % 4 == 0
  | .mload _ ra => even ra
  | .mdrain .. => true
  | .mzero .. => true
  | .mxsave .. => true
  | .mxrest .. => true
  | .mtalloc _ m => m.toNat <= 8
  | .mtfree => true
  | .cpy .. => true
  | .cpym .. => true
  | .cpyr op _ _ _ => validOp op.toNat
  | .rbinit .. => true
  | .svinit .. => true
  | .svapply .. => true
  | .svdiag .. => true
  | .svprob .. => true
  | .svnorm .. => true
  | .svmap .. => true
  | .fsend .. => true
  | .frecv .. => true
  | .fput ra _ _ => even ra
  | .fputS ra _ _ => even ra
  | .fputR op ra _ _ => even ra && validOp op.toNat
  | .fget ra _ _ => even ra
  | .fexpect .. => true
  | .fport .. => true
  | .froute .. => true
  | .coll .. => true
  | .collw .. => true
  | .agb .. => true
  | .agbx .. => true
  | .agwait => true
  | .barr .. => true
  | .tlbi .. => true
  | .ckpt .. => true
  | .aaddH .. => true
  | .aandH .. => true
  | .aorH .. => true
  | .axorH .. => true
  | .aminH .. => true
  | .amaxH .. => true
  | .aswpH .. => true
  | .casH .. => true
  | .afaddH .. => true
  | .aredH op _ _ _ => validOp op.toNat
  | .bundleIssue k => decide (k < 256)
  | .lsAccessPerformed c _ _ => decide (c < 1024)
  | .bankAtomicPerformed c _ => decide (c < 1024)
  | .bktsetDataArrival c => decide (c < 1024)
  | .preemption c => decide (c < 1024)
  | .frecvCopyComplete c _ => decide (c < 1024)
  | .watchdogExpiry c => decide (c < 1024)
  | .prefetchComplete k _ => decide (k < 256)
  | .ringSlotClaim k _ => decide (k < 256)
  | .copyPageReach k _ _ => decide (k < 256)
  | .cpymLanding k _ => decide (k < 256)
  | .copyComplete k _ => decide (k < 256)
  | .matrixAllocGrant k => decide (k < 256)
  | .matrixCommandComplete k => decide (k < 256)
  | .matrixLineFetch k => decide (k < 256)
  | .matrixCommandStart k => decide (k < 256)
  | .recordPop c => decide (c < 1024)
  | .eddyCommandComplete d => decide (d < 4)
  | .exchangeData d _ => decide (d < 4)
  | .eddyCommandStart d => decide (d < 4)
  | .collectiveStart d _ => decide (d < 4)
  | .barrArrivalSend d _ => decide (d < 4)
  | .ckptComplete d _ => decide (d < 4)
  | .phaseDrainEnd d => decide (d < 4)
  | .budgetPeriod d _ => decide (d < 4)
  | .serviceRingPoll d _ => decide (d < 4)
  | .packetArrival d _ => decide (d < 4)
  | .tlbiComplete d _ => decide (d < 4)
  | .openNoticeArrival d _ => decide (d < 4)
  | .planStepArrival d _ => decide (d < 4)
  | .abortNoticeArrival d _ => decide (d < 4)
  | .barrArrivalReceive d _ => decide (d < 4)
  | .huddleContributionArrival d _ => decide (d < 4)
  | .huddleOutcomeArrival d _ => decide (d < 4)
  | .voidRequestArrival d _ => decide (d < 4)
  | .fabricSlotBoundary plane => decide (plane < 64)
  | .ackArrival d _ => decide (d < 4)
  | .staleNotice d _ _ _ _ _ => decide (d < 4)
  | .authFailNotice d _ _ _ _ => decide (d < 4)
  | .exchangeHandshake d _ _ _ _ => decide (d < 4)
  | .registerWriteback c => decide (c < 1024)
  | .loadDataReturn c _ => decide (c < 1024)
  | .quantumExpiry c => decide (c < 1024)
  | .budgetExhausted d _ => decide (d < 4)
  | .trapEntry c => decide (c < 1024)
  | .pinLineFetch c _ _ => decide (c < 1024)
  | .framingReceived plane _ _ => decide (plane < 64)
  | .ringSaturation ring => decide (ring < 1152)
  | .dataWindowStart plane => decide (plane < 64)
  | .heldPacketTimeout d _ => decide (d < 4)
  | .staleRetransmitTimeout d _ => decide (d < 4)
  | .routeWaitTimeout d _ => decide (d < 4)
  | .frecvTimeout c => decide (c < 1024)
  | .wakeHint port => decide (port < 64)
  | .collectiveTimeout d _ => decide (d < 4)
  | .memberLostReport d _ _ => decide (d < 4)
  | .huddleTimeout c => decide (c < 1024)
  | .outcomeResend d _ _ => decide (d < 4)
  | .linkKeyInstall d slot _ _ => decide (d < 4) && decide (slot < 4096)
  | .powerOn t => t.ok
  | .bootRetry t => t.ok
  | .pkgreset => true
  | .hqprod .. => true
  | .bar0RegisterWrite .. => true
  | .functionLevelReset => true
  | .currentLimit .. => true
  | .thermalThrottle d _ => decide (d < 4)
  | .thermalTrip d => decide (d < 4)
  | .ringHeatWrite ring _ => decide (ring < 1152)
  | .createRegion q _ => q.ok
  | .changeRegion q _ => q.ok
  | .makeRunnable q => q.ok
  | .makeNotRunnable q => q.ok
  | .destroyRegion q => q.ok
  | .bindKernel q _ _ _ _ => q.ok
  | .pushRecords q _ => q.ok
  | .handlerVector q _ _ => q.ok
  | .breakpoint q _ _ _ _ => q.ok
  | .routeTable q _ _ => q.ok
  | .groupEntry q _ _ _ => q.ok
  | .assignKeySlot q _ => q.ok
  | .reclaimKeySlot q _ => q.ok
  | .pageTableRoot q _ => q.ok
  | .frameOwner q _ _ _ => q.ok
  | .cisternAllotment q _ => q.ok
  | .attest q _ => q.ok
  | .readRingStatus q _ => q.ok
  | .registerServiceRing q _ => q.ok
  | .withdrawServiceRing q => q.ok
  | .framingLost plane => decide (plane < 64)
  | .softError .. => true
  | .exchangePartnerTimeout d _ => decide (d < 4)

end Sys2Proof
end

