-- ==== Sys2Proof/Decode.lean ====
section
/-!
DEFINITION. The decoder and the encoder of one syllable (spec 02 R47 to R57).
A word decodes to an instruction when its fields give one, the instruction is well formed and its encoding is
the word itself: a nonzero reserved field therefore never decodes (R4, R44).
-/

namespace Sys2Proof

/-- Code of the FMT field (02 R48, R49). -/
def Fmt.code : Fmt → Nat
  | .f32 => 0
  | .bf16 => 1
  | .f16 => 2
  | .i32 => 3
  | .i8 => 4

/-- Reading of the FMT field. -/
def Fmt.ofCode : Nat → Option Fmt
  | 0 => some .f32
  | 1 => some .bf16
  | 2 => some .f16
  | 3 => some .i32
  | 4 => some .i8
  | _ => none

/-- Code of the FMT of the integer forms field (02 R48, R49). -/
def IFmt.code : IFmt → Nat
  | .i32 => 3
  | .i8 => 4

/-- Reading of the FMT of the integer forms field. -/
def IFmt.ofCode : Nat → Option IFmt
  | 3 => some .i32
  | 4 => some .i8
  | _ => none

/-- Code of the RM field (02 R48, R49). -/
def RM.code : RM → Nat
  | .fctl => 0
  | .rne => 1
  | .rz => 2
  | .ru => 3
  | .rd => 4
  | .rs => 5

/-- Reading of the RM field. -/
def RM.ofCode : Nat → Option RM
  | 0 => some .fctl
  | 1 => some .rne
  | 2 => some .rz
  | 3 => some .ru
  | 4 => some .rd
  | 5 => some .rs
  | _ => none

/-- Code of the X of CMP field (02 R48, R49). -/
def Cond.code : Cond → Nat
  | .eq => 0
  | .ne => 1
  | .lt => 2
  | .le => 3
  | .gt => 4
  | .ge => 5
  | .ltu => 6
  | .leu => 7
  | .gtu => 8
  | .geu => 9

/-- Reading of the X of CMP field. -/
def Cond.ofCode : Nat → Option Cond
  | 0 => some .eq
  | 1 => some .ne
  | 2 => some .lt
  | 3 => some .le
  | 4 => some .gt
  | 5 => some .ge
  | 6 => some .ltu
  | 7 => some .leu
  | 8 => some .gtu
  | 9 => some .geu
  | _ => none

/-- Code of the RM of VCMP field (02 R48, R49). -/
def VCond.code : VCond → Nat
  | .eq => 0
  | .ne => 1
  | .lt => 2
  | .le => 3
  | .gt => 4
  | .ge => 5

/-- Reading of the RM of VCMP field. -/
def VCond.ofCode : Nat → Option VCond
  | 0 => some .eq
  | 1 => some .ne
  | 2 => some .lt
  | 3 => some .le
  | 4 => some .gt
  | 5 => some .ge
  | _ => none

/-- Code of the X of SEXT and ZEXT field (02 R48, R49). -/
def ExtW.code : ExtW → Nat
  | .w8 => 0
  | .w16 => 1
  | .w32 => 2

/-- Reading of the X of SEXT and ZEXT field. -/
def ExtW.ofCode : Nat → Option ExtW
  | 0 => some .w8
  | 1 => some .w16
  | 2 => some .w32
  | _ => none

/-- Code of the KF field (02 R48, R49). -/
def KF.code : KF → Nat
  | .f32 => 0
  | .bf16 => 1
  | .i32 => 2

/-- Reading of the KF field. -/
def KF.ofCode : Nat → Option KF
  | 0 => some .f32
  | 1 => some .bf16
  | 2 => some .i32
  | _ => none

/-- Code of the FMT of LD and ST field (02 R48, R49). -/
def Size.code : Size → Nat
  | .d64 => 0
  | .d32 => 1
  | .d16 => 2
  | .d8 => 3

/-- Reading of the FMT of LD and ST field. -/
def Size.ofCode : Nat → Option Size
  | 0 => some .d64
  | 1 => some .d32
  | 2 => some .d16
  | 3 => some .d8
  | _ => none

/-- Code of the X[5:4] of the atomics field (02 R48, R49). -/
def ASize.code : ASize → Nat
  | .d32 => 0
  | .d64 => 1

/-- Reading of the X[5:4] of the atomics field. -/
def ASize.ofCode : Nat → Option ASize
  | 0 => some .d32
  | 1 => some .d64
  | _ => none

/-- Code of the D of FENCE field (02 R48, R49). -/
def Scope.code : Scope → Nat
  | .ctx => 0
  | .core => 1
  | .die => 2
  | .pkg => 3
  | .grp => 4

/-- Reading of the D of FENCE field. -/
def Scope.ofCode : Nat → Option Scope
  | 0 => some .ctx
  | 1 => some .core
  | 2 => some .die
  | 3 => some .pkg
  | 4 => some .grp
  | _ => none

/-- Code of the D and A of XFENCE field (02 R48, R49). -/
def Path.code : Path → Nat
  | .ls => 0
  | .cp => 1
  | .mx => 2
  | .sv => 3
  | .fb => 4
  | .bk => 5

/-- Reading of the D and A of XFENCE field. -/
def Path.ofCode : Nat → Option Path
  | 0 => some .ls
  | 1 => some .cp
  | 2 => some .mx
  | 3 => some .sv
  | 4 => some .fb
  | 5 => some .bk
  | _ => none

/-- Code of the MF field (02 R48, R49). -/
def MF.code : MF → Nat
  | .bf16 => 0
  | .f16 => 1
  | .sb => 2

/-- Reading of the MF field. -/
def MF.ofCode : Nat → Option MF
  | 0 => some .bf16
  | 1 => some .f16
  | 2 => some .sb
  | _ => none

/-- Code of the RCM field (02 R48, R49). -/
def MMode.code : MMode → Nat
  | .classical => 0
  | .recombined => 1
  | .fallback => 2

/-- Reading of the RCM field. -/
def MMode.ofCode : Nat → Option MMode
  | 0 => some .classical
  | 1 => some .recombined
  | 2 => some .fallback
  | _ => none

/-- Code of the AS of MDRAIN field (02 R48, R49). -/
def OFmt.code : OFmt → Nat
  | .f32 => 0
  | .bf16 => 1
  | .f16 => 2

/-- Reading of the AS of MDRAIN field. -/
def OFmt.ofCode : Nat → Option OFmt
  | 0 => some .f32
  | 1 => some .bf16
  | 2 => some .f16
  | _ => none

/-- One bit as a field. -/
def boolCode (b : Bool) : Nat := if b then 1 else 0

/-- A word from its opcode and the sum of its placed fields (02 R47). -/
def mkW (op rest : Nat) : BitVec 32 := BitVec.ofNat 32 (op * 16777216 + rest)

/-- The encoding of an instruction; an event has none and gives zero. -/
def encode : Instr → BitVec 32
  | .add rd ra rb => mkW 0x1 (rd.toNat * 262144 + ra.toNat * 4096 + rb.toNat * 64)
  | .sub rd ra rb => mkW 0x2 (rd.toNat * 262144 + ra.toNat * 4096 + rb.toNat * 64)
  | .mul rd ra rb => mkW 0x3 (rd.toNat * 262144 + ra.toNat * 4096 + rb.toNat * 64)
  | .mulh rd ra rb => mkW 0x4 (rd.toNat * 262144 + ra.toNat * 4096 + rb.toNat * 64)
  | .mulhu rd ra rb => mkW 0x5 (rd.toNat * 262144 + ra.toNat * 4096 + rb.toNat * 64)
  | .div rd ra rb => mkW 0x6 (rd.toNat * 262144 + ra.toNat * 4096 + rb.toNat * 64)
  | .divu rd ra rb => mkW 0x7 (rd.toNat * 262144 + ra.toNat * 4096 + rb.toNat * 64)
  | .rem rd ra rb => mkW 0x8 (rd.toNat * 262144 + ra.toNat * 4096 + rb.toNat * 64)
  | .remu rd ra rb => mkW 0x9 (rd.toNat * 262144 + ra.toNat * 4096 + rb.toNat * 64)
  | .and rd ra rb => mkW 0xa (rd.toNat * 262144 + ra.toNat * 4096 + rb.toNat * 64)
  | .or rd ra rb => mkW 0xb (rd.toNat * 262144 + ra.toNat * 4096 + rb.toNat * 64)
  | .xor rd ra rb => mkW 0xc (rd.toNat * 262144 + ra.toNat * 4096 + rb.toNat * 64)
  | .andn rd ra rb => mkW 0xd (rd.toNat * 262144 + ra.toNat * 4096 + rb.toNat * 64)
  | .shl rd ra rb => mkW 0xe (rd.toNat * 262144 + ra.toNat * 4096 + rb.toNat * 64)
  | .shr rd ra rb => mkW 0xf (rd.toNat * 262144 + ra.toNat * 4096 + rb.toNat * 64)
  | .sra rd ra rb => mkW 0x10 (rd.toNat * 262144 + ra.toNat * 4096 + rb.toNat * 64)
  | .min rd ra rb => mkW 0x11 (rd.toNat * 262144 + ra.toNat * 4096 + rb.toNat * 64)
  | .max rd ra rb => mkW 0x12 (rd.toNat * 262144 + ra.toNat * 4096 + rb.toNat * 64)
  | .minu rd ra rb => mkW 0x13 (rd.toNat * 262144 + ra.toNat * 4096 + rb.toNat * 64)
  | .maxu rd ra rb => mkW 0x14 (rd.toNat * 262144 + ra.toNat * 4096 + rb.toNat * 64)
  | .cmp cc pd ra rb => mkW 0x15 (pd.toNat * 262144 + ra.toNat * 4096 + rb.toNat * 64 + cc.code)
  | .sel rd ra rb pc => mkW 0x16 (rd.toNat * 262144 + ra.toNat * 4096 + rb.toNat * 64 + pc.toNat)
  | .clz rd ra => mkW 0x17 (rd.toNat * 262144 + ra.toNat * 4096)
  | .ctz rd ra => mkW 0x18 (rd.toNat * 262144 + ra.toNat * 4096)
  | .popc rd ra => mkW 0x19 (rd.toNat * 262144 + ra.toNat * 4096)
  | .lea rd ra rb sh => mkW 0x1a (rd.toNat * 262144 + ra.toNat * 4096 + rb.toNat * 64 + sh.toNat)
  | .sext rd ra ew => mkW 0x1b (rd.toNat * 262144 + ra.toNat * 4096 + ew.code)
  | .zext rd ra ew => mkW 0x1c (rd.toNat * 262144 + ra.toNat * 4096 + ew.code)
  | .addi rd ra imm => mkW 0x20 (rd.toNat * 262144 + ra.toNat * 4096 + imm.toNat)
  | .andi rd ra imm => mkW 0x21 (rd.toNat * 262144 + ra.toNat * 4096 + imm.toNat)
  | .ori rd ra imm => mkW 0x22 (rd.toNat * 262144 + ra.toNat * 4096 + imm.toNat)
  | .xori rd ra imm => mkW 0x23 (rd.toNat * 262144 + ra.toNat * 4096 + imm.toNat)
  | .shli rd ra sh => mkW 0x24 (rd.toNat * 262144 + ra.toNat * 4096 + sh.toNat)
  | .shri rd ra sh => mkW 0x25 (rd.toNat * 262144 + ra.toNat * 4096 + sh.toNat)
  | .srai rd ra sh => mkW 0x26 (rd.toNat * 262144 + ra.toNat * 4096 + sh.toNat)
  | .movi rd imm => mkW 0x28 (rd.toNat * 262144 + imm.toNat)
  | .movhi rd hw imm => mkW 0x29 (rd.toNat * 262144 + hw.toNat * 65536 + imm.toNat)
  | .br off => mkW 0x40 (off.toNat)
  | .brc pc neg off => mkW 0x41 (pc.toNat * 1048576 + boolCode neg * 524288 + off.toNat)
  | .call rd off => mkW 0x42 (rd.toNat * 262144 + off.toNat)
  | .ret ra => mkW 0x43 (ra.toNat * 4096)
  | .bktj tbl ra => mkW 0x44 (ra.toNat * 4096 + tbl.toNat)
  | .bktset tbl ra => mkW 0x45 (ra.toNat * 4096 + tbl.toNat)
  | .waitt ra => mkW 0x48 (ra.toNat * 4096)
  | .waitany ra => mkW 0x49 (ra.toNat * 4096)
  | .ffrdy rd ra => mkW 0x4a (rd.toNat * 262144 + ra.toNat * 4096)
  | .rbwait ring => mkW 0x4b (ring.toNat)
  | .yield => mkW 0x4c (0)
  | .spawn ra => mkW 0x4d (ra.toNat * 4096)
  | .join ra => mkW 0x4e (ra.toNat * 4096)
  | .joinW ra => mkW 0x4e (ra.toNat * 4096 + 1)
  | .done => mkW 0x4f (0)
  | .trap imm => mkW 0x50 (imm.toNat)
  | .rfe => mkW 0x51 (0)
  | .mfs rd n => mkW 0x52 (rd.toNat * 262144 + n.toNat)
  | .mts n ra => mkW 0x53 (ra.toNat * 4096 + n.toNat)
  | .tagsWrite ra => mkW 0x53 (ra.toNat * 4096 + 1)
  | .fstatusWrite ra => mkW 0x53 (ra.toNat * 4096 + 2)
  | .fctlWrite ra => mkW 0x53 (ra.toNat * 4096 + 3)
  | .rowprogWrite ra => mkW 0x53 (ra.toNat * 4096 + 8)
  | .keyselGen ra => mkW 0x54 (ra.toNat * 4096)
  | .keyselKill ra => mkW 0x54 (ra.toNat * 4096 + 1)
  | .halt ra => mkW 0x55 (ra.toNat * 4096)
  | .ckwait => mkW 0x56 (0)
  | .vadd fmt rm vd va vb => mkW 0x1 (vd.toNat * 262144 + va.toNat * 4096 + vb.toNat * 64 + fmt.code * 8 + rm.code)
  | .vsub fmt rm vd va vb => mkW 0x2 (vd.toNat * 262144 + va.toNat * 4096 + vb.toNat * 64 + fmt.code * 8 + rm.code)
  | .vmul fmt rm vd va vb => mkW 0x3 (vd.toNat * 262144 + va.toNat * 4096 + vb.toNat * 64 + fmt.code * 8 + rm.code)
  | .vfma fmt rm vd va vb => mkW 0x4 (vd.toNat * 262144 + va.toNat * 4096 + vb.toNat * 64 + fmt.code * 8 + rm.code)
  | .vfms fmt rm vd va vb => mkW 0x5 (vd.toNat * 262144 + va.toNat * 4096 + vb.toNat * 64 + fmt.code * 8 + rm.code)
  | .vfnma fmt rm vd va vb => mkW 0x6 (vd.toNat * 262144 + va.toNat * 4096 + vb.toNat * 64 + fmt.code * 8 + rm.code)
  | .vmin fmt vd va vb => mkW 0x7 (vd.toNat * 262144 + va.toNat * 4096 + vb.toNat * 64 + fmt.code * 8)
  | .vmax fmt vd va vb => mkW 0x8 (vd.toNat * 262144 + va.toNat * 4096 + vb.toNat * 64 + fmt.code * 8)
  | .vabs fmt vd va => mkW 0x9 (vd.toNat * 262144 + va.toNat * 4096 + fmt.code * 8)
  | .vneg fmt vd va => mkW 0xa (vd.toNat * 262144 + va.toNat * 4096 + fmt.code * 8)
  | .vand vd va vb => mkW 0xb (vd.toNat * 262144 + va.toNat * 4096 + vb.toNat * 64 + 24)
  | .vor vd va vb => mkW 0xc (vd.toNat * 262144 + va.toNat * 4096 + vb.toNat * 64 + 24)
  | .vxor vd va vb => mkW 0xd (vd.toNat * 262144 + va.toNat * 4096 + vb.toNat * 64 + 24)
  | .vshl fmt vd va vb => mkW 0xe (vd.toNat * 262144 + va.toNat * 4096 + vb.toNat * 64 + fmt.code * 8)
  | .vshr fmt vd va vb => mkW 0xf (vd.toNat * 262144 + va.toNat * 4096 + vb.toNat * 64 + fmt.code * 8)
  | .vsra fmt vd va vb => mkW 0x10 (vd.toNat * 262144 + va.toNat * 4096 + vb.toNat * 64 + fmt.code * 8)
  | .vadds fmt vd va vb => mkW 0x11 (vd.toNat * 262144 + va.toNat * 4096 + vb.toNat * 64 + fmt.code * 8)
  | .vsubs fmt vd va vb => mkW 0x12 (vd.toNat * 262144 + va.toNat * 4096 + vb.toNat * 64 + fmt.code * 8)
  | .vcmp cc fmt pd va vb => mkW 0x13 (pd.toNat * 262144 + va.toNat * 4096 + vb.toNat * 64 + fmt.code * 8 + cc.code)
  | .vsel vd va vb pc => mkW 0x14 (vd.toNat * 262144 + va.toNat * 4096 + vb.toNat * 64 + pc.toNat * 4)
  | .vmov vd va => mkW 0x15 (vd.toNat * 262144 + va.toNat * 4096)
  | .vbcst vd ra => mkW 0x16 (vd.toNat * 262144 + ra.toNat * 4096)
  | .vext rd va rb => mkW 0x17 (rd.toNat * 262144 + va.toNat * 4096 + rb.toNat * 64)
  | .vins vd ra rb => mkW 0x18 (vd.toNat * 262144 + ra.toNat * 4096 + rb.toNat * 64)
  | .viota vd => mkW 0x19 (vd.toNat * 262144)
  | .vcvt fmt rm sfmt vd va => mkW 0x1a (vd.toNat * 262144 + va.toNat * 4096 + sfmt.code * 512 + fmt.code * 8 + rm.code)
  | .vcmpr vd va pb => mkW 0x1b (vd.toNat * 262144 + va.toNat * 4096 + pb.toNat * 64)
  | .vexpd vd va pb => mkW 0x1c (vd.toNat * 262144 + va.toNat * 4096 + pb.toNat * 64)
  | .vrsum fmt rm rd va pb => mkW 0x1d (rd.toNat * 262144 + va.toNat * 4096 + pb.toNat * 64 + fmt.code * 8 + rm.code)
  | .vrmax fmt rd va pb => mkW 0x1e (rd.toNat * 262144 + va.toNat * 4096 + pb.toNat * 64 + fmt.code * 8)
  | .vrmin fmt rd va pb => mkW 0x1f (rd.toNat * 262144 + va.toNat * 4096 + pb.toNat * 64 + fmt.code * 8)
  | .xcopy vd va rb => mkW 0x20 (vd.toNat * 262144 + va.toNat * 4096 + rb.toNat * 64)
  | .pand pd pa pb => mkW 0x28 (pd.toNat * 262144 + pa.toNat * 4096 + pb.toNat * 64)
  | .por pd pa pb => mkW 0x29 (pd.toNat * 262144 + pa.toNat * 4096 + pb.toNat * 64)
  | .pxor pd pa pb => mkW 0x2a (pd.toNat * 262144 + pa.toNat * 4096 + pb.toNat * 64)
  | .pandn pd pa pb => mkW 0x2b (pd.toNat * 262144 + pa.toNat * 4096 + pb.toNat * 64)
  | .pnot pd pa => mkW 0x2c (pd.toNat * 262144 + pa.toNat * 4096)
  | .pcnt rd pa => mkW 0x2d (rd.toNat * 262144 + pa.toNat * 4096)
  | .pfirst rd pa => mkW 0x2e (rd.toNat * 262144 + pa.toNat * 4096)
  | .exp2 fmt rm vd va => mkW 0x1 (vd.toNat * 262144 + va.toNat * 4096 + fmt.code * 8 + rm.code)
  | .log2 fmt rm vd va => mkW 0x2 (vd.toNat * 262144 + va.toNat * 4096 + fmt.code * 8 + rm.code)
  | .rcp fmt rm vd va => mkW 0x3 (vd.toNat * 262144 + va.toNat * 4096 + fmt.code * 8 + rm.code)
  | .rsq fmt rm vd va => mkW 0x4 (vd.toNat * 262144 + va.toNat * 4096 + fmt.code * 8 + rm.code)
  | .sin fmt rm vd va => mkW 0x5 (vd.toNat * 262144 + va.toNat * 4096 + fmt.code * 8 + rm.code)
  | .cos fmt rm vd va => mkW 0x6 (vd.toNat * 262144 + va.toNat * 4096 + fmt.code * 8 + rm.code)
  | .tanh fmt rm vd va => mkW 0x7 (vd.toNat * 262144 + va.toNat * 4096 + fmt.code * 8 + rm.code)
  | .erf fmt rm vd va => mkW 0x8 (vd.toNat * 262144 + va.toNat * 4096 + fmt.code * 8 + rm.code)
  | .rnd fmt vd => mkW 0x9 (vd.toNat * 262144 + fmt.code * 8)
  | .seed ra => mkW 0xa (ra.toNat * 4096)
  | .cxs kf desc vd va j db => mkW 0x1 (vd.toNat * 262144 + va.toNat * 4096 + db.toNat * 64 + j.toNat * 8 + boolCode desc * 4 + kf.code)
  | .cxsi kf desc vd va j db => mkW 0x2 (vd.toNat * 262144 + va.toNat * 4096 + db.toNat * 64 + j.toNat * 8 + boolCode desc * 4 + kf.code)
  | .vmaxi kf rd va pb => mkW 0x3 (rd.toNat * 262144 + va.toNat * 4096 + pb.toNat * 64 + kf.code)
  | .vmini kf rd va pb => mkW 0x4 (rd.toNat * 262144 + va.toNat * 4096 + pb.toNat * 64 + kf.code)
  | .vnormsel kf vd va pb j => mkW 0x5 (vd.toNat * 262144 + va.toNat * 4096 + pb.toNat * 64 + j.toNat * 8 + kf.code)
  | .ld sz ep na rd ra off => mkW 0x1 (rd.toNat * 262144 + ra.toNat * 4096 + off.toNat * 64 + sz.code * 8 + ep.toNat * 2 + boolCode na)
  | .ldS sz ep na rd ra off => mkW 0x2 (rd.toNat * 262144 + ra.toNat * 4096 + off.toNat * 64 + sz.code * 8 + ep.toNat * 2 + boolCode na)
  | .st sz ep na rd ra off => mkW 0x3 (rd.toNat * 262144 + ra.toNat * 4096 + off.toNat * 64 + sz.code * 8 + ep.toNat * 2 + boolCode na)
  | .stS sz ep na rd ra off => mkW 0x4 (rd.toNat * 262144 + ra.toNat * 4096 + off.toNat * 64 + sz.code * 8 + ep.toNat * 2 + boolCode na)
  | .vld fmt ep na vd ra off => mkW 0x5 (vd.toNat * 262144 + ra.toNat * 4096 + off.toNat * 64 + fmt.code * 8 + ep.toNat * 2 + boolCode na)
  | .vldS fmt ep na vd ra off => mkW 0x6 (vd.toNat * 262144 + ra.toNat * 4096 + off.toNat * 64 + fmt.code * 8 + ep.toNat * 2 + boolCode na)
  | .vst fmt ep na vd ra off => mkW 0x7 (vd.toNat * 262144 + ra.toNat * 4096 + off.toNat * 64 + fmt.code * 8 + ep.toNat * 2 + boolCode na)
  | .vstS fmt ep na vd ra off => mkW 0x8 (vd.toNat * 262144 + ra.toNat * 4096 + off.toNat * 64 + fmt.code * 8 + ep.toNat * 2 + boolCode na)
  | .ldf rd ra off => mkW 0x9 (rd.toNat * 262144 + ra.toNat * 4096 + off.toNat * 64)
  | .ste rd ra off => mkW 0xa (rd.toNat * 262144 + ra.toNat * 4096 + off.toNat * 64)
  | .preft tag ra off ep => mkW 0xb (tag.toNat * 262144 + ra.toNat * 4096 + off.toNat * 64 + ep.toNat * 2)
  | .pin win ra rb => mkW 0xc (win.toNat * 262144 + ra.toNat * 4096 + rb.toNat * 64)
  | .unpin win => mkW 0xd (win.toNat * 262144)
  | .phase ra rb => mkW 0xe (ra.toNat * 4096 + rb.toNat * 64)
  | .qalign => mkW 0xf (0)
  | .fence sc => mkW 0x10 (sc.code * 262144)
  | .xfence pf pt => mkW 0x11 (pf.code * 262144 + pt.code * 4096)
  | .qpop vd q => mkW 0x12 (vd.toNat * 262144 + q.toNat * 4096)
  | .rbrel ring => mkW 0x13 (ring.toNat)
  | .aadd sz rd ra rb => mkW 0x20 (rd.toNat * 262144 + ra.toNat * 4096 + rb.toNat * 64 + sz.code * 16)
  | .aand sz rd ra rb => mkW 0x21 (rd.toNat * 262144 + ra.toNat * 4096 + rb.toNat * 64 + sz.code * 16)
  | .aor sz rd ra rb => mkW 0x22 (rd.toNat * 262144 + ra.toNat * 4096 + rb.toNat * 64 + sz.code * 16)
  | .axor sz rd ra rb => mkW 0x23 (rd.toNat * 262144 + ra.toNat * 4096 + rb.toNat * 64 + sz.code * 16)
  | .amin sz rd ra rb => mkW 0x24 (rd.toNat * 262144 + ra.toNat * 4096 + rb.toNat * 64 + sz.code * 16)
  | .amax sz rd ra rb => mkW 0x25 (rd.toNat * 262144 + ra.toNat * 4096 + rb.toNat * 64 + sz.code * 16)
  | .aswp sz rd ra rb => mkW 0x26 (rd.toNat * 262144 + ra.toNat * 4096 + rb.toNat * 64 + sz.code * 16)
  | .cas sz rd ra rb => mkW 0x27 (rd.toNat * 262144 + ra.toNat * 4096 + rb.toNat * 64 + sz.code * 16)
  | .afadd rd ra rb => mkW 0x28 (rd.toNat * 262144 + ra.toNat * 4096 + rb.toNat * 64)
  | .ared op ra rb rv => mkW 0x29 (rv.toNat * 262144 + ra.toNat * 4096 + rb.toNat * 64 + op.toNat)
  | .loop ra imm => mkW 0x1 (ra.toNat * 16384 + imm.toNat)
  | .replay s ra imm => mkW 0x2 (s.toNat * 1048576 + ra.toNat * 16384 + imm.toNat)
  | .aset ad ra imm => mkW 0x3 (ad.toNat * 1048576 + ra.toNat * 16384 + imm.toNat)
  | .ainc rd ad imm => mkW 0x4 (ad.toNat * 1048576 + rd.toNat * 16384 + imm.toNat)
  | .astr ad ra lvl => mkW 0x5 (ad.toNat * 1048576 + ra.toNat * 16384 + lvl.toNat)
  | .scl e ra c => mkW 0x6 (e.toNat * 1048576 + ra.toNat * 16384 + c.toNat)
  | .mma mf td ra rb n => mkW 0x1 (td.toNat * 1048576 + ra.toNat * 4096 + rb.toNat * 64 + n.toNat * 4 + mf.code)
  | .mmr mf mode td ra rb => mkW 0x2 (td.toNat * 1048576 + mode.code * 262144 + ra.toNat * 4096 + rb.toNat * 64 + mf.code)
  | .mload td ra => mkW 0x3 (td.toNat * 1048576 + ra.toNat * 4096)
  | .mdrain of_ clr q td => mkW 0x4 (td.toNat * 1048576 + q.toNat * 4096 + boolCode clr * 64 + of_.code * 4)
  | .mzero td n => mkW 0x5 (td.toNat * 1048576 + n.toNat * 4)
  | .mxsave ra => mkW 0x6 (ra.toNat * 4096)
  | .mxrest ra => mkW 0x7 (ra.toNat * 4096)
  | .mtalloc n m => mkW 0x8 (n.toNat * 1048576 + m.toNat * 4)
  | .mtfree => mkW 0x9 (0)
  | .cpy dr sr ra rb tag => mkW 0x10 (ra.toNat * 262144 + rb.toNat * 4096 + boolCode sr * 128 + boolCode dr * 64 + tag.toNat)
  | .cpym ra rb rc tag => mkW 0x11 (ra.toNat * 262144 + rb.toNat * 4096 + rc.toNat * 64 + tag.toNat)
  | .cpyr op ra rb tag => mkW 0x12 (ra.toNat * 262144 + rb.toNat * 4096 + op.toNat * 64 + tag.toNat)
  | .rbinit ring ra rb => mkW 0x13 (ra.toNat * 262144 + rb.toNat * 4096 + ring.toNat)
  | .svinit ra rb tag => mkW 0x20 (ra.toNat * 262144 + rb.toNat * 4096 + tag.toNat)
  | .svapply ra rb tag => mkW 0x21 (ra.toNat * 262144 + rb.toNat * 4096 + tag.toNat)
  | .svdiag ra rb tag => mkW 0x22 (ra.toNat * 262144 + rb.toNat * 4096 + tag.toNat)
  | .svprob ra rb rc tag => mkW 0x23 (ra.toNat * 262144 + rb.toNat * 4096 + rc.toNat * 64 + tag.toNat)
  | .svnorm ra rb tag => mkW 0x24 (ra.toNat * 262144 + rb.toNat * 4096 + tag.toNat)
  | .svmap ra rb tag => mkW 0x25 (ra.toNat * 262144 + rb.toNat * 4096 + tag.toNat)
  | .fsend ra rb tag => mkW 0x30 (ra.toNat * 262144 + rb.toNat * 4096 + tag.toNat)
  | .frecv ra rb tag => mkW 0x31 (ra.toNat * 262144 + rb.toNat * 4096 + tag.toNat)
  | .fput ra rb tag => mkW 0x32 (ra.toNat * 262144 + rb.toNat * 4096 + tag.toNat)
  | .fputS ra rb tag => mkW 0x33 (ra.toNat * 262144 + rb.toNat * 4096 + tag.toNat)
  | .fputR op ra rb tag => mkW 0x34 (ra.toNat * 262144 + rb.toNat * 4096 + op.toNat * 64 + tag.toNat)
  | .fget ra rb tag => mkW 0x35 (ra.toNat * 262144 + rb.toNat * 4096 + tag.toNat)
  | .fexpect clr ra rb tag => mkW 0x36 (ra.toNat * 262144 + rb.toNat * 4096 + boolCode clr * 64 + tag.toNat)
  | .fport ra rb tag => mkW 0x37 (ra.toNat * 262144 + rb.toNat * 4096 + tag.toNat)
  | .froute rd rb port => mkW 0x38 (rd.toNat * 262144 + rb.toNat * 4096 + boolCode port * 64)
  | .coll ra tag => mkW 0x40 (ra.toNat * 262144 + tag.toNat)
  | .collw ra => mkW 0x41 (ra.toNat * 262144)
  | .agb pc rb => mkW 0x42 (pc.toNat * 262144 + rb.toNat * 4096)
  | .agbx ra rb => mkW 0x43 (ra.toNat * 262144 + rb.toNat * 4096)
  | .agwait => mkW 0x44 (0)
  | .barr rb tag => mkW 0x45 (rb.toNat * 4096 + tag.toNat)
  | .tlbi ra rb tag => mkW 0x50 (ra.toNat * 262144 + rb.toNat * 4096 + tag.toNat)
  | .ckpt ra tag => mkW 0x51 (ra.toNat * 262144 + tag.toNat)
  | .aaddH sz rd ra rb => mkW 0x60 (rd.toNat * 262144 + ra.toNat * 4096 + rb.toNat * 64 + sz.code * 16)
  | .aandH sz rd ra rb => mkW 0x61 (rd.toNat * 262144 + ra.toNat * 4096 + rb.toNat * 64 + sz.code * 16)
  | .aorH sz rd ra rb => mkW 0x62 (rd.toNat * 262144 + ra.toNat * 4096 + rb.toNat * 64 + sz.code * 16)
  | .axorH sz rd ra rb => mkW 0x63 (rd.toNat * 262144 + ra.toNat * 4096 + rb.toNat * 64 + sz.code * 16)
  | .aminH sz rd ra rb => mkW 0x64 (rd.toNat * 262144 + ra.toNat * 4096 + rb.toNat * 64 + sz.code * 16)
  | .amaxH sz rd ra rb => mkW 0x65 (rd.toNat * 262144 + ra.toNat * 4096 + rb.toNat * 64 + sz.code * 16)
  | .aswpH sz rd ra rb => mkW 0x66 (rd.toNat * 262144 + ra.toNat * 4096 + rb.toNat * 64 + sz.code * 16)
  | .casH sz rd ra rb => mkW 0x67 (rd.toNat * 262144 + ra.toNat * 4096 + rb.toNat * 64 + sz.code * 16)
  | .afaddH rd ra rb => mkW 0x68 (rd.toNat * 262144 + ra.toNat * 4096 + rb.toNat * 64)
  | .aredH op ra rb rv => mkW 0x69 (rv.toNat * 262144 + ra.toNat * 4096 + rb.toNat * 64 + op.toNat)
  | .bundleIssue .. => 0#32
  | .lsAccessPerformed .. => 0#32
  | .bankAtomicPerformed .. => 0#32
  | .bktsetDataArrival .. => 0#32
  | .preemption .. => 0#32
  | .frecvCopyComplete .. => 0#32
  | .watchdogExpiry .. => 0#32
  | .prefetchComplete .. => 0#32
  | .ringSlotClaim .. => 0#32
  | .copyPageReach .. => 0#32
  | .cpymLanding .. => 0#32
  | .copyComplete .. => 0#32
  | .matrixAllocGrant .. => 0#32
  | .matrixCommandComplete .. => 0#32
  | .matrixLineFetch .. => 0#32
  | .matrixCommandStart .. => 0#32
  | .recordPop .. => 0#32
  | .eddyCommandComplete .. => 0#32
  | .exchangeData .. => 0#32
  | .eddyCommandStart .. => 0#32
  | .collectiveStart .. => 0#32
  | .barrArrivalSend .. => 0#32
  | .ckptComplete .. => 0#32
  | .phaseDrainEnd .. => 0#32
  | .budgetPeriod .. => 0#32
  | .serviceRingPoll .. => 0#32
  | .packetArrival .. => 0#32
  | .tlbiComplete .. => 0#32
  | .openNoticeArrival .. => 0#32
  | .planStepArrival .. => 0#32
  | .abortNoticeArrival .. => 0#32
  | .barrArrivalReceive .. => 0#32
  | .huddleContributionArrival .. => 0#32
  | .huddleOutcomeArrival .. => 0#32
  | .voidRequestArrival .. => 0#32
  | .fabricSlotBoundary .. => 0#32
  | .ackArrival .. => 0#32
  | .staleNotice .. => 0#32
  | .authFailNotice .. => 0#32
  | .exchangeHandshake .. => 0#32
  | .registerWriteback .. => 0#32
  | .loadDataReturn .. => 0#32
  | .quantumExpiry .. => 0#32
  | .budgetExhausted .. => 0#32
  | .trapEntry .. => 0#32
  | .pinLineFetch .. => 0#32
  | .framingReceived .. => 0#32
  | .ringSaturation .. => 0#32
  | .dataWindowStart .. => 0#32
  | .heldPacketTimeout .. => 0#32
  | .staleRetransmitTimeout .. => 0#32
  | .routeWaitTimeout .. => 0#32
  | .frecvTimeout .. => 0#32
  | .wakeHint .. => 0#32
  | .collectiveTimeout .. => 0#32
  | .memberLostReport .. => 0#32
  | .huddleTimeout .. => 0#32
  | .outcomeResend .. => 0#32
  | .linkKeyInstall .. => 0#32
  | .powerOn .. => 0#32
  | .bootRetry .. => 0#32
  | .pkgreset => 0#32
  | .hqprod .. => 0#32
  | .bar0RegisterWrite .. => 0#32
  | .functionLevelReset => 0#32
  | .currentLimit .. => 0#32
  | .thermalThrottle .. => 0#32
  | .thermalTrip .. => 0#32
  | .ringHeatWrite .. => 0#32
  | .createRegion .. => 0#32
  | .changeRegion .. => 0#32
  | .makeRunnable .. => 0#32
  | .makeNotRunnable .. => 0#32
  | .destroyRegion .. => 0#32
  | .bindKernel .. => 0#32
  | .pushRecords .. => 0#32
  | .handlerVector .. => 0#32
  | .breakpoint .. => 0#32
  | .routeTable .. => 0#32
  | .groupEntry .. => 0#32
  | .assignKeySlot .. => 0#32
  | .reclaimKeySlot .. => 0#32
  | .pageTableRoot .. => 0#32
  | .frameOwner .. => 0#32
  | .cisternAllotment .. => 0#32
  | .attest .. => 0#32
  | .readRingStatus .. => 0#32
  | .registerServiceRing .. => 0#32
  | .withdrawServiceRing .. => 0#32
  | .framingLost .. => 0#32
  | .softError .. => 0#32
  | .exchangePartnerTimeout .. => 0#32

/-- The field of a word of n bits from bit lo, as a number. -/
def fN (w : BitVec 32) (lo n : Nat) : Nat := w.toNat / 2 ^ lo % 2 ^ n

/-- The field of a word of n bits from bit lo. -/
def fB (w : BitVec 32) (lo n : Nat) : BitVec n := BitVec.ofNat n (fN w lo n)

/-- The bit of a word at lo. -/
def fT (w : BitVec 32) (lo : Nat) : Bool := fN w lo 1 == 1

/-- The instruction that the fields of a word name in this opcode space (R51). -/
def candScalar (w : BitVec 32) : Option Instr :=
  match fN w 24 8 with
  | 0x1 => some (.add (fB w 18 6) (fB w 12 6) (fB w 6 6))
  | 0x2 => some (.sub (fB w 18 6) (fB w 12 6) (fB w 6 6))
  | 0x3 => some (.mul (fB w 18 6) (fB w 12 6) (fB w 6 6))
  | 0x4 => some (.mulh (fB w 18 6) (fB w 12 6) (fB w 6 6))
  | 0x5 => some (.mulhu (fB w 18 6) (fB w 12 6) (fB w 6 6))
  | 0x6 => some (.div (fB w 18 6) (fB w 12 6) (fB w 6 6))
  | 0x7 => some (.divu (fB w 18 6) (fB w 12 6) (fB w 6 6))
  | 0x8 => some (.rem (fB w 18 6) (fB w 12 6) (fB w 6 6))
  | 0x9 => some (.remu (fB w 18 6) (fB w 12 6) (fB w 6 6))
  | 0xa => some (.and (fB w 18 6) (fB w 12 6) (fB w 6 6))
  | 0xb => some (.or (fB w 18 6) (fB w 12 6) (fB w 6 6))
  | 0xc => some (.xor (fB w 18 6) (fB w 12 6) (fB w 6 6))
  | 0xd => some (.andn (fB w 18 6) (fB w 12 6) (fB w 6 6))
  | 0xe => some (.shl (fB w 18 6) (fB w 12 6) (fB w 6 6))
  | 0xf => some (.shr (fB w 18 6) (fB w 12 6) (fB w 6 6))
  | 0x10 => some (.sra (fB w 18 6) (fB w 12 6) (fB w 6 6))
  | 0x11 => some (.min (fB w 18 6) (fB w 12 6) (fB w 6 6))
  | 0x12 => some (.max (fB w 18 6) (fB w 12 6) (fB w 6 6))
  | 0x13 => some (.minu (fB w 18 6) (fB w 12 6) (fB w 6 6))
  | 0x14 => some (.maxu (fB w 18 6) (fB w 12 6) (fB w 6 6))
  | 0x15 => (Cond.ofCode (fN w 0 6)).bind fun cc => some (.cmp cc (fB w 18 4) (fB w 12 6) (fB w 6 6))
  | 0x16 => some (.sel (fB w 18 6) (fB w 12 6) (fB w 6 6) (fB w 0 4))
  | 0x17 => some (.clz (fB w 18 6) (fB w 12 6))
  | 0x18 => some (.ctz (fB w 18 6) (fB w 12 6))
  | 0x19 => some (.popc (fB w 18 6) (fB w 12 6))
  | 0x1a => some (.lea (fB w 18 6) (fB w 12 6) (fB w 6 6) (fB w 0 2))
  | 0x1b => (ExtW.ofCode (fN w 0 6)).bind fun ew => some (.sext (fB w 18 6) (fB w 12 6) ew)
  | 0x1c => (ExtW.ofCode (fN w 0 6)).bind fun ew => some (.zext (fB w 18 6) (fB w 12 6) ew)
  | 0x20 => some (.addi (fB w 18 6) (fB w 12 6) (fB w 0 12))
  | 0x21 => some (.andi (fB w 18 6) (fB w 12 6) (fB w 0 12))
  | 0x22 => some (.ori (fB w 18 6) (fB w 12 6) (fB w 0 12))
  | 0x23 => some (.xori (fB w 18 6) (fB w 12 6) (fB w 0 12))
  | 0x24 => some (.shli (fB w 18 6) (fB w 12 6) (fB w 0 6))
  | 0x25 => some (.shri (fB w 18 6) (fB w 12 6) (fB w 0 6))
  | 0x26 => some (.srai (fB w 18 6) (fB w 12 6) (fB w 0 6))
  | 0x28 => some (.movi (fB w 18 6) (fB w 0 18))
  | 0x29 => some (.movhi (fB w 18 6) (fB w 16 2) (fB w 0 16))
  | _ => none

/-- The instruction that the fields of a word name in this opcode space (R52). -/
def candControl (w : BitVec 32) : Option Instr :=
  match fN w 24 8 with
  | 0x40 => some (.br (fB w 0 19))
  | 0x41 => some (.brc (fB w 20 4) (fT w 19) (fB w 0 19))
  | 0x42 => some (.call (fB w 18 6) (fB w 0 18))
  | 0x43 => some (.ret (fB w 12 6))
  | 0x44 => some (.bktj (fB w 0 2) (fB w 12 6))
  | 0x45 => some (.bktset (fB w 0 2) (fB w 12 6))
  | 0x48 => some (.waitt (fB w 12 6))
  | 0x49 => some (.waitany (fB w 12 6))
  | 0x4a => some (.ffrdy (fB w 18 6) (fB w 12 6))
  | 0x4b => some (.rbwait (fB w 0 5))
  | 0x4c => some .yield
  | 0x4d => some (.spawn (fB w 12 6))
  | 0x4e => if fN w 0 6 = 1 then some (.joinW (fB w 12 6)) else some (.join (fB w 12 6))
  | 0x4f => some .done
  | 0x50 => some (.trap (fB w 0 18))
  | 0x51 => some .rfe
  | 0x52 => some (.mfs (fB w 18 6) (fB w 0 12))
  | 0x53 =>
    match fN w 0 12 with
    | 1 => some (.tagsWrite (fB w 12 6))
    | 2 => some (.fstatusWrite (fB w 12 6))
    | 3 => some (.fctlWrite (fB w 12 6))
    | 8 => some (.rowprogWrite (fB w 12 6))
    | _ => some (.mts (fB w 0 12) (fB w 12 6))
  | 0x54 => if fN w 0 6 = 1 then some (.keyselKill (fB w 12 6)) else some (.keyselGen (fB w 12 6))
  | 0x55 => some (.halt (fB w 12 6))
  | 0x56 => some .ckwait
  | _ => none

/-- The instruction that the fields of a word name in this opcode space (R53). -/
def candVector (w : BitVec 32) : Option Instr :=
  match fN w 24 8 with
  | 0x1 => (Fmt.ofCode (fN w 3 3)).bind fun fmt => (RM.ofCode (fN w 0 3)).bind fun rm => some (.vadd fmt rm (fB w 18 6) (fB w 12 6) (fB w 6 6))
  | 0x2 => (Fmt.ofCode (fN w 3 3)).bind fun fmt => (RM.ofCode (fN w 0 3)).bind fun rm => some (.vsub fmt rm (fB w 18 6) (fB w 12 6) (fB w 6 6))
  | 0x3 => (Fmt.ofCode (fN w 3 3)).bind fun fmt => (RM.ofCode (fN w 0 3)).bind fun rm => some (.vmul fmt rm (fB w 18 6) (fB w 12 6) (fB w 6 6))
  | 0x4 => (Fmt.ofCode (fN w 3 3)).bind fun fmt => (RM.ofCode (fN w 0 3)).bind fun rm => some (.vfma fmt rm (fB w 18 6) (fB w 12 6) (fB w 6 6))
  | 0x5 => (Fmt.ofCode (fN w 3 3)).bind fun fmt => (RM.ofCode (fN w 0 3)).bind fun rm => some (.vfms fmt rm (fB w 18 6) (fB w 12 6) (fB w 6 6))
  | 0x6 => (Fmt.ofCode (fN w 3 3)).bind fun fmt => (RM.ofCode (fN w 0 3)).bind fun rm => some (.vfnma fmt rm (fB w 18 6) (fB w 12 6) (fB w 6 6))
  | 0x7 => (Fmt.ofCode (fN w 3 3)).bind fun fmt => some (.vmin fmt (fB w 18 6) (fB w 12 6) (fB w 6 6))
  | 0x8 => (Fmt.ofCode (fN w 3 3)).bind fun fmt => some (.vmax fmt (fB w 18 6) (fB w 12 6) (fB w 6 6))
  | 0x9 => (Fmt.ofCode (fN w 3 3)).bind fun fmt => some (.vabs fmt (fB w 18 6) (fB w 12 6))
  | 0xa => (Fmt.ofCode (fN w 3 3)).bind fun fmt => some (.vneg fmt (fB w 18 6) (fB w 12 6))
  | 0xb => some (.vand (fB w 18 6) (fB w 12 6) (fB w 6 6))
  | 0xc => some (.vor (fB w 18 6) (fB w 12 6) (fB w 6 6))
  | 0xd => some (.vxor (fB w 18 6) (fB w 12 6) (fB w 6 6))
  | 0xe => (IFmt.ofCode (fN w 3 3)).bind fun fmt => some (.vshl fmt (fB w 18 6) (fB w 12 6) (fB w 6 6))
  | 0xf => (IFmt.ofCode (fN w 3 3)).bind fun fmt => some (.vshr fmt (fB w 18 6) (fB w 12 6) (fB w 6 6))
  | 0x10 => (IFmt.ofCode (fN w 3 3)).bind fun fmt => some (.vsra fmt (fB w 18 6) (fB w 12 6) (fB w 6 6))
  | 0x11 => (IFmt.ofCode (fN w 3 3)).bind fun fmt => some (.vadds fmt (fB w 18 6) (fB w 12 6) (fB w 6 6))
  | 0x12 => (IFmt.ofCode (fN w 3 3)).bind fun fmt => some (.vsubs fmt (fB w 18 6) (fB w 12 6) (fB w 6 6))
  | 0x13 => (VCond.ofCode (fN w 0 3)).bind fun cc => (Fmt.ofCode (fN w 3 3)).bind fun fmt => some (.vcmp cc fmt (fB w 18 4) (fB w 12 6) (fB w 6 6))
  | 0x14 => some (.vsel (fB w 18 6) (fB w 12 6) (fB w 6 6) (fB w 2 4))
  | 0x15 => some (.vmov (fB w 18 6) (fB w 12 6))
  | 0x16 => some (.vbcst (fB w 18 6) (fB w 12 6))
  | 0x17 => some (.vext (fB w 18 6) (fB w 12 6) (fB w 6 6))
  | 0x18 => some (.vins (fB w 18 6) (fB w 12 6) (fB w 6 6))
  | 0x19 => some (.viota (fB w 18 6))
  | 0x1a => (Fmt.ofCode (fN w 3 3)).bind fun fmt => (RM.ofCode (fN w 0 3)).bind fun rm => (Fmt.ofCode (fN w 9 3)).bind fun sfmt => some (.vcvt fmt rm sfmt (fB w 18 6) (fB w 12 6))
  | 0x1b => some (.vcmpr (fB w 18 6) (fB w 12 6) (fB w 6 4))
  | 0x1c => some (.vexpd (fB w 18 6) (fB w 12 6) (fB w 6 4))
  | 0x1d => (Fmt.ofCode (fN w 3 3)).bind fun fmt => (RM.ofCode (fN w 0 3)).bind fun rm => some (.vrsum fmt rm (fB w 18 6) (fB w 12 6) (fB w 6 4))
  | 0x1e => (Fmt.ofCode (fN w 3 3)).bind fun fmt => some (.vrmax fmt (fB w 18 6) (fB w 12 6) (fB w 6 4))
  | 0x1f => (Fmt.ofCode (fN w 3 3)).bind fun fmt => some (.vrmin fmt (fB w 18 6) (fB w 12 6) (fB w 6 4))
  | 0x28 => some (.pand (fB w 18 4) (fB w 12 4) (fB w 6 4))
  | 0x29 => some (.por (fB w 18 4) (fB w 12 4) (fB w 6 4))
  | 0x2a => some (.pxor (fB w 18 4) (fB w 12 4) (fB w 6 4))
  | 0x2b => some (.pandn (fB w 18 4) (fB w 12 4) (fB w 6 4))
  | 0x2c => some (.pnot (fB w 18 4) (fB w 12 4))
  | 0x2d => some (.pcnt (fB w 18 6) (fB w 12 4))
  | 0x2e => some (.pfirst (fB w 18 6) (fB w 12 4))
  | _ => none

/-- The instruction that the fields of a word name in this opcode space (R53). -/
def candCross (w : BitVec 32) : Option Instr :=
  match fN w 24 8 with
  | 0x20 => some (.xcopy (fB w 18 6) (fB w 12 6) (fB w 6 6))
  | _ => none

/-- The instruction that the fields of a word name in this opcode space (R54). -/
def candSpecial (w : BitVec 32) : Option Instr :=
  match fN w 24 8 with
  | 0x1 => (Fmt.ofCode (fN w 3 3)).bind fun fmt => (RM.ofCode (fN w 0 3)).bind fun rm => some (.exp2 fmt rm (fB w 18 6) (fB w 12 6))
  | 0x2 => (Fmt.ofCode (fN w 3 3)).bind fun fmt => (RM.ofCode (fN w 0 3)).bind fun rm => some (.log2 fmt rm (fB w 18 6) (fB w 12 6))
  | 0x3 => (Fmt.ofCode (fN w 3 3)).bind fun fmt => (RM.ofCode (fN w 0 3)).bind fun rm => some (.rcp fmt rm (fB w 18 6) (fB w 12 6))
  | 0x4 => (Fmt.ofCode (fN w 3 3)).bind fun fmt => (RM.ofCode (fN w 0 3)).bind fun rm => some (.rsq fmt rm (fB w 18 6) (fB w 12 6))
  | 0x5 => (Fmt.ofCode (fN w 3 3)).bind fun fmt => (RM.ofCode (fN w 0 3)).bind fun rm => some (.sin fmt rm (fB w 18 6) (fB w 12 6))
  | 0x6 => (Fmt.ofCode (fN w 3 3)).bind fun fmt => (RM.ofCode (fN w 0 3)).bind fun rm => some (.cos fmt rm (fB w 18 6) (fB w 12 6))
  | 0x7 => (Fmt.ofCode (fN w 3 3)).bind fun fmt => (RM.ofCode (fN w 0 3)).bind fun rm => some (.tanh fmt rm (fB w 18 6) (fB w 12 6))
  | 0x8 => (Fmt.ofCode (fN w 3 3)).bind fun fmt => (RM.ofCode (fN w 0 3)).bind fun rm => some (.erf fmt rm (fB w 18 6) (fB w 12 6))
  | 0x9 => (Fmt.ofCode (fN w 3 3)).bind fun fmt => some (.rnd fmt (fB w 18 6))
  | 0xa => some (.seed (fB w 12 6))
  | _ => none

/-- The instruction that the fields of a word name in this opcode space (R54). -/
def candSort (w : BitVec 32) : Option Instr :=
  match fN w 24 8 with
  | 0x1 => (KF.ofCode (fN w 0 2)).bind fun kf => some (.cxs kf (fT w 2) (fB w 18 6) (fB w 12 6) (fB w 3 3) (fB w 6 3))
  | 0x2 => (KF.ofCode (fN w 0 2)).bind fun kf => some (.cxsi kf (fT w 2) (fB w 18 6) (fB w 12 6) (fB w 3 3) (fB w 6 3))
  | 0x3 => (KF.ofCode (fN w 0 2)).bind fun kf => some (.vmaxi kf (fB w 18 6) (fB w 12 6) (fB w 6 4))
  | 0x4 => (KF.ofCode (fN w 0 2)).bind fun kf => some (.vmini kf (fB w 18 6) (fB w 12 6) (fB w 6 4))
  | 0x5 => (KF.ofCode (fN w 0 2)).bind fun kf => some (.vnormsel kf (fB w 18 6) (fB w 12 6) (fB w 6 4) (fB w 3 3))
  | _ => none

/-- The instruction that the fields of a word name in this opcode space (R55). -/
def candMemory (w : BitVec 32) : Option Instr :=
  match fN w 24 8 with
  | 0x1 => (Size.ofCode (fN w 3 3)).bind fun sz => some (.ld sz (fB w 1 2) (fT w 0) (fB w 18 6) (fB w 12 6) (fB w 6 6))
  | 0x2 => (Size.ofCode (fN w 3 3)).bind fun sz => some (.ldS sz (fB w 1 2) (fT w 0) (fB w 18 6) (fB w 12 6) (fB w 6 6))
  | 0x3 => (Size.ofCode (fN w 3 3)).bind fun sz => some (.st sz (fB w 1 2) (fT w 0) (fB w 18 6) (fB w 12 6) (fB w 6 6))
  | 0x4 => (Size.ofCode (fN w 3 3)).bind fun sz => some (.stS sz (fB w 1 2) (fT w 0) (fB w 18 6) (fB w 12 6) (fB w 6 6))
  | 0x5 => (Fmt.ofCode (fN w 3 3)).bind fun fmt => some (.vld fmt (fB w 1 2) (fT w 0) (fB w 18 6) (fB w 12 6) (fB w 6 6))
  | 0x6 => (Fmt.ofCode (fN w 3 3)).bind fun fmt => some (.vldS fmt (fB w 1 2) (fT w 0) (fB w 18 6) (fB w 12 6) (fB w 6 6))
  | 0x7 => (Fmt.ofCode (fN w 3 3)).bind fun fmt => some (.vst fmt (fB w 1 2) (fT w 0) (fB w 18 6) (fB w 12 6) (fB w 6 6))
  | 0x8 => (Fmt.ofCode (fN w 3 3)).bind fun fmt => some (.vstS fmt (fB w 1 2) (fT w 0) (fB w 18 6) (fB w 12 6) (fB w 6 6))
  | 0x9 => some (.ldf (fB w 18 6) (fB w 12 6) (fB w 6 6))
  | 0xa => some (.ste (fB w 18 6) (fB w 12 6) (fB w 6 6))
  | 0xb => some (.preft (fB w 18 6) (fB w 12 6) (fB w 6 6) (fB w 1 2))
  | 0xc => some (.pin (fB w 18 3) (fB w 12 6) (fB w 6 6))
  | 0xd => some (.unpin (fB w 18 3))
  | 0xe => some (.phase (fB w 12 6) (fB w 6 6))
  | 0xf => some .qalign
  | 0x10 => (Scope.ofCode (fN w 18 6)).bind fun sc => some (.fence sc)
  | 0x11 => (Path.ofCode (fN w 18 6)).bind fun pf => (Path.ofCode (fN w 12 6)).bind fun pt => some (.xfence pf pt)
  | 0x12 => some (.qpop (fB w 18 6) (fB w 12 3))
  | 0x13 => some (.rbrel (fB w 0 5))
  | 0x20 => (ASize.ofCode (fN w 4 2)).bind fun sz => some (.aadd sz (fB w 18 6) (fB w 12 6) (fB w 6 6))
  | 0x21 => (ASize.ofCode (fN w 4 2)).bind fun sz => some (.aand sz (fB w 18 6) (fB w 12 6) (fB w 6 6))
  | 0x22 => (ASize.ofCode (fN w 4 2)).bind fun sz => some (.aor sz (fB w 18 6) (fB w 12 6) (fB w 6 6))
  | 0x23 => (ASize.ofCode (fN w 4 2)).bind fun sz => some (.axor sz (fB w 18 6) (fB w 12 6) (fB w 6 6))
  | 0x24 => (ASize.ofCode (fN w 4 2)).bind fun sz => some (.amin sz (fB w 18 6) (fB w 12 6) (fB w 6 6))
  | 0x25 => (ASize.ofCode (fN w 4 2)).bind fun sz => some (.amax sz (fB w 18 6) (fB w 12 6) (fB w 6 6))
  | 0x26 => (ASize.ofCode (fN w 4 2)).bind fun sz => some (.aswp sz (fB w 18 6) (fB w 12 6) (fB w 6 6))
  | 0x27 => (ASize.ofCode (fN w 4 2)).bind fun sz => some (.cas sz (fB w 18 6) (fB w 12 6) (fB w 6 6))
  | 0x28 => some (.afadd (fB w 18 6) (fB w 12 6) (fB w 6 6))
  | 0x29 => some (.ared (fB w 0 6) (fB w 12 6) (fB w 6 6) (fB w 18 6))
  | _ => none

/-- The instruction that the fields of a word name in this opcode space (R56). -/
def candAddress (w : BitVec 32) : Option Instr :=
  match fN w 24 8 with
  | 0x1 => some (.loop (fB w 14 6) (fB w 0 14))
  | 0x2 => some (.replay (fB w 20 4) (fB w 14 6) (fB w 0 14))
  | 0x3 => some (.aset (fB w 20 4) (fB w 14 6) (fB w 0 14))
  | 0x4 => some (.ainc (fB w 14 6) (fB w 20 4) (fB w 0 14))
  | 0x5 => some (.astr (fB w 20 4) (fB w 14 6) (fB w 0 3))
  | 0x6 => some (.scl (fB w 20 4) (fB w 14 6) (fB w 0 3))
  | _ => none

/-- The instruction that the fields of a word name in this opcode space (R57). -/
def candEngine (w : BitVec 32) : Option Instr :=
  match fN w 24 8 with
  | 0x1 => (MF.ofCode (fN w 0 2)).bind fun mf => some (.mma mf (fB w 20 4) (fB w 12 6) (fB w 6 6) (fB w 2 4))
  | 0x2 => (MF.ofCode (fN w 0 2)).bind fun mf => (MMode.ofCode (fN w 18 2)).bind fun mode => some (.mmr mf mode (fB w 20 4) (fB w 12 6) (fB w 6 6))
  | 0x3 => some (.mload (fB w 20 4) (fB w 12 6))
  | 0x4 => (OFmt.ofCode (fN w 2 4)).bind fun of_ => some (.mdrain of_ (fT w 6) (fB w 12 3) (fB w 20 4))
  | 0x5 => some (.mzero (fB w 20 4) (fB w 2 4))
  | 0x6 => some (.mxsave (fB w 12 6))
  | 0x7 => some (.mxrest (fB w 12 6))
  | 0x8 => some (.mtalloc (fB w 20 4) (fB w 2 4))
  | 0x9 => some .mtfree
  | 0x10 => some (.cpy (fT w 6) (fT w 7) (fB w 18 6) (fB w 12 6) (fB w 0 6))
  | 0x11 => some (.cpym (fB w 18 6) (fB w 12 6) (fB w 6 6) (fB w 0 6))
  | 0x12 => some (.cpyr (fB w 6 6) (fB w 18 6) (fB w 12 6) (fB w 0 6))
  | 0x13 => some (.rbinit (fB w 0 5) (fB w 18 6) (fB w 12 6))
  | 0x20 => some (.svinit (fB w 18 6) (fB w 12 6) (fB w 0 6))
  | 0x21 => some (.svapply (fB w 18 6) (fB w 12 6) (fB w 0 6))
  | 0x22 => some (.svdiag (fB w 18 6) (fB w 12 6) (fB w 0 6))
  | 0x23 => some (.svprob (fB w 18 6) (fB w 12 6) (fB w 6 6) (fB w 0 6))
  | 0x24 => some (.svnorm (fB w 18 6) (fB w 12 6) (fB w 0 6))
  | 0x25 => some (.svmap (fB w 18 6) (fB w 12 6) (fB w 0 6))
  | 0x30 => some (.fsend (fB w 18 6) (fB w 12 6) (fB w 0 6))
  | 0x31 => some (.frecv (fB w 18 6) (fB w 12 6) (fB w 0 6))
  | 0x32 => some (.fput (fB w 18 6) (fB w 12 6) (fB w 0 6))
  | 0x33 => some (.fputS (fB w 18 6) (fB w 12 6) (fB w 0 6))
  | 0x34 => some (.fputR (fB w 6 6) (fB w 18 6) (fB w 12 6) (fB w 0 6))
  | 0x35 => some (.fget (fB w 18 6) (fB w 12 6) (fB w 0 6))
  | 0x36 => some (.fexpect (fT w 6) (fB w 18 6) (fB w 12 6) (fB w 0 6))
  | 0x37 => some (.fport (fB w 18 6) (fB w 12 6) (fB w 0 6))
  | 0x38 => some (.froute (fB w 18 6) (fB w 12 6) (fT w 6))
  | 0x40 => some (.coll (fB w 18 6) (fB w 0 6))
  | 0x41 => some (.collw (fB w 18 6))
  | 0x42 => some (.agb (fB w 18 4) (fB w 12 6))
  | 0x43 => some (.agbx (fB w 18 6) (fB w 12 6))
  | 0x44 => some .agwait
  | 0x45 => some (.barr (fB w 12 6) (fB w 0 6))
  | 0x50 => some (.tlbi (fB w 18 6) (fB w 12 6) (fB w 0 6))
  | 0x51 => some (.ckpt (fB w 18 6) (fB w 0 6))
  | 0x60 => (ASize.ofCode (fN w 4 2)).bind fun sz => some (.aaddH sz (fB w 18 6) (fB w 12 6) (fB w 6 6))
  | 0x61 => (ASize.ofCode (fN w 4 2)).bind fun sz => some (.aandH sz (fB w 18 6) (fB w 12 6) (fB w 6 6))
  | 0x62 => (ASize.ofCode (fN w 4 2)).bind fun sz => some (.aorH sz (fB w 18 6) (fB w 12 6) (fB w 6 6))
  | 0x63 => (ASize.ofCode (fN w 4 2)).bind fun sz => some (.axorH sz (fB w 18 6) (fB w 12 6) (fB w 6 6))
  | 0x64 => (ASize.ofCode (fN w 4 2)).bind fun sz => some (.aminH sz (fB w 18 6) (fB w 12 6) (fB w 6 6))
  | 0x65 => (ASize.ofCode (fN w 4 2)).bind fun sz => some (.amaxH sz (fB w 18 6) (fB w 12 6) (fB w 6 6))
  | 0x66 => (ASize.ofCode (fN w 4 2)).bind fun sz => some (.aswpH sz (fB w 18 6) (fB w 12 6) (fB w 6 6))
  | 0x67 => (ASize.ofCode (fN w 4 2)).bind fun sz => some (.casH sz (fB w 18 6) (fB w 12 6) (fB w 6 6))
  | 0x68 => some (.afaddH (fB w 18 6) (fB w 12 6) (fB w 6 6))
  | 0x69 => some (.aredH (fB w 0 6) (fB w 12 6) (fB w 6 6) (fB w 18 6))
  | _ => none

/-- The first of two readings. -/
def orElseI (a b : Option Instr) : Option Instr := match a with | some i => some i | none => b

/-- The reading of a word in a bundle slot before the checks (02 R50 to R57). -/
def candidate (sl : Slot) (w : BitVec 32) : Option Instr :=
  match sl with
  | .s0 => candScalar w
  | .s1 => orElseI (candScalar w) (candControl w)
  | .v0 | .v1 => candVector w
  | .v2 => orElseI (candVector w) (candCross w)
  | .f => candSpecial w
  | .k => candSort w
  | .m0 | .m1 => candMemory w
  | .a => candAddress w
  | .e => candEngine w

/-- Why a syllable is refused: every one of these is the illegal-encoding fault 0x01 (02 R44, R50). -/
inductive DecodeError
  /-- the opcode, or the value of a field with named values, is not assigned in this bundle slot -/
  | unassigned
  /-- a reserved field is not zero -/
  | reserved
  /-- the values of the fields are refused together -/
  | illFormed
  deriving DecidableEq, Repr

/-- The decoder of one syllable in one bundle slot. -/
def decodeSyl (sl : Slot) (w : BitVec 32) : Except DecodeError Instr :=
  match candidate sl w with
  | none => .error .unassigned
  | some i => if encode i != w then .error .reserved else if i.wf then .ok i else .error .illFormed

/-- The bundle slot in which an instruction may first stand, in the order of R41; none for an event. -/
def slotOf : Instr → Option Slot
  | .add .. => some .s0
  | .sub .. => some .s0
  | .mul .. => some .s0
  | .mulh .. => some .s0
  | .mulhu .. => some .s0
  | .div .. => some .s0
  | .divu .. => some .s0
  | .rem .. => some .s0
  | .remu .. => some .s0
  | .and .. => some .s0
  | .or .. => some .s0
  | .xor .. => some .s0
  | .andn .. => some .s0
  | .shl .. => some .s0
  | .shr .. => some .s0
  | .sra .. => some .s0
  | .min .. => some .s0
  | .max .. => some .s0
  | .minu .. => some .s0
  | .maxu .. => some .s0
  | .cmp .. => some .s0
  | .sel .. => some .s0
  | .clz .. => some .s0
  | .ctz .. => some .s0
  | .popc .. => some .s0
  | .lea .. => some .s0
  | .sext .. => some .s0
  | .zext .. => some .s0
  | .addi .. => some .s0
  | .andi .. => some .s0
  | .ori .. => some .s0
  | .xori .. => some .s0
  | .shli .. => some .s0
  | .shri .. => some .s0
  | .srai .. => some .s0
  | .movi .. => some .s0
  | .movhi .. => some .s0
  | .br .. => some .s1
  | .brc .. => some .s1
  | .call .. => some .s1
  | .ret .. => some .s1
  | .bktj .. => some .s1
  | .bktset .. => some .s1
  | .waitt .. => some .s1
  | .waitany .. => some .s1
  | .ffrdy .. => some .s1
  | .rbwait .. => some .s1
  | .yield => some .s1
  | .spawn .. => some .s1
  | .join .. => some .s1
  | .joinW .. => some .s1
  | .done => some .s1
  | .trap .. => some .s1
  | .rfe => some .s1
  | .mfs .. => some .s1
  | .mts .. => some .s1
  | .tagsWrite .. => some .s1
  | .fstatusWrite .. => some .s1
  | .fctlWrite .. => some .s1
  | .rowprogWrite .. => some .s1
  | .keyselGen .. => some .s1
  | .keyselKill .. => some .s1
  | .halt .. => some .s1
  | .ckwait => some .s1
  | .vadd .. => some .v0
  | .vsub .. => some .v0
  | .vmul .. => some .v0
  | .vfma .. => some .v0
  | .vfms .. => some .v0
  | .vfnma .. => some .v0
  | .vmin .. => some .v0
  | .vmax .. => some .v0
  | .vabs .. => some .v0
  | .vneg .. => some .v0
  | .vand .. => some .v0
  | .vor .. => some .v0
  | .vxor .. => some .v0
  | .vshl .. => some .v0
  | .vshr .. => some .v0
  | .vsra .. => some .v0
  | .vadds .. => some .v0
  | .vsubs .. => some .v0
  | .vcmp .. => some .v0
  | .vsel .. => some .v0
  | .vmov .. => some .v0
  | .vbcst .. => some .v0
  | .vext .. => some .v0
  | .vins .. => some .v0
  | .viota .. => some .v0
  | .vcvt .. => some .v0
  | .vcmpr .. => some .v0
  | .vexpd .. => some .v0
  | .vrsum .. => some .v0
  | .vrmax .. => some .v0
  | .vrmin .. => some .v0
  | .xcopy .. => some .v2
  | .pand .. => some .v0
  | .por .. => some .v0
  | .pxor .. => some .v0
  | .pandn .. => some .v0
  | .pnot .. => some .v0
  | .pcnt .. => some .v0
  | .pfirst .. => some .v0
  | .exp2 .. => some .f
  | .log2 .. => some .f
  | .rcp .. => some .f
  | .rsq .. => some .f
  | .sin .. => some .f
  | .cos .. => some .f
  | .tanh .. => some .f
  | .erf .. => some .f
  | .rnd .. => some .f
  | .seed .. => some .f
  | .cxs .. => some .k
  | .cxsi .. => some .k
  | .vmaxi .. => some .k
  | .vmini .. => some .k
  | .vnormsel .. => some .k
  | .ld .. => some .m0
  | .ldS .. => some .m0
  | .st .. => some .m0
  | .stS .. => some .m0
  | .vld .. => some .m0
  | .vldS .. => some .m0
  | .vst .. => some .m0
  | .vstS .. => some .m0
  | .ldf .. => some .m0
  | .ste .. => some .m0
  | .preft .. => some .m0
  | .pin .. => some .m0
  | .unpin .. => some .m0
  | .phase .. => some .m0
  | .qalign => some .m0
  | .fence .. => some .m0
  | .xfence .. => some .m0
  | .qpop .. => some .m0
  | .rbrel .. => some .m0
  | .aadd .. => some .m0
  | .aand .. => some .m0
  | .aor .. => some .m0
  | .axor .. => some .m0
  | .amin .. => some .m0
  | .amax .. => some .m0
  | .aswp .. => some .m0
  | .cas .. => some .m0
  | .afadd .. => some .m0
  | .ared .. => some .m0
  | .loop .. => some .a
  | .replay .. => some .a
  | .aset .. => some .a
  | .ainc .. => some .a
  | .astr .. => some .a
  | .scl .. => some .a
  | .mma .. => some .e
  | .mmr .. => some .e
  | .mload .. => some .e
  | .mdrain .. => some .e
  | .mzero .. => some .e
  | .mxsave .. => some .e
  | .mxrest .. => some .e
  | .mtalloc .. => some .e
  | .mtfree => some .e
  | .cpy .. => some .e
  | .cpym .. => some .e
  | .cpyr .. => some .e
  | .rbinit .. => some .e
  | .svinit .. => some .e
  | .svapply .. => some .e
  | .svdiag .. => some .e
  | .svprob .. => some .e
  | .svnorm .. => some .e
  | .svmap .. => some .e
  | .fsend .. => some .e
  | .frecv .. => some .e
  | .fput .. => some .e
  | .fputS .. => some .e
  | .fputR .. => some .e
  | .fget .. => some .e
  | .fexpect .. => some .e
  | .fport .. => some .e
  | .froute .. => some .e
  | .coll .. => some .e
  | .collw .. => some .e
  | .agb .. => some .e
  | .agbx .. => some .e
  | .agwait => some .e
  | .barr .. => some .e
  | .tlbi .. => some .e
  | .ckpt .. => some .e
  | .aaddH .. => some .e
  | .aandH .. => some .e
  | .aorH .. => some .e
  | .axorH .. => some .e
  | .aminH .. => some .e
  | .amaxH .. => some .e
  | .aswpH .. => some .e
  | .casH .. => some .e
  | .afaddH .. => some .e
  | .aredH .. => some .e
  | .bundleIssue .. => none
  | .lsAccessPerformed .. => none
  | .bankAtomicPerformed .. => none
  | .bktsetDataArrival .. => none
  | .preemption .. => none
  | .frecvCopyComplete .. => none
  | .watchdogExpiry .. => none
  | .prefetchComplete .. => none
  | .ringSlotClaim .. => none
  | .copyPageReach .. => none
  | .cpymLanding .. => none
  | .copyComplete .. => none
  | .matrixAllocGrant .. => none
  | .matrixCommandComplete .. => none
  | .matrixLineFetch .. => none
  | .matrixCommandStart .. => none
  | .recordPop .. => none
  | .eddyCommandComplete .. => none
  | .exchangeData .. => none
  | .eddyCommandStart .. => none
  | .collectiveStart .. => none
  | .barrArrivalSend .. => none
  | .ckptComplete .. => none
  | .phaseDrainEnd .. => none
  | .budgetPeriod .. => none
  | .serviceRingPoll .. => none
  | .packetArrival .. => none
  | .tlbiComplete .. => none
  | .openNoticeArrival .. => none
  | .planStepArrival .. => none
  | .abortNoticeArrival .. => none
  | .barrArrivalReceive .. => none
  | .huddleContributionArrival .. => none
  | .huddleOutcomeArrival .. => none
  | .voidRequestArrival .. => none
  | .fabricSlotBoundary .. => none
  | .ackArrival .. => none
  | .staleNotice .. => none
  | .authFailNotice .. => none
  | .exchangeHandshake .. => none
  | .registerWriteback .. => none
  | .loadDataReturn .. => none
  | .quantumExpiry .. => none
  | .budgetExhausted .. => none
  | .trapEntry .. => none
  | .pinLineFetch .. => none
  | .framingReceived .. => none
  | .ringSaturation .. => none
  | .dataWindowStart .. => none
  | .heldPacketTimeout .. => none
  | .staleRetransmitTimeout .. => none
  | .routeWaitTimeout .. => none
  | .frecvTimeout .. => none
  | .wakeHint .. => none
  | .collectiveTimeout .. => none
  | .memberLostReport .. => none
  | .huddleTimeout .. => none
  | .outcomeResend .. => none
  | .linkKeyInstall .. => none
  | .powerOn .. => none
  | .bootRetry .. => none
  | .pkgreset => none
  | .hqprod .. => none
  | .bar0RegisterWrite .. => none
  | .functionLevelReset => none
  | .currentLimit .. => none
  | .thermalThrottle .. => none
  | .thermalTrip .. => none
  | .ringHeatWrite .. => none
  | .createRegion .. => none
  | .changeRegion .. => none
  | .makeRunnable .. => none
  | .makeNotRunnable .. => none
  | .destroyRegion .. => none
  | .bindKernel .. => none
  | .pushRecords .. => none
  | .handlerVector .. => none
  | .breakpoint .. => none
  | .routeTable .. => none
  | .groupEntry .. => none
  | .assignKeySlot .. => none
  | .reclaimKeySlot .. => none
  | .pageTableRoot .. => none
  | .frameOwner .. => none
  | .cisternAllotment .. => none
  | .attest .. => none
  | .readRingStatus .. => none
  | .registerServiceRing .. => none
  | .withdrawServiceRing .. => none
  | .framingLost .. => none
  | .softError .. => none
  | .exchangePartnerTimeout .. => none

/-- An Except as an Option. -/
def okOf (e : Except DecodeError Instr) : Option Instr := match e with | .ok i => some i | .error _ => none

/-- The bundle slot in which a word is read when the slot is not named: the first of R41 that decodes it.
DESIGN CHOICE, log 83. -/
def slotFor (w : BitVec 32) : Option Slot :=
  [Slot.s0, .s1, .v0, .v2, .f, .k, .m0, .a, .e].find? fun sl => (okOf (decodeSyl sl w)).isSome

/-- The instruction of a word whose bundle slot is not named. DESIGN CHOICE, log 83. -/
def decodeTableWord (nbits w : Nat) : Option Instr :=
  if nbits = 32 then
    (slotFor (BitVec.ofNat 32 w)).bind fun sl => okOf (decodeSyl sl (BitVec.ofNat 32 w))
  else none

end Sys2Proof
end

