-- ==== Sys2Proof/Config.lean ====
section
/-!
DEFINITION. What one implementation fixes and the manual leaves open: opaque values no proof can see.
Each is named in notes/assumptions.
-/

namespace Sys2Proof.Config

/-- Identity of the key held in a slot: a slot number and how many keys the slot has held. -/
abbrev KeyTag := Nat × Nat

/-- What byte i of a 128-byte line stored under key w reads as when it is decrypted under key r (13 R321).
DESIGN CHOICE, log 87. -/
opaque garble : (w r : KeyTag) → (line : Nat) → (stored : List (BitVec 8)) → Nat → BitVec 8

/-- The stored ciphertext byte i of a 128-byte line of plaintext sealed under key w (13 R321, R323).
DESIGN CHOICE, log 87. DEDUCED, log 88. -/
opaque cipher : (w : KeyTag) → (line : Nat) → (plain : List (BitVec 8)) → Nat → BitVec 8

/-- The value at which the laser drive of a wavelength is fused (13 R326). DESIGN CHOICE, log 108. -/
opaque laserFuse : Nat → Nat

/-- The identity public key, byte i of 1,952 (15 R355). DESIGN CHOICE, log 87. -/
opaque identityKey : Nat → BitVec 8

/-- The ML-DSA-65 signature of a byte string, byte i of 3,309 (15 R355). DESIGN CHOICE, log 87. -/
opaque signature : List (BitVec 8) → Nat → BitVec 8

/-- The free values behind every choice that the manual leaves open and the state's tape does not answer.
DESIGN CHOICE, log 1. -/
opaque choice : Nat → Nat

/-- The last bits of the transcendental functions where no enclosure of the ladder decides them (05 R122).
DESIGN CHOICE, log 85. -/
opaque undecided : Nat → Bool

end Sys2Proof.Config
end

