-- ==== Sys2Proof/Machine/State.lean ====
section
/-!
DEFINITION. The state of one package: everything spec/ gives the machine, as plain data.
INVENTORY.md lists each field with the rule that names it and its reset value.
-/

namespace Sys2Proof.Machine

open Sys2Proof

/-- An address register (04 R115). -/
structure AReg where
  addr   : Word := 0#64
  stride : Word := 0#64
  lvl    : BitVec 3 := 0#3
  deriving DecidableEq, Repr

/-- Kind of a loop level (04 R111). -/
inductive LoopKind | loop | replay
  deriving DecidableEq, Repr

/-- One active level of the loop unit (04 R111, R112, R117). -/
structure LoopLevel where
  kind  : LoopKind
  /-- LOOP: remaining count; REPLAY: the trip count N -/
  count : Nat
  start : Nat
  exit  : Nat
  /-- REPLAY: the stage count S -/
  stages : Nat := 1
  /-- REPLAY: the pass number k -/
  pass  : Nat := 0
  deriving DecidableEq, Repr

/-- Where a register result lands: a physical register (02 R35, 04 R119). -/
inductive Dest
  | x (n : Nat)
  | v (n : Nat)
  | p (n : Nat)
  | a (n : Nat)
  /-- flags only -/
  | none
  deriving DecidableEq, Repr

/-- The value of a result; masks say which lanes or parts are written (02 R43). -/
inductive Val
  | word (w : Word)
  | lanes (mask : Pred) (v : VReg)
  | bits (mask : Pred) (v : Pred)
  | areg (addr : Option Word) (stride : Option Word) (lvl : Option (BitVec 3))
  /-- not known yet: the data of a load, an atomic or a pop that has not been performed -/
  | pending
  deriving DecidableEq, Repr

/-- A register result in flight (02 R35, R36; 14 R337). -/
structure InFlight where
  /-- number of the operation within its context, in issue order -/
  id    : Nat
  dest  : Dest
  /-- the cycle of its issue plus the stated latency -/
  due   : Nat
  /-- the result is not ready by its due cycle, so the destination is interlocked -/
  late  : Bool := false
  /-- earliest cycle in which the result can be written -/
  ready : Nat
  val   : Val
  flags : BitVec 8 := 0#8
  /-- a poisoned value: the destination becomes poisoned (14 R345) -/
  poisoned : Bool := false
  /-- the pop of an entry that was not ready: queue, entry counted from the head, pop plus 32 × lane mask -/
  pop   : Option (Nat × Nat × Nat) := none
  deriving DecidableEq, Repr

/-- One entry of a dispatch table (05 R132). -/
structure Bucket where
  cap : Nat := 0
  pc  : Nat := 0
  deriving DecidableEq, Repr

/-- One PIN window (08 R198). -/
structure PinWin where
  isOpen : Bool := false
  start  : Word := 0#64
  len    : Word := 0#64
  mask   : Word := 0#64
  /-- the place of the window among those opened on the die -/
  age    : Nat := 0
  /-- lines fetched or skipped so far -/
  next   : Nat := 0
  deriving DecidableEq, Repr

/-- The registers and units that a run-ahead checkpoint holds (12 R307). -/
structure Arch where
  x : List Word := List.replicate 64 0#64
  v : List VReg := List.replicate 64 vzero
  p : List Pred := pall :: List.replicate 15 0#128
  a : List AReg := List.replicate 16 {}
  pc : Nat := 0
  kid : Nat := 0
  fstatus : BitVec 8 := 0#8
  fctl : BitVec 3 := 0#3
  rng : List Word := []
  loops : List LoopLevel := []
  rotBase : Nat := 0
  disp : List (List Bucket) := List.replicate 4 (List.replicate 8 {})
  inflight : List InFlight := []
  /-- registers that hold poison (14 R345) -/
  poisoned : List Dest := []
  deriving DecidableEq, Repr

/-- A place in physical storage of the die, from a translation (08 R184; 13 R315). -/
structure Seg where
  /-- address in the die's flat numbering of its storage -/
  pa  : Nat
  len : Nat
  /-- virtual address of the first byte -/
  va  : Nat
  /-- the key slot of the leaf -/
  okey : Nat
  deriving DecidableEq, Repr

/-- What an LS queue entry does at its bank (09 R225). -/
inductive LsKind
  /-- scalar load of a number of bytes -/
  | load
  /-- vector load: element format and lane mask -/
  | vload (fmt : Fmt) (mask : Pred)
  /-- scalar store -/
  | store
  /-- vector store: element size and lane mask -/
  | vstore (esz : Nat) (mask : Pred)
  /-- returning atomic: operation 0 to 8, compare value -/
  | atomic (op : Nat) (cmp : Word)
  /-- reduction without result; directed address -/
  | ared (op : BitVec 6) (directed : Option Seg) (blk : Option Nat)
  /-- arrival on a join counter (10 R252) -/
  | join
  /-- push of a record into the queue of a level (10 R250, R251) -/
  | spawn (r : BitVec 256) (lvl : Nat)
  /-- the BKTSET read (05 R134) -/
  | bktset (tbl : Nat) (addr : Word)
  /-- a held store that a correct resolution commits; with poison, none is made (09 R240; 14 R345) -/
  | commit (bad : Bool)
  /-- QALIGN marker (09 R228) -/
  | qalign
  /-- FENCE marker (09 R229) -/
  | fence
  /-- a huddle resolution: later accesses wait for the held stores (09 R240) -/
  | resolved
  deriving DecidableEq, Repr

/-- One entry of a context's LS queues (09 R225). -/
structure LsEntry where
  id    : Nat
  /-- stands in the load queue -/
  inL   : Bool
  /-- stands in the store queue -/
  inS   : Bool
  strong : Bool
  kind  : LsKind
  segs  : List Seg
  /-- bytes of a store or operand of an atomic, in address order of the segments -/
  data  : List Byte := []
  /-- bytes of a load fixed so far, or of a store performed so far -/
  got   : List (Option Byte) := []
  /-- bytes taken from the hold buffer (09 R240) -/
  ovl  : List (Option Byte) := []
  /-- the poisoned granule that bytes taken from an earlier load met (14 R345) -/
  bad   : Option Nat := none
  ep    : Nat := 0
  na    : Bool := false
  /-- level at which the access was issued -/
  level : Nat := 0
  /-- the in-flight result that the entry gives, if any -/
  res   : Option Nat := none
  /-- the order points issued before it (09 R223) -/
  stretch : Nat := 0
  deriving DecidableEq, Repr

/-- A weak access that has been performed, from which a later weak load of its stretch may take its value (09 R223). -/
structure Recent where
  id : Nat
  stretch : Nat
  segs : List Seg
  bytes : List Byte
  /-- the poisoned granule that a load met (14 R345) -/
  bad : Option Nat := none
  /-- a store, or a load -/
  store : Bool := false
  deriving DecidableEq, Repr

/-- One hold-buffer entry (14 R335): an aligned block, a byte mask, 64 bytes. -/
structure Held where
  va     : Nat
  strong : Bool
  mask   : BitVec 64
  data   : List Byte
  /-- the translations held from issue; none after a restore, which translates anew -/
  segs   : List Seg
  ep     : Nat := 0
  na     : Bool := false
  /-- the entry holds poison (14 R345) -/
  bad    : Bool := false
  deriving DecidableEq, Repr

/-- An entry of the pending-fault queue: TRAPCODE and TRAPADDR (14 R329, R335). -/
structure PFault where
  code : Word
  addr : Word
  deriving DecidableEq, Repr

/-- The pending round of a context (12 R304, R306; 14 R335 offset 2,176). -/
structure Round where
  word : Word
  contribution : Nat
  gid : Nat
  seq : Nat
  gen : Nat
  agbx : Bool
  /-- level at which it was opened -/
  level : Nat := 0
  /-- a void request has been sent (12 R306) -/
  asked : Bool := false
  /-- an outcome that arrived while it could not be applied (12 R311) -/
  decided : Option Verdict := none
  deriving DecidableEq, Repr

/-- What a context is blocked on (10 R256); `doneHuddle` is a DONE while the context runs ahead (10 R254). -/
inductive BlockKind | watched | frecv | huddle | doneHuddle
  deriving DecidableEq, Repr

/-- A queued matrix command (06 R140): syllable fields, registers and scale table captured at issue. -/
structure MxCmd where
  instr : Instr
  xa0 : Word := 0#64
  xa1 : Word := 0#64
  xb0 : Word := 0#64
  xb1 : Word := 0#64
  scale : List Byte := []
  deriving DecidableEq, Repr

/-- A line held by the engine (06 R149): element bits of dense data, mantissas and scale indices of SB data. -/
structure Line where
  elems : List (BitVec 16) := []
  idx   : List Byte := []
  /-- width of a mantissa, from the page (03 R75) -/
  m     : Nat := 0
  deriving DecidableEq, Repr

/-- One result-queue entry (06 R157). -/
structure QEntry where
  fmt   : OFmt
  elems : List Lane
  ready : Bool
  /-- rows that hold poison (14 R345) -/
  poisoned : Bool := false
  deriving DecidableEq, Repr

/-- A cached leaf (13 R317). -/
structure TlbEntry where
  top   : Nat
  vbase : Nat
  size  : Nat
  leaf  : Word
  deriving DecidableEq, Repr

/-- The command at the head of a context's queue while the engine runs it or it is suspended (06 R149, R151). -/
structure MxRun where
  /-- the line that is fetched next: operand B, K-step, line -/
  opnd  : Bool := false
  kstep : Nat := 0
  line  : Nat := 0
  /-- lines held, A and B -/
  aLines : List Line := []
  bLines : List Line := []
  /-- suspended by a line fault: ROWPROG.VALID -/
  suspended : Bool := false
  /-- every line is present and the arithmetic has been done -/
  finished : Bool := false
  flags : BitVec 8 := 0#8
  /-- translations held on the present visits to a page of A and a page of B (09 R237) -/
  aPage : Option TlbEntry := none
  bPage : Option TlbEntry := none
  deriving DecidableEq, Repr

/-- A context's matrix state (06 R136 to R161). -/
structure MxState where
  alloc  : Bool := false
  /-- allocated tiles, 4,096 elements each, row-major -/
  tiles  : List (List Lane) := []
  /-- poisoned tile rows: tile, row -/
  tilePoison : List (Nat × Nat) := []
  /-- allocated queues: entries from the head -/
  queues : List (List QEntry) := []
  /-- pops issued from each queue's head entry on -/
  pops   : List Nat := []
  cmds   : List MxCmd := []
  run    : Option MxRun := none
  deriving DecidableEq, Repr

/-- The record that a context holds (10 R248). -/
structure RecInfo where
  rid   : Nat
  prio  : Nat
  qpri  : Nat
  frame : Word
  joinptr : Word
  kid   : Nat
  entry : Nat
  deriving DecidableEq, Repr

/-- Whether a context holds a record, and whether an unhandled fault stopped it (10 R256; 14 R331). -/
inductive CtxStatus | idle | active | stopped
  deriving DecidableEq, Repr

/-- A fabric command of a context (11 R278). -/
structure FbCmd where
  id    : Nat
  /-- place in the die's order of issue -/
  ord   : Nat := 0
  /-- 0 FSEND, 1 FRECV, 2 FPUT, 3 FPUT.S, 4 FPUT.R, 5 FGET, 6 FPORT, 7 TLBI -/
  kind  : Nat
  tag   : Nat
  loc   : Word
  rem   : Word
  len   : Nat
  rank  : Nat
  direct : Bool
  ctr   : Option Nat
  op    : BitVec 6 := 0#6
  /-- bytes cut into packets so far (source) or written so far (destination) -/
  pos   : Nat := 0
  /-- FGET: the answer has come -/
  answered : Bool := false
  /-- the translation held on the present visit to a page (09 R237) -/
  page  : Option TlbEntry := none
  /-- packets not yet acknowledged -/
  unacked : Nat := 0
  cut   : Bool := false
  suspended : Bool := false
  /-- the fault that the command ends with while the fault queue is full -/
  ending : Option PFault := none
  level : Nat := 0
  /-- bytes of a received message (FRECV) or of the answers (FGET) to be written locally -/
  bytes : List Byte := []
  /-- TLBI: the removed translations that something still held -/
  holds : List Seg := []
  deriving DecidableEq, Repr

/-- One hardware context (01 R14, R15). -/
structure Ctx where
  status : CtxStatus := .idle
  level  : Nat := 0
  arch   : Arch := {}
  tags   : Word := BitVec.allOnes 64
  /-- tags with an operation in flight (08 R205) -/
  busy   : Word := 0#64
  /-- of those, the tags whose operation was issued at level 0 of an interrupted state -/
  busy0  : Word := 0#64
  agstate : Word := 0#64
  trapcode : Word := 0#64
  trappc : Word := 0#64
  trapaddr : Word := 0#64
  savearea : Word := 0#64
  regionid : Word := 0#64
  rank   : Nat := 0
  pins   : List PinWin := List.replicate 8 {}
  lsq    : List LsEntry := []
  /-- order points of the LS queues issued so far, and weak accesses performed since one (09 R223) -/
  stretch : Nat := 0
  recent : List Recent := []
  hold   : List Held := []
  /-- the run-ahead checkpoint; the cycles of its in-flight results count from its boundary (12 R307) -/
  ckpt   : Option Arch := none
  /-- it was taken at level 1 -/
  ckptAt1 : Bool := false
  /-- the checkpoint and the decided round of the interrupted state while a handler has a round of its own (12 R311) -/
  ckpt0  : Option Arch := none
  round0 : Option Round := none
  /-- engine flags delivered during run-ahead (12 R309), and those of the interrupted state's -/
  engFlags : BitVec 8 := 0#8
  engFlags0 : BitVec 8 := 0#8
  round  : Option Round := none
  /-- a misprediction, mismatch or void that waits for the next boundary (12 R309, R310) -/
  restore : Option Verdict := none
  mx     : MxState := {}
  /-- the handler has executed a matrix instruction (06 R160) -/
  mxTouched : Bool := false
  /-- the automatic save of R160 has been made -/
  mxSaved : Bool := false
  /-- flags of the K-steps done by the suspended command of the context's latest MXSAVE, and of the automatic save: the
  save area does not hold them (06 R142, R159) -/
  mxFlags : BitVec 8 := 0#8
  mxFlags0 : BitVec 8 := 0#8
  /-- faults of suspended commands that wait for room in the fault queue (06 R150; 14 R329) -/
  mxPends : List PFault := []
  record : Option RecInfo := none
  faults : List PFault := []
  /-- poison of committed held stores whose fault waits for room (14 R329) -/
  owed : Nat := 0
  /-- faults of operations issued at level 1, unhandled at the next boundary (14 R331) -/
  faults1 : List PFault := []
  block  : Option (BlockKind × Nat) := none
  /-- cycles that the bundle had been blocked before its record was pre-empted (10 R256) -/
  waited : Nat := 0
  quantum : Nat := 0
  marked : Bool := false
  noBreak : Bool := false
  /-- the cycles of the in-flight results count from the first bundle that issues (09 R239) -/
  rebase : Bool := false
  /-- pending faults that the trap saved (14 R329) -/
  faults0 : Nat := 0
  /-- bits of completions whose OR into the save area could not be made (14 R333) -/
  heldTags : Word := 0#64
  heldFlags : BitVec 8 := 0#8
  /-- the same for a handler's state that pre-emption has saved -/
  heldTags1 : Word := 0#64
  heldFlags1 : BitVec 8 := 0#8
  fb     : List FbCmd := []
  /-- fabric commands and collectives that a fence orders before the later ones, each with whether it is waited for only
  in what it does within the package (09 R229) -/
  fbFence : List (Nat × Bool) := []
  /-- BKTSET data on its way: table, descriptor address, bytes, poisoned (05 R134) -/
  bkt    : List (Nat × Word × List Byte × Bool) := []
  /-- `.H` atomics on their way to the home slice (09 R220 BK) -/
  bk     : List LsEntry := []
  /-- flags that have landed in one cycle, and that cycle (02 R61) -/
  landed : Nat × BitVec 8 := (0, 0#8)
  /-- scale of next operation number -/
  nextId : Nat := 0
  /-- a waiting MTALLOC or restore: tiles and queues asked for (06 R137) -/
  wantMx : Option (Nat × Nat) := none
  /-- a restored matrix state that waits for its tiles and queues (06 R159, R161) -/
  mxHeld : Option MxState := none
  /-- the request of the blocked bundle has been granted (06 R137) -/
  granted : Bool := false
  /-- the collective of a COLLW that has started, and the PC of its bundle (12 R290) -/
  waitColl : Option (Nat × Nat) := none
  /-- the same of the interrupted state -/
  waitColl0 : Option (Nat × Nat) := none
  deriving DecidableEq, Repr

/-- A bound kernel (02 R28, R31, R32). -/
structure Kernel where
  kid   : Nat
  /-- region named in the bind request -/
  rid   : Nat
  dict  : List (List (BitVec 32))
  /-- dictionary entries that hold poison (14 R345) -/
  dictPoison : List Nat := []
  base  : Word
  codelen : Nat
  lat   : List Nat
  scale : List Byte
  deriving DecidableEq, Repr

/-- A ring object (08 R207). -/
structure Ring where
  base : Word := 0#64
  size : Nat := 0
  n    : Nat := 0
  claim : Nat := 0
  wptr : Nat := 0
  rptr : Nat := 0
  /-- ring slots claimed whose copies have landed out of order -/
  landed : List Nat := []
  deriving DecidableEq, Repr

/-- A copy descriptor (08 R201). -/
structure Desc where
  base : Word
  run  : Nat
  rb   : Bool
  ring : Nat
  /-- dimensions 0 to 5: stride, count -/
  dims : List (Int × Nat)
  deriving DecidableEq, Repr

/-- An active command of the copy unit (08 R200, R203, R209, R211). -/
structure Copy where
  id    : Nat
  ctx   : Nat
  /-- 0 CPY, 1 CPYM, 2 CPYR, 3 PREFT -/
  kind  : Nat
  tag   : Nat
  level : Nat
  dst   : Desc
  src   : Desc
  op    : BitVec 6 := 0#6
  /-- receivers of CPYM -/
  mask  : Word := 0#64
  pos   : Nat := 0
  /-- ring slots claimed: core, slot -/
  slots : List (Nat × Nat) := []
  /-- the first word of a multicast, written last (08 R209) -/
  bytes : List Byte := []
  /-- its number among the operations that write on the die (09 R234) -/
  num : Nat := 0
  suspended : Bool := false
  ep    : Nat := 0
  ending : Option PFault := none
  /-- translations held on the present visits to a source page and to destination pages (09 R237) -/
  sleaf : Option TlbEntry := none
  dpages : List TlbEntry := []
  /-- the stream has landed; a ring slot still waits for the earlier ones -/
  landed : Bool := false
  deriving DecidableEq, Repr

/-- One core (01 R14). -/
structure Core where
  cycles : Nat := 0
  /-- the first level of the TLB (13 R317) -/
  tlb : List TlbEntry := []
  scale  : List Byte := List.replicate 16 0#8
  kernels : List Kernel := []
  rings  : List Ring := List.replicate 32 {}
  /-- halfwords that fetch has read since binding: kernel and place, value (09 R236) -/
  fetched : List (Nat × Nat) := []
  copies : List Copy := []
  freeTiles : Nat := 16
  freeQueues : Nat := 8
  /-- contexts that wait for tiles and queues, in issue order -/
  mxWait : List Nat := []
  /-- the context whose command the engine took last, and the one it runs -/
  mxLast : Nat := 3
  mxBusy : Option Nat := none
  /-- the context that issues, and the one that stopped last -/
  issuing : Option Nat := none
  last   : Nat := 3
  deriving DecidableEq, Repr

/-- State of a key slot (13 R319). -/
inductive KeyState | free | assigned | live
  deriving DecidableEq, Repr

/-- A key slot: kind LINK or MEM, owner die and top region, how many keys it has held (13 R319). -/
structure KeySlot where
  state : KeyState := .free
  link  : Bool := false
  die   : Nat := 0
  top   : Nat := 0
  gen   : Nat := 0
  /-- which link key it holds: the same number wherever the key of one program is held (13 R325) -/
  id    : Nat := 0
  deriving DecidableEq, Repr

/-- A DRAM line resident in the basin (08 R185, R197; 13 R321). -/
structure BLine where
  /-- die offset divided by 128 -/
  line  : Nat
  slice : Nat
  ep    : Nat
  stamp : Nat
  okey  : Nat
  gen   : Nat
  /-- the open windows that hold the line, each by its age on the die -/
  pins : List Nat := []
  /-- what the DRAM still holds when the line is dirty -/
  stale : Option (List Byte) := none
  staleKey : Nat × Nat := (0, 0)
  deriving DecidableEq, Repr

/-- A write that some path may not see yet (09 R221): place, bytes before it, paths that may miss it. -/
structure Unseen where
  addr  : Nat
  old   : List Byte
  /-- codes of the paths to which the write is not yet visible -/
  hid   : List Path
  /-- number of the access or command that wrote -/
  op    : Nat
  /-- the key under which it wrote, to DRAM (13 R321) -/
  key   : Nat × Nat := (0, 0)
  deriving DecidableEq, Repr

/-- A slice of the basin: direct steps, the region charged, a drain (08 R194 to R196). -/
structure Slice where
  direct : Nat := 0
  owner  : Nat := 0
  /-- new direct size and the cycle at which the drain ends -/
  drain  : Option (Nat × Nat) := none
  deriving DecidableEq, Repr

/-- A region control block as fields (10 R244). -/
structure Rcb where
  rid : Nat
  fdom : Nat
  parent : Nat
  prio : Nat
  depth : Nat
  cores : Word
  ccyc : Nat
  agelim : Nat
  period : Nat
  rtmo : Nat
  wdog : Nat
  pinb : Nat
  fshare : Nat
  maxctx : Nat
  qlog : Nat
  agrp : Nat
  ovr : Nat
  deriving DecidableEq, Repr

/-- An arrival counter (11 R281). -/
structure ArrCtr where
  cnt  : Nat := 0
  mark : Nat := 0
  /-- context, tag and level of the armed expectation -/
  armed : Option (Nat × Nat × Nat) := none
  /-- overflow faults that wait for room in the context's queue (14 R329) -/
  owed  : Nat := 0
  deriving DecidableEq, Repr

/-- A group-table entry (12 R288) with the rank's group sequence number (R289). -/
structure Group where
  gid   : Nat
  gen   : Nat
  valid : Bool
  self  : Nat
  ranks : List Nat
  seq   : Nat := 0
  deriving DecidableEq, Repr

/-- One page of a checkpoint image: address, size, FORMAT/GEOM/KIND bits, bytes, poisoned granules (14 R348). -/
structure ImgPage where
  va : Nat
  size : Nat
  attr : Nat
  bytes : List (Nat × Byte)
  poison : List Nat
  deriving DecidableEq, Repr

/-- A complete checkpoint image of a rank's pages (14 R347, R348). -/
structure Image where
  gen   : Nat
  rank  : Nat
  mirror : Bool
  /-- the link key from which the key that seals it derives (14 R347) -/
  key   : Nat
  pages : List ImgPage
  complete : Bool
  deriving DecidableEq, Repr

/-- A region of the die's tree with what firmware keeps for it (10 R243; 14 R331, R343). -/
structure Region where
  rcb : Rcb
  runnable : Bool := false
  /-- context-cycles left in the period, none: unlimited (10 R257) -/
  pool : Option Nat := none
  /-- the cycle in which it was made runnable, and the cycle of the latest setting of its pool after that -/
  poolSince : Nat := 0
  poolAt : Nat := 0
  vector : Option (Nat × Nat) := none
  /-- breakpoints 0 to 3: KID and PC -/
  breaks : List (Option (Nat × Nat)) := [none, none, none, none]
  /-- measurement register of a top region (15 R354) -/
  rm : BitVec 384 := 0#384
  /-- root of the page table of a top region (13 R314) -/
  root : Option Nat := none
  /-- faults of the region held for the next context of its subtree (14 R330) -/
  heldFaults : List PFault := []
  counters : List ArrCtr := []
  groups : List Group := []
  /-- route table in force and its version; the one before; the one written and not yet installed -/
  routes : List Word := []
  ver : Nat := 0
  oldRoutes : List Word := []
  nextRoutes : Option (List Word × Nat) := none
  /-- slot boundaries left of the grace of R268 -/
  grace : Nat := 0
  /-- this die's rank in the program -/
  rank : Nat := 0
  allotment : Nat := 0
  curGen : Nat := 0
  images : List Image := []
  /-- virtual address of the service ring -/
  serviceRing : Option Word := none
  deriving DecidableEq, Repr

/-- A queued continuation record (10 R248, R259, R260). -/
structure QRec where
  bits : BitVec 256
  rid  : Nat
  level : Nat
  enq  : Nat
  /-- level reached before the aging limit was changed: a level is never lowered (10 R259) -/
  floor : Nat := 0
  /-- order among records of one enqueue cycle: group, then pusher or request order -/
  order : Nat × Nat
  deriving DecidableEq, Repr

/-- A command of the Eddy engine (07 R181). -/
structure EddyCmd where
  id  : Nat
  ctx : Nat
  top : Nat
  tag : Nat
  level : Nat
  instr : Instr
  xa : Word
  xb : Word
  xc : Word
  started : Bool := false
  suspended : Bool := false
  /-- swaps of physical bits still to be made in order, exchanges among them (07 R174, R179) -/
  swaps : List (Nat × Nat) := []
  /-- the handshake of the next exchange has agreed; an exchange has moved amplitudes -/
  shaken : Bool := false
  begun : Bool := false
  /-- the descriptor, and the gate record or target map, as read at the start -/
  desc : Nat := 0
  gate : List Byte := []
  /-- pages of the descriptor, the local array and the result (09 R237) -/
  dsegs : List Seg := []
  segs : List Seg := []
  rsegs : List Seg := []
  /-- MAP and SERIAL as the command leaves them -/
  map : List Nat := []
  serial : Nat := 0
  finished : Bool := false
  flags : BitVec 8 := 0#8
  ending : Option PFault := none
  deriving DecidableEq, Repr

/-- A handshake from a rank (07 R175). -/
structure Shake where
  top : Nat
  src : Nat
  gid : Nat
  serial : Nat
  /-- local bit, global bit -/
  b : Nat
  g : Nat
  deriving DecidableEq, Repr

/-- A rank with which the Eddy engine of a die exchanges (07 R174, R175). -/
structure SvPeer where
  top  : Nat
  rank : Nat
  /-- number of the open exchange with it, or of the next; the latest exchange was lost -/
  next : Nat := 0
  lost : Bool := false
  /-- number in its latest handshake, which belongs to an exchange that can still be met here -/
  heard : Nat := 0
  live : Bool := false
  deriving DecidableEq, Repr

/-- A plan entry (12 R294) with its progress. -/
structure PlanEntry where
  kind : Nat
  peer : Nat
  direct : Bool
  sl : Option Nat
  sd : Option Nat
  arm : Nat
  thresh : Nat
  soff : Nat
  doff : Nat
  len : Nat
  fired : Bool := false
  /-- bytes cut into packets -/
  sent : Nat := 0
  /-- packets not yet acknowledged -/
  unacked : Nat := 0
  acked : Bool := false
  /-- the translation held on the present visit to a page of SBUF (09 R237) -/
  page : Option TlbEntry := none
  deriving DecidableEq, Repr

/-- An active collective (12 R290 to R300). -/
structure Coll where
  id : Nat
  ctx : Nat
  top : Nat
  /-- the region of the issuing record -/
  rid : Nat
  /-- the tag, none for COLLW -/
  tag : Option Nat
  level : Nat
  gid : Nat
  gen : Nat
  seq : Nat
  sig : GSig
  /-- place in the die's order of issue -/
  ord : Nat := 0
  /-- this member's index -/
  self : Nat
  desc : Word
  plan : Word
  sbuf : Word
  rbuf : Word
  oper : Nat
  started : Bool := false
  /-- bytes of a chunk -/
  chunk : Nat := 4096
  entries : List PlanEntry := []
  /-- the entry whose chunk leaves next -/
  turn : Nat := 0
  expect : Nat := 0
  count : Nat := 0
  /-- incoming entries: member, entry, bytes performed so far -/
  heard : List (Nat × Nat × Nat) := []
  /-- translations held on the present visits of incoming entries to pages of RBUF: member, entry (09 R237) -/
  inPages : List (Nat × Nat × TlbEntry) := []
  counters : List Nat := List.replicate 16 0
  /-- open notices: member and its RBUF -/
  notices : List (Nat × Word) := []
  /-- steps that arrived before the start -/
  heldSteps : List GMsg := []
  flags : BitVec 8 := 0#8
  /-- ended, with a fault or none; a COLLW passes then, or the fault queue is full (14 R329) -/
  ended : Bool := false
  ending : Option PFault := none
  /-- held by a fence until these commands have been performed (09 R229) -/
  after : List (Nat × Bool) := []
  deriving DecidableEq, Repr

/-- A collective that has completed here (12 R297): its names, the region of its record, its descriptor. -/
structure OverColl where
  top : Nat
  gid : Nat
  gen : Nat
  seq : Nat
  rid : Nat
  desc : Word
  deriving DecidableEq, Repr

/-- A group barrier (12 R302). -/
structure Barrier where
  ctx : Nat
  top : Nat
  tag : Nat
  level : Nat
  gid : Nat
  gen : Nat
  seq : Nat
  sent : Bool := false
  /-- LS entries and fabric commands and collectives that must be performed first -/
  ls : List Nat := []
  fb : List (Nat × Bool) := []
  arrived : List Nat := []
  /-- this member's index -/
  self : Nat
  /-- ended by a fault that waits for room in the context's queue (14 R329) -/
  ending : Option PFault := none
  deriving DecidableEq, Repr

/-- A round at the decision point (12 R306). -/
structure Decision where
  top : Nat
  gid : Nat
  gen : Nat
  seq : Nat
  contributions : List (Nat × Nat)
  sig : Option GSig
  verdict : Option Verdict := none
  deriving DecidableEq, Repr

/-- A packet in a send queue (11 R273). -/
structure SendPkt where
  pkt : Pkt
  ctx : Nat
  rid : Nat
  direct : Bool
  /-- flits that have left in earlier slots, and the package they left for -/
  flits : Nat := 0
  via : Option Nat := none
  /-- the packet has left and is not yet acknowledged -/
  sent : Bool := false
  /-- it has sent a wake hint from the head of its queue (11 R287) -/
  hinted : Bool := false
  /-- retransmissions made under R268 and R324 -/
  retry : Bool := false
  authRetry : Bool := false
  /-- waits for this route version before it is sent again -/
  needVer : Option Nat := none
  deriving DecidableEq, Repr

/-- The receiving side of one flow (11 R269, R271). -/
structure FlowIn where
  src : Nat
  top : Nat
  /-- place of the next strong packet to be performed -/
  next : Nat := 0
  /-- strong packets that arrived early -/
  window : List Pkt := []
  /-- sequence numbers accepted -/
  seen : List Nat := []
  /-- commands of several packets: packets performed so far -/
  parts : List (Nat × Nat) := []
  /-- commands that a fault has ended here -/
  failed : List Nat := []
  /-- translations held on the present visits of commands to their destination pages (09 R237) -/
  pages : List (Nat × TlbEntry) := []
  deriving DecidableEq, Repr

/-- The link receive queue of a region for one source rank (11 R280). -/
structure LinkQ where
  top : Nat
  src : Nat
  /-- complete messages -/
  msgs : List (List Byte) := []
  /-- pieces of the message that is arriving, its command and its length -/
  part : List Byte := []
  cmd : Nat := 0
  total : Nat := 0
  deriving DecidableEq, Repr

/-- A checkpoint command in progress (14 R348). -/
structure CkptCmd where
  ctx : Nat
  top : Nat
  tag : Nat
  level : Nat
  word : Word
  /-- place in the die's order of issue -/
  ord : Nat := 0
  /-- the own image is complete -/
  saved : Bool := false
  /-- packets of the mirror image not yet acknowledged -/
  unacked : Nat := 0
  /-- the fault that it ends with while the fault queue is full (14 R329) -/
  ending : Option PFault := none
  deriving DecidableEq, Repr

/-- What a context waits for at a scratchpad word (08 R191, R192; 10 R252). -/
inductive WaitKind | ldf | ste | join
  deriving DecidableEq, Repr

/-- A context that waits at the bank of a word, or has been released there: an LDF has read, an STE has written, a join
counter was zero. -/
structure BankWait where
  /-- the word and its translation -/
  seg   : Seg
  top   : Nat
  ctx   : Nat
  level : Nat
  kind  : WaitKind
  /-- what an STE writes, the number of its operation, and its key -/
  val   : Nat := 0
  op    : Nat := 0
  key   : Nat × Nat := (0, 0)
  /-- once released: the word read, and whether it was poisoned -/
  done  : Option (Word × Bool) := none
  deriving DecidableEq, Repr

/-- One die: storage, basin, translations, regions, queues, engines, fabric (01 R14 to R17). -/
structure Die where
  inReset : Bool := true
  tripped : Bool := false
  mem : List Host.Cell := []
  empties : List Nat := []
  poison : List Nat := []
  /-- key and generation under which a DRAM line was written -/
  lineKeys : List (Nat × Nat × Nat) := []
  basin : List BLine := []
  slices : List Slice := List.replicate 64 {}
  unseen : List Unseen := []
  /-- the second level of the TLB (13 R317) -/
  tlb : List TlbEntry := []
  /-- upper-level entries of page tables kept by walks (13 R318) -/
  upper : List TlbEntry := []
  /-- uses of basin lines so far, by which the least recently used is known (08 R197) -/
  uses : Nat := 0
  /-- PIN windows opened so far (08 R198) -/
  pinSeq : Nat := 0
  /-- key slots that a KEYSEL.KILL of a context is about to erase: slot, context (13 R320) -/
  killing : List (Nat × Nat) := []
  /-- owners of frames: kind, frame number, owner -/
  frames : List (FrameKind × Nat × Owner) := []
  regions : List Region := []
  queue : List QRec := []
  /-- occupancy of the continuation queues: region, level, records pushed and not ended (10 R251) -/
  occ : List (Nat × Nat × Nat) := []
  eddy : List EddyCmd := []
  /-- handshakes that have arrived (07 R175), and amplitudes (R174) -/
  shakes : List Shake := []
  halves : List (Shake × List Byte) := []
  svPeers : List SvPeer := []
  colls : List Coll := []
  /-- collectives that have completed here, to which an entry may still come (12 R297) -/
  past : List OverColl := []
  barriers : List Barrier := []
  decisions : List Decision := []
  /-- rounds dropped at the end of their record, whose fault would be their region's: top region, region, round (12 R310) -/
  dropped : List (Nat × Nat × Round) := []
  sendq : List SendPkt := []
  /-- each flow from here: top region, destination rank, next sequence number, next place among the strong packets -/
  flowSeq : List (Nat × Nat × Nat × Nat) := []
  /-- place of the next fabric command in the die's order of issue -/
  fbSeq : Nat := 0
  /-- group messages for operations not yet issued here (12 R289, R296) -/
  early : List GMsg := []
  flowsIn : List FlowIn := []
  /-- packets held until a newer route table is installed -/
  heldPkts : List Pkt := []
  linkqs : List LinkQ := []
  /-- relayed packets in the staging part, with the flits that have left (11 R273, R275) -/
  relay : List (Pkt × Nat) := []
  /-- flits sent in the latest slot of each plane: region, plane, flits (11 R274) -/
  shares : List (Nat × Nat × Nat) := []
  /-- CKPT commands in progress -/
  ckpts : List CkptCmd := []
  clock : Nat := 0
  corrections : Nat := 0
  /-- waiters of full/empty words and join counters, in the order they reached the bank -/
  waiters : List BankWait := []
  deriving DecidableEq, Repr

/-- A microring (11 R283). -/
structure MicroRing where
  spare : Nat := 255
  sat : Bool := false
  lock : Bool := false
  mpd : Nat := 0
  heat : Nat := 0
  /-- drive of the laser of the wavelength (13 R326) -/
  laser : Nat := 0
  deriving DecidableEq, Repr

/-- A fibre port (11 R285 to R287). -/
structure Port where
  lp : Bool := false
  width : Nat := 0
  locked : Nat := 0
  drop : Bool := false
  /-- orders waiting for a guard interval: low power, width, context, number of the FPORT -/
  orders : List (Bool × Nat × Nat × Nat) := []
  /-- a wake hint waits for its guard interval -/
  wake : Bool := false
  deriving DecidableEq, Repr

/-- A rotor plane as this package sees it (11 R262 to R264). -/
structure Plane where
  active : Bool := false
  /-- receive framing seen and matching R262 -/
  framed : Bool := false
  slot : Nat := 0
  window : Bool := false
  deriving DecidableEq, Repr

/-- The header of the bundle being issued (02 R40). -/
structure Hdr where
  guard : BitVec 4 := 0#4
  gsense : Bool := false
  stage : Nat := 0
  fin : Bool := false
  deriving DecidableEq, Repr

/-- What the bundle being issued has decided so far about where the context goes on (02 R38; 04 R108 to R114). -/
structure Flow where
  nextPc : Nat := 0
  /-- a taken BR, BRC or BKTJ -/
  jump : Option Nat := none
  /-- a taken CALL: link register and target -/
  call : Option (Nat × Nat) := none
  /-- a taken RET -/
  ret : Option Nat := none
  /-- TRAP: its IMM18 -/
  trap : Option (BitVec 18) := none
  yielded : Bool := false
  /-- DONE, HALT or RFE has taken effect -/
  left : Bool := false
  /-- an AGB with RA = 1 has issued: the checkpoint is taken at the boundary after the bundle -/
  ahead : Bool := false
  /-- TAGS and the predicates as they were before the bundle (02 R45) -/
  tags0 : Word := BitVec.allOnes 64
  preds0 : List Pred := []
  /-- the number of the context's next operation before the bundle -/
  id0 : Nat := 0
  /-- matrix commands that the bundle itself has queued (10 R254) -/
  mxOwn : Nat := 0
  deriving DecidableEq, Repr

/-- What firmware tells system software (14 R331, R341). -/
structure Report where
  die : Nat
  rid : Nat
  code : Word
  pc : Word
  addr : Word
  deriving DecidableEq, Repr

/-- A completion of a firmware request (15 R357): who asked, TAG, STATUS, result. -/
structure Completion where
  sup : Option Nat
  tag : Nat
  status : Nat
  result : Word
  /-- bytes written at PTR -/
  report : List Byte := []
  deriving DecidableEq, Repr

/-- The state of the package. What orders the agents, answers open choices, presents one syllable or lists what is on its way
is the model's own: DESIGN CHOICE, log 89. -/
structure State where
  dies : List Die
  cores : List Core
  ctxs : List Ctx
  keys : List KeySlot
  /-- package index in the rotation domain (01 R18 PKG) -/
  pkg : Nat
  /-- rotation: N, active planes in order, P and G in ns (11 R262, R263) -/
  rotN : Nat
  slotP : Nat
  guardG : Nat
  planes : List Plane
  ports : List Port
  rings : List MicroRing
  mr0 : BitVec 384
  mr1 : BitVec 384
  bootstat : Word
  hqbase : Word
  hqsize : Word
  hqprod : Word
  hqcons : Word
  cqbase : Word
  cqsize : Word
  completions : List Completion
  /-- index of the next completion entry (15 R356) -/
  cqprod : Word
  /-- what the package has written to host memory: address, bytes (15 R356) -/
  dma : List (Word × List Byte)
  /-- MSI-X vectors raised (15 R356, R358, R360) -/
  msix : List Nat
  /-- whose request was served last: the host queue, or the service ring of a die's top region (15 R358) -/
  served : Option (Nat × Nat)
  /-- the request under way: its route table is not yet installed (15 R358) -/
  openReq : Option Req
  hostEvents : List Nat
  reports : List Report
  throttled : Bool
  currentLimited : Bool
  /-- packets on the die-to-die links -/
  wire : List Pkt
  /-- packets that have left the package: port, packet -/
  light : List (Nat × Pkt)
  /-- group messages that have reached a die: die, message -/
  msgs : List (Nat × GMsg)
  /-- acknowledgements, notices and answers that have left for other packages: the package, the message -/
  acksOut : List (Nat × Instr)
  /-- the context for which a lone syllable acts -/
  cur : Nat
  hdr : Hdr
  flow : Flow
  /-- contexts of pre-empted records: what of them is not in the frame (10 R258; 14 R342) -/
  saved : List (Nat × Ctx)
  /-- what the agents do next; empty: the model's default order -/
  agenda : List Instr
  /-- counts the steps of the default order -/
  turn : Nat
  /-- answers to the choices the manual leaves open; an empty tape leaves them to free values -/
  tape : List Nat
  /-- counter of free values -/
  fresh : Nat
  deriving DecidableEq, Repr

/-- Why the model stops. -/
inductive Fault
  /-- Raised by nothing: every act of the machine has a next state. Safe: no behaviour of the hardware is lost. -/
  | stuck
  deriving DecidableEq, Repr

/-- Why the model gives an instruction no meaning. -/
inductive Refusal
  /-- Raised by nothing: every instruction has its meaning. It would be raised by exec for one that has none, which is safe:
  the model stops where the hardware goes on. -/
  | notModelled (mnemonic : String)
  deriving DecidableEq, Repr

/-- What a step answers. -/
abbrev Result := Host.Outcome State Fault Refusal

/-- The seeding function of the generators (03 R82). -/
def mix (seed : Word) (l : Nat) : Word :=
  let s := seed ^^^ (BitVec.ofNat 64 (l + 1) * 0x9E3779B97F4A7C15#64)
  if s = 0#64 then 0x9E3779B97F4A7C15#64 else s

/-- The generator states of a record's start (03 R82). -/
def rngStart : List Word := (List.range 128).map (mix 0#64)

/-- A context before its first record. DESIGN CHOICE, log 6. -/
def Ctx.init : Ctx := { arch := { rng := rngStart } }

/-- A die in reset (15 R352, R353). -/
def Die.init : Die := {}

/-- The package right after reset: the dies are held in reset and the boot ROM has not run (15 R352).
DESIGN CHOICE, log 7. -/
def State.reset : State where
  dies := List.replicate 4 Die.init
  cores := List.replicate 256 {}
  ctxs := List.replicate 1024 Ctx.init
  keys := { state := .live } :: List.replicate 4095 {}
  pkg := 0
  rotN := 2
  slotP := 10000
  guardG := 400
  planes := List.replicate 64 {}
  ports := List.replicate 64 {}
  rings := List.replicate 1152 {}
  mr0 := 0#384
  mr1 := 0#384
  bootstat := 0#64
  hqbase := 0#64
  hqsize := 0#64
  hqprod := 0#64
  hqcons := 0#64
  cqbase := 0#64
  cqsize := 0#64
  completions := []
  cqprod := 0#64
  dma := []
  msix := []
  served := none
  openReq := none
  hostEvents := []
  reports := []
  throttled := false
  currentLimited := false
  wire := []
  light := []
  msgs := []
  acksOut := []
  cur := 0
  hdr := {}
  flow := {}
  saved := []
  agenda := []
  turn := 0
  tape := []
  fresh := 0

end Sys2Proof.Machine
end

