-- ==== Sys2Proof/Machine/Base.lean ====
section
/-!
DEFINITION. Reaching into the state: dies, cores, contexts, regions and their effective values, the choices.
-/

namespace Sys2Proof.Machine

open Sys2Proof

/-- The die of a context; the saved context of a pre-empted record has a number from 1,024 on. -/
def dieOf (c : Nat) : Nat := if c < 1024 then c / 256 else c % 4

/-- The core of a context, numbered through the package. -/
def coreOf (c : Nat) : Nat := c / 4

/-- The core number within its die (01 R14). -/
def coreInDie (c : Nat) : Nat := c / 4 % 64

/-- A context, running or saved. -/
def getCtx (s : State) (c : Nat) : Ctx :=
  if c < 1024 then s.ctxs.getD c Ctx.init
  else ((s.saved.find? fun e => e.1 == c).map (·.2)).getD Ctx.init

def modCtx (c : Nat) (f : Ctx → Ctx) (s : State) : State :=
  if c < 1024 then { s with ctxs := s.ctxs.modify c f }
  else { s with saved := s.saved.map fun e => if e.1 == c then (e.1, f e.2) else e }

def getArch (s : State) (c : Nat) : Arch := (getCtx s c).arch

def modArch (c : Nat) (f : Arch → Arch) (s : State) : State :=
  modCtx c (fun x => { x with arch := f x.arch }) s

def getCore (s : State) (k : Nat) : Core := s.cores.getD k {}

def modCore (k : Nat) (f : Core → Core) (s : State) : State := { s with cores := s.cores.modify k f }

def getDie (s : State) (d : Nat) : Die := s.dies.getD d {}

def modDie (d : Nat) (f : Die → Die) (s : State) : State := { s with dies := s.dies.modify d f }

/-- The count of core cycles on a context's core (02 R59). -/
def nowOf (s : State) (c : Nat) : Nat := (getCore s (coreOf c)).cycles

/-- One answer below n, where the manual leaves the answer open: from the tape, or a free value when the tape is empty.
DESIGN CHOICE, log 1. -/
def choose (n : Nat) (s : State) : Nat × State :=
  if n ≤ 1 then (0, s) else
  match s.tape with
  | [] => (Config.choice s.fresh % n, { s with fresh := s.fresh + 1 })
  | t :: ts => (t % n, { s with tape := ts })

/-- A die that is held in reset or has stopped takes no step (13 R326; 15 R352): s stays; else t. -/
def onDie (d : Nat) (s t : State) : State := if (getDie s d).inReset || (getDie s d).tripped then s else t

/-- Fold a state function over a list. -/
def foldS {α : Type} (f : α → State → State) : List α → State → State
  | [], s => s
  | a :: as, s => foldS f as (f a s)

/-- The region r of a die. DESIGN CHOICE, log 73. -/
def region? (d : Die) (r : Nat) : Option Region := d.regions.find? fun g => g.rcb.rid == r

/-- Change region r of a die. -/
def modRegion (r : Nat) (f : Region → Region) (d : Die) : Die :=
  { d with regions := d.regions.map fun g => if g.rcb.rid == r then f g else g }

/-- A region and its ancestors up to the top region (10 R246). -/
def pathUp (d : Die) (r : Nat) : Nat → List Nat
  | 0 => []
  | fuel + 1 =>
    match region? d r with
    | none => []
    | some g => if g.rcb.parent == 0 then [r] else r :: pathUp d g.rcb.parent fuel

/-- A region and its ancestors; the tree is at most 8 deep (10 R243). -/
def ancestry (d : Die) (r : Nat) : List Nat := pathUp d r 8

/-- The top region of a region's program. -/
def topOf (d : Die) (r : Nat) : Nat := (ancestry d r).getLastD 0

/-- Region b lies in the subtree of region a. -/
def inSubtree (d : Die) (a b : Nat) : Bool := (ancestry d b).contains a

/-- The effective value of an inheritable field (10 R245). -/
def effFuel {α : Type} (d : Die) (b : Nat) (f : Rcb → α) (z : α) (r : Nat) : Nat → α
  | 0 => z
  | fuel + 1 =>
    match region? d r with
    | none => z
    | some g => if g.rcb.ovr.testBit b || g.rcb.parent == 0 then f g.rcb else effFuel d b f z g.rcb.parent fuel

/-- The effective value E(r, f) (10 R245). -/
def eff {α : Type} (d : Die) (b : Nat) (f : Rcb → α) (z : α) (r : Nat) : α := effFuel d b f z r 8

def effPrio (d : Die) (r : Nat) : Nat := eff d 0 (·.prio) 0 r
def effFdom (d : Die) (r : Nat) : Nat := eff d 1 (·.fdom) 0 r
def effCores (d : Die) (r : Nat) : Word := eff d 2 (·.cores) 0#64 r
def effCcyc (d : Die) (r : Nat) : Nat := eff d 3 (·.ccyc) 0 r
def effPeriod (d : Die) (r : Nat) : Nat := eff d 3 (·.period) 65536 r
def effAgelim (d : Die) (r : Nat) : Nat := eff d 4 (·.agelim) 1 r
def effWdog (d : Die) (r : Nat) : Nat := eff d 5 (·.wdog) 0 r
def effRtmo (d : Die) (r : Nat) : Nat := eff d 6 (·.rtmo) 0 r
def effFshare (d : Die) (r : Nat) : Nat := eff d 7 (·.fshare) 0 r
def effPinb (d : Die) (r : Nat) : Nat := eff d 8 (·.pinb) 0 r
def effAgrp (d : Die) (r : Nat) : Nat := eff d 9 (·.agrp) 0 r
def effMaxctx (d : Die) (r : Nat) : Nat := eff d 10 (·.maxctx) 0 r
def effQlog (d : Die) (r : Nat) : Nat := eff d 11 (·.qlog) 6 r

/-- The region of the record that a context holds, 0 when it holds none. -/
def ridOf (s : State) (c : Nat) : Nat := ((getCtx s c).record.map (·.rid)).getD 0

/-- The tenant domain of a context: its top region (13 R312). -/
def domOf (s : State) (c : Nat) : Nat := topOf (getDie s (dieOf c)) (ridOf s c)

/-- The kernel bound at an index on a core (02 R383). -/
def kernel? (k : Core) (kid : Nat) : Option Kernel := k.kernels.find? fun n => n.kid == kid

/-- The stated latency of an operation class in the running kernel (02 R28, R34). -/
def latOf (s : State) (c cls : Nat) : Nat :=
  match kernel? (getCore s (coreOf c)) (getArch s c).kid with
  | some n => n.lat.getD cls 1
  | none => 1

/-- The native latency, or for a variable class its least (02 R34). -/
def nativeLat (cls : Nat) : Nat := [1, 3, 20, 2, 4, 3, 8, 12, 2, 4, 24, 8, 1, 4, 2, 2].getD cls 1

/-- The classes whose latency depends on where the data is found (02 R34). DESIGN CHOICE, log 2. -/
def variableClass (cls : Nat) : Bool := cls == 9 || cls == 10 || cls == 11 || cls == 13 || cls == 14

/-- Clear bit i of a word. -/
def clearBit (w : Word) (i : Nat) : Word := w &&& ~~~(BitVec.ofNat 64 (2 ^ i))

/-- Set bit i of a word. -/
def setBit (w : Word) (i : Nat) : Word := w ||| BitVec.ofNat 64 (2 ^ i)

/-- Little-endian bytes of a number (00 R3). -/
def bytesOf : Nat → Nat → List Byte
  | 0, _ => []
  | n + 1, x => BitVec.ofNat 8 x :: bytesOf n (x / 256)

/-- The number that little-endian bytes hold (00 R3). -/
def natOf : List Byte → Nat
  | [] => 0
  | b :: bs => b.toNat + 256 * natOf bs

/-- The word that up to eight little-endian bytes hold. -/
def wordOf (bs : List Byte) : Word := BitVec.ofNat 64 (natOf bs)

end Sys2Proof.Machine
end

