-- ==== Sys2Proof/Machine/Float.lean ====
section
/-!
DEFINITION. The arithmetic promise (spec 03): formats, RoundTo, special values, sums, the random generator.
Values are exact: a sign, a natural significand and a power of two, or an infinity or a NaN.
-/

namespace Sys2Proof.Machine

open Sys2Proof

/-- A binary format: exponent bits, fraction bits, bias (03 R66; 06 R163). -/
structure FF where
  eb : Nat
  fb : Nat
  bias : Nat
  deriving DecidableEq, Repr

def ffF32 : FF := ⟨8, 23, 127⟩
def ffBF16 : FF := ⟨8, 7, 127⟩
def ffF16 : FF := ⟨5, 10, 15⟩
/-- PA formats of the recombined products (06 R163). -/
def ffPABF16 : FF := ⟨9, 10, 255⟩
def ffPAF16 : FF := ⟨6, 12, 31⟩

/-- An exact extended value; `tail` says that a part between 0 and 1 unit of the significand is left out. -/
inductive Fx
  | nan
  | inf (neg : Bool)
  | fin (neg : Bool) (m : Nat) (e : Int) (tail : Bool)
  deriving DecidableEq, Repr

/-- Rounding modes (03 R76). -/
inductive Mode | rne | rz | ru | rd | rs
  deriving DecidableEq, Repr

/-- Flags of FSTATUS (03 R84). -/
def fNV : BitVec 8 := 1#8
def fDZ : BitVec 8 := 2#8
def fOF : BitVec 8 := 4#8
def fUF : BitVec 8 := 8#8
def fNX : BitVec 8 := 16#8
def fRG : BitVec 8 := 32#8
def fRF : BitVec 8 := 64#8
def fZG : BitVec 8 := 128#8

/-- The mode of FCTL (03 R76). -/
def modeOfFctl (f : BitVec 3) : Mode :=
  match f.toNat with | 1 => .rz | 2 => .ru | 3 => .rd | 4 => .rs | _ => .rne

/-- The mode in force of an operation (03 R76). -/
def modeOf (rm : RM) (fctl : BitVec 3) : Mode :=
  match rm with | .fctl => modeOfFctl fctl | .rne => .rne | .rz => .rz | .ru => .ru | .rd => .rd | .rs => .rs

def expMax (f : FF) : Nat := 2 ^ f.eb - 1
/-- Bits of plus infinity. -/
def infBits (f : FF) : Nat := expMax f * 2 ^ f.fb
/-- Bits of the canonical NaN (03 R66, R67). -/
def nanBits (f : FF) : Nat := infBits f + 2 ^ (f.fb - 1)
def signBit (f : FF) : Nat := 2 ^ (f.eb + f.fb)
/-- Exponent of the quantum of the subnormals. -/
def qmin (f : FF) : Int := 1 - (f.bias : Int) - (f.fb : Int)

/-- The value of bits (03 R66, R68). -/
def fxOf (f : FF) (n : Nat) : Fx :=
  let neg := n / signBit f % 2 == 1
  let e := n / 2 ^ f.fb % 2 ^ f.eb
  let m := n % 2 ^ f.fb
  if e = expMax f then (if m = 0 then .inf neg else .nan)
  else if e = 0 then .fin neg m (qmin f) false
  else .fin neg (2 ^ f.fb + m) (qmin f + (e - 1 : Nat)) false

/-- Length in bits of a number. -/
def bitLen (n : Nat) : Nat := if n = 0 then 0 else n.log2 + 1

def withSign (f : FF) (neg : Bool) (n : Nat) : Nat := if neg then signBit f + n else n

/-- RS takes the upper neighbour (03 R80): discarded part r of 2^sh, a tail below it, the word w. -/
def stochUp (r sh : Nat) (tail : Bool) (w : Nat) : Bool :=
  let d := r * 65536 / 2 ^ sh
  let lower := r * 65536 % 2 ^ sh != 0 || tail
  decide (w < d) || (d == w && lower)

/-- The upper neighbour is taken (03 R77): lower significand lo, discarded part r of 2^sh with a tail. -/
def roundsUp (mode : Mode) (neg : Bool) (lo r sh : Nat) (tail : Bool) (w : Nat) : Bool :=
  match mode with
  | .rne => if 2 * r = 2 ^ sh then (tail || lo % 2 == 1) else decide (2 ^ sh < 2 * r)
  | .rz => false
  | .ru => !neg
  | .rd => neg
  | .rs => stochUp r sh tail w

/-- RoundTo of a finite nonzero magnitude (03 R77): bits of the magnitude and flags. -/
def roundMag (f : FF) (neg : Bool) (m : Nat) (e : Int) (tail : Bool) (mode : Mode) (w : Nat) : Nat × BitVec 8 :=
  let q : Int := max (e + (bitLen m : Int) - 1 - (f.fb : Int)) (qmin f)
  let sh := (q - e).toNat
  let up := (e - q).toNat
  let lo := m * 2 ^ up / 2 ^ sh
  let r := m * 2 ^ up % 2 ^ sh
  let inexact := r != 0 || tail
  let y := if inexact && roundsUp mode neg lo r sh tail w then lo + 1 else lo
  let bits := (q - qmin f).toNat * 2 ^ f.fb + y
  let nx := if inexact then fNX else 0#8
  if infBits f ≤ bits then
    let toInf := match mode with | .rne | .rs => true | .rz => false | .ru => !neg | .rd => neg
    (if toInf then infBits f else infBits f - 1, fOF ||| fNX)
  else (bits, nx ||| (if inexact && decide (bits < 2 ^ f.fb) then fUF else 0#8))

/-- RoundTo (03 R77): the bits of the result and the flags; w is the random word of RS. -/
def roundTo (f : FF) (x : Fx) (mode : Mode) (w : Nat) : Nat × BitVec 8 :=
  match x with
  | .nan => (nanBits f, 0#8)
  | .inf neg => (withSign f neg (infBits f), 0#8)
  | .fin neg m e tail =>
    if m = 0 && !tail then (withSign f neg 0, 0#8) else
    let (b, fl) := roundMag f neg m e tail mode w
    (withSign f neg b, fl)

def isZeroFx : Fx → Bool | .fin _ m _ t => m == 0 && !t | _ => false
def isNanFx : Fx → Bool | .nan => true | _ => false
def isInfFx : Fx → Bool | .inf _ => true | _ => false
def negOf : Fx → Bool | .nan => false | .inf n => n | .fin n _ _ _ => n
def negFx : Fx → Fx | .nan => .nan | .inf n => .inf (!n) | .fin n m e t => .fin (!n) m e t

/-- A finite value as an integer multiple of 2^e for an e at or below its own. -/
def scaled (x : Fx) (e : Int) : Int :=
  match x with
  | .fin n m xe _ => let v : Int := (m * 2 ^ (xe - e).toNat : Nat); if n then -v else v
  | _ => 0

def expOf : Fx → Int | .fin _ _ e _ => e | _ => 0

/-- The exact sum of finite terms with the sign of a zero by R78. -/
def sumFin (ts : List Fx) (rd : Bool) : Fx :=
  let nz := ts.filter fun t => !isZeroFx t
  let e := nz.foldl (fun a t => min a (expOf t)) ((nz.head?.map expOf).getD 0)
  let v := nz.foldl (fun a t => a + scaled t e) (0 : Int)
  if v = 0 then
    if nz.isEmpty && ts.all negOf then .fin true 0 0 false
    else if nz.isEmpty && ts.all (fun t => !negOf t) then .fin false 0 0 false
    else .fin rd 0 0 false
  else .fin (decide (v < 0)) v.natAbs e false

/-- Any NaN, else an infinity that no other cancels, else the exact sum (03 R78, R83). -/
def sumFx (ts : List Fx) (rd : Bool) : Fx × BitVec 8 :=
  if ts.any isNanFx then (.nan, 0#8)
  else
    let infs := ts.filter isInfFx
    match infs with
    | [] => (sumFin ts rd, 0#8)
    | i :: is => if is.all fun j => negOf j == negOf i then (i, 0#8) else (.nan, fNV)

/-- The exact product (03 R83). -/
def mulFx (a b : Fx) : Fx × BitVec 8 :=
  match a, b with
  | .nan, _ => (.nan, 0#8)
  | _, .nan => (.nan, 0#8)
  | .inf n, .inf k => (.inf (n != k), 0#8)
  | .inf n, .fin k m _ _ => if m = 0 then (.nan, fNV) else (.inf (n != k), 0#8)
  | .fin k m _ _, .inf n => if m = 0 then (.nan, fNV) else (.inf (n != k), 0#8)
  | .fin n m e _, .fin k l g _ => (.fin (n != k) (m * l) (e + g) false, 0#8)

def isRD (m : Mode) : Bool := m == .rd

/-- a + b, exact then rounded once. -/
def addR (f : FF) (a b : Fx) (mode : Mode) (w : Nat) : Nat × BitVec 8 :=
  let (s, fl) := sumFx [a, b] (isRD mode)
  let (y, g) := roundTo f s mode w
  (y, fl ||| g)

/-- a × b, exact then rounded once. -/
def mulR (f : FF) (a b : Fx) (mode : Mode) (w : Nat) : Nat × BitVec 8 :=
  let (s, fl) := mulFx a b
  let (y, g) := roundTo f s mode w
  (y, fl ||| g)

/-- ±(a × b) ± c, exact then rounded once (03 R78); 0 × ∞ sets NV whatever the addend is (03 R83).
DEDUCED, log 86. -/
def fmaR (f : FF) (a b c : Fx) (negP negC : Bool) (mode : Mode) (w : Nat) : Nat × BitVec 8 :=
  let (p, fl) := mulFx a b
  if isNanFx p || isNanFx c then (nanBits f, fl) else
  let (s, fl2) := sumFx [if negP then negFx p else p, if negC then negFx c else c] (isRD mode)
  let (y, g) := roundTo f s mode w
  (y, fl ||| fl2 ||| g)

/-- a ÷ b under IEEE 754-2019 (05 R131), with more bits than any format keeps and a tail; a negative finite number over +∞ is
−0, as IEEE 754-2019 has it.
DESIGN CHOICE, log 122. -/
def divFx (a b : Fx) : Fx × BitVec 8 :=
  match a, b with
  | .nan, _ => (.nan, 0#8)
  | _, .nan => (.nan, 0#8)
  | .inf _, .inf _ => (.nan, fNV)
  | .inf n, .fin k _ _ _ => (.inf (n != k), 0#8)
  | .fin n _ _ _, .inf k => (.fin (n != k) 0 0 false, 0#8)
  | .fin n m e _, .fin k l g _ =>
    if l = 0 then (if m = 0 then (.nan, fNV) else (.inf (n != k), fDZ))
    else
      let sh := bitLen l + 80
      (.fin (n != k) (m * 2 ^ sh / l) (e - g - (sh : Int)) (m * 2 ^ sh % l != 0), 0#8)

/-- The order of two values that are not NaN, −0 below +0: a key that compares as an integer pair. -/
def ltFx (a b : Fx) : Bool :=
  match a, b with
  | .nan, _ => false
  | _, .nan => false
  | .inf n, .inf k => n && !k
  | .inf n, .fin .. => n
  | .fin .., .inf k => !k
  | .fin n m e _, .fin k l g _ =>
    let lo := min e g
    let x := scaled (.fin n m e false) lo
    let y := scaled (.fin k l g false) lo
    decide (x < y) || (x == y && n && !k)

/-- Equality of values; zeros of both signs are equal (03 R83). -/
def eqFx (a b : Fx) : Bool :=
  match a, b with
  | .nan, _ => false
  | _, .nan => false
  | .inf n, .inf k => n == k
  | .inf _, .fin .. => false
  | .fin .., .inf _ => false
  | .fin n m e _, .fin k l g _ => scaled (.fin n m e false) (min e g) == scaled (.fin k l g false) (min e g)

/-- Less than as a comparison: zeros of both signs are equal (03 R83). -/
def cmpLt (a b : Fx) : Bool := ltFx a b && !eqFx a b

/-- Rounding to an integer by a mode (03 R79): the integer and whether it differs from the value. -/
def roundInt (neg : Bool) (m : Nat) (e : Int) (mode : Mode) (w : Nat) : Int × Bool :=
  let sh := (-e).toNat
  let up := e.toNat
  let lo := m * 2 ^ up / 2 ^ sh
  let r := m * 2 ^ up % 2 ^ sh
  let y := if r != 0 && roundsUp mode neg lo r sh false w then lo + 1 else lo
  (if neg then -(y : Int) else (y : Int), r != 0)

/-- Range of a saturating integer format of w bits (03 R79). -/
def satInt (w : Nat) (x : Int) : Int := max (-(2 ^ (w - 1) : Nat)) (min ((2 ^ (w - 1) : Nat) - 1) x)

/-- Floating to integer (03 R79). -/
def toIntR (width : Nat) (x : Fx) (mode : Mode) (w : Nat) : Int × BitVec 8 :=
  match x with
  | .nan => (0, fNV)
  | .inf neg => (satInt width (if neg then -(2 ^ 200) else 2 ^ 200), fNV)
  | .fin neg m e _ =>
    let (y, nx) := roundInt neg m e mode w
    if satInt width y = y then (y, if nx then fNX else 0#8) else (satInt width y, fNV)

/-- An integer as an exact value. -/
def fxOfInt (x : Int) : Fx := .fin (decide (x < 0)) x.natAbs 0 false

/-- The format of a floating element (02 R48). -/
def ffOf : Fmt → FF | .bf16 => ffBF16 | .f16 => ffF16 | _ => ffF32

/-- Width in bits of an element (04 R90). -/
def widthOf : Fmt → Nat | .f32 | .i32 => 32 | .bf16 | .f16 => 16 | .i8 => 8

/-- The element bits of a lane (04 R90). -/
def elemBits (f : Fmt) (l : Lane) : Nat := l.toNat % 2 ^ widthOf f

/-- The value of a floating element. -/
def elemFx (f : Fmt) (l : Lane) : Fx := fxOf (ffOf f) (elemBits f l)

/-- A number of w bits read as two's-complement (03 R69). -/
def signedN (w n : Nat) : Int := if n % 2 ^ w < 2 ^ (w - 1) then (n % 2 ^ w : Nat) else (n % 2 ^ w : Nat) - (2 ^ w : Nat)

/-- An integer narrowed to w bits (03 R69). -/
def wrapN (w : Nat) (x : Int) : Nat := (x % (2 ^ w : Nat)).toNat

/-- Maximum and minimum with R83: a NaN gives the canonical NaN, −0 is below +0. -/
def minmaxBits (f : FF) (isMax : Bool) (a b : Nat) : Nat :=
  let x := fxOf f a
  let y := fxOf f b
  if isNanFx x || isNanFx y then nanBits f
  else if isMax then (if ltFx x y then b else a) else (if ltFx y x then b else a)

/-- One step of the generator (03 R82): new state and output. -/
def nextRand (s : Word) : Word × Word :=
  let s := s ^^^ (s >>> 12)
  let s := s ^^^ (s <<< 25)
  let s := s ^^^ (s >>> 27)
  (s, s * 0x2545F4914F6CDD1D#64)

/-- The word that a rounding under RS consumes, with the new generator state (03 R82). -/
def consume (s : Word) : Nat × Word :=
  let (s', out) := nextRand s
  (bitsN out 63 48, s')

/-- One K-step of the matrix engine for one element (03 R87); acc none leaves the accumulator out (06 R164). -/
def macStep (acc : Option Fx) (ab : List (Fx × Fx)) : Nat × BitVec 8 :=
  let prods := ab.map fun p => mulFx p.1 p.2
  let bad := prods.any fun p => p.2 != 0#8
  let terms := (acc.toList) ++ prods.map (·.1)
  let infs := terms.filter isInfFx
  let cancel := infs.any negOf && infs.any fun i => !negOf i
  if ab.any (fun p => isNanFx p.1 || isNanFx p.2) || bad || cancel || (acc.map isNanFx).getD false then
    (nanBits ffF32, if bad || cancel then fNV else 0#8)
  else match infs with
    | i :: _ => (withSign ffF32 (negOf i) (infBits ffF32), 0#8)
    | [] => roundTo ffF32 (sumFin terms false) .rne 0

/-- A reduction operator on element bits (08 R210): old and new element of the operator's element type. -/
def reduceElem (op : Nat) (old new : Nat) : Nat × BitVec 8 :=
  let int (w k : Nat) : Nat :=
    match k with
    | 0 => (old + new) % 2 ^ w
    | 1 => if signedN w old ≤ signedN w new then old else new
    | 2 => if signedN w old ≤ signedN w new then new else old
    | 3 => old &&& new
    | 4 => old ||| new
    | _ => old ^^^ new
  let flt (f : FF) (k : Nat) : Nat × BitVec 8 :=
    match k with
    | 0 => addR f (fxOf f old) (fxOf f new) .rne 0
    | 1 => (minmaxBits f false old new, 0#8)
    | _ => (minmaxBits f true old new, 0#8)
  if op < 8 then (int 32 op, 0#8)
  else if op < 16 then (int 64 (op - 8), 0#8)
  else if op < 20 then flt ffF32 (op - 16)
  else if op < 24 then flt ffBF16 (op - 20)
  else flt ffF16 (op - 24)

/-- Whether an operator is floating (08 R210). -/
def opFloat (op : Nat) : Bool := decide (16 ≤ op)

/-- Whether the bits of an element of a floating operator are finite. -/
def opFinite (op n : Nat) : Bool :=
  let f := if op < 20 then ffF32 else if op < 24 then ffBF16 else ffF16
  match fxOf f n with | .fin .. => true | _ => false

/-- Tree64 over values with their flags (03 R85): one level of pairs. -/
def pairUp (f : FF) (mode : Mode) : List Nat → List Nat × BitVec 8
  | a :: b :: r =>
    let (y, g) := addR f (fxOf f a) (fxOf f b) mode 0
    let (ys, gs) := pairUp f mode r
    (y :: ys, g ||| gs)
  | r => (r, 0#8)

/-- Tree64 (03 R85): 2^levels values. -/
def tree64 (f : FF) (mode : Mode) : Nat → List Nat → Nat × BitVec 8
  | 0, xs => (xs.headD 0, 0#8)
  | n + 1, xs =>
    let (ys, g) := pairUp f mode xs
    let (y, gs) := tree64 f mode n ys
    (y, g ||| gs)

end Sys2Proof.Machine
end

