-- ==== Sys2Proof/Machine/Operands.lean ====
section
/-!
DEFINITION. Operand forms: the registers an operation names, its class, its privilege, its guard,
reading registers, rotation of names (spec 02 R34, R43, R45, R48, R52 to R58; 04 R119).
-/

namespace Sys2Proof.Machine

open Sys2Proof

/-- A register name as a syllable writes it (02 R45, R48). -/
inductive RName | x (n : Nat) | a (n : Nat) | v (n : Nat) | p (n : Nat) | q (n : Nat)
  deriving DecidableEq, Repr

abbrev xn (r : BitVec 6) : RName := .x r.toNat
abbrev vn (r : BitVec 6) : RName := .v r.toNat
abbrev pn (r : BitVec 4) : RName := .p r.toNat
abbrev an (r : BitVec 4) : RName := .a r.toNat

/-- The pair that an even register names (06 R144). -/
def pairN (r : BitVec 6) : List RName := [.x r.toNat, .x (r.toNat + 1)]

/-- A run of n scalar registers. -/
def runN (r : BitVec 6) (n : Nat) : List RName := (List.range n).map fun i => .x (r.toNat + i)

/-- The registers that an operation names as destinations (02 R45). -/
def dests : Instr → List RName
  | .add rd .. | .sub rd .. | .mul rd .. | .mulh rd .. | .mulhu rd .. | .div rd .. | .divu rd .. | .rem rd ..
  | .remu rd .. | .and rd .. | .or rd .. | .xor rd .. | .andn rd .. | .shl rd .. | .shr rd .. | .sra rd ..
  | .min rd .. | .max rd .. | .minu rd .. | .maxu rd .. | .sel rd .. | .clz rd .. | .ctz rd .. | .popc rd ..
  | .lea rd .. | .sext rd .. | .zext rd .. | .addi rd .. | .andi rd .. | .ori rd .. | .xori rd .. | .shli rd ..
  | .shri rd .. | .srai rd .. | .movi rd .. | .movhi rd .. | .call rd .. | .ffrdy rd .. | .mfs rd ..
  | .vext rd .. | .vrsum _ _ rd .. | .vrmax _ rd .. | .vrmin _ rd .. | .pcnt rd .. | .pfirst rd ..
  | .vmaxi _ rd .. | .vmini _ rd .. | .ld _ _ _ rd .. | .ldS _ _ _ rd .. | .ldf rd ..
  | .aadd _ rd .. | .aand _ rd .. | .aor _ rd .. | .axor _ rd .. | .amin _ rd .. | .amax _ rd .. | .aswp _ rd ..
  | .cas _ rd .. | .afadd rd .. | .aaddH _ rd .. | .aandH _ rd .. | .aorH _ rd .. | .axorH _ rd ..
  | .aminH _ rd .. | .amaxH _ rd .. | .aswpH _ rd .. | .casH _ rd .. | .afaddH rd .. | .froute rd .. => [xn rd]
  | .cmp _ pd .. | .vcmp _ _ pd .. | .pand pd .. | .por pd .. | .pxor pd .. | .pandn pd .. | .pnot pd .. => [pn pd]
  | .vadd _ _ vd .. | .vsub _ _ vd .. | .vmul _ _ vd .. | .vfma _ _ vd .. | .vfms _ _ vd .. | .vfnma _ _ vd ..
  | .vmin _ vd .. | .vmax _ vd .. | .vabs _ vd .. | .vneg _ vd .. | .vand vd .. | .vor vd .. | .vxor vd ..
  | .vshl _ vd .. | .vshr _ vd .. | .vsra _ vd .. | .vadds _ vd .. | .vsubs _ vd .. | .vsel vd .. | .vmov vd ..
  | .vbcst vd .. | .vins vd .. | .viota vd | .vcvt _ _ _ vd .. | .vcmpr vd .. | .vexpd vd .. | .xcopy vd ..
  | .exp2 _ _ vd .. | .log2 _ _ vd .. | .rcp _ _ vd .. | .rsq _ _ vd .. | .sin _ _ vd .. | .cos _ _ vd ..
  | .tanh _ _ vd .. | .erf _ _ vd .. | .rnd _ vd | .cxs _ _ vd .. | .vnormsel _ vd .. | .vld _ _ _ vd ..
  | .vldS _ _ _ vd .. | .qpop vd _ => [vn vd]
  | .cxsi _ _ vd .. => [vn vd, .v (vd.toNat + 1)]
  | .aset ad .. | .astr ad .. => [an ad]
  | .ainc rd ad _ => [xn rd, an ad]
  | _ => []

/-- The registers that an operation reads (02 R45). -/
def srcs : Instr → List RName
  | .add _ ra rb | .sub _ ra rb | .mul _ ra rb | .mulh _ ra rb | .mulhu _ ra rb | .div _ ra rb | .divu _ ra rb
  | .rem _ ra rb | .remu _ ra rb | .and _ ra rb | .or _ ra rb | .xor _ ra rb | .andn _ ra rb | .shl _ ra rb
  | .shr _ ra rb | .sra _ ra rb | .min _ ra rb | .max _ ra rb | .minu _ ra rb | .maxu _ ra rb
  | .cmp _ _ ra rb | .lea _ ra rb _ | .phase ra rb | .svapply ra rb _ | .svinit ra rb _ | .svdiag ra rb _
  | .svnorm ra rb _ | .svmap ra rb _ | .fsend ra rb _ | .frecv ra rb _ | .fexpect _ ra rb _ | .fport ra rb _
  | .agbx ra rb | .tlbi ra rb _ | .cpyr _ ra rb _ | .rbinit _ ra rb
  | .aadd _ _ ra rb | .aand _ _ ra rb | .aor _ _ ra rb | .axor _ _ ra rb | .amin _ _ ra rb | .amax _ _ ra rb
  | .aswp _ _ ra rb | .afadd _ ra rb | .aaddH _ _ ra rb | .aandH _ _ ra rb | .aorH _ _ ra rb | .axorH _ _ ra rb
  | .aminH _ _ ra rb | .amaxH _ _ ra rb | .aswpH _ _ ra rb | .afaddH _ ra rb => [xn ra, xn rb]
  | .sel _ ra rb pc => [xn ra, xn rb, pn pc]
  | .cas _ rd ra rb | .casH _ rd ra rb => [xn ra, xn rb, xn rd]
  | .ared _ ra rb rv | .aredH _ ra rb rv => [xn ra, xn rb, xn rv]
  | .svprob ra rb rc _ | .cpym ra rb rc _ => [xn ra, xn rb, xn rc]
  | .clz _ ra | .ctz _ ra | .popc _ ra | .sext _ ra _ | .zext _ ra _ | .addi _ ra _ | .andi _ ra _ | .ori _ ra _
  | .xori _ ra _ | .shli _ ra _ | .shri _ ra _ | .srai _ ra _ | .ret ra | .bktj _ ra | .bktset _ ra | .waitt ra
  | .waitany ra | .ffrdy _ ra | .join ra | .joinW ra | .mts _ ra | .tagsWrite ra | .fstatusWrite ra
  | .fctlWrite ra | .rowprogWrite ra | .keyselGen ra | .keyselKill ra | .halt ra | .vbcst _ ra | .seed ra
  | .ld _ _ _ _ ra _ | .ldS _ _ _ _ ra _ | .vld _ _ _ _ ra _ | .vldS _ _ _ _ ra _ | .ldf _ ra _ | .preft _ ra _ _
  | .loop ra _ | .replay _ ra _ | .aset _ ra _ | .astr _ ra _ | .scl _ ra _ | .mxsave ra | .mxrest ra
  | .coll ra _ | .collw ra | .ckpt ra _ => [xn ra]
  | .barr rb _ | .froute _ rb _ => [xn rb]
  | .agb pc rb => [xn rb, pn pc]
  | .movhi rd .. => [xn rd]
  | .brc pc .. => [pn pc]
  | .spawn ra => runN ra 4
  | .st _ _ _ rs ra _ | .stS _ _ _ rs ra _ | .ste rs ra _ => [xn rs, xn ra]
  | .vst _ _ _ vs ra _ | .vstS _ _ _ vs ra _ => [vn vs, xn ra]
  | .pin _ ra rb => pairN ra ++ [xn rb]
  | .mma _ _ ra rb _ | .mmr _ _ _ ra rb => pairN ra ++ pairN rb
  | .mload _ ra => pairN ra
  | .fput ra rb _ | .fputS ra rb _ | .fputR _ ra rb _ | .fget ra rb _ => pairN ra ++ [xn rb]
  | .cpy dr sr ra rb _ => (if dr then runN ra 8 else [xn ra]) ++ (if sr then runN rb 8 else [xn rb])
  | .ainc _ ad _ => [an ad]
  | .vadd _ _ _ va vb | .vsub _ _ _ va vb | .vmul _ _ _ va vb | .vmin _ _ va vb | .vmax _ _ va vb | .vand _ va vb
  | .vor _ va vb | .vxor _ va vb | .vshl _ _ va vb | .vshr _ _ va vb | .vsra _ _ va vb | .vadds _ _ va vb
  | .vsubs _ _ va vb | .vcmp _ _ _ va vb => [vn va, vn vb]
  | .vfma _ _ vd va vb | .vfms _ _ vd va vb | .vfnma _ _ vd va vb => [vn va, vn vb, vn vd]
  | .vabs _ _ va | .vneg _ _ va | .vmov _ va | .vcvt _ _ _ _ va | .exp2 _ _ _ va | .log2 _ _ _ va | .rcp _ _ _ va
  | .rsq _ _ _ va | .sin _ _ _ va | .cos _ _ _ va | .tanh _ _ _ va | .erf _ _ _ va | .cxs _ _ _ va _ _ => [vn va]
  | .cxsi _ _ _ va _ _ => [vn va, .v (va.toNat + 1)]
  | .vsel _ va vb pc => [vn va, vn vb, pn pc]
  | .vext _ va rb | .xcopy _ va rb => [vn va, xn rb]
  | .vins _ ra rb => [xn ra, xn rb]
  | .vcmpr _ va pb | .vexpd _ va pb | .vrsum _ _ _ va pb | .vrmax _ _ va pb | .vrmin _ _ va pb | .vmaxi _ _ va pb
  | .vmini _ _ va pb | .vnormsel _ _ va pb _ => [vn va, pn pb]
  | .pand _ pa pb | .por _ pa pb | .pxor _ pa pb | .pandn _ pa pb => [pn pa, pn pb]
  | .pnot _ pa | .pcnt _ pa | .pfirst _ pa => [pn pa]
  | _ => []

/-- The result queues that an operation names (02 R45). -/
def queuesOf : Instr → List Nat
  | .qpop _ q => [q.toNat]
  | .mdrain _ _ q _ => [q.toNat]
  | _ => []

/-- Opcodes marked S: they need level 1 (02 R52, R57). -/
def needsS : Instr → Bool
  | .rfe | .keyselGen _ | .keyselKill _ | .halt _ | .ckwait | .fport .. | .tlbi .. | .ckpt .. => true
  | _ => false

/-- The read level of a special register is S (02 R58). -/
def readS (n : Nat) : Bool := [0x020, 0x021, 0x022, 0x023].contains n

/-- The write level of a special register: none for no level, some false for all, some true for S (02 R58). -/
def writeLevel (n : Nat) : Option Bool :=
  match n with
  | 0x001 => some true
  | 0x002 => some false
  | 0x003 => some false
  | 0x008 => some true
  | 0x021 => some true
  | 0x023 => some true
  | _ => none

/-- The privilege check of R44 step 5: true when the level may run the operation. -/
def privOk (level : Nat) (i : Instr) : Bool :=
  (!needsS i || decide (1 ≤ level)) &&
  match i with
  | .mfs _ n => !readS n.toNat || decide (1 ≤ level)
  | .mts n _ => match writeLevel n.toNat with | none => false | some s => !s || decide (1 ≤ level)
  | .tagsWrite _ | .rowprogWrite _ => decide (1 ≤ level)
  | _ => true

/-- Operations that are guarded lane by lane (02 R43). -/
def laneGuarded (i : Instr) : Bool :=
  match i with
  | .vst .. | .vstS .. | .vld .. | .vldS .. | .qpop .. | .seed _ => true
  | _ => (dests i).any fun r => match r with | .v _ | .p _ => true | _ => false

/-- Integer element formats take class 3, floating ones class 4 (02 R53). -/
def classVec (f : Fmt) : Nat := if f.isFloat then 4 else 3

/-- The operation class (02 R34, R51 to R57); loads are decided where they find their bytes. -/
def classOf : Instr → Option Nat
  | .mul .. | .mulh .. | .mulhu .. => some 1
  | .div .. | .divu .. | .rem .. | .remu .. => some 2
  | .cmp .. => some 15
  | .add .. | .sub .. | .and .. | .or .. | .xor .. | .andn .. | .shl .. | .shr .. | .sra .. | .min .. | .max ..
  | .minu .. | .maxu .. | .sel .. | .clz .. | .ctz .. | .popc .. | .lea .. | .sext .. | .zext .. | .addi ..
  | .andi .. | .ori .. | .xori .. | .shli .. | .shri .. | .srai .. | .movi .. | .movhi .. | .call .. => some 0
  | .ffrdy .. | .mfs .. | .froute .. => some 14
  | .vadd f .. | .vsub f .. | .vmul f .. | .vfma f .. | .vfms f .. | .vfnma f .. | .vmin f .. | .vmax f ..
  | .vabs f .. | .vneg f .. => some (classVec f)
  | .vand .. | .vor .. | .vxor .. | .vshl .. | .vshr .. | .vsra .. | .vadds .. | .vsubs .. | .vsel .. | .vmov ..
  | .vbcst .. | .vext .. | .vins .. | .viota .. | .pcnt .. | .pfirst .. => some 3
  | .vcvt .. | .vcmpr .. | .vexpd .. => some 5
  | .vrsum .. | .vrmax .. | .vrmin .. | .xcopy .. => some 6
  | .vcmp .. | .pand .. | .por .. | .pxor .. | .pandn .. | .pnot .. => some 15
  | .exp2 .. | .log2 .. | .rcp .. | .rsq .. | .sin .. | .cos .. | .tanh .. | .erf .. | .rnd .. => some 7
  | .cxs .. | .cxsi .. | .vmaxi .. | .vmini .. | .vnormsel .. => some 8
  | .aset .. | .ainc .. | .astr .. => some 12
  | .qpop .. => some 13
  | .aadd .. | .aand .. | .aor .. | .axor .. | .amin .. | .amax .. | .aswp .. | .cas .. | .afadd ..
  | .aaddH .. | .aandH .. | .aorH .. | .axorH .. | .aminH .. | .amaxH .. | .aswpH .. | .casH .. | .afaddH .. => some 11
  | .ldf .. => some 9
  | _ => none

/-- Operations whose bundle blocks while the context runs ahead (12 R307; 09 R240). -/
def heldBack : Instr → Bool
  | .preft .. | .pin .. | .unpin .. | .phase .. | .rbinit .. | .rbrel .. | .scl .. | .spawn .. | .join .. | .joinW ..
  | .ldf .. | .ste .. | .aadd .. | .aand .. | .aor .. | .axor .. | .amin .. | .amax .. | .aswp .. | .cas .. | .afadd ..
  | .ared .. | .aaddH .. | .aandH .. | .aorH .. | .axorH .. | .aminH .. | .amaxH .. | .aswpH .. | .casH ..
  | .afaddH .. | .aredH .. | .cpy .. | .cpym .. | .cpyr .. | .fsend .. | .frecv .. | .fput .. | .fputS .. | .fputR ..
  | .fget .. | .fexpect .. | .fport .. | .coll .. | .collw .. | .barr .. | .agb .. | .agbx .. | .mma .. | .mmr ..
  | .mload .. | .mdrain .. | .mzero .. | .mxsave .. | .mxrest .. | .mtalloc .. | .mtfree | .qpop ..
  | .svinit .. | .svapply .. | .svdiag .. | .svprob .. | .svnorm .. | .svmap .. | .tlbi .. | .ckpt ..
  | .tagsWrite _ | .rowprogWrite _ | .mts .. => true
  | _ => false

/-- Matrix operations: the automatic save of R160 comes before the first of them in a handler. -/
def isMatrix : Instr → Bool
  | .mma .. | .mmr .. | .mload .. | .mdrain .. | .mzero .. | .mxsave .. | .mxrest .. | .mtalloc .. | .mtfree
  | .qpop .. => true
  | _ => false

/-- Commands that read a descriptor at issue on the LS path (09 R226). -/
def readsDescriptor : Instr → Bool
  | .cpy dr sr .. => !(dr && sr)
  | .cpym .. | .cpyr .. | .preft .. | .coll .. | .collw .. => true
  | _ => false

/-- A replay level is innermost (04 R119). -/
def inReplay (a : Arch) : Bool := match a.loops.getLast? with | some l => l.kind == .replay | none => false

/-- The physical vector register that a name denotes (04 R119). -/
def physV (a : Arch) (n : Nat) : Nat := if inReplay a && decide (32 ≤ n) then 32 + (n - 32 + a.rotBase) % 32 else n

/-- Reading registers; x0 reads zero and p0 all ones (02 R43, R45). -/
def rdX (a : Arch) (r : BitVec 6) : Word := if r = 0#6 then 0#64 else a.x.getD r.toNat 0#64
def rdXN (a : Arch) (n : Nat) : Word := if n = 0 then 0#64 else a.x.getD n 0#64
def rdVN (a : Arch) (n : Nat) : VReg := a.v.getD (physV a n) vzero
def rdV (a : Arch) (r : BitVec 6) : VReg := rdVN a r.toNat
def rdP (a : Arch) (r : BitVec 4) : Pred := if r = 0#4 then pall else a.p.getD r.toNat 0#128
def rdA (a : Arch) (r : BitVec 4) : AReg := a.a.getD r.toNat {}

/-- The guard value of every lane (02 R43). -/
def guardOf (a : Arch) (h : Hdr) : Pred := if h.gsense then ~~~(rdP a h.guard) else rdP a h.guard

/-- The physical register of a name. -/
def destOf (a : Arch) (r : RName) : Dest :=
  match r with
  | .x n => .x n
  | .v n => .v (physV a n)
  | .p n => .p n
  | .a n => .a n
  | .q _ => .none

end Sys2Proof.Machine
end

