-- ==== Sys2Proof/Machine/Flags.lean ====
section
/-!
DEFINITION. Conditions and comparisons (spec 02 R49; 03 R83; 04 R93, R100; 05 R128). The flag computations of
the floating operations stand with RoundTo in Machine/Float.lean.
-/

namespace Sys2Proof.Machine

open Sys2Proof

/-- The condition of CMP (04 R93). -/
def condX (c : Cond) (a b : Word) : Bool :=
  match c with
  | .eq => a == b
  | .ne => a != b
  | .lt => decide (a.toInt < b.toInt)
  | .le => decide (a.toInt ≤ b.toInt)
  | .gt => decide (b.toInt < a.toInt)
  | .ge => decide (b.toInt ≤ a.toInt)
  | .ltu => decide (a.toNat < b.toNat)
  | .leu => decide (a.toNat ≤ b.toNat)
  | .gtu => decide (b.toNat < a.toNat)
  | .geu => decide (b.toNat ≤ a.toNat)

/-- The condition of VCMP on floating values: a NaN makes every condition false but NE (03 R83). -/
def condF (c : VCond) (a b : Fx) : Bool :=
  if isNanFx a || isNanFx b then c == .ne else
  match c with
  | .eq => eqFx a b
  | .ne => !eqFx a b
  | .lt => cmpLt a b
  | .le => cmpLt a b || eqFx a b
  | .gt => cmpLt b a
  | .ge => cmpLt b a || eqFx a b

/-- The condition of VCMP on signed integers (04 R100). -/
def condI (c : VCond) (a b : Int) : Bool :=
  match c with
  | .eq => a == b
  | .ne => a != b
  | .lt => decide (a < b)
  | .le => decide (a ≤ b)
  | .gt => decide (b < a)
  | .ge => decide (b ≤ a)

/-- The condition of VCMP on elements of a format. -/
def condV (f : Fmt) (c : VCond) (a b : Lane) : Bool :=
  if f.isFloat then condF c (elemFx f a) (elemFx f b)
  else condI c (signedN (widthOf f) (elemBits f a)) (signedN (widthOf f) (elemBits f b))

/-- The element format of a key format (02 R48). -/
def kfFmt : KF → Fmt | .f32 => .f32 | .bf16 => .bf16 | .i32 => .i32

/-- Key a lies below key b in the total order of R128. -/
def keyBelow (k : KF) (a b : Lane) : Bool :=
  match k with
  | .i32 => decide (signedN 32 a.toNat < signedN 32 b.toNat)
  | _ =>
    let x := elemFx (kfFmt k) a
    let y := elemFx (kfFmt k) b
    if isNanFx y then false else if isNanFx x then true else ltFx x y

/-- Key a ranks before key b in a direction (05 R128). -/
def ranksBefore (k : KF) (desc : Bool) (a b : Lane) : Bool := if desc then keyBelow k b a else keyBelow k a b

/-- A key is a NaN. -/
def keyNan (k : KF) (a : Lane) : Bool := match k with | .i32 => false | _ => isNanFx (elemFx (kfFmt k) a)

end Sys2Proof.Machine
end

