-- ==== Sys2Proof/Machine/Bytes.lean ====
section
/-!
DEFINITION. The bytes of a die's storage in one canonical form (spec 08 R184, R190, R196).
-/

namespace Sys2Proof.Machine

open Sys2Proof

/-- The bytes of a die's storage that differ from what an unlisted address reads as, by rising address. -/
abbrev Memory := List Host.Cell

/-- What an address that memory does not list reads as: a scratchpad and a new direct step read zero
(08 R190, R196); of DRAM that nothing has written the manual says nothing, and zero is the model's choice.
DESIGN CHOICE, log 5. -/
def unlisted (_a : Nat) : Byte := 0#8

/-- Scratchpad byte 0 of the die in the flat numbering of its storage; DRAM offsets stand below it. -/
def scratchBase : Nat := 2 ^ 37

/-- Basin-direct byte 0 of the die in the flat numbering. -/
def directBase : Nat := 2 ^ 38

def isScratch (a : Nat) : Bool := decide (scratchBase ≤ a) && decide (a < directBase)
def isDirect (a : Nat) : Bool := decide (directBase ≤ a)
def isDram (a : Nat) : Bool := decide (a < scratchBase)

/-- The byte at an address. DESIGN CHOICE, log 5. -/
def readByte : Memory → Nat → Byte
  | [], a => unlisted a
  | (b, v) :: m, a => if a < b then unlisted a else if b = a then v else readByte m a

/-- Write one byte; the value an unlisted address reads as removes the entry. -/
def writeByte : Memory → Nat → Byte → Memory
  | [], a, v => if v = unlisted a then [] else [(a, v)]
  | (b, w) :: m, a, v =>
    if a < b then (if v = unlisted a then (b, w) :: m else (a, v) :: (b, w) :: m)
    else if a = b then (if v = unlisted a then m else (a, v) :: m)
    else (b, w) :: writeByte m a v

/-- The entries that a run of bytes from an address gives. -/
def cellsOf : Nat → List Byte → Memory
  | _, [] => []
  | a, v :: vs => if v = unlisted a then cellsOf (a + 1) vs else (a, v) :: cellsOf (a + 1) vs

/-- Write a run of bytes at rising addresses. -/
def writeRun : Memory → Nat → List Byte → Memory
  | [], a, vs => cellsOf a vs
  | (b, w) :: m, a, vs =>
    if b < a then (b, w) :: writeRun m a vs
    else cellsOf a vs ++ ((b, w) :: m).filter fun e => decide (a + vs.length ≤ e.1)

/-- The run of n bytes from address a of a memory that lists no address below a. -/
def readFrom : Nat → Memory → Nat → List Byte
  | 0, _, _ => []
  | n + 1, [], a => unlisted a :: readFrom n [] (a + 1)
  | n + 1, (b, v) :: m, a => if b = a then v :: readFrom n m (a + 1) else unlisted a :: readFrom n ((b, v) :: m) (a + 1)

/-- Read a run of bytes. -/
def readRun (m : Memory) (a n : Nat) : List Byte := readFrom n (m.dropWhile fun e => decide (e.1 < a)) a

/-- The canonical form: addresses rise strictly and no entry equals what an unlisted address reads as. -/
def wfFrom : Nat → Memory → Bool
  | _, [] => true
  | lo, (a, v) :: m => decide (lo ≤ a) && (v != unlisted a) && wfFrom (a + 1) m

def Memory.wf (m : Memory) : Bool := wfFrom 0 m

end Sys2Proof.Machine
end

