-- ==== Sys2Proof/Machine/Walk.lean ====
section
/-!
DEFINITION. What a path may still miss of the writes to memory, the entries of page tables, and the PIN windows that
hold a line (spec 09 R221, R222; 13 R314 to R317; 08 R198).
-/

namespace Sys2Proof.Machine

open Sys2Proof

def allPaths : List Path := [.ls, .cp, .mx, .sv, .fb, .bk]

/-- The key tag of a slot now: the slot and how many keys it has held (13 R319). -/
def keyTag (s : State) (slot : Nat) : Config.KeyTag := (slot, (s.keys.getD slot {}).gen)

/-! Reads that may miss writes -/

/-- A hidden write overlaps a run of bytes. -/
def Unseen.meets (r : Unseen) (a n : Nat) : Bool := decide (r.addr < a + n) && decide (a < r.addr + r.old.length)

/-- How many writes to bytes of a run are not yet visible to path p. -/
def hiddenCount (p : Path) (a n : Nat) (u : List Unseen) : Nat := (u.filter fun r => r.hid.contains p && r.meets a n).length

/-- What byte b was before a write, as a reader under key k sees it: DRAM written under another key is garbled
(13 R321); a reader that names no key sees every write under its own. -/
def oldByte (m : Memory) (k : Option Config.KeyTag) (r : Unseen) (b : Nat) : Byte :=
  let old := r.old.getD (b - r.addr) 0#8
  match k with
  | some k =>
    if isDram b && r.key != k then
      Config.garble r.key k (b / 128) (readRun (writeRun m r.addr r.old) (b / 128 * 128) 128) (b % 128)
    else old
  | none => old

/-- A run of bytes from a as a read on path p sees it that misses the newest `skip` of the writes hidden from p, newest
write first; the flag of a byte says that a write which the path sees has settled it: a read never goes behind such a
write (09 R221, R222). -/
def missRun (m : Memory) (p : Path) (k : Option Config.KeyTag) (a : Nat) : List Unseen → Nat → List (Byte × Bool) → List (Byte × Bool)
  | [], _, bs => bs
  | r :: us, skip, bs =>
    if !r.meets a bs.length then missRun m p k a us skip bs
    else
      let covered (i : Nat) : Bool := decide (r.addr ≤ a + i) && decide (a + i < r.addr + r.old.length)
      match skip, r.hid.contains p with
      | n + 1, true => missRun m p k a us n (bs.zipIdx.map fun b =>
          if covered b.2 && !b.1.2 then (oldByte m k r (a + b.2), false) else b.1)
      | n, _ => missRun m p k a us n (bs.zipIdx.map fun b => if covered b.2 then (b.1.1, true) else b.1)

/-- The bytes of a run as seen on path p, given the bytes that stand there. -/
def seenRun (m : Memory) (p : Path) (k : Option Config.KeyTag) (a : Nat) (cur : List Byte) (u : List Unseen) (skip : Nat) : List Byte :=
  if skip = 0 then cur else (missRun m p k a u skip (cur.map fun b => (b, false))).map (·.1)

/-- After a read on path p that missed the newest `skip` of the writes to a run, the older ones are visible.
DESIGN CHOICE, log 1. -/
def markSeen (p : Path) (a n skip : Nat) : List Unseen → List Unseen
  | [] => []
  | r :: rs =>
    if r.hid.contains p && r.meets a n then
      match skip with
      | k + 1 => r :: markSeen p a n k rs
      | 0 => { r with hid := r.hid.filter (· != p) } :: markSeen p a n 0 rs
    else r :: markSeen p a n skip rs

/-- Writes that every path sees are forgotten once no older one is left behind them. -/
def forgetSeen (u : List Unseen) : List Unseen := (u.reverse.dropWhile fun r => r.hid.isEmpty).reverse

/-- Writes to bytes that no longer hold what they wrote are forgotten: zeroed or discarded storage (13 R320, R322). -/
def dropUnseen (lo hi : Nat) (u : List Unseen) : List Unseen := u.filter fun r => !(decide (lo ≤ r.addr) && decide (r.addr < hi))

/-! Page tables -/

/-- Size of the page that a leaf at a table level maps (13 R314). -/
def levelSize : Nat → Nat
  | 0 => 65536
  | 1 => 2097152
  | _ => 1073741824

/-- Where the index bits of a table level start (13 R314). -/
def levelShift : Nat → Nat
  | 0 => 16
  | 1 => 21
  | 2 => 30
  | _ => 39

/-- Number of entries of a table of a level (13 R314). -/
def levelBits : Nat → Nat
  | 0 => 5
  | _ => 9

def leafOkey (e : Word) : Nat := bitsN e 63 52
def leafCkpt (e : Word) : Bool := bit e 51
def leafGeom (e : Word) : Nat := bitsN e 50 50
def leafFormat (e : Word) : Nat := bitsN e 49 46
def leafKind (e : Word) : Nat := bitsN e 45 44
def leafFrame (e : Word) : Nat := bitsN e 43 16 * 65536
def leafCow (e : Word) : Bool := bit e 7
def leafX (e : Word) : Bool := bit e 6
def leafW (e : Word) : Bool := bit e 5
def leafR (e : Word) : Bool := bit e 4

/-- A format that carries SB blocks (03 R74). -/
def isSB (f : Nat) : Bool := decide (9 ≤ f) && decide (f ≤ 15)

/-- A leaf entry obeys R74, R315 and R316 at its table level. -/
def leafOk (e : Word) (level : Nat) : Bool :=
  let kind := leafKind e
  let frame := leafFrame e
  bitsN e 15 8 == 0 && bitsN e 2 1 == 0 && decide (level ≤ 2) && kind != 3
    && (kind == 0 || level == 0)
    && frame % levelSize level == 0
    && (if kind == 0 then decide (frame + levelSize level ≤ 48 * 2 ^ 30) else decide (frame < 2 ^ 27))
    && (!leafCow e || leafW e)
    && leafFormat e != 8 && (leafGeom e == 0 || isSB (leafFormat e))

/-- A non-leaf entry obeys R315 and R316 at its table level. -/
def tableOk (e : Word) (level : Nat) : Bool :=
  bitsN e 63 48 == 0 && bitsN e 7 4 == 0 && bitsN e 2 1 == 0 && level != 0
    && decide (bitsN e 47 8 * 256 < 48 * 2 ^ 30) && (level == 1 || bitsN e 11 8 == 0)

/-- The owner of a frame (13 R322). -/
def frameOwnerOf (d : Die) (k : FrameKind) (f : Nat) : Owner :=
  ((d.frames.find? fun e => e.1 == k && e.2.1 == f).map (·.2.2)).getD .free

/-- A leaf that translates: page base, page size, entry. -/
structure Leaf where
  vbase : Nat
  size  : Nat
  entry : Word
  deriving DecidableEq, Repr

/-- What an entry of a table of a level says (13 R314 to R316): a leaf, the table of the level below, or the code of the
fault. A poisoned entry is 0x18 (14 R345).
DEDUCED, log 92. -/
def entryMeans (va level : Nat) (e : Word) (bad : Bool) : Except Nat (Leaf ⊕ Nat) :=
  if bad then .error 0x18
  else if !bit e 0 then .error 0x04
  else if bit e 3 then
    (if leafOk e level then .ok (.inl ⟨va / levelSize level * levelSize level, levelSize level, e⟩) else .error 0x05)
  else if !tableOk e level then .error 0x05
  else .ok (.inr (bitsN e 47 8 * 256))

/-- The address of the entry of a table of a level for a virtual address (13 R314). -/
def entryPlaceIn (va level table : Nat) : Nat := table + 8 * nbits va (levelShift level) (levelBits level)

/-- Some byte of an entry of a table is poisoned. -/
def entryBad (x : Die) (a : Nat) : Bool := x.poison.any fun g => decide (g < a + 8) && decide (a < g + 8)

/-- The leaf that a table of a level and those below hold for an address. -/
def leafFrom (x : Die) (top va : Nat) : Nat → Nat → Except Nat Leaf
  | level, table =>
    if frameOwnerOf x .dram (table / 65536) != .top top then .error 0x05 else
    let a := entryPlaceIn va level table
    match entryMeans va level (wordOf (readRun x.mem a 8)) (entryBad x a) with
    | .error c => .error c
    | .ok (.inl lf) => .ok lf
    | .ok (.inr t) =>
      match level with
      | 0 => .error 0x05
      | l + 1 => leafFrom x top va l t

/-- The leaf that the tables hold for an address when every write to them is seen and nothing kept is used. -/
def leafNow (s : State) (d top va : Nat) : Except Nat Leaf :=
  if va / 2 ^ 48 != 0 then .error 0x04 else
  match (region? (getDie s d) top).bind (·.root) with
  | none => .error 0x04
  | some root => leafFrom (getDie s d) top va 3 root

/-- The place in the die's storage of an address within a leaf. -/
def leafPlace (lf : Leaf) (va : Nat) : Nat :=
  (match leafKind lf.entry with | 0 => 0 | 1 => scratchBase | _ => directBase) + leafFrame lf.entry + (va - lf.vbase)

/-! PIN windows -/

/-- The slices that a mask names, in ascending order (08 R198). -/
def slicesOf (m : Word) : List Nat := (List.range 64).filter fun i => bit m i

/-- Contexts of a die that hold a record, running or saved: the region of the record, the context. -/
def recordsOf (s : State) (d : Nat) : List (Nat × Ctx) :=
  (((s.ctxs.drop (256 * d)).take 256).filterMap fun x => x.record.map fun r => (r.rid, x)) ++
  (s.saved.filter (fun e => e.1 % 4 == d)).filterMap fun e => e.2.record.map fun r => (r.rid, e.2)

/-- The slice in which a window of a domain places a DRAM line, if a page of the window maps the line (08 R198).
DEDUCED, log 93. -/
def windowSlice (s : State) (d top line : Nat) (w : PinWin) : Option Nat :=
  let ss := slicesOf w.mask
  let pages := (List.range ((w.start.toNat + w.len.toNat - 1) / 65536 - w.start.toNat / 65536 + 1)).map (· + w.start.toNat / 65536)
  pages.findSome? fun pg =>
    match leafNow s d top (pg * 65536) with
    | .error _ => none
    | .ok lf =>
      let base := leafFrame lf.entry + (pg * 65536 - lf.vbase)
      let va := pg * 65536 + (line * 128 - base)
      if leafKind lf.entry = 0 && decide (base ≤ line * 128) && decide (line * 128 < base + 65536) &&
          decide (w.start.toNat ≤ va) && decide (va < w.start.toNat + w.len.toNat) then
        ss[(va - w.start.toNat) / 128 % max ss.length 1]?
      else none

/-- The open windows of the die that hold a DRAM line: the age of each and the slice in which it places the line. -/
def windowsOf (s : State) (d line : Nat) : List (Nat × Nat) :=
  if (getDie s d).pinSeq = 0 then [] else
  (recordsOf s d).flatMap fun e => (e.2.pins.filter (·.isOpen)).filterMap fun w =>
    (windowSlice s d (topOf (getDie s d) e.1) line w).map fun sl => (w.age, sl)

end Sys2Proof.Machine
end

