-- ==== Sys2Proof/Machine/Mem.lean ====
section
/-!
DEFINITION. Memory: full/empty bits, poison, the basin, the keys of DRAM lines, and reading and writing runs of bytes
on a path (spec 08, 09 R221, 13 R321, 14 R345).
-/

namespace Sys2Proof.Machine

open Sys2Proof

/-- The word of a scratchpad address: its full/empty bit is kept under the word's first address (08 R190). -/
def wordAddr (a : Nat) : Nat := a / 4 * 4

/-- The granule of an address (14 R345). -/
def granule (a : Nat) : Nat := if isScratch a then a / 4 * 4 else a / 8 * 8

def granSize (a : Nat) : Nat := if isScratch a then 4 else 8

def isFull (d : Die) (a : Nat) : Bool := !d.empties.contains (wordAddr a)

def setEmpty (a : Nat) (d : Die) : Die :=
  if d.empties.contains (wordAddr a) then d else { d with empties := wordAddr a :: d.empties }

def setFull (a : Nat) (d : Die) : Die := { d with empties := d.empties.filter (· != wordAddr a) }

/-- Some byte of a run is poisoned; the address of the lowest such granule (14 R345). -/
def poisonIn (d : Die) (a n : Nat) : Option Nat :=
  (d.poison.filter fun g => decide (g < a + n) && decide (a < g + granSize g)).min?

/-- A write clears the poison of the granules it covers whole (14 R345). -/
def clearPoison (a n : Nat) (d : Die) : Die :=
  { d with poison := d.poison.filter fun g => !(decide (a ≤ g) && decide (g + granSize g ≤ a + n)) }

/-- The home slice of a DRAM line that no window holds (08 R185). -/
def homeSlice (a : Nat) : Nat :=
  (nbits a 7 6).xor ((nbits a 13 6).xor ((nbits a 19 6).xor ((nbits a 25 6).xor (nbits a 31 5))))

/-- The key under which the contents of a line were written, none for a line nothing has written. -/
def lineKey (d : Die) (line : Nat) : Option Config.KeyTag :=
  (d.lineKeys.find? fun e => e.1 == line).map fun e => (e.2.1, e.2.2)

def setLineKey (line : Nat) (k : Config.KeyTag) (d : Die) : Die :=
  { d with lineKeys := (line, k.1, k.2) :: d.lineKeys.filter fun e => e.1 != line }

/-- The 128 bytes of a DRAM line as a reader under key k sees them (13 R321). -/
def lineUnder (d : Die) (line : Nat) (k : Config.KeyTag) : List Byte :=
  let stored := readRun d.mem (line * 128) 128
  match lineKey d line with
  | none => stored
  | some w => if w = k then stored else (List.range 128).map (Config.garble w k line stored)

/-- What the stack still holds of a line: the copy from before a dirty line was written (13 R320, R323).
DEDUCED, log 88. -/
def storedLine (d : Die) (line : Nat) : List Byte × Option Config.KeyTag :=
  match d.basin.find? fun b => b.line == line with
  | some { stale := some old, staleKey := k, .. } => (old, some k)
  | _ => (readRun d.mem (line * 128) 128, lineKey d line)

/-- A raw read of firmware through key slot 0: the ciphertext of the line last written back (13 R323). -/
def rawByte (d : Die) (a : Nat) : Byte :=
  let (p, k) := storedLine d (a / 128)
  Config.cipher (k.getD (0, 0)) (a / 128) p (a % 128)

/-- A raw access of firmware or the host through key slot 0 to storage of a tenant (13 R323): a read of DRAM gives the
stored ciphertext; a write of DRAM is 0x05 and any access to an on-die frame is 0x19, and nothing changes. -/
def rawAccess (d : Die) (write : Bool) (a : Nat) : Except Nat Byte :=
  if !isDram a then .error 0x19 else if write then .error 0x05 else .ok (rawByte d a)

/-- Direct steps of a slice, or the greater of the two sizes while it drains (08 R194, R196). -/
def directSteps (sl : Slice) : Nat := match sl.drain with | none => sl.direct | some (n, _) => max sl.direct n

/-- Lines that the cache part of a slice holds (08 R194). -/
def cacheLines (sl : Slice) : Nat := (8 - directSteps sl) * 2048

/-- The victim of a slice: lowest EP, then least recently used, never a pinned line (08 R197). -/
def victim (d : Die) (sl : Nat) : Option BLine :=
  (d.basin.filter fun b => b.slice == sl && b.pins.isEmpty).foldl
    (fun (best : Option BLine) b =>
      match best with
      | none => some b
      | some w => if b.ep < w.ep || (b.ep == w.ep && decide (b.stamp < w.stamp)) then some b else some w) none

/-- Write back a resident line and drop it. -/
def evict (line : Nat) (d : Die) : Die := { d with basin := d.basin.filter fun b => b.line != line }

/-- The home of a line: where it resides, else the slice of the window opened first of those that hold it, else R185. -/
def homeOf (d : Die) (wins : List (Nat × Nat)) (line : Nat) : Nat :=
  match d.basin.find? fun b => b.line == line with
  | some b => b.slice
  | none =>
    match wins.foldl (fun (best : Option (Nat × Nat)) w =>
        match best with | none => some w | some v => if w.1 < v.1 then some w else some v) none with
    | some w => w.2
    | none => homeSlice (line * 128)

/-- Bring a line into the basin, or mark it used (08 R185, R197; 13 R321); `wins` are the windows that hold it. -/
def touchLine (wins : List (Nat × Nat)) (line ep : Nat) (na write : Bool) (k : Config.KeyTag) (d : Die) : Die :=
  let old := readRun d.mem (line * 128) 128
  let d := { d with uses := d.uses + 1 }
  match d.basin.find? fun b => b.line == line with
  | some _ =>
    { d with basin := d.basin.map fun b =>
        if b.line != line then b else
          let b := if (b.okey, b.gen) = k then b else { b with okey := k.1, gen := k.2, stale := none }
          let b := { b with stamp := d.uses, ep := if na then b.ep else ep }
          if write && b.stale.isNone then { b with stale := some old, staleKey := (lineKey d line).getD k } else b }
  | none =>
    let sl := homeOf d wins line
    let cap := cacheLines (d.slices.getD sl {})
    let held := (d.basin.filter fun b => b.slice == sl).length
    if na || cap = 0 then d
    else
      let d := if held < cap then d else match victim d sl with | some v => evict v.line d | none => d
      if (d.basin.filter fun b => b.slice == sl).length < cap then
        { d with basin :=
            { line := line, slice := sl, ep := ep, stamp := d.uses, okey := k.1, gen := k.2, pins := wins.map (·.1)
              stale := if write then some old else none, staleKey := (lineKey d line).getD k } :: d.basin }
      else d

/-- Lines that a run touches. -/
def linesOf (a n : Nat) : List Nat := if n = 0 then [] else (List.range ((a + n - 1) / 128 - a / 128 + 1)).map (· + a / 128)

/-- A DRAM line is rewritten as the reader under the key sees it before a part of it is written (13 R321). -/
def rekey (line : Nat) (k : Config.KeyTag) (d : Die) : Die :=
  match lineKey d line with
  | some w => if w = k then d else setLineKey line k { d with mem := writeRun d.mem (line * 128) (lineUnder d line k) }
  | none => setLineKey line k d

/-- Read a run on a path at die d under a key, missing the newest `skip` of the writes that the path may miss: the
bytes, and the address of a poisoned granule if one is read. -/
def readMissing (skip d : Nat) (p : Path) (a n okey ep : Nat) (na : Bool) (s : State) : List Byte × Option Nat × State :=
  let dd := getDie s d
  let k := keyTag s okey
  let plain := readRun dd.mem a n
  let foreign (l : Nat) : Bool := match lineKey dd l with | none => false | some w => w != k
  let cur : List Byte :=
    if isDram a && (linesOf a n).any foreign then
      plain.zipIdx.map fun b =>
        let l := (a + b.2) / 128
        if foreign l then (lineUnder dd l k).getD ((a + b.2) % 128) 0#8 else b.1
    else plain
  let got := seenRun dd.mem p (some k) a cur dd.unseen skip
  let wins := fun l => windowsOf s d l
  let s := modDie d (fun x =>
    let x := { x with unseen := markSeen p a n skip x.unseen }
    if isDram a then (linesOf a n).foldl (fun y l => touchLine (wins l) l ep na false k y) x else x) s
  (got, poisonIn dd a n, s)

/-- Read a run on a path: how many of the writes not yet visible to it are missed is open (09 R221). -/
def readWholeOn (d : Nat) (p : Path) (a n okey ep : Nat) (na : Bool) (s : State) : List Byte × Option Nat × State :=
  let (skip, s) := choose (hiddenCount p a n (getDie s d).unseen + 1) s
  readMissing skip d p a n okey ep na s

/-- A run of n bytes from a cut at the multiples of a unit. -/
def unitsOf (u : Nat) : Nat → Nat → Nat → List (Nat × Nat)
  | 0, _, _ => []
  | fuel + 1, a, n =>
    if n = 0 then [] else
    let k := min n (u - a % u)
    (a, k) :: unitsOf u fuel (a + k) (n - k)

/-- Read runs one after another, each as a whole. -/
def readUnits (d : Nat) (p : Path) (okey ep : Nat) (na : Bool) : List (Nat × Nat) → State → List Byte × Option Nat × State
  | [], s => ([], none, s)
  | r :: rs, s =>
    let (b, po, s) := readWholeOn d p r.1 r.2 okey ep na s
    let (bs, po', s) := readUnits d p okey ep na rs s
    (b ++ bs, po.orElse fun _ => po', s)

/-- Every write to a run that path p may miss is narrower than a word, so that it is read byte by byte (09 R219). -/
def narrowOnly (d : Die) (p : Path) (a n : Nat) : Bool :=
  d.unseen.all fun r => !(r.hid.contains p && r.meets a n) || decide (r.old.length < 4)

/-- Read a run on a path in units, each of which is single-copy atomic (09 R219, R224). -/
def readRunBy (u d : Nat) (p : Path) (a n okey ep : Nat) (na : Bool) (s : State) : List Byte × Option Nat × State :=
  if hiddenCount p a n (getDie s d).unseen = 0 then readMissing 0 d p a n okey ep na s
  else
    let units := unitsOf (max u 1) (n + 1) a n
    readUnits d p okey ep na (units.flatMap fun r =>
      if narrowOnly (getDie s d) p r.1 r.2 then unitsOf 1 (r.2 + 1) r.1 r.2 else [r]) s

/-- Read a run on a path as a weak access or an engine does: word by word (09 R219, R221). -/
def readRunOn (d : Nat) (p : Path) (a n okey ep : Nat) (na : Bool) (s : State) : List Byte × Option Nat × State :=
  readRunBy 4 d p a n okey ep na s

/-- A bank operation's read: what stands at the bank, whatever path wrote it last (08 R213). -/
def readBankOn (d : Nat) (p : Path) (a n okey ep : Nat) (na : Bool) (s : State) : List Byte × Option Nat × State :=
  readMissing 0 d p a n okey ep na s

/-- Read bytes of memory without any effect, as strong LS reads see them. -/
def peek (s : State) (d a n : Nat) : List Byte := readRun (getDie s d).mem a n

/-- Every write visible to path p becomes visible to path q (09 R230). -/
def exposeTo (p q : Path) (d : Die) : Die :=
  { d with unseen := forgetSeen (d.unseen.map fun r => if r.hid.contains p then r else { r with hid := r.hid.filter (· != q) }) }

/-- The writes of one operation become visible to every path (08 R217). -/
def exposeAll (op : Nat) (d : Die) : Die :=
  { d with unseen := forgetSeen (d.unseen.map fun r => if r.op = op then { r with hid := [] } else r) }

/-- The operation that wrote a word last, if some path may still miss it (09 R234). -/
def writerOf (d : Die) (a : Nat) : Option Nat := (d.unseen.find? fun r => r.meets a 4).map (·.op)

/-- The writes of one operation become visible to a path: a fill or a commit (09 R234, R240). -/
def exposeOp (op : Nat) (q : Path) (d : Die) : Die :=
  { d with unseen := forgetSeen (d.unseen.map fun r => if r.op = op then { r with hid := r.hid.filter (· != q) } else r) }

/-- A write that leaves a join counter at zero releases every JOIN.W that waits on it (10 R252).
DEDUCED, log 21. -/
def releaseJoins (a n : Nat) (d : Die) : Die :=
  if d.waiters.isEmpty then d else
  { d with waiters := d.waiters.map fun b =>
      if b.kind == .join && decide (b.seg.pa < a + n) && decide (a < b.seg.pa + 4) && (readRun d.mem b.seg.pa 4).all (· == 0#8)
        then { b with done := some (0#64, false) } else b }

/-! Waiting at a bank -/

/-- A context waits, not yet released, for a word in a way. -/
def waitsFor (w : Nat) (k : WaitKind) (b : BankWait) : Bool := b.seg.pa == w && b.kind == k && b.done.isNone

/-- The first element of a list that satisfies p, changed. -/
def changeFirst {α : Type} (p : α → Bool) (f : α → α) : List α → List α
  | [] => []
  | a :: as => if p a then f a :: as else a :: changeFirst p f as

/-- The first context that waits for a word in a way is released. -/
def release (w : Nat) (k : WaitKind) (got : Word × Bool) (d : Die) : Die :=
  { d with waiters := changeFirst (waitsFor w k) (fun b => { b with done := some got }) d.waiters }

/-- The writes of the operation that filled a word are visible to LS (09 R234). -/
def exposeFill (w : Nat) (d : Die) : Die := match writerOf d w with | some op => exposeOp op .ls d | none => d

/-- A bank writes the word of an STE and makes it full (08 R192). -/
def bankSte (b : BankWait) (d : Die) : Die :=
  let w := b.seg.pa
  releaseJoins w 4 (setFull w (clearPoison w 4 { d with
    mem := writeRun d.mem w (bytesOf 4 b.val)
    unseen := { addr := w, old := readRun d.mem w 4, hid := allPaths.filter (· != .ls), op := b.op, key := b.key } :: d.unseen }))

/-- The contexts that wait for a word go on in turn: a full word releases one LDF, which reads and empties it; an empty
one admits one STE, which writes and fills it (08 R191, R192). Each of at most `fuel` releases serves one context.
DEDUCED, log 13. -/
def serveWord (w : Nat) : Nat → Die → Die
  | 0, d => d
  | fuel + 1, d =>
    if isFull d w then
      if d.waiters.any (waitsFor w .ldf) then
        let got := (wordOf (readRun d.mem w 4), (poisonIn d w 4).isSome)
        serveWord w fuel (setEmpty w (release w .ldf got (exposeFill w d)))
      else d
    else match d.waiters.find? (waitsFor w .ste) with
      | some b => serveWord w fuel (bankSte b (release w .ste (0#64, false) d))
      | none => d

/-- A word becomes empty. -/
def emptyWord (a : Nat) (d : Die) : Die := serveWord (wordAddr a) d.waiters.length (setEmpty a d)

/-- A word is filled. -/
def fillWord (a : Nat) (d : Die) : Die := serveWord (wordAddr a) d.waiters.length (setFull a d)

/-- Contexts that wait at a bank through a translation that is gone wait no more: their bundles try again. -/
def leaveBank (gone : BankWait → Bool) (d : Die) : Die := { d with waiters := d.waiters.filter fun b => b.done.isSome || !gone b }

/-- Write a run on a path at die d under a key (08 R190, R197; 09 R221; 13 R321; 14 R345); `fill`: the words of a
scratchpad become full. -/
def writeAs (fill : Bool) (d : Nat) (p : Path) (op a okey ep : Nat) (na : Bool) (bs : List Byte) (s : State) : State :=
  if bs.isEmpty then s else
  let k := keyTag s okey
  let wins := fun l => windowsOf s d l
  modDie d (fun x =>
    let n := bs.length
    let x := if isDram a then
        (linesOf a n).foldl (fun y l => rekey l k (touchLine (wins l) l ep na true k y)) x else x
    let old := readRun x.mem a n
    let x := { x with
      mem := writeRun x.mem a bs
      unseen := { addr := a, old := old, hid := allPaths.filter (· != p), op := op, key := k } :: x.unseen }
    let x := clearPoison a n x
    if isScratch a && fill then
      (List.range ((a + n - 1) / 4 - a / 4 + 1)).foldl (fun y i => fillWord ((a / 4 + i) * 4) y) (releaseJoins a n x)
    else if isScratch a then releaseJoins a n x
    else x) s

/-- Write a run on a path at die d under a key: a write of any byte of a scratchpad word fills it (08 R190). -/
def writeRunOn (d : Nat) (p : Path) (op a okey ep : Nat) (na : Bool) (bs : List Byte) (s : State) : State :=
  writeAs true d p op a okey ep na bs s

end Sys2Proof.Machine
end

