-- ==== Sys2Proof/Machine/Xlate.lean ====
section
/-!
DEFINITION. Translation and the checks of an access (spec 08 R184, R186; 03 R74, R75; 13 R314 to R323).
-/

namespace Sys2Proof.Machine

open Sys2Proof

/-! Walks -/

/-- The walker or the fetch of code uses a DRAM line, under the key of its contents (08 R197). DESIGN CHOICE, log 102. -/
def touchOwn (d line : Nat) (s : State) : State :=
  let wins := windowsOf s d line
  modDie d (fun x => touchLine wins line 0 false false ((lineKey x line).getD (0, 0)) x) s

/-- A walk keeps an upper-level entry that it has used: its domain, what the entry covers, the entry (13 R318). -/
def keepUpper (top va level : Nat) (e : Word) (d : Die) : Die :=
  let size := 2 ^ levelShift level
  let k : TlbEntry := { top := top, vbase := va / size * size, size := size, leaf := e }
  if d.upper.contains k then d else { d with upper := k :: d.upper }

/-- The upper-level entries kept for an address at a table level. -/
def upperHits (d : Die) (top va level : Nat) : List Word :=
  (d.upper.filter fun k => k.top == top && k.size == 2 ^ levelShift level && decide (k.vbase ≤ va) &&
    decide (va < k.vbase + k.size)).map (·.leaf)

/-- An entry of a page table, read at its home slice as a strong read on the LS path (13 R316; 08 R197): the entry, and
whether it is poisoned. The walker reads it under the key under which it was written.
DESIGN CHOICE, log 110. DESIGN CHOICE, log 102. -/
def readEntry (d a : Nat) (s : State) : Word × Bool × State :=
  let x := getDie s d
  let (skip, s) := choose (hiddenCount .ls a 8 x.unseen + 1) s
  let s := if skip = 0 then s else modDie d (fun x => { x with unseen := markSeen .ls a 8 skip x.unseen }) s
  (wordOf (seenRun x.mem .ls none a (readRun x.mem a 8) x.unseen skip), entryBad x a, touchOwn d (a / 128) s)

/-- The entry that a walk uses at a level: the one in memory, or one kept from an earlier walk until TLBI removes it
(13 R317, R318). -/
def entryAt (d top va level table : Nat) (s : State) : Word × Bool × State :=
  let (e, bad, s) := readEntry d (entryPlaceIn va level table) s
  let kept := (upperHits (getDie s d) top va level).filter fun k => bad || k != e
  let (n, s) := choose (kept.length + 1) s
  match kept[n]? with
  | some k => (k, false, s)
  | none => (e, bad, s)

/-- One level of a walk (13 R314 to R316): a leaf, the table of the level below, or the code of the fault.
DEDUCED, log 92. -/
def walkLevel (d top va level table : Nat) (s : State) : Except Nat (Leaf ⊕ Nat) × State :=
  if frameOwnerOf (getDie s d) .dram (table / 65536) != .top top then (.error 0x05, s) else
  let (e, bad, s) := entryAt d top va level table s
  match entryMeans va level e bad with
  | .ok (.inr t) => (.ok (.inr t), modDie d (keepUpper top va level e) s)
  | r => (r, s)

/-- The walk of a table of a level and below (13 R314). -/
def walkFrom (d top va : Nat) : Nat → Nat → State → Except Nat Leaf × State
  | level, table, s =>
    match walkLevel d top va level table s with
    | (.error c, s) => (.error c, s)
    | (.ok (.inl lf), s) => (.ok lf, s)
    | (.ok (.inr t), s) =>
      match level with
      | 0 => (.error 0x05, s)
      | l + 1 => walkFrom d top va l t s

/-- The walk of a domain's page table (13 R314). -/
def walk (d top va : Nat) (s : State) : Except Nat Leaf × State :=
  if va / 2 ^ 48 != 0 then (.error 0x04, s) else
  match (region? (getDie s d) top).bind (·.root) with
  | none => (.error 0x04, s)
  | some root => walkFrom d top va 3 root s

/-- The key check of a translation (13 R321); a slot that is being killed forms none (13 R320). DEDUCED, log 19. -/
def keyOk (s : State) (d top okey : Nat) : Bool :=
  let k := s.keys.getD okey {}
  k.state == .live && !k.link && k.die == d && k.top == top && !(getDie s d).killing.any fun e => e.1 == okey

/-- The frame checks of a translation (13 R322): 0 or the code of the fault. DEDUCED, log 19. -/
def frameFault (s : State) (d top : Nat) (lf : Leaf) : Nat :=
  let dd := getDie s d
  let f := leafFrame lf.entry
  match leafKind lf.entry with
  | 0 => if (List.range (min lf.size 1073741824 / 65536)).all fun i =>
      frameOwnerOf dd .dram (f / 65536 + i) == .top top then 0 else 0x05
  | 1 => if frameOwnerOf dd .scratch (f / 65536) == .slot (leafOkey lf.entry) then 0 else 0x19
  | _ => if topOf dd (dd.slices.getD (f / 2097152) {}).owner == top then 0 else 0x05

/-- Cached leaves of a domain that contain an address. -/
def tlbHits (t : List TlbEntry) (top va : Nat) : List TlbEntry :=
  t.filter fun e => e.top == top && decide (e.vbase ≤ va) && decide (va < e.vbase + e.size)

/-- A TLB of a number of entries with one more: a full one loses the entry formed first. DESIGN CHOICE, log 111. -/
def tlbAdd (cap : Nat) (e : TlbEntry) (t : List TlbEntry) : List TlbEntry := if t.contains e then t else (e :: t).take cap

/-- A TLB entry is formed: 32,768 stand in the die's second level and 1,024 in the first level of a core that made the
access (13 R317). -/
def keepLeaf (k : Option Nat) (d : Nat) (e : TlbEntry) (s : State) : State :=
  let s := modDie d (fun x => { x with tlb := tlbAdd 32768 e x.tlb }) s
  match k with
  | some k => modCore k (fun x => { x with tlb := tlbAdd 1024 e x.tlb }) s
  | none => s

/-- Every TLB entry of a die (13 R317). -/
def tlbsOf (s : State) (d : Nat) : List TlbEntry := (getDie s d).tlb ++ ((s.cores.drop (64 * d)).take 64).flatMap (·.tlb)

/-- Remove entries from every TLB of a die (13 R318, R320). -/
def dropTlb (d : Nat) (gone : TlbEntry → Bool) (s : State) : State :=
  let keep (t : List TlbEntry) : List TlbEntry := t.filter fun e => !gone e
  let s := modDie d (fun x => { x with tlb := keep x.tlb }) s
  { s with cores := s.cores.zipIdx.map fun k => if k.2 / 64 = d then { k.1 with tlb := keep k.1.tlb } else k.1 }

/-- What an access needs of its pages. -/
structure Need where
  r : Bool := false
  w : Bool := false
  x : Bool := false
  /-- page formats accepted (03 R75) -/
  fmt : Nat → Bool := fun _ => true
  /-- kinds accepted: 0 DRAM, 1 scratchpad, 2 basin direct; `kind` is checked last, `kind0` right after the translation -/
  kind : Nat → Bool := fun _ => true
  kind0 : Nat → Bool := fun _ => true

/-- The cached leaves that a core, or an engine of the die, may use for an address (13 R317). -/
def cached (s : State) (k : Option Nat) (d top va : Nat) : List Leaf :=
  let first := match k with | some k => tlbHits (getCore s k).tlb top va | none => []
  ((first ++ tlbHits (getDie s d).tlb top va).map fun e => (⟨e.vbase, e.size, e.leaf⟩ : Leaf)).eraseDups

/-- The translation of one address: a leaf, or the code of its first fault up to the entry checks. An access may use
a cached leaf or walk (13 R317). -/
def lookup (k : Option Nat) (s : State) (d top va : Nat) : Except Nat Leaf × State :=
  let hits := cached s k d top va
  let (n, s) := choose (hits.length + 1) s
  match hits[n]? with
  | some lf => (.ok lf, s)
  | none => walk d top va s

/-- A basin-direct frame lies in its slice's current direct part and in no step that is changing (08 R186, R196). -/
def directOk (d : Die) (frame : Nat) : Bool :=
  let sl := d.slices.getD (frame / 2097152) {}
  let off := frame % 2097152
  let lim := match sl.drain with | none => sl.direct | some (n, _) => min n sl.direct
  decide (off < lim * 262144)

/-- The fault of one page in the order of R186 step 2, or 0. DEDUCED, log 19. -/
def pageFault (s : State) (d top : Nat) (nd : Need) (lf : Leaf) (off : Nat) : Nat :=
  let e := lf.entry
  if (nd.r && !leafR e) || (nd.w && !leafW e) || (nd.x && !leafX e) then 0x05
  else if leafKind e == 2 && !directOk (getDie s d) (leafFrame e + off) then 0x05
  else if nd.w && leafCow e then 0x06
  else if !nd.fmt (leafFormat e) then 0x0E
  else match frameFault s d top lf with
    | 0 => if keyOk s d top (leafOkey e) then 0 else 0x19
    | code => code

/-- Translate one address and check its page: the entry that is held, or the code of the first fault (08 R186 step 2).
DEDUCED, log 84. -/
def checkPage (k : Option Nat) (d top : Nat) (nd : Need) (va : Nat) (s : State) : Except Nat TlbEntry × State :=
  match lookup k s d top va with
  | (.error c, s) => (.error c, s)
  | (.ok lf, s) =>
    if !nd.kind0 (leafKind lf.entry) then (.error 0x05, s) else
    match pageFault s d top nd lf (va - lf.vbase) with
    | 0 =>
      if !nd.kind (leafKind lf.entry) then (.error 0x05, s) else
      let e : TlbEntry := { top := top, vbase := lf.vbase, size := lf.size, leaf := lf.entry }
      (.ok e, keepLeaf k d e s)
    | c => (.error c, s)

/-- The place in the die's storage of an address within a held page. -/
def placeOf (e : TlbEntry) (va : Nat) : Nat := leafPlace ⟨e.vbase, e.size, e.leaf⟩ va

/-- Bytes from an address to the end of a held page. -/
def pageLeft (e : TlbEntry) (va : Nat) : Nat := e.vbase + e.size - va

/-- The slice of a basin-direct page is still charged to the domain (13 R312, R322): storage that has been given up and
taken by another domain is reached through no translation.
DEDUCED, log 112. -/
def ownsDirect (x : Die) (top : Nat) (e : TlbEntry) : Bool :=
  leafKind e.leaf != 2 || topOf x (x.slices.getD (leafFrame e.leaf / 2097152) {}).owner == top

/-- The translation of an address by a stream: the one it holds on its visit to the page, or a new one that is checked
as R186 says (08 R212; 09 R237).
DEDUCED, log 30. -/
def visit (k : Option Nat) (d top : Nat) (held : Option TlbEntry) (nd : Need) (va : Nat) (s : State) :
    Except (Nat × Nat) TlbEntry × State :=
  let new (s : State) : Except (Nat × Nat) TlbEntry × State :=
    match checkPage k d top nd va s with
    | (.error code, s) => (.error (code, va), s)
    | (.ok e, s) => (.ok e, s)
  match held with
  | some e => if e.vbase ≤ va && va < e.vbase + e.size && ownsDirect (getDie s d) top e then (.ok e, s) else new s
  | none => new s

/-- The translation of a visit is given up when the stream leaves the page (09 R237). DEDUCED, log 30. -/
def stillIn (e : TlbEntry) (va : Nat) : Option TlbEntry := if e.vbase ≤ va && va < e.vbase + e.size then some e else none

/-- The pages of a run that a stream reaches, each translated when it is reached: the segments, and the translation of
the last page, which the stream goes on holding (09 R237). -/
def visitRun (k : Option Nat) (d top : Nat) (nd : Need) :
    Nat → Option TlbEntry → Nat → Nat → State → Except (Nat × Nat) (List Seg × Option TlbEntry) × State
  | 0, held, _, _, s => (.ok ([], held), s)
  | fuel + 1, held, va, len, s =>
    if len = 0 then (.ok ([], held), s) else
    match visit k d top held nd va s with
    | (.error e, s) => (.error e, s)
    | (.ok e, s) =>
      let n := min len (pageLeft e va)
      match visitRun k d top nd fuel (some e) (va + n) (len - n) s with
      | (.error e, s) => (.error e, s)
      | (.ok (segs, last), s) => (.ok (⟨placeOf e va, n, va, leafOkey e.leaf⟩ :: segs, last), s)

/-- Translate and check the pages of a run in ascending order (08 R186 step 2): the segments of the run,
or the code and address of the first fault. -/
def checkPages (k : Option Nat) (d top : Nat) (nd : Need) : Nat → Nat → Nat → State → Except (Nat × Nat) (List Seg) × State
  | 0, _, _, s => (.ok [], s)
  | fuel + 1, va, len, s =>
    if len = 0 then (.ok [], s) else
    match checkPage k d top nd va s with
    | (.error c, s) => (.error (c, va), s)
    | (.ok e, s) =>
      let n := min len (pageLeft e va)
      match checkPages k d top nd fuel (va + n) (len - n) s with
      | (.error e, s) => (.error e, s)
      | (.ok segs, s) => (.ok (⟨placeOf e va, n, va, leafOkey e.leaf⟩ :: segs), s)

/-- Translate and check a run of bytes for an engine of the die. -/
def checkRun (d top : Nat) (nd : Need) (va : Word) (len : Nat) (s : State) :
    Except (Nat × Nat) (List Seg) × State :=
  checkPages none d top nd (len / 65536 + 2) va.toNat len s

/-- The core whose first-level TLB a context's access uses. -/
def tlbOf (c : Nat) : Option Nat := if c < 1024 then some (coreOf c) else none

/-- The checks of a context's access to a run of bytes. -/
def checkAccess (c : Nat) (nd : Need) (va : Word) (len : Nat) (s : State) :
    Except (Nat × Nat) (List Seg) × State :=
  checkPages (tlbOf c) (dieOf c) (domOf s c) nd (len / 65536 + 2) va.toNat len s

/-- Page formats that an integer atomic accepts (03 R75). -/
def fmtInt (sz : Nat) (f : Nat) : Bool := f == 0 || (sz == 4 && f == 4) || (sz == 8 && f == 6)

/-- Page formats that a vector access accepts (03 R75). -/
def fmtVec (t : Fmt) (f : Nat) : Bool :=
  f == 0 || f == (match t with | .f32 => 1 | .bf16 => 2 | .f16 => 3 | .i32 => 4 | .i8 => 5)

/-- Element size in bytes of a reduction operator (08 R210). -/
def opSize (op : Nat) : Nat := if op < 8 then 4 else if op < 16 then 8 else if op < 20 then 4 else 2

/-- Page formats that a reduction operator accepts (03 R75). -/
def fmtOp (op : Nat) (f : Nat) : Bool :=
  if op < 8 then fmtInt 4 f else if op < 16 then fmtInt 8 f
  else f == 0 || f == (if op < 20 then 1 else if op < 24 then 2 else 3)

/-- A scratchpad address only (08 R191). DEDUCED, log 84. -/
def onlyScratch (k : Nat) : Bool := k == 1

/-- DRAM or basin direct only (08 R213). DEDUCED, log 84. -/
def noScratch (k : Nat) : Bool := k != 1

/-- Read the bytes of segments on a path in units: bytes, first poisoned granule (09 R219, R224). -/
def readSegsBy (u d : Nat) (p : Path) (ep : Nat) (na : Bool) : List Seg → State → List Byte × Option Nat × State
  | [], s => ([], none, s)
  | g :: gs, s =>
    let (b, po, s) := readRunBy u d p g.pa g.len g.okey ep na s
    let (bs, po', s) := readSegsBy u d p ep na gs s
    (b ++ bs, po.orElse fun _ => po', s)

/-- Read the bytes of segments as a weak access or an engine does: word by word. -/
def readSegs (d : Nat) (p : Path) (ep : Nat) (na : Bool) (gs : List Seg) (s : State) : List Byte × Option Nat × State :=
  readSegsBy 4 d p ep na gs s

/-- Write bytes to segments on a path. -/
def writeSegs (d : Nat) (p : Path) (op ep : Nat) (na : Bool) : List Seg → List Byte → State → State
  | [], _, s => s
  | g :: gs, bs, s =>
    writeSegs d p op ep na gs (bs.drop g.len) (writeRunOn d p op g.pa g.okey ep na (bs.take g.len) s)

/-- Segments of the bytes off to off+len-1 of a list of segments. -/
def subSegs : List Seg → Nat → Nat → List Seg
  | [], _, _ => []
  | g :: gs, off, len =>
    if len = 0 then []
    else if g.len ≤ off then subSegs gs (off - g.len) len
    else
      let n := min len (g.len - off)
      ⟨g.pa + off, n, g.va + off, g.okey⟩ :: subSegs gs 0 (len - n)

/-- The virtual address of a place among segments. -/
def vaOf (segs : List Seg) (pa : Nat) : Nat :=
  ((segs.find? fun g => decide (g.pa ≤ pa) && decide (pa < g.pa + g.len)).map fun g => g.va + (pa - g.pa)).getD pa

end Sys2Proof.Machine
end

