-- ==== Sys2Proof/Machine/Held.lean ====
section
/-!
DEFINITION. The translations that accesses and engine streams of a die hold (spec 09 R237; 13 R318, R320).
-/

namespace Sys2Proof.Machine

open Sys2Proof

/-- A held page as a segment. -/
def pageSeg (e : TlbEntry) : Seg := ⟨placeOf e e.vbase, e.size, e.vbase, leafOkey e.leaf⟩

/-- The translations that an LS entry holds: its places, and the directed place of a reduction (08 R216). -/
def entrySegs (e : LsEntry) : List Seg :=
  e.segs ++ (match e.kind with | .ared _ (some q) _ => [q] | _ => [])

/-- What a context holds: LS entries and held stores from issue, `.H` operations, matrix operands, fabric streams. -/
def heldByCtx (x : Ctx) : List Seg :=
  x.lsq.flatMap entrySegs ++ x.bk.flatMap entrySegs ++ x.hold.flatMap (·.segs) ++
  (x.fb.filterMap (·.page)).map pageSeg ++
  (match x.mx.run with | some r => (r.aPage.toList ++ r.bPage.toList).map pageSeg | none => [])

/-- What the engines of a die hold: copies, Eddy commands, collectives, fabric destinations; each with its domain. -/
def heldByEngines (s : State) (d : Nat) : List (Nat × Seg) :=
  let x := getDie s d
  let pages : List TlbEntry := ((s.cores.drop (64 * d)).take 64).flatMap (fun k => k.copies.flatMap fun m =>
      m.sleaf.toList ++ m.dpages) ++
    x.colls.flatMap (fun q => q.entries.filterMap (·.page) ++ q.inPages.map (·.2.2)) ++
    x.flowsIn.flatMap fun f => f.pages.map (·.2)
  pages.map (fun e => (e.top, pageSeg e)) ++
  x.eddy.flatMap fun m => (m.dsegs ++ m.segs ++ m.rsegs).map fun g => (m.top, g)

/-- Every translation held on a die, with its domain (09 R237). -/
def heldOn (s : State) (d : Nat) : List (Nat × Seg) :=
  heldByEngines s d ++ (recordsOf s d).flatMap fun e => (heldByCtx e.2).map fun g => (topOf (getDie s d) e.1, g)

end Sys2Proof.Machine
end

