-- ==== Sys2Proof/Machine/Ls.lean ====
section
/-!
DEFINITION. The LS queues: which entry may be performed, performing it, atomics, reductions, arrivals; the
delivery of faults, of flags and of completion tags (spec 09 R221 to R234; 08 R190 to R217; 14 R329, R333).
-/

namespace Sys2Proof.Machine

open Sys2Proof

/-! Delivery -/

/-- TRAPCODE of a fault (14 R334). -/
def codeWord (code arg : Nat) (async : Bool) : Word :=
  BitVec.ofNat 64 (code + (if async then 256 else 0) + arg * 2 ^ 24)

/-- Deliver a fault whose TRAPCODE is written out (14 R329, R331). -/
def deliverF (c lvl : Nat) (f : PFault) (s : State) : State :=
  modCtx c (fun x =>
    if lvl = 1 then { x with faults1 := x.faults1 ++ [f] } else { x with faults := x.faults ++ [f] }) s

/-- Deliver a fault to a context (14 R329, R331): one of level 1 is unhandled at the next boundary. -/
def deliver (c lvl code arg : Nat) (addr : Word) (s : State) : State :=
  deliverF c lvl ⟨codeWord code arg true, addr⟩ s

/-- A source that can wait may deliver now (14 R329). DESIGN CHOICE, log 91. -/
def canDeliver (s : State) (c lvl : Nat) : Bool := lvl == 1 || decide ((getCtx s c).faults.length < 8)

/-- OR bits into a word of a save area on the BK path; false when the OR cannot be made (14 R333). -/
def orSaved (d top : Nat) (va : Word) (bits : Word) (s : State) : Bool × State :=
  match checkRun d top { r := true, w := true } va 8 s with
  | (.ok [g], s) =>
    let (bs, po, s) := readBankOn d .bk g.pa 8 g.okey 0 false s
    match po with
    | some _ => (false, s)
    | none => (true, writeRunOn d .bk 0 g.pa g.okey 0 false (bytesOf 8 (wordOf bs ||| bits).toNat) s)
  | (_, s) => (false, s)

/-- Where the saved words of a context's interrupted or pre-empted state lie, if it has one for this level. -/
def savedArea (s : State) (c lvl : Nat) : Option Word :=
  let x := getCtx s c
  if 1024 ≤ c then (if lvl = 1 || x.level = 0 then x.record.map (·.frame) else some x.savearea)
  else if x.level = 1 && lvl = 0 then some x.savearea else none

/-- A level's state runs ahead (12 R307, R311). -/
def aheadAt (x : Ctx) (lvl : Nat) : Bool :=
  if lvl = 0 then x.ckpt0.isSome || (!x.ckptAt1 && x.ckpt.isSome) else x.ckptAt1 && x.ckpt.isSome

/-- The context runs ahead, so its stores are held (09 R240). -/
def runsAhead (x : Ctx) : Bool := aheadAt x x.level

/-- Flags of an engine or bank enter FSTATUS of the issuing context (06 R142; 08 R210; 12 R309; 14 R333). -/
def engineFlags (c lvl : Nat) (fl : BitVec 8) (s : State) : State :=
  if fl = 0#8 then s else
  let s := modCtx c (fun x =>
    if !aheadAt x lvl then x
    else if x.ckpt0.isSome && lvl == 0 then { x with engFlags0 := x.engFlags0 ||| fl }
    else { x with engFlags := x.engFlags ||| fl }) s
  match savedArea s c lvl with
  | some a =>
    let (ok, s) := orSaved (dieOf c) (domOf s c) (a + 24#64) (zext fl) s
    if ok then s else modCtx c (fun x =>
      if lvl == 0 || x.level == 0 then { x with heldFlags := x.heldFlags ||| fl }
      else { x with heldFlags1 := x.heldFlags1 ||| fl }) s
  | none =>
    modCtx c (fun x => { x with arch := { x.arch with fstatus := x.arch.fstatus ||| fl } }) s

/-- An operation that names a tag completes (08 R205; 14 R333). -/
def completeTag (c lvl tag : Nat) (s : State) : State :=
  match savedArea s c lvl with
  | some a =>
    let (ok, s) := orSaved (dieOf c) (domOf s c) (a + 16#64) (BitVec.ofNat 64 (2 ^ tag)) s
    modCtx c (fun x =>
      let x := if lvl == 0 && x.level == 1 then { x with busy0 := clearBit x.busy0 tag } else { x with busy := clearBit x.busy tag }
      if ok then x
      else if lvl == 0 || x.level == 0 then { x with heldTags := setBit x.heldTags tag }
      else { x with heldTags1 := setBit x.heldTags1 tag }) s
  | none => modCtx c (fun x => { x with tags := setBit x.tags tag, busy := clearBit x.busy tag }) s

/-- An operation that names a tag is issued: its bit is cleared (08 R205). -/
def startTag (c tag : Nat) (s : State) : State :=
  modCtx c (fun x => { x with tags := clearBit x.tags tag, busy := setBit x.busy tag }) s

/-- The cycle in which a pending result is ready when its value comes in cycle `at_`: a padded one in time, a late one
after its due cycle, a pop with its entry (02 R35, R36; 06 R158). -/
def readyAt (r : InFlight) (at_ : Nat) : Nat :=
  if r.pop.isSome then max r.ready at_ else if r.late then max r.ready (max at_ (r.due + 1)) else r.ready

/-- Give a pending result its value, at cycle `at_` (02 R35); a pop whose entry is ready in time is padded from then on
(06 R158). -/
def giveResult (c id at_ : Nat) (v : Val) (fl : BitVec 8) (bad : Bool) (s : State) : State :=
  modArch c (fun a => { a with inflight := a.inflight.map fun r =>
    if r.id = id then
      { r with val := v, flags := r.flags ||| fl, ready := readyAt r at_, poisoned := bad
               late := if r.pop.isSome then decide (r.due < readyAt r at_) else r.late }
    else r }) s

/-! Which entry may be performed -/

/-- The bytes of two lists of segments overlap. -/
def overlap (a b : List Seg) : Bool :=
  a.any fun g => b.any fun h => decide (g.pa < h.pa + h.len) && decide (h.pa < g.pa + g.len)

def isMarker : LsKind → Bool | .qalign | .fence | .resolved => true | _ => false

def isCommit : LsKind → Bool | .commit _ => true | _ => false

/-- The kinds that a bank's ALU performs. -/
def isAtomic : LsKind → Bool | .atomic .. | .ared .. | .join => true | _ => false

/-- The markers before an entry let it pass (09 R228, R229, R240): `seen` are the accesses before each marker. -/
def markersPass (inL inS : Bool) : List LsEntry → List LsEntry → Bool
  | _, [] => true
  | seen, m :: rest =>
    (match m.kind with
      | .qalign => (!inL || seen.all fun e => !e.inS) && (!inS || seen.all fun e => !e.inL)
      | .fence => seen.isEmpty
      | .resolved => seen.all fun e => !isCommit e.kind
      | _ => true) && markersPass inL inS (if isMarker m.kind then seen else m :: seen) rest

/-- Entry e may be performed now behind the entries `before` (09 R225, R240). -/
def mayPerform (before : List LsEntry) (e : LsEntry) : Bool :=
  let acc := before.filter fun b => !isMarker b.kind
  let mine := acc.filter fun b => (b.inL && e.inL) || (b.inS && e.inS)
  markersPass e.inL e.inS [] before &&
  (!isCommit e.kind || acc.all fun b => !isCommit b.kind) &&
  (if e.inL && e.inS then acc.isEmpty
   else if e.strong then mine.isEmpty
   else mine.all fun b => !b.strong && !overlap b.segs e.segs)

/-! Performing -/

/-- The parts of segments in an aligned block of addresses, each with its offset among the bytes of the segments. -/
def inBlock (lo hi : Nat) : Nat → List Seg → List (Nat × Seg)
  | _, [] => []
  | off, g :: gs =>
    let a := max g.pa lo
    let b := min (g.pa + g.len) hi
    if a < b then (off + (a - g.pa), ⟨a, b - a, g.va + (a - g.pa), g.okey⟩) :: inBlock lo hi (off + g.len) gs
    else inBlock lo hi (off + g.len) gs

/-- The address of byte off of segments. -/
def placeAt : List Seg → Nat → Nat
  | [], _ => 0
  | g :: gs, off => if off < g.len then g.pa + off else placeAt gs (off - g.len)

/-- A piece of a weak access: what it does in the aligned block of at least 4 and at least len bytes that holds its byte
off (09 R223). -/
def pieceOf (segs : List Seg) (off len : Nat) : List (Nat × Seg) :=
  let size := ([4, 8, 16, 32, 64, 128, 256, 512].find? fun k => decide (len ≤ k)).getD 512
  let lo := placeAt segs off / size * size
  inBlock lo (lo + size) 0 segs

/-- The bytes of a run among the bytes of segments that contain it. -/
def bytesAt : List Seg → List Byte → Seg → Option (List Byte)
  | [], _, _ => none
  | h :: hs, bs, g =>
    if h.pa ≤ g.pa && g.pa + g.len ≤ h.pa + h.len then some ((bs.drop (g.pa - h.pa)).take g.len)
    else bytesAt hs (bs.drop h.len) g

def totalLen (segs : List Seg) : Nat := segs.foldl (fun n g => n + g.len) 0

/-- Lanes of a vector load from the bytes of its active lanes in order (04 R90; 08 R188). -/
def lanesFrom (esz : Nat) (mask : Pred) (bs : List Byte) : VReg :=
  ((List.range 128).foldl (fun (st : VReg × List Byte) l =>
    if bit mask l then (BitVec.ofNat 32 (natOf (st.2.take esz)) :: st.1, st.2.drop esz) else (0#32 :: st.1, st.2))
    ([], bs)).1.reverse

def esize (f : Fmt) : Nat := widthOf f / 8

/-- New value of a returning atomic (08 R214): operation 0 to 8 on size bytes. -/
def atomicNew (op : Nat) (sz : Nat) (old b cmp : Nat) : Nat × BitVec 8 :=
  let w := 8 * sz
  match op with
  | 0 => ((old + b) % 2 ^ w, 0#8)
  | 1 => (old &&& b, 0#8)
  | 2 => (old ||| b, 0#8)
  | 3 => (old ^^^ b, 0#8)
  | 4 => (if signedN w old ≤ signedN w b then old else b, 0#8)
  | 5 => (if signedN w old ≤ signedN w b then b else old, 0#8)
  | 6 => (b, 0#8)
  | 7 => (if old = cmp then b else old, 0#8)
  | _ => addR ffF32 (fxOf ffF32 old) (fxOf ffF32 b) .rne 0

/-- An arrival on a barrier word by an operation of a context (08 R193): the bit changes only when COUNT reaches TARGET.
A poisoned word keeps its poison, and 0x18 is delivered (14 R345). -/
def arriveBarrier (c lvl : Nat) (p : Path) (op : Nat) (pa va okey : Nat) (s : State) : State :=
  let d := dieOf c
  match poisonIn (getDie s d) pa 4 with
  | some _ => deliver c lvl 0x18 0 (BitVec.ofNat 64 va) s
  | none =>
    let w := natOf (peek s d pa 4)
    let count := (w % 65536 + 1) % 65536
    modDie d (exposeAll op) (writeAs (count == w / 65536) d p op pa okey 0 false (bytesOf 4 (w / 65536 * 65536 + count)) s)

/-- The number of an operation of a context among all writes of the die; its directed delivery has the next (08 R217). -/
def opNum (c id : Nat) : Nat := 2 * (id * 65536 + c)

/-- The bank finds the key of an access to be that of the frame's owner (13 R322). -/
def bankOk (s : State) (d : Nat) (g : Seg) : Bool :=
  let x := getDie s d
  let top := (s.keys.getD g.okey {}).top
  if isScratch g.pa then frameOwnerOf x .scratch ((g.pa - scratchBase) / 65536) == .slot g.okey
  else if isDirect g.pa then topOf x (x.slices.getD ((g.pa - directBase) / 2097152) {}).owner == top
  else frameOwnerOf x .dram (g.pa / 65536) == .top top

/-- The basin-direct places of an access are still its domain's (13 R312, R322): the address of the first that is not.
DEDUCED, log 112. -/
def lostPlace (s : State) (d : Nat) (segs : List Seg) : Option Nat :=
  (segs.find? fun g => isDirect g.pa && !bankOk s d g).map (·.va)

/-- Perform an atomic or reduction entry of context c on a path (08 R213 to R217; 13 R322; 14 R345).
DESIGN CHOICE, log 102.
DEDUCED, log 94. -/
def performAtomic (c : Nat) (p : Path) (e : LsEntry) (s : State) : State :=
  let d := dieOf c
  let now := nowOf s c
  match e.segs with
  | g :: _ =>
    let give (v : Word) (bad : Bool) (s : State) : State :=
      match e.res with | some id => giveResult c id now (.word v) 0#8 bad s | none => s
    if !bankOk s d g then
      let (v, s) := choose (2 ^ 64) s
      deliver c e.level 0x19 0 (BitVec.ofNat 64 g.va) (give (BitVec.ofNat 64 v) false s)
    else
    let (bs, po, s) := readBankOn d p g.pa g.len g.okey e.ep e.na s
    match po with
    | some gr => deliver c e.level 0x18 0 (BitVec.ofNat 64 (vaOf e.segs gr)) (give (wordOf bs) true s)
    | none =>
      let old := natOf bs
      match e.kind with
      | .atomic op cmp =>
        let (new, fl) := atomicNew op g.len old (natOf e.data) (cmp.toNat % 2 ^ (8 * g.len))
        let s := writeRunOn d p (opNum c e.id) g.pa g.okey e.ep e.na (bytesOf g.len new) s
        give (BitVec.ofNat 64 old) false (engineFlags c e.level fl s)
      | .ared op dir blk =>
        let (new, fl) := reduceElem op.toNat old (natOf e.data)
        let s := writeRunOn d p (opNum c e.id) g.pa g.okey e.ep e.na (bytesOf g.len new) s
        let s := engineFlags c e.level fl s
        match dir, blk with
        | some q, some b =>
          if !bankOk s d q then deliver c e.level 0x19 0 (BitVec.ofNat 64 q.va) s else
          let s := writeRunOn d p (opNum c e.id + 1) q.pa q.okey 0 false (bytesOf q.len old) s
          arriveBarrier c e.level p (opNum c e.id + 1) b (q.va - q.pa % 64 + 60) q.okey s
        | _, _ => s
      | .join =>
        if old = 0 then deliver c e.level 0x0C 0 0#64 s
        else (writeRunOn d p (opNum c e.id) g.pa g.okey 0 false (bytesOf 4 (old - 1)) s)
      | _ => s
  | [] => s

/-- A pushed record becomes poppable, in the queue of the level in which its place was taken, when its strong store is
performed (10 R250, R251). -/
def pushRecord (c : Nat) (r : BitVec 256) (lvl : Nat) (s : State) : State :=
  modDie (dieOf c) (fun x =>
    { x with queue := x.queue ++ [{ bits := r, rid := bitsN r 251 240, level := lvl, enq := x.clock, order := (0, c) }] }) s

/-- Give a load its bytes: the register result of the entry (08 R187, R188; 14 R345). -/
def finishLoad (c : Nat) (e : LsEntry) (bs : List Byte) (bad : Bool) (s : State) : State :=
  let now := nowOf s c
  match e.kind with
  | .load => match e.res with | some id => giveResult c id now (.word (wordOf bs)) 0#8 bad s | none => s
  | .vload f m => match e.res with
    | some id => giveResult c id now (.lanes m (lanesFrom (esize f) m bs)) 0#8 bad s
    | none => s
  | .bktset t a => modCtx c (fun x => { x with bkt := x.bkt ++ [(t, a, bs, bad)] }) s
  | _ => s

/-- Bytes with those of the hold buffer over them (09 R240). -/
def overlay : List (Option Byte) → List Byte → List Byte
  | some v :: os, _ :: bs => v :: overlay os bs
  | none :: os, b :: bs => b :: overlay os bs
  | [], bs => bs
  | _, [] => []

/-- Fill the bytes off.. of a list of options. -/
def setGot (got : List (Option Byte)) (off : Nat) (bs : List Byte) : List (Option Byte) :=
  (got.zipIdx).map fun e => match bs[e.2 - off]? with
    | some b => if off ≤ e.2 then some b else e.1
    | none => e.1

/-- Record that a piece of a store has been performed. -/
def setDone (e : LsEntry) (off : Nat) (bs : List Byte) : LsEntry :=
  { e with got := setGot (if e.got.isEmpty then List.replicate e.data.length none else e.got) off bs }

/-- The unit in which an entry is single-copy atomic (09 R219, R224). -/
def unitOf (e : LsEntry) : Nat :=
  if !e.strong then 4 else match e.kind with | .vload f _ => esize f | _ => max (totalLen e.segs) 1

/-- The bytes of an entry not yet fixed are fixed by reading them now. -/
def readRest (c : Nat) (e : LsEntry) (s : State) : List Byte × Option Nat × State :=
  let (bs, po, s) := readSegsBy (unitOf e) (dieOf c) .ls e.ep e.na e.segs s
  ((e.got.zip bs).map (fun g => g.1.getD g.2), po, s)

/-- Remember a performed weak access of a stretch that has not ended (09 R223). -/
def remember (c : Nat) (e : LsEntry) (bs : List Byte) (bad : Option Nat) (s : State) : State :=
  if e.strong then s else
  modCtx c (fun x =>
    let oldest := (x.lsq.head?.map (·.stretch)).getD x.stretch
    { x with recent := ⟨e.id, e.stretch, e.segs, bs, bad, !e.inL⟩ :: x.recent.filter fun r => decide (oldest ≤ r.stretch) }) s

/-- A load's bytes arrive: its result, and the delivered fault of a poisoned granule (14 R345). -/
def loadArrives (c : Nat) (e : LsEntry) (bs : List Byte) (bad : Option Nat) (s : State) : State :=
  let s := finishLoad c e bs bad.isSome s
  match bad, e.kind with
  | some _, .bktset .. => s
  | some g, _ => deliver c e.level 0x18 0 (BitVec.ofNat 64 (vaOf e.segs g)) s
  | none, _ => s

/-- The poison of a held store is delivered when there is room for its fault (14 R329, R345). DESIGN CHOICE, log 91. -/
def owePoison (c lvl : Nat) (s : State) : State :=
  if canDeliver s c lvl then deliver c lvl 0x18 0 (BitVec.allOnes 64) s
  else modCtx c (fun x => { x with owed := x.owed + 1 }) s

/-- The lanes of a vector access that no bank performs at once are performed by one act in ascending order, as a strong
vector access asks (09 R224); nothing else happens between them.
DESIGN CHOICE, log 113. -/
def performLs (c : Nat) (e : LsEntry) (s : State) : State :=
  let d := dieOf c
  match e.kind with
  | .load | .vload .. | .bktset .. =>
    let (bs, po, s) := readRest c e s
    let bs := overlay e.ovl bs
    let po := po.orElse fun _ => e.bad
    loadArrives c e bs po (remember c e bs po s)
  | .store | .vstore .. | .commit false =>
    remember c e e.data none (writeSegs d .ls (opNum c e.id) e.ep e.na e.segs e.data s)
  | .commit true => owePoison c e.level s
  | .atomic .. | .ared .. | .join => performAtomic c .ls e s
  | .spawn r lvl => pushRecord c r lvl s
  | .qalign | .fence | .resolved => s

/-- An access to basin-direct storage that another domain has taken is not performed: fault 0x05 is delivered, and a
register that waits for its bytes takes a free value (13 R312, R322).
DEDUCED, log 112. -/
def refuseLs (c : Nat) (e : LsEntry) (va : Nat) (s : State) : State :=
  let (v, s) := choose (2 ^ (8 * totalLen e.segs)) s
  deliver c e.level 0x05 0 (BitVec.ofNat 64 va) (finishLoad c e (bytesOf (totalLen e.segs) v) false s)

/-- Perform all that is left of one entry of context c on the LS path, in one act.
DESIGN CHOICE, log 113. -/
def performEntry (c : Nat) (e : LsEntry) (s : State) : State :=
  match lostPlace s (dieOf c) e.segs with
  | some va => if isAtomic e.kind then performLs c e s else refuseLs c e va s
  | none => performLs c e s

/-- Drop the markers that stand first. -/
def dropMarkers (x : Ctx) : Ctx := { x with lsq := x.lsq.dropWhile fun e => isMarker e.kind }

/-- Drop entry n of context c's LS queues, and the markers that then stand first. -/
def dropEntry (c n : Nat) (s : State) : State :=
  modCtx c (fun x => dropMarkers { x with lsq := x.lsq.eraseIdx n }) s

/-- An order point of the LS queues of context c: a new stretch begins (09 R223). -/
def orderPoint (c : Nat) (s : State) : State := modCtx c (fun x => { x with stretch := x.stretch + 1 }) s

/-- Place a marker in both LS queues of context c, an order point too (09 R223, R228, R229). -/
def placeMarker (c : Nat) (k : LsKind) (s : State) : State :=
  modCtx c (fun x =>
    let x := { x with stretch := x.stretch + 1 }
    if x.lsq.isEmpty then x
    else { x with
      nextId := x.nextId + 1
      lsq := x.lsq ++ [{ id := x.nextId, inL := false, inS := false, strong := true, kind := k, segs := [], stretch := x.stretch }] }) s

/-- The pieces of at most four bytes of segments, each with its offset among their bytes (09 R223). -/
def wordsOf (segs : List Seg) : List (Nat × Seg) :=
  (segs.foldl (fun (st : Nat × List (Nat × Seg)) g =>
    (st.1 + g.len, st.2 ++ (unitsOf 4 (g.len + 1) g.pa g.len).map fun r => (st.1 + (r.1 - g.pa), ⟨r.1, r.2, g.va + (r.1 - g.pa), g.okey⟩)))
    (0, [])).2

/-- Piece g contains the bytes of h. -/
def holdsSeg (g h : Seg) : Bool := decide (g.pa ≤ h.pa) && decide (h.pa + h.len ≤ g.pa + g.len)

/-- The stores that may make an earlier one of their stretch needless (09 R223). -/
def coverers (q : List LsEntry) (n : Nat) (e : LsEntry) : List LsEntry :=
  (q.drop (n + 1)).filter fun b => b.stretch == e.stretch && b.inS && !b.inL && !isMarker b.kind && b.kind != .commit true

/-- A piece is covered by one later store, or byte by byte by later weak stores, which may be merged (09 R223). -/
def coveredPiece (bs : List LsEntry) (g : Seg) : Bool :=
  bs.any (fun b => b.segs.any fun h => holdsSeg h g) ||
  (List.range g.len).all fun i => bs.any fun b => !b.strong && b.segs.any fun h => holdsSeg h ⟨g.pa + i, 1, g.va + i, g.okey⟩

/-- What is left of weak store n may be dropped: every piece of it has been performed or is covered by later stores of the
stretch (09 R223). -/
def coveredLater (q : List LsEntry) (n : Nat) (e : LsEntry) : Bool :=
  (wordsOf e.segs).all fun p => ((e.got.drop p.1).take p.2.len).all (·.isSome) && decide (p.1 + p.2.len ≤ e.got.length) ||
    coveredPiece (coverers q n e) p.2

/-- The part of an access that lies within segments: its bytes by address, and the poisoned granule that it met. -/
structure Source where
  segs : List Seg
  bytes : List Byte
  bad : Option Nat := none

/-- Earlier weak stores, or earlier weak loads, of the stretch from which weak load n may take bytes, the youngest first
(09 R223). -/
def earlier (x : Ctx) (n : Nat) (e : LsEntry) (store : Bool) : List Source :=
  (if store then ((x.lsq.take n).reverse.filter fun b =>
      b.stretch == e.stretch && !b.strong && b.inS && !b.inL && !isMarker b.kind && b.kind != .commit true).map fun b => ⟨b.segs, b.data, none⟩
    else []) ++
  (x.recent.filter fun r => decide (r.stretch = e.stretch) && decide (r.id < e.id) && r.store == store).map fun r => ⟨r.segs, r.bytes, r.bad⟩

/-- The byte at an address among the bytes of an access. -/
def byteOfSource (q : Source) (a : Nat) : Option Byte := (bytesAt q.segs q.bytes ⟨a, 1, a, 0⟩).bind (·.head?)

/-- A source gives bytes of a piece that is poisoned there (14 R345). -/
def badPart (g : Seg) (q : Source) : Option Nat :=
  q.bad.filter fun k => (List.range g.len).any fun i =>
    (byteOfSource q (g.pa + i)).isSome && decide (k ≤ g.pa + i) && decide (g.pa + i < k + granSize k)

/-- The bytes of a piece from the youngest accesses of a list, which must not meet one another within the piece: adjacent
accesses of one kind are joined (09 R223). -/
def gather (g : Seg) : List Source → List (Option Byte) → Option Nat → Option (List Byte × Option Nat)
  | qs, got, bad =>
    if got.all (·.isSome) then some (got.map (·.getD 0#8), bad) else
    match qs with
    | [] => none
    | q :: rest =>
      let mine := (List.range g.len).map fun i => byteOfSource q (g.pa + i)
      if mine.all (·.isNone) then gather g rest got bad
      else if (got.zip mine).any fun b => b.1.isSome && b.2.isSome then none
      else gather g rest ((got.zip mine).map fun b => b.1.orElse fun _ => b.2) (bad.orElse fun _ => badPart g q)

/-- Every way in which a piece of weak load n may take its bytes instead of being performed (09 R223). -/
def elidePiece (x : Ctx) (n : Nat) (e : LsEntry) (g : Seg) : List (List Byte × Option Nat) :=
  [true, false].flatMap fun store =>
    let qs := earlier x n e store
    (List.range qs.length).filterMap fun k => gather g (qs.drop k) (List.replicate g.len none) none

/-- Take the pieces of a weak load from earlier accesses, each in one of the ways that are open; a piece that no earlier
access gives is left. -/
def elidePieces (c n : Nat) (e : LsEntry) : List (Nat × Seg) → State → State
  | [], s => s
  | p :: ps, s =>
    let ways := elidePiece (getCtx s c) n e p.2
    let (k, s) := choose ways.length s
    match ways[k]? with
    | some (bs, bad) =>
      let s := modCtx c (fun x => { x with lsq := x.lsq.modify n fun b =>
        { b with got := setGot b.got p.1 bs, bad := b.bad.orElse fun _ => bad } }) s
      elidePieces c n e ps s
    | none => elidePieces c n e ps s

/-- Weak load n ends once all its bytes are known: in pieces and from earlier accesses. -/
def endLoad (c n : Nat) (s : State) : State :=
  match (getCtx s c).lsq[n]? with
  | some e => if e.got.all (·.isSome) then dropEntry c n (loadArrives c e (overlay e.ovl (e.got.map (·.getD 0#8))) e.bad s) else s
  | none => s

/-- Perform entry n of context c's LS queues in a way (09 R221 to R225). An act that the rules do not allow for
the entry performs it whole; an entry that may not be performed yet stays. -/
def lsPerform (c n : Nat) (act : LsAct) (s : State) : State :=
  let x := getCtx s c
  match x.lsq[n]? with
  | none => s
  | some e =>
    if !mayPerform (x.lsq.take n) e || (e.kind == .commit true && !canDeliver s c e.level) then s else
    let whole : State := dropEntry c n (performEntry c e s)
    if e.strong || (lostPlace s (dieOf c) e.segs).isSome then whole else
    match act, e.kind with
    | .elide, .load | .elide, .vload .. =>
      let t := elidePieces c n e (wordsOf e.segs) s
      if (((getCtx t c).lsq[n]?).map fun b => b.got.all (·.isSome)).getD false then endLoad c n t else whole
    | .elidePart off len, .load | .elidePart off len, .vload .. => elidePieces c n e (pieceOf e.segs off len) s
    | .drop, .store | .drop, .vstore .. | .drop, .commit false => if coveredLater x.lsq n e then dropEntry c n s else whole
    | .piece off len, .store | .piece off len, .vstore .. | .piece off len, .commit false =>
      foldS (fun (p : Nat × Seg) s =>
        let bs := (e.data.drop p.1).take p.2.len
        let s := writeRunOn (dieOf c) .ls (opNum c e.id) p.2.pa p.2.okey e.ep e.na bs s
        modCtx c (fun x => { x with lsq := x.lsq.modify n fun b => setDone b p.1 bs }) s) (pieceOf e.segs off len) s
    | .piece off len, .load | .piece off len, .vload .. =>
      let parts := pieceOf e.segs off len
      if parts.any fun p => (poisonIn (getDie s (dieOf c)) p.2.pa p.2.len).isSome then whole else
      foldS (fun (p : Nat × Seg) s =>
        let (bs, _, s) := readRunBy 4 (dieOf c) .ls p.2.pa p.2.len p.2.okey e.ep e.na s
        modCtx c (fun x => { x with lsq := x.lsq.modify n fun b => { b with got := setGot b.got p.1 bs } }) s) parts s
    | _, _ => whole

/-- Perform every queued access of a context in issue order, as an order point asks (09 R223, R238). DEDUCED, log 90. -/
def drainLs (c : Nat) (s : State) : State :=
  let q := (getCtx s c).lsq
  orderPoint c (foldS (performEntry c) q (modCtx c (fun x => { x with lsq := [], recent := [] }) s))

/-- Perform the queued accesses of a context up to the one with a number, in issue order. -/
def drainTo (c id : Nat) (s : State) : State :=
  let q := (getCtx s c).lsq
  let n := ((q.findIdx? fun e => e.res == some id).map (· + 1)).getD 0
  foldS (performEntry c) (q.take n) (modCtx c (fun x => dropMarkers { x with lsq := q.drop n }) s)

/-- Perform the oldest `.H` atomic of a context at its home slice (08 R213; 09 R231). -/
def bkPerform (c : Nat) (s : State) : State :=
  match (getCtx s c).bk with
  | [] => s
  | e :: es => performAtomic c .bk e (modCtx c (fun x => { x with bk := es }) s)

/-- Addresses of the bytes that a held store writes, with the bytes (12 R307). -/
def heldBytesOf (h : Held) : List (Nat × Byte) :=
  ((List.range 64).filter fun i => bit h.mask i).map fun i => (h.va + i, h.data.getD i 0#8)

/-- The place of one byte among translated segments. -/
def placeIn (segs : List Seg) (va : Nat) : Option Seg :=
  (segs.find? fun g => decide (g.va ≤ va) && decide (va < g.va + g.len)).map fun g => ⟨g.pa + (va - g.va), 1, va, g.okey⟩

/-- Join runs of bytes that follow one another. -/
def joinSegs : List Seg → List Seg
  | [] => []
  | g :: gs =>
    match joinSegs gs with
    | h :: hs => if g.pa + g.len = h.pa && g.va + g.len = h.va && g.okey = h.okey then { g with len := g.len + h.len } :: hs else g :: h :: hs
    | [] => [g]

/-- The place of each byte of a held store; a byte without a held translation is translated now, and none is written
where that fails (09 R240).
DESIGN CHOICE, log 82. -/
def heldPlaces (c : Nat) : List (Nat × Byte) → List Seg → State → List (Seg × Byte) × State
  | [], _, s => ([], s)
  | b :: bs, segs, s =>
    match placeIn segs b.1 with
    | some g => let (r, s) := heldPlaces c bs segs s; ((g, b.2) :: r, s)
    | none =>
      match checkAccess c { w := true } (BitVec.ofNat 64 b.1) 1 s with
      | (.ok (g :: _), s) => let (r, s) := heldPlaces c bs segs s; ((g, b.2) :: r, s)
      | (_, s) => heldPlaces c bs segs s

/-- A held store enters the store queue as the weak or strong store it was (09 R240). -/
def queueHeld (c : Nat) (h : Held) (s : State) : State :=
  let (ps, s) := heldPlaces c (if h.bad then [] else heldBytesOf h) h.segs s
  modCtx c (fun x =>
    { x with
      nextId := x.nextId + 1
      stretch := if h.strong then x.stretch + 1 else x.stretch
      lsq := x.lsq ++ [{ id := x.nextId, inL := false, inS := true, strong := h.strong, kind := .commit h.bad, level := if x.ckptAt1 then 1 else 0
                         segs := joinSegs (ps.map (·.1)), data := ps.map (·.2), ep := h.ep, na := h.na, stretch := x.stretch }] }) s

/-- Commit the hold buffer: the held stores are queued in issue order, and later accesses wait for them; the resolution
is an order point (09 R240; 12 R308). -/
def commitHold (c : Nat) (s : State) : State :=
  let hs := (getCtx s c).hold
  let s := orderPoint c (modCtx c (fun x => { x with hold := [] }) s)
  if hs.isEmpty then s else placeMarker c .resolved (foldS (queueHeld c) hs s)

/-- Entries of the hold buffer in use: held, or committed and not yet performed (12 R305, R308). -/
def holdCount (x : Ctx) : Nat := x.hold.length + (x.lsq.filter fun e => isCommit e.kind).length

end Sys2Proof.Machine
end

