-- ==== Sys2Proof/Machine/Save.lean ====
section
/-!
DEFINITION. The save area of a trap or a pre-emption and the matrix save area, written as bytes and read back
(spec 14 R335 to R337, 06 R159).
-/

namespace Sys2Proof.Machine

open Sys2Proof

/-- Parts of a save area: offset and bytes. -/
abbrev Parts := List (Nat × List Byte)

/-- Eight bytes of a word. -/
def w8 (w : Word) : List Byte := bytesOf 8 w.toNat

/-- Bytes of words in order. -/
def words (ws : List Word) : List Byte := ws.flatMap w8

/-- Move parts to an offset. -/
def shiftParts (o : Nat) (ps : Parts) : Parts := ps.map fun p => (p.1 + o, p.2)

/-- TRAPPC layout: KID and PC (14 R334). -/
def pcWord (kid pc : Nat) : Word := BitVec.ofNat 64 (kid * 2 ^ 60 + pc % 2 ^ 24)

def byteList (v : VReg) : List Byte := v.flatMap fun l => bytesOf 4 l.toNat

/-- Mask of the written parts of an address register: ADDR, STRIDE, LVL. -/
def aMask (a : Option Word) (s : Option Word) (l : Option (BitVec 3)) : Nat :=
  (if a.isSome then 1 else 0) + (if s.isSome then 2 else 0) + (if l.isSome then 4 else 0)

/-- A snapshot entry at boundary b (14 R337). DESIGN CHOICE, log 81. -/
def snapBytes (b : Nat) (r : InFlight) : List Byte :=
  let due := (r.due - b) % 256
  let (kind, n) := match r.dest with | .x n => (0, n) | .v n => (1, n) | .p n => (2, n) | .a n => (3, n) | .none => (0, 0)
  let (pend, q) := match r.pop with | some (q, _, _) => (if r.val = .pending then 1 else 0, q) | none => (0, 0)
  let head := bytesOf 8 (n % 64 + kind * 256 + due * 65536 + pend * 2 ^ 24 + q * 2 ^ 25) ++ bytesOf 8 r.flags.toNat
  let (mask, val) : Nat × List Byte := match r.val with
    | .word w => (0, w8 w)
    | .lanes m v => (m.toNat, byteList v)
    | .bits m v => (m.toNat, bytesOf 16 v.toNat)
    | .areg a s l => (aMask a s l, words [a.getD 0#64, s.getD 0#64, (l.map zext).getD 0#64])
    | .pending => match r.pop with
      | some (_, e, k) => (k / 32, bytesOf 8 e ++ bytesOf 8 (k % 32))
      | none => (0, [])
  let body := head ++ bytesOf 16 mask ++ val
  body ++ List.replicate (544 - body.length) 0#8

/-- One loop level (14 R335 offset 1,536). -/
def loopBytes (rot : Nat) (l : LoopLevel) : List Byte :=
  let rep := l.kind == .replay
  words [BitVec.ofNat 64 l.start, BitVec.ofNat 64 l.exit, BitVec.ofNat 64 l.count,
    BitVec.ofNat 64 (1 + (if rep then 2 + (l.stages - 1) * 4 + rot * 256 else 0))]

/-- A dispatch table in the layout of a descriptor (05 R133). -/
def bucketBytes (t : List Bucket) : List Byte := t.flatMap fun b => bytesOf 8 (b.cap + b.pc * 2 ^ 32)

def faultBytes (f : PFault) : List Byte := words [f.code, f.addr]

/-- Bytes with zeros behind them up to a length. -/
def padTo (n : Nat) (bs : List Byte) : List Byte := bs ++ List.replicate (n - bs.length) 0#8

/-- A hold-buffer entry (14 R335 offset 1,036,288). DESIGN CHOICE, log 81. -/
def heldBytes (h : Held) : List Byte :=
  bytesOf 8 (h.va + if h.strong then 1 else 0) ++ bytesOf 8 h.mask.toNat ++ h.data

/-- The parts of the architectural state at boundary b: offsets 0 and 256 to 90,111 of R335. -/
def archParts (b : Nat) (a : Arch) : Parts :=
  [(0, w8 (pcWord a.kid a.pc)), (24, w8 (zext a.fstatus)), (32, w8 (zext a.fctl)),
   (256, words a.x), (768, a.a.flatMap fun r => words [r.addr, r.stride, zext r.lvl, 0#64]),
   (1280, a.p.flatMap fun p => bytesOf 16 p.toNat),
   (1536, padTo 128 (a.loops.flatMap (loopBytes a.rotBase))), (1664, a.disp.flatMap bucketBytes),
   (2240, padTo 64 (a.loops.flatMap fun l => bytesOf 16 l.pass)),
   (4096, a.v.flatMap byteList), (36864, words a.rng), (37888, a.inflight.flatMap (snapBytes b))]

/-- The state word (14 R336). -/
def stateWord (nsnap nfault level : Nat) (mx hold : Bool) : Word :=
  BitVec.ofNat 64 (level * 4 + (if mx then 8 else 0) + (if hold then 16 else 0) +
    (nfault - 8) * 32 + (min nfault 8) * 4096 + nsnap * 65536)

/-- A pending round (14 R335 offset 2,176); bit 32 of the contribution's word tells AGBX from AGB. The round of an
interrupted state stands in that state's own area.
DESIGN CHOICE, log 81. -/
def roundBytes (level : Nat) (r : Option Round) : List Byte :=
  match r with
  | some r => if r.level = level then roundWords r else List.replicate 64 0#8
  | none => List.replicate 64 0#8
where
  roundWords (r : Round) : List Byte := padTo 64 <| words [r.word, BitVec.ofNat 64 (r.contribution + if r.agbx then 2 ^ 32 else 0), BitVec.ofNat 64 r.seq, BitVec.ofNat 64 r.gen]

/-- Element bytes of a kept line (06 R159): dense elements, or one byte for each mantissa and then the indices. -/
def lineBytes (l : Line) : List Byte :=
  if l.idx.isEmpty then l.elems.flatMap fun e => bytesOf 2 e.toNat
  else (l.elems.map fun e => e.setWidth 8) ++ l.idx

def ofmtCode : OFmt → Nat | .f32 => 0 | .bf16 => 1 | .f16 => 2

def qElemBytes (f : OFmt) (l : Lane) : List Byte := match f with | .f32 => bytesOf 4 l.toNat | _ => bytesOf 2 l.toNat

/-- ROWPROG of a context's matrix state (06 R151). -/
def rowprogOf (m : MxState) : Word :=
  match m.run with
  | some r => if r.suspended then
      BitVec.ofNat 64 (2 ^ 63 + (if r.opnd then 2 ^ 48 else 0) + r.kstep % 16 * 2 ^ 44 + r.line % 128 * 2 ^ 32) else 0#64
  | none => 0#64

/-- A queued command (06 R159 offset 64). -/
def cmdBytes (c : MxCmd) : List Byte :=
  let b := bytesOf 8 (encode c.instr).toNat ++ words [c.xa0, c.xa1, c.xb0, c.xb1] ++ c.scale
  b ++ List.replicate (64 - b.length) 0#8

/-- The first 4,096 bytes of the matrix save area (06 R159). -/
def mxHeader (m : MxState) : List Byte :=
  let fmts (q : List QEntry) : Nat := (q.zipIdx).foldl (fun n e => n + ofmtCode e.1.fmt * 4 ^ e.2) 0
  let scale := match m.run with | some r => if r.suspended then (m.cmds.head?.map (·.scale)).getD [] else [] | none => []
  padTo 4096 (bytesOf 8 (m.queues.length * 256 + m.tiles.length * 65536) ++
    padTo 8 (m.queues.zipIdx.map fun q => BitVec.ofNat 8 (q.1.length * 32 + m.pops.getD q.2 0 % 32)) ++
    padTo 8 (m.queues.map fun q => BitVec.ofNat 8 (fmts q)) ++
    w8 (rowprogOf m) ++ padTo 16 scale ++ bytesOf 8 m.cmds.length ++ bytesOf 8 0 ++ m.cmds.flatMap cmdBytes)

/-- The matrix save area (06 R159). -/
def mxParts (m : MxState) : Parts :=
  let kept : Parts := match m.run with
    | some r =>
      (r.aLines.zipIdx.map fun l => (4096 + 256 * l.2, lineBytes l.1)) ++
      (r.bLines.zipIdx.map fun l => (4096 + 256 * (128 + l.2), lineBytes l.1))
    | none => []
  [(0, mxHeader m)] ++ kept ++
  (m.tiles.zipIdx.map fun t => (69632 + 16384 * t.2, byteList t.1)) ++
  (m.queues.zipIdx.flatMap fun q => q.1.zipIdx.map fun e =>
    (331776 + 16384 * (4 * q.2 + e.2), e.1.elems.flatMap (qElemBytes e.1.fmt)))

/-- The state of a context as a save writes it at boundary b, with its state word and the words at offsets 48 to 79. -/
def stateParts (b : Nat) (sw : Word) (trapRegs : List Byte) (x : Ctx) : Parts :=
  archParts b x.arch ++
  [(8, w8 sw), (16, w8 x.tags), (40, w8 x.agstate), (48, padTo 80 trapRegs),
   (128, (x.faults.take 8).flatMap faultBytes), (2304, (x.faults.drop 8).flatMap faultBytes),
   (1920, x.pins.flatMap fun p => words [p.start, p.len, p.mask, if p.isOpen then 1#64 else 0#64]),
   (2176, roundBytes x.level x.round)]

/-- Everything a trap saves at boundary b (14 R332 step 3, R335). -/
def trapParts (b : Nat) (x : Ctx) : Parts :=
  stateParts b (stateWord x.arch.inflight.length x.faults.length x.level false false) [] x

/-- Everything a pre-emption saves at boundary b (14 R342, R335); what R307 leaves out of the checkpoint is zero in its part.
DESIGN CHOICE, log 81. -/
def preemptParts (b : Nat) (x : Ctx) : Parts :=
  stateParts b (stateWord x.arch.inflight.length x.faults.length x.level x.mx.alloc x.ckpt.isSome)
    (if x.level = 1 then words [x.trapcode, x.trappc, x.trapaddr, x.savearea] else []) x ++
  (if x.mx.alloc then shiftParts 90112 (mxParts x.mx) else []) ++
  (match x.ckpt with
    | some a => shiftParts 946176 (archParts 0 a ++
        [(8, w8 (stateWord a.inflight.length 0 x.level false false)), (16, w8 0#64), (40, padTo 88 []), (1920, padTo 320 [])]) ++
        [(1036288, padTo 81920 (x.hold.flatMap heldBytes))]
    | none => [])

/-! Reading an area back: `rd o n` gives n bytes at offset o. -/

abbrev Rd := Nat → Nat → List Byte

def rdW (rd : Rd) (o : Nat) : Word := wordOf (rd o 8)
def rdN (rd : Rd) (o n : Nat) : Nat := natOf (rd o n)

/-- A run of bytes as n numbers of k bytes each. -/
def cut (k : Nat) : Nat → List Byte → List Nat
  | 0, _ => []
  | n + 1, bs => natOf (bs.take k) :: cut k n (bs.drop k)

/-- n numbers of k bytes each from offset o. -/
def rdMany (rd : Rd) (k o n : Nat) : List Nat := cut k n (rd o (k * n))

def rdLanes (rd : Rd) (o n : Nat) : VReg := (rdMany rd 4 o n).map (BitVec.ofNat 32)

/-- A snapshot entry read back; its cycles count from 0, and a known value is ready (14 R337, R239). -/
def rdSnap (rd : Rd) (o id : Nat) : InFlight :=
  let h := rdN rd o 8
  let n := nbits h 0 6
  let due := nbits h 16 8
  let pend := nbits h 24 1 == 1
  let mask := rdN rd (o + 16) 16
  let base : InFlight :=
    { id := id, dest := .x n, due := due, ready := due, val := .word (rdW rd (o + 32))
      flags := BitVec.ofNat 8 (rdN rd (o + 8) 1) }
  match nbits h 8 2 with
  | 0 => base
  | 1 =>
    if pend then { base with
      dest := .v n, val := .pending, late := true
      pop := some (nbits h 25 3, rdN rd (o + 32) 8, rdN rd (o + 40) 8 + 32 * mask) }
    else { base with dest := .v n, val := .lanes (BitVec.ofNat 128 mask) (rdLanes rd (o + 32) 128) }
  | 2 => { base with dest := .p n, val := .bits (BitVec.ofNat 128 mask) (BitVec.ofNat 128 (rdN rd (o + 32) 16)) }
  | _ =>
    let ad := if nbits mask 0 1 = 1 then some (rdW rd (o + 32)) else none
    let st := if nbits mask 1 1 = 1 then some (rdW rd (o + 40)) else none
    let lv := if nbits mask 2 1 = 1 then some (BitVec.ofNat 3 (rdN rd (o + 48) 1)) else none
    { base with dest := .a n, val := .areg ad st lv }

/-- The active loop levels read back. -/
def rdLoops (rd : Rd) : List LoopLevel :=
  ((List.range 4).filter fun i => rdN rd (1536 + 32 * i + 24) 1 % 2 = 1).map fun i =>
    let o := 1536 + 32 * i
    let f := rdN rd (o + 24) 8
    { kind := if nbits f 1 1 = 1 then .replay else .loop, count := rdN rd (o + 16) 8, start := rdN rd o 8,
      exit := rdN rd (o + 8) 8, stages := nbits f 2 4 + 1, pass := rdN rd (2240 + 16 * i) 16 }

/-- The rotation base read back from the replay level (04 R117, 14 R335). -/
def rdRot (rd : Rd) : Nat :=
  ((List.range 4).map fun i =>
    if nbits (rdN rd (1536 + 32 * i + 24) 8) 0 2 = 3 then nbits (rdN rd (1536 + 32 * i + 24) 8) 8 5 else 0).foldl Nat.add 0

/-- The architectural state read back (14 R335, R340). -/
def rdArch (rd : Rd) (nsnap : Nat) : Arch :=
  let pcw := rdN rd 0 8
  { x := 0#64 :: ((List.range 63).map fun i => rdW rd (264 + 8 * i))
    v := (List.range 64).map fun i => rdLanes rd (4096 + 512 * i) 128
    p := pall :: ((List.range 15).map fun i => BitVec.ofNat 128 (rdN rd (1280 + 16 * (i + 1)) 16))
    a := (List.range 16).map fun i =>
      { addr := rdW rd (768 + 32 * i), stride := rdW rd (776 + 32 * i), lvl := BitVec.ofNat 3 (rdN rd (784 + 32 * i) 1) }
    pc := nbits pcw 0 24, kid := nbits pcw 60 4
    fstatus := BitVec.ofNat 8 (rdN rd 24 1)
    fctl := if rdN rd 32 1 ≤ 4 then BitVec.ofNat 3 (rdN rd 32 1) else 0#3
    rng := (rdMany rd 8 36864 128).map (BitVec.ofNat 64)
    loops := rdLoops rd
    rotBase := rdRot rd
    disp := (List.range 4).map fun t => (List.range 8).map fun e =>
      { cap := rdN rd (1664 + 64 * t + 8 * e) 3, pc := rdN rd (1664 + 64 * t + 8 * e + 4) 3 }
    inflight := (List.range nsnap).map fun i => rdSnap rd (37888 + 544 * i) i }

def rdFault (rd : Rd) (o : Nat) : PFault := ⟨rdW rd o, rdW rd (o + 8)⟩

/-- The pending faults read back: places 0 to 7 and 8 to 119. -/
def rdFaults (rd : Rd) (np nx : Nat) : List PFault :=
  ((List.range np).map fun i => rdFault rd (128 + 16 * i)) ++ ((List.range nx).map fun i => rdFault rd (2304 + 16 * i))

def rdPins (rd : Rd) (age : Nat → Nat) : List PinWin :=
  (List.range 8).map fun i => let o := 1920 + 32 * i
    { isOpen := rdN rd (o + 24) 1 % 2 == 1, start := rdW rd o, len := rdW rd (o + 8), mask := rdW rd (o + 16), age := age i }

/-- The pending round of an area, which AGSTATE.PEND says is there, with the outcome that has reached the round in the
context meanwhile (12 R305, R311; 14 R335).
DESIGN CHOICE, log 81. -/
def rdRound (rd : Rd) (level : Nat) (now : Option Round) : Option Round :=
  if nbits (rdN rd 40 8) 1 1 = 0 then none else
  let w := rdW rd 2176
  let c := rdN rd 2184 8
  some { word := w, contribution := c % 2 ^ 16, gid := bitsN w 9 0, seq := rdN rd 2192 8, gen := rdN rd 2200 8,
         agbx := nbits c 32 1 == 1, level := level, decided := now.bind (·.decided) }

/-- The entries of the hold buffer read back, up to the first that masks no byte (14 R335).
DESIGN CHOICE, log 81. -/
def rdHold (rd : Rd) : List Held :=
  ((List.range 1024).takeWhile fun i => rdN rd (1036288 + 80 * i + 8) 8 != 0).map fun i => let o := 1036288 + 80 * i
    let a := rdN rd o 8
    { va := a / 64 * 64, strong := a % 2 == 1, mask := BitVec.ofNat 64 (rdN rd (o + 8) 8), data := rd (o + 16) 64, segs := [] }

/-- Every byte of a run is zero. -/
def zeros (rd : Rd) (o n : Nat) : Bool := (rd o n).all (· == 0#8)

/-- The reserved bits of a word in the TRAPCODE layout are zero (14 R334). -/
def codeReserved (w : Nat) : Bool := nbits w 42 22 == 0 && nbits w 9 15 == 0

/-- The reserved bits of a word in the TRAPPC layout are zero (14 R334). -/
def pcReserved (w : Nat) : Bool := nbits w 24 36 == 0

/-- The words at offsets 48 to 79: those of a handler's state that pre-emption saved, reserved otherwise (14 R335). -/
def trapWordsOk (rd : Rd) (saved : Bool) : Bool :=
  if saved then codeReserved (rdN rd 48 8) && pcReserved (rdN rd 56 8) && nbits (rdN rd 72 8) 0 6 == 0 else zeros rd 48 32

/-- The reserved fields and counts of an area are in order (14 R334 to R336; 05 R133): else the restore raises 0x01.
DEDUCED, log 80. -/
def areaOk (rd : Rd) (preempt : Bool) : Bool :=
  let sw := rdN rd 8 8
  let np := nbits sw 12 4
  let nx := nbits sw 5 7
  nbits sw 24 40 == 0 && nbits sw 0 2 == 0 && decide (nbits sw 16 8 ≤ 96) && decide (np ≤ 8) && decide (nx ≤ 112)
    && (nx == 0 || np == 8) && zeros rd 80 48 && trapWordsOk rd (preempt && nbits sw 2 1 == 1)
    && pcReserved (rdN rd 0 8) && zeros rd 25 7 && decide (rdN rd 32 8 < 8)
    && nbits (rdN rd 40 8) 42 6 == 0 && nbits (rdN rd 40 8) 20 12 == 0 && nbits (rdN rd 40 8) 0 1 == 0
    && (List.range np).all (fun i => codeReserved (rdN rd (128 + 16 * i) 8))
    && (List.range nx).all (fun i => codeReserved (rdN rd (2304 + 16 * i) 8))
    && (List.range 16).all (fun i => zeros rd (768 + 32 * i + 24) 8 && decide (rdN rd (784 + 32 * i) 8 < 8))
    && (List.range 4).all (fun i => let f := rdN rd (1536 + 32 * i + 24) 8; nbits f 6 2 == 0 && nbits f 13 51 == 0)
    && (List.range 32).all (fun i => zeros rd (1664 + 8 * i + 3) 1 && zeros rd (1664 + 8 * i + 7) 1)
    && zeros rd 2208 32

def ofmtOf : Nat → OFmt | 1 => .bf16 | 2 => .f16 | _ => .f32

/-- The reserved fields and counts of a matrix save area are in order (06 R159). -/
def mxAreaOk (rd : Rd) : Bool :=
  let h := rdN rd 0 8
  let rp := rdN rd 24 8
  nbits h 0 8 == 0 && nbits h 12 4 == 0 && nbits h 21 43 == 0 && decide (nbits h 16 5 ≤ 16) && decide (nbits h 8 4 ≤ 8)
    && (List.range 8).all (fun q => decide (rdN rd (8 + q) 1 / 32 ≤ 4) &&
      (List.range 4).all fun e => decide (nbits (rdN rd (16 + q) 1) (2 * e) 2 ≤ 2))
    && decide (rdN rd 48 8 ≤ 8) && zeros rd 56 8 && zeros rd 576 3520 && nbits rp 49 14 == 0 && nbits rp 39 5 == 0 && nbits rp 0 32 == 0
    && (List.range (rdN rd 48 8)).all fun c => zeros rd (64 + 64 * c + 4) 4 && zeros rd (64 + 64 * c + 56) 8

/-- How many lines of each operand the suspended command holds (06 R149, R159). -/
def keptCount (i : Instr) (opnd : Bool) (line v : Nat) : Nat × Nat :=
  match i with
  | .mma .. => if opnd then (min v 64, line) else (line, 0)
  | .mmr .. => if opnd then (min v 128, line) else (line, 0)
  | _ => (line, 0)

/-- A kept line read back. -/
def rdLine (rd : Rd) (o : Nat) (i : Instr) : Line :=
  let dense (n : Nat) : Line := { elems := (rdMany rd 2 o n).map (BitVec.ofNat 16) }
  let sb (n x : Nat) : Line :=
    { elems := (List.range n).map fun k => (BitVec.ofNat 8 (rdN rd (o + k) 1)).signExtend 16, idx := rd (o + n) x }
  match i with
  | .mma .sb .. => sb 64 2
  | .mmr .sb .. => sb 128 4
  | .mma .. => dense 64
  | _ => dense 128

/-- The matrix state read back from a save area (06 R159). A queued command whose syllable decodes to none is taken as one
without effect.
DESIGN CHOICE, log 120. -/
def rdMx (rd : Rd) : MxState :=
  let h := rdN rd 0 8
  let nt := nbits h 16 5
  let nq := nbits h 8 4
  let rp := rdN rd 24 8
  let cmds : List MxCmd := (List.range (rdN rd 48 8)).map fun c =>
    let o := 64 + 64 * c
    { instr := (okOf (decodeSyl .e (BitVec.ofNat 32 (rdN rd o 4)))).getD .mtfree
      xa0 := rdW rd (o + 8), xa1 := rdW rd (o + 16), xb0 := rdW rd (o + 24), xb1 := rdW rd (o + 32)
      scale := rd (o + 40) 16 }
  let run : Option MxRun :=
    if nbits rp 63 1 = 1 then
      let opnd := nbits rp 48 1 = 1
      let line := nbits rp 32 7
      let hd := cmds.headD { instr := .mtfree }
      let (na, nb) := keptCount hd.instr opnd line (bitsN hd.xa1 63 48)
      some { opnd := opnd, kstep := nbits rp 44 4, line := line, suspended := true
             aLines := (List.range na).map fun l => rdLine rd (4096 + 256 * l) hd.instr
             bLines := (List.range nb).map fun l => rdLine rd (4096 + 256 * (128 + l)) hd.instr }
    else none
  { alloc := nt != 0
    tiles := (List.range nt).map fun t => rdLanes rd (69632 + 16384 * t) 4096
    queues := (List.range nq).map fun q => (List.range (rdN rd (8 + q) 1 / 32)).map fun e =>
      let f := ofmtOf (nbits (rdN rd (16 + q) 1) (2 * e) 2)
      let o := 331776 + 16384 * (4 * q + e)
      { fmt := f
        ready := decide (e + (cmds.filter fun m => match m.instr with
          | .mdrain _ _ qd _ => qd.toNat == q
          | _ => false).length < rdN rd (8 + q) 1 / 32)
        elems := match f with
          | .f32 => rdLanes rd o 4096
          | _ => (rdMany rd 2 o 4096).map (BitVec.ofNat 32) }
    pops := (List.range nq).map fun q => rdN rd (8 + q) 1 % 32
    cmds := cmds, run := run }

end Sys2Proof.Machine
end

