-- ==== Sys2Proof/Machine/Ops.lean ====
section
/-!
DEFINITION. The named operations over registers, contexts and records: landing of results, save and restore,
taking an exception and returning from one, pre-emption, the end of a record
(spec 02 R35 to R37; 10 R249, R254 to R260; 14 R327 to R342).
-/

namespace Sys2Proof.Machine

open Sys2Proof

/-! Register results -/

def setX (n : Nat) (w : Word) (a : Arch) : Arch := if n = 0 then a else { a with x := a.x.set n w }

/-- Lanes of a vector register under a mask. -/
def mergeLanes (mask : Pred) (old new : VReg) : VReg :=
  (List.range 128).map fun l => if bit mask l then lane new l else lane old l

/-- Write a value to its destination: x0 and p0 are never written (02 R43, R45). -/
def putVal (d : Dest) (v : Val) (a : Arch) : Arch :=
  match d, v with
  | .x n, .word w => setX n w a
  | .v n, .lanes m r => { a with v := a.v.modify n fun o => if m = pall then r else mergeLanes m o r }
  | .p n, .bits m r => if n = 0 then a else { a with p := a.p.modify n fun o => (o &&& ~~~m) ||| (r &&& m) }
  | .a n, .areg ad st lv =>
    { a with a := a.a.modify n fun o => { addr := ad.getD o.addr, stride := st.getD o.stride, lvl := lv.getD o.lvl } }
  | _, _ => a

/-- The cycle in which a result with a known value lands (02 R35). -/
def landAt (r : InFlight) : Nat := max r.due r.ready

def known (r : InFlight) : Bool := match r.val with | .pending => false | _ => true

/-- A result writes the whole of its destination. -/
def wholeVal : Val → Bool
  | .word _ => true
  | .lanes m _ => m == pall
  | .bits m _ => m == pall
  | .areg a s l => a.isSome && s.isSome && l.isSome
  | .pending => false

/-- Land one result: its value, its flags, its poison; a write of a part leaves poison (02 R35, R36; 14 R345). -/
def landOne (a : Arch) (r : InFlight) : Arch :=
  let a := putVal r.dest r.val a
  let others := a.poisoned.filter (· != r.dest)
  let bad := r.dest != .x 0 && r.dest != .p 0 && (r.poisoned || (a.poisoned.contains r.dest && !wholeVal r.val))
  { a with fstatus := a.fstatus ||| r.flags
           poisoned := if bad then r.dest :: others else others }

/-- Insert by landing cycle; results of one cycle stay in issue order (02 R36). -/
def insertLand (r : InFlight) : List InFlight → List InFlight
  | [] => [r]
  | q :: qs => if landAt r < landAt q then r :: q :: qs else q :: insertLand r qs

/-- Land every result that is due by a cycle, in landing order (02 R35, R36). -/
def landBy (now : Nat) (a : Arch) : Arch :=
  let ok (r : InFlight) : Bool := known r && decide (landAt r ≤ now)
  let due := (a.inflight.filter ok).foldl (fun l r => insertLand r l) []
  due.foldl landOne { a with inflight := a.inflight.filter fun r => !ok r }

/-- Results that must be ready in time but whose access has not been performed are performed now (02 R35). -/
def forceDue (c now : Nat) (s : State) : State :=
  let rs := (getArch s c).inflight.filter fun r => !known r && !r.late && decide (r.due ≤ now)
  foldS (fun r s =>
    let s := if (getCtx s c).lsq.any (fun e => e.res == some r.id) then drainTo c r.id s else s
    let n := ((getCtx s c).bk.findIdx? fun e => e.res == some r.id).map (· + 1)
    foldS (fun _ s => bkPerform c s) (List.range (n.getD 0)) s) rs s

/-- Flags of the results that land in one cycle (02 R36, R61). -/
def flagsAt (now : Nat) (a : Arch) : BitVec 8 :=
  (a.inflight.filter fun r => known r && landAt r == now).foldl (fun f r => f ||| r.flags) 0#8

/-- The results of context c that have landed by its core's cycle. -/
def landNow (c : Nat) (s : State) : State :=
  if (getArch s c).inflight.isEmpty || (getCtx s c).rebase then s else
  let now := nowOf s c
  let s := forceDue c now s
  modCtx c (fun x => { x with
    landed := (now, flagsAt now x.arch ||| (if x.landed.1 = now then x.landed.2 else 0#8))
    arch := landBy now x.arch }) s

/-- The next operation number of a context. -/
def nextOp (c : Nat) (s : State) : Nat × State :=
  ((getCtx s c).nextId, modCtx c (fun x => { x with nextId := x.nextId + 1 }) s)

/-- Queue a result whose value is known: a fixed class, or a status read (02 R34, R35).
DESIGN CHOICE, log 2. -/
def addResult (c : Nat) (dst : Dest) (v : Val) (fl : BitVec 8) (cls : Nat) (s : State) : State :=
  let now := nowOf s c
  let stated := latOf s c cls
  let (k, s) := if variableClass cls then choose 65536 s else (0, s)
  let (id, s) := nextOp c s
  modArch c (fun a => { a with inflight := a.inflight ++
    [{ id := id, dest := dst, due := now + stated, late := decide (stated < nativeLat cls + k)
       ready := now + nativeLat cls + k, val := v, flags := fl }] }) s

/-- Queue a result whose value comes from an access not yet performed: whether it is late is a choice (02 R35).
DESIGN CHOICE, log 2. -/
def addPending (c : Nat) (dst : Dest) (cls : Nat) (s : State) : Nat × State :=
  let now := nowOf s c
  let stated := latOf s c cls
  let (k, s) := choose 2 s
  let (id, s) := nextOp c s
  (id, modArch c (fun a => { a with inflight := a.inflight ++
    [{ id := id, dest := dst, due := now + stated
       late := decide (stated < nativeLat cls) || k == 1, ready := now + nativeLat cls, val := .pending }] }) s)

/-! The start of a record -/

/-- The architectural state at the start of a record (10 R249; 03 R82). -/
def startArch (kid entry : Nat) (x1 x2 x3 : Word) : Arch :=
  { x := [0#64, x1, x2, x3] ++ List.replicate 60 0#64, rng := rngStart, pc := entry, kid := kid }

/-! The matrix allocation of a context -/

/-- A fresh allocation: tiles of +0.0, empty queues (06 R137). -/
def emptyMx (n m : Nat) : MxState :=
  { alloc := true, tiles := List.replicate n (List.replicate 4096 0#32), queues := List.replicate m []
    pops := List.replicate m 0 }

/-- Tiles and queues that a context holds. -/
def ownMx (x : Ctx) : Nat × Nat := if x.mx.alloc then (x.mx.tiles.length, x.mx.queues.length) else (0, 0)

/-- Change the free tiles and queues of a core. -/
def freeMx (k : Nat) (f : Nat × Nat → Nat × Nat) (s : State) : State :=
  modCore k (fun q => { q with freeTiles := (f (q.freeTiles, q.freeQueues)).1, freeQueues := (f (q.freeTiles, q.freeQueues)).2 }) s

/-- A request fits what is free together with what its context holds (06 R137, R159). -/
def fitsMx (k : Core) (own : Nat × Nat) (n m : Nat) : Bool :=
  decide (n ≤ k.freeTiles + own.1) && decide (m ≤ k.freeQueues + own.2)

/-- Grant waiting requests that the free tiles and queues satisfy, in issue order (06 R137): what a blocked bundle is
granted is kept for it until it issues or is abandoned; a record that waits to go on gets its state back.
DESIGN CHOICE, log 95. -/
def grantMx (k : Nat) (s : State) : State :=
  foldS (fun c s =>
    let x := getCtx s c
    match x.wantMx with
    | some (n, m) =>
      let own := ownMx x
      if x.granted || !fitsMx (getCore s k) own n m then s else
      let s := freeMx k (fun f => (f.1 - (n - own.1), f.2 - (m - own.2))) s
      let s := modCore k (fun q => { q with mxWait := q.mxWait.filter (· != c) }) s
      if x.block.isSome then modCtx c (fun x => { x with granted := true }) s
      else modCtx c (fun x => { x with wantMx := none, mxHeld := none, mx := x.mxHeld.getD (emptyMx n m) }) s
    | none => s) (getCore s k).mxWait s

/-- A waiting request is given up: what was granted is free again (06 R137; 10 R256). -/
def dropWant (c : Nat) (s : State) : State :=
  let x := getCtx s c
  let k := coreOf c
  let s := modCore k (fun q => { q with mxWait := q.mxWait.filter (· != c) }) s
  let s := match x.wantMx with
    | some (n, m) => if x.granted then freeMx k (fun f => (f.1 + (n - (ownMx x).1), f.2 + (m - (ownMx x).2))) s else s
    | none => s
  let s := modCtx c (fun x => { x with wantMx := none, mxHeld := none, granted := false }) s
  if x.granted then grantMx k s else s

/-- Release a context's tiles and queues (06 R138). -/
def releaseMx (c : Nat) (s : State) : State :=
  let s := dropWant c s
  let own := ownMx (getCtx s c)
  let k := coreOf c
  let s := modCore k (fun q => { q with mxBusy := if q.mxBusy = some c then none else q.mxBusy }) s
  grantMx k (modCtx c (fun x => { x with mx := {} }) (freeMx k (fun f => (f.1 + own.1, f.2 + own.2)) s))

/-- The granted request of a bundle that issues: the state that replaces the context's own (06 R137, R159). -/
def takeGrant (c : Nat) (s : State) : State :=
  let x := getCtx s c
  let k := coreOf c
  match x.wantMx with
  | some (n, m) =>
    let own := ownMx x
    let s := freeMx k (fun f => (f.1 + (own.1 - n), f.2 + (own.2 - m))) s
    grantMx k (modCtx c (fun x => { x with wantMx := none, mxHeld := none, granted := false, mx := x.mxHeld.getD (emptyMx n m) }) s)
  | none => s

/-- Take the tiles and queues of a restored matrix state if they are free (06 R159, R161). -/
def takeMx (c : Nat) (m : MxState) (s : State) : Option State :=
  let k := coreOf c
  let kk := getCore s k
  if m.tiles.length ≤ kk.freeTiles && m.queues.length ≤ kk.freeQueues then
    some (modCtx c (fun x => { x with mx := m }) (modCore k (fun q => { q with
      freeTiles := q.freeTiles - m.tiles.length, freeQueues := q.freeQueues - m.queues.length }) s))
  else none

/-! Writing and reading save areas -/

/-- The parts of a save, each translated and written on a path; or the fault of the first that cannot be (06 R159;
14 R331). -/
def writeParts (c : Nat) (p : Path) (nd : Need) (base : Word) : Parts → State → Except (Nat × Word) State
  | [], s => .ok s
  | (o, bs) :: ps, s =>
    if bs.isEmpty then writeParts c p nd base ps s else
    match checkAccess c nd (base + BitVec.ofNat 64 o) bs.length s with
    | (.ok segs, s) => writeParts c p nd base ps (writeSegs (dieOf c) p 0 0 false segs bs s)
    | (.error (code, a), _) => .error (code, BitVec.ofNat 64 a)

/-- The physical pages of an area, read on a path: a reader of bytes, or none when a page faults. -/
def areaReader (c : Nat) (base : Word) (len : Nat) (s : State) : Option (Rd × List Seg) :=
  match checkAccess c { r := true } base len s with
  | (.ok segs, _) =>
    some (fun o n => (subSegs segs o n).flatMap fun g => readRun (getDie s (dieOf c)).mem g.pa g.len, segs)
  | (.error _, _) => none

/-- Parts of a matrix save area that its counts say are in use: offset and length (06 R159). -/
def mxRuns (rd : Rd) : List (Nat × Nat) :=
  let h := rdN rd 0 8
  (if bitsN (rdW rd 24) 63 63 = 1 then [(4096, 65536)] else []) ++
  (List.range (nbits h 16 5)).map (fun t => (69632 + 16384 * t, 16384)) ++
  (List.range (nbits h 8 4)).flatMap fun q => (List.range (rdN rd (8 + q) 1 / 32)).map fun e =>
    (331776 + 16384 * (4 * q + e), 16384)

/-- Translate and read runs of an area on a path: each with its offset, pages and bytes. -/
def readRuns (c : Nat) (p : Path) (base : Word) : List (Nat × Nat) → State →
    Except (Nat × Word) (List (Nat × List Seg × List Byte)) × State
  | [], s => (.ok [], s)
  | (o, n) :: rs, s =>
    match checkAccess c { r := true } (base + BitVec.ofNat 64 o) n s with
    | (.error (code, a), s) => (.error (code, BitVec.ofNat 64 a), s)
    | (.ok segs, s) =>
      let (bs, _, s) := readSegs (dieOf c) p 0 false segs s
      match readRuns c p base rs s with
      | (.error e, s) => (.error e, s)
      | (.ok more, s) => (.ok ((o, segs, bs) :: more), s)

/-- A reader over runs that have been read. -/
def runReader (rs : List (Nat × List Seg × List Byte)) : Rd := fun o n =>
  match rs.find? fun r => decide (r.1 ≤ o) && decide (o < r.1 + r.2.2.length) with
  | some r => padTo n (((r.2.2.drop (o - r.1)).take n))
  | none => List.replicate n 0#8

/-- The address of line L of an operand of a queued command in a K-step (06 R145, R146): dense data and MLOAD. -/
def lineAddr (m : MxCmd) (opnd : Bool) (k l : Nat) : Word :=
  let x := if opnd then m.xb0 else m.xa0
  let st := (BitVec.ofNat 48 ((if opnd then m.xb1 else m.xa1).toNat)).signExtend 64
  match m.instr with
  | .mma .sb .. => x + BitVec.ofNat 64 l * st
  | .mma .. => if opnd then x + BitVec.ofNat 64 (64 * k + l) * st else x + BitVec.ofNat 64 l * st + BitVec.ofNat 64 (128 * k)
  | _ => x + BitVec.ofNat 64 l * st

/-- The mantissa width that a page format gives, 0 where it carries no blocks (03 R74).
DESIGN CHOICE, log 32. -/
def sbWidth (f : Nat) : Nat := if isSB f then f - 7 else 0

/-- Kept lines of blocks take their mantissa width from their pages: the save area does not hold it.
DESIGN CHOICE, log 32. -/
def relineMx (c : Nat) (m : MxState) (s : State) : MxState :=
  match m.run, m.cmds with
  | some r, hd :: _ =>
    let width (opnd : Bool) (l : Nat) : Nat :=
      match (lookup (tlbOf c) s (dieOf c) (domOf s c) (lineAddr hd opnd r.kstep l).toNat).1 with
      | .ok lf => sbWidth (leafFormat lf.entry)
      | .error _ => 0
    let fix (opnd : Bool) (ls : List Line) : List Line :=
      ls.zipIdx.map fun e => if e.1.idx.isEmpty then e.1 else { e.1 with m := width opnd e.2 }
    { m with run := some { r with aLines := fix false r.aLines, bLines := fix true r.bLines } }
  | _, _ => m

/-- A part of runs that have been read holds poison. -/
def badIn (d : Die) (rs : List (Nat × List Seg × List Byte)) (o n : Nat) : Bool :=
  !d.poison.isEmpty && rs.any fun r =>
    decide (r.1 < o + n) && decide (o < r.1 + r.2.2.length) &&
      (subSegs r.2.1 (o - r.1) (min n (o + n - r.1))).any fun g => (poisonIn d g.pa g.len).isSome

/-- Offsets of tile rows and queue entries in the matrix save area (06 R159). -/
def rowPlace (t r : Nat) : Nat × Nat := (69632 + 16384 * t + 256 * r, 256)
def entryPlace (q e : Nat) : Nat × Nat := (331776 + 16384 * (4 * q + e), 16384)

/-- Poison read back with the tiles and entries of an area (14 R345). DESIGN CHOICE, log 33. -/
def markMx (d : Die) (rs : List (Nat × List Seg × List Byte)) (m : MxState) : MxState :=
  if d.poison.isEmpty then m else
  { m with
    tilePoison := (List.range m.tiles.length).flatMap fun t => ((List.range 64).filter fun r =>
      badIn d rs (rowPlace t r).1 256).map fun r => (t, r)
    queues := m.queues.zipIdx.map fun q => q.1.zipIdx.map fun e =>
      { e.1 with poisoned := badIn d rs (entryPlace q.2 e.2).1 16384 } }

/-- Read a matrix save area (06 R159): its state, or the fault; poison of its header or kept lines is 0x18. -/
def readMx (c : Nat) (p : Path) (base : Word) (s : State) : Except (Nat × Word) MxState × State :=
  match readRuns c p base [(0, 4096)] s with
  | (.error e, s) => (.error e, s)
  | (.ok hd, s) =>
    if !mxAreaOk (runReader hd) then (.error (0x01, 0#64), s) else
    match readRuns c p base (mxRuns (runReader hd)) s with
    | (.error e, s) => (.error e, s)
    | (.ok rest, s) =>
      let rs := hd ++ rest
      let d := getDie s (dieOf c)
      if badIn d rs 0 4096 || badIn d rs 4096 65536 then (.error (0x18, 0#64), s)
      else (.ok (markMx d rs (relineMx c (rdMx (runReader rs)) s)), s)

/-- VALID has been cleared in a saved area whose commands stand behind a suspended one: that one is abandoned
(06 R151, R160). -/
def dropAbandoned (m : MxState) : MxState := if m.run.isNone then { m with cmds := m.cmds.drop 1 } else m

/-! Results of pops -/

/-- The value of a pop of an entry: two rows in the lanes of the mask (06 R158). -/
def popLanes (e : QEntry) (k : Nat) : VReg := (e.elems.drop (128 * k)).take 128

/-- Pending pops that the last pop of a restored queue implies (06 R158; 14 R337). -/
def fixPops (a : Arch) (m : MxState) : MxState :=
  { m with pops := m.pops.zipIdx.map fun e =>
      a.inflight.foldl (fun n r => match r.val, r.pop with
        | .pending, some (q, i, w) => if q = e.2 then max n (32 * i + w % 32 + 1) else n
        | _, _ => n) e.1 }

/-- The pop of a checkpoint whose entry has become ready during run-ahead: known, it is replayed with its cycle (09 R239;
12 R309). -/
def giveKept (p : Nat × Nat × Nat) (e : QEntry) (r : InFlight) : InFlight :=
  if r.val == .pending && r.pop == some p then
    { r with val := .lanes (BitVec.ofNat 128 (p.2.2 / 32)) (popLanes e (p.2.2 % 32)), ready := r.due, late := false, poisoned := e.poisoned }
  else r

/-- The matrix state is that of the state in which the checkpoint was taken (06 R160; 12 R311). -/
def keptHere (x : Ctx) : Bool := x.ckptAt1 == (x.level == 1)

/-- Change the in-flight results of the checkpoint that belongs to the matrix state. -/
def modKept (c : Nat) (f : InFlight → InFlight) (s : State) : State :=
  modCtx c (fun x => if keptHere x then { x with ckpt := x.ckpt.map fun a => { a with inflight := a.inflight.map f } } else x) s

/-- Give every pending pop whose entry is ready its value, in the checkpoint too; one of a poisoned entry waits for room for
its fault (06 R158; 12 R309; 14 R329, R345). -/
def givePops (c : Nat) (s : State) : State :=
  let at_ := if (getCtx s c).rebase then 0 else nowOf s c
  foldS (fun (r : InFlight) s =>
    match r.val, r.pop with
    | .pending, some (q, i, w) =>
      match ((getCtx s c).mx.queues.getD q [])[i]? with
      | some e =>
        if !e.ready || (e.poisoned && !canDeliver s c (getCtx s c).level) then s else
        let s := giveResult c r.id at_ (.lanes (BitVec.ofNat 128 (w / 32)) (popLanes e (w % 32))) 0#8 e.poisoned s
        let s := modKept c (giveKept (q, i, w) e) s
        if e.poisoned then deliver c (getCtx s c).level 0x18 0 (BitVec.allOnes 64) s else s
      | none => s
    | _, _ => s) (getArch s c).inflight s

/-- A pending pop counts the entries of its queue from the new head. -/
def renumberPop (q : Nat) (r : InFlight) : InFlight :=
  match r.val, r.pop with
  | .pending, some (k, i, w) => if k = q then { r with pop := some (k, i - 1, w) } else r
  | _, _ => r

/-- Remove the head entries of queue q that have been popped whole (06 R157, R158). An entry whose 32 pops have all issued
counts in the occupancy until it is ready.
DESIGN CHOICE, log 96. -/
def dropPopped (c q : Nat) (s : State) : State :=
  let m := (getCtx s c).mx
  match m.queues.getD q [] with
  | e :: rest =>
    if e.ready && decide (32 ≤ m.pops.getD q 0) then
      let s := modCtx c (fun x => { x with mx := { x.mx with
        queues := x.mx.queues.set q rest, pops := x.mx.pops.set q (x.mx.pops.getD q 0 - 32) } }) s
      modKept c (renumberPop q) (modArch c (fun a => { a with inflight := a.inflight.map (renumberPop q) }) s)
    else s
  | [] => s

/-- The commands and entries of the matrix state are the interrupted state's (06 R160). -/
def mxInterrupted (x : Ctx) : Bool := x.level == 1 && !x.mxTouched

/-- Pops whose entries are ready get their values, and entries popped whole go (06 R158). -/
def feedPops (c : Nat) (s : State) : State :=
  if mxInterrupted (getCtx s c) then s else
  let s := givePops c s
  foldS (fun q s => foldS (fun _ s => dropPopped c q s) (List.range 4) s) (List.range (getCtx s c).mx.queues.length) s

/-- Offsets of the registers in the save layout, for their poison (14 R335, R345). -/
def destOffset : Dest → Nat × Nat
  | .x n => (256 + 8 * n, 8)
  | .a n => (768 + 32 * n, 24)
  | .p n => (1280 + 16 * n, 16)
  | .v n => (4096 + 512 * n, 512)
  | .none => (0, 0)

/-- Places of the poisoned registers and in-flight results of a state in its save area (14 R335, R337). -/
def archBad (a : Arch) : List (Nat × Nat) :=
  a.poisoned.map destOffset ++ (a.inflight.zipIdx.filter (·.1.poisoned)).map fun e => (37920 + 544 * e.2, 512)

/-- Places of an area become poisoned (14 R345). DEDUCED, log 80. -/
def poisonPlaces (c : Nat) (base : Word) (ps : List (Nat × Nat)) (s : State) : State :=
  foldS (fun (e : Nat × Nat) s =>
    let (o, n) := e
    match checkAccess c { w := true } (base + BitVec.ofNat 64 o) n s with
    | (.ok segs, s) => modDie (dieOf c) (fun x => { x with poison :=
        (segs.flatMap fun g => (List.range ((g.len + 7) / 8)).map fun i => granule (g.pa + 8 * i)) ++ x.poison }) s
    | (.error _, s) => s) ps s

/-- Places of the poisoned rows and entries of a matrix state in its save area. -/
def mxBad (m : MxState) : List (Nat × Nat) :=
  m.tilePoison.map (fun p => rowPlace p.1 p.2) ++
  m.queues.zipIdx.flatMap fun q => (q.1.zipIdx.filter (·.1.poisoned)).map fun e => entryPlace q.2 e.2

/-- Places of the poisoned hold-buffer entries in a frame (14 R335). -/
def holdBad (hs : List Held) : List (Nat × Nat) :=
  (hs.zipIdx.filter (·.1.bad)).map fun e => (1036288 + 80 * e.2, 80)

/-- Some bytes of an area are poisoned. -/
def areaBad (d : Die) (segs : List Seg) (r : Nat × Nat) : Bool :=
  (subSegs segs r.1 r.2).any fun g => (poisonIn d g.pa g.len).isSome

/-- A part of an area that its state uses and that holds no register is poisoned (14 R335, R336). DEDUCED, log 80. -/
def specialBad (d : Die) (segs : List Seg) (rd : Rd) : Bool :=
  let sw := rdN rd 8 8
  !d.poison.isEmpty && ([(0, 128), (128, 16 * nbits sw 12 4), (1536, 768), (2304, 16 * nbits sw 5 7), (36864, 1024)] ++
    (List.range (nbits sw 16 8)).map fun i => (37888 + 544 * i, 32)).any (areaBad d segs)

/-- A state read back takes the poison of its granules in the area (14 R345). DEDUCED, log 80. -/
def withPoison (d : Die) (segs : List Seg) (a : Arch) : Arch :=
  if d.poison.isEmpty then a else
  let cand := ((List.range 63).map fun n => Dest.x (n + 1)) ++ ((List.range 64).map Dest.v) ++
    ((List.range 15).map fun n => Dest.p (n + 1)) ++ ((List.range 16).map Dest.a)
  { a with
    poisoned := cand.filter fun r => areaBad d segs (destOffset r)
    inflight := a.inflight.zipIdx.map fun e => { e.1 with poisoned := areaBad d segs (37920 + 544 * e.2, 512) } }

/-! Unhandled faults, trap entry -/

/-- Contexts that hold a record of a region's subtree on a die (10 R246). -/
def holders (s : State) (d r : Nat) : List Nat :=
  (List.range 256).map (· + 256 * d) |>.filter fun c =>
    let x := getCtx s c
    x.status == .active && inSubtree (getDie s d) r (ridOf s c)

/-- Make a region not runnable: its contexts are marked for pre-emption (10 R258). -/
def stopRegion (d r : Nat) (s : State) : State :=
  let s := modDie d (modRegion r fun g => { g with runnable := false }) s
  foldS (fun c s => modCtx c (fun x => { x with marked := true }) s) (holders s d r) s

/-! Waiting for a word -/

/-- The first context that waits for a word in a way is this one, or nobody waits. -/
def myTurn (d : Die) (k : WaitKind) (w c : Nat) : Bool :=
  match d.waiters.find? (waitsFor w k) with
  | some b => b.ctx == c
  | none => true

/-- A wait of a context at its level for a word, released or not. -/
def ownWait (x : Ctx) (done : Bool) (c : Nat) (k : WaitKind) (w : Nat) (b : BankWait) : Bool :=
  b.seg.pa == w && b.kind == k && b.ctx == c && b.level == x.level && b.done.isSome == done

/-- What a released wait of a context has read. -/
def bankDone (s : State) (c : Nat) (k : WaitKind) (w : Nat) : Option (Word × Bool) :=
  ((getDie s (dieOf c)).waiters.find? (ownWait (getCtx s c) true c k w)).bind (·.done)

/-- A context enters the waiting list of a word once; an STE waits with the value that its register holds at its latest
try.
DEDUCED, log 13. -/
def waitOn (c : Nat) (k : WaitKind) (g : Seg) (v : Nat) (s : State) : State :=
  let x := getCtx s c
  let own := ownWait x false c k g.pa
  if (getDie s (dieOf c)).waiters.any own then
    modDie (dieOf c) (fun d => { d with waiters := changeFirst own (fun b => { b with val := v }) d.waiters }) s
  else
    let (id, s) := nextOp c s
    modDie (dieOf c) (fun d => { d with waiters := d.waiters ++
      [{ seg := g, top := domOf s c, ctx := c, level := x.level, kind := k, val := v, op := opNum c id, key := keyTag s g.okey }] }) s

/-- A wait of a context for a word, released or not, is over. -/
def leaveWord (done : Bool) (c : Nat) (k : WaitKind) (w : Nat) (s : State) : State :=
  modDie (dieOf c) (fun d => { d with waiters := d.waiters.eraseP (ownWait (getCtx s c) done c k w) }) s

/-- A context that leaves a blocked bundle waits no more: full/empty words, a key to be killed, tiles and queues. One that
waits for its restored tiles before it issues goes on waiting, and what a bank has done for the bundle is kept for it. -/
def unwait (c : Nat) (s : State) : State :=
  let s := modDie (dieOf c) (fun d => { d with
    waiters := d.waiters.filter fun w => w.ctx != c || w.done.isSome, killing := d.killing.filter fun w => w.2 != c }) s
  let s := if (getCtx s c).block.isSome then dropWant c s else s
  modCtx c (fun x => { x with block := none, waited := 0 }) s

/-- An unhandled fault stops the context and makes its top region not runnable (14 R331).
DEDUCED, log 74. -/
def unhandled (c : Nat) (code : Word) (addr : Word) (s : State) : State :=
  let d := dieOf c
  let a := getArch s c
  let rid := ridOf s c
  let s := modCtx c (fun x => { x with status := .stopped }) (unwait c s)
  let s := modCore (coreOf c) (fun k => { k with issuing := if k.issuing = some (c % 4) then none else k.issuing
                                                 last := if k.issuing = some (c % 4) then c % 4 else k.last }) s
  let s := stopRegion d (topOf (getDie s d) rid) s
  { s with reports := s.reports ++ [{ die := d, rid := rid, code := code, pc := pcWord a.kid a.pc, addr := addr }] }

/-- The handler of a context's faults: kernel id and entry, when its vector is set and bound (14 R331). -/
def handlerOf (s : State) (c : Nat) : Option (Nat × Nat) :=
  let d := getDie s (dieOf c)
  match (region? d (effFdom d (ridOf s c))).bind (·.vector) with
  | some (kid, entry) => if (kernel? (getCore s (coreOf c)) kid).isSome then some (kid, entry) else none
  | none => none

/-- Write the arrived BKTSET descriptors into their tables (05 R133, R134). -/
def bucketsOf (bs : List Byte) : List (Nat × Nat × Bool) :=
  (List.range 8).map fun e =>
    let n := natOf ((bs.drop (8 * e)).take 8)
    (nbits n 0 24, nbits n 32 24, nbits n 24 8 != 0 || nbits n 56 8 != 0)

/-- A descriptor is valid: reserved fields zero, the used entries first, capacities rising strictly (05 R133). -/
def bucketsValid (es : List (Nat × Nat × Bool)) : Bool :=
  let used := es.takeWhile fun e => e.1 != 0
  es.all (fun e => !e.2.2) && (es.drop used.length).all (fun e => e.1 == 0) &&
  (List.range used.length).all fun i =>
    i == 0 || decide ((used.getD (i - 1) (0, 0, false)).1 < (used.getD i (0, 0, false)).1)

/-- The data of the oldest BKTSET arrives (05 R134); TRAPADDR of a delivered 0x18 is the descriptor's address too.
DESIGN CHOICE, log 97. -/
def bktArrive (c : Nat) (s : State) : State :=
  let x := getCtx s c
  match x.bkt with
  | [] => s
  | (t, a, bs, bad) :: rest =>
    let s := modCtx c (fun x => { x with bkt := rest }) s
    let es := bucketsOf bs
    if bad then deliver c x.level 0x18 0 a s
    else if bucketsValid es then
      modArch c (fun r => { r with disp := r.disp.set t (es.map fun e => { cap := e.1, pc := e.2.1 }) }) s
    else deliver c x.level 0x01 0 a s

/-- Every earlier LS access, BKTSET read and `.H` result of a context is performed (09 R238; 05 R134; 14 R337).
DESIGN CHOICE, log 12. -/
def settle (c : Nat) (s : State) : State :=
  let s := drainLs c s
  let s := foldS (fun _ s => bktArrive c s) (getCtx s c).bkt s
  foldS (fun _ s => bkPerform c s) (getCtx s c).bk s

/-- Boundary cycle of a save: 0 while the in-flight cycles still count from the first issue (09 R239). -/
def boundary (s : State) (c : Nat) : Nat := if (getCtx s c).rebase then 0 else nowOf s c

/-- TAKING AN EXCEPTION (14 R331 to R334): the fault `code` (a TRAPCODE value) with its address is taken by
context c at the boundary before the bundle at its pc.
DEDUCED, log 74. -/
def trapEntry (c : Nat) (code addr : Word) (s : State) : State :=
  let x := getCtx s c
  if x.level = 1 then unhandled c code addr s else
  match handlerOf s c with
  | none => unhandled c code addr s
  | some (kid, entry) =>
    let s1 := landNow c (settle c (unwait c s))
    let x := getCtx s1 c
    match writeParts c .ls { r := true, w := true } x.savearea (trapParts (boundary s1 c) x) s1 with
    | .error _ => unhandled c code addr s1
    | .ok s2 =>
      let s2 := poisonPlaces c x.savearea (archBad x.arch) s2
      modCtx c (fun y => { y with
        level := 1
        trapcode := code
        trappc := pcWord x.arch.kid x.arch.pc
        trapaddr := addr
        arch := startArch kid entry x.savearea code addr
        tags := BitVec.allOnes 64
        busy := 0#64
        busy0 := x.busy
        agstate := 0#64
        faults0 := x.faults.length
        waitColl := none
        waitColl0 := x.waitColl
        mxSaved := false
        mxTouched := false
        block := none
        noBreak := false
        rebase := false }) s2

/-- A precise fault of context c (14 R328). -/
def preciseFault (c code arg : Nat) (addr : Word) (s : State) : State := trapEntry c (codeWord code arg false) addr s

/-! Suspended engine commands -/

/-- The suspended engine commands of a context go on (14 R340; 06 R152; 08 R212; 07 R181; 11 R278).
DEDUCED, log 31. -/
def resumeEngines (c : Nat) (s : State) : State :=
  let s := modCtx c (fun x => { x with
    fb := x.fb.map fun f => { f with suspended := f.suspended && f.ending.isSome }
    mx := { x.mx with run := x.mx.run.map fun r => { r with suspended := !x.mxPends.isEmpty } } }) s
  let go (q : Copy) : Copy := if q.ctx = c then { q with suspended := q.suspended && q.ending.isSome } else q
  let s := { s with cores := s.cores.map fun k => { k with copies := k.copies.map go } }
  modDie (dieOf c) (fun d => { d with eddy := d.eddy.map fun e =>
    if e.ctx = c && e.ending.isNone then { e with suspended := false, started := e.started && !e.suspended } else e }) s

/-! The return from an exception -/

/-- Agreed value of a round in AGSTATE (12 R305): clear RA and PEND, set VALUE and MISS. -/
def agResolved (ag : Word) (v : Nat) (miss : Bool) : Word :=
  BitVec.ofNat 64 (bitsN ag 63 20 * 2 ^ 20 + v * 16 + if miss then 8 else 0)

/-- The completed ORs on the BK path into TAGS and FSTATUS of an area are visible to LS (14 R340 step 3). -/
def seeOrs (c : Nat) (base : Word) (s : State) : State :=
  match checkAccess c { r := true } (base + 16#64) 16 s with
  | (.ok segs, s) =>
    let see (r : Unseen) : Unseen :=
      if !r.hid.contains Path.bk && segs.any (fun g => decide (g.pa < r.addr + r.old.length) && decide (r.addr < g.pa + g.len))
      then { r with hid := r.hid.filter (· != Path.ls) } else r
    modDie (dieOf c) (fun d => { d with unseen := d.unseen.map see }) s
  | (.error _, s) => s

/-- Give a context its restored matrix state, or let it wait for tiles and queues before it issues (06 R160, R161); a
state without an allocation needs nothing.
DEDUCED, log 34. -/
def regainMx (c : Nat) (m : MxState) (s : State) : State :=
  if !m.alloc then modCtx c (fun x => { x with mx := m }) s else
  match takeMx c m s with
  | some s => s
  | none =>
    modCore (coreOf c) (fun k => { k with mxWait := k.mxWait ++ [c] })
      (modCtx c (fun x => { x with mxHeld := some m, wantMx := some (m.tiles.length, m.queues.length) }) s)

/-- Flags that the save area does not hold come back with a suspended command (06 R142). DESIGN CHOICE, log 98. -/
def withFlags (fl : BitVec 8) (m : MxState) : MxState := { m with run := m.run.map fun r => { r with flags := r.flags ||| fl } }

/-- RETURNING FROM AN EXCEPTION (14 R340), once the handler's tags are set: steps 1 to 4. A fault of the read and a
malformed area are unhandled.
DEDUCED, log 31. -/
def trapReturn (c : Nat) (s : State) : State :=
  let s := settle c s
  let x := getCtx s c
  match readRuns c .ls x.savearea [(0, 90112)] (seeOrs c x.savearea s) with
  | (.error (code, a), s) => unhandled c (codeWord code 0 false) a s
  | (.ok runs, s) =>
    let rd := runReader runs
    let segs := runs.flatMap (·.2.1)
    let d := getDie s (dieOf c)
    if specialBad d segs rd then unhandled c (codeWord 0x18 0 false) 0#64 s
    else if !areaOk rd false then unhandled c (codeWord 0x01 0 false) 0#64 s
    else
      let sw := rdN rd 8 8
      let arch := withPoison d segs (rdArch rd (nbits sw 16 8))
      let arch := { arch with
        pc := bitsN x.trappc 23 0, kid := bitsN x.trappc 63 60
        fstatus := arch.fstatus ||| x.heldFlags }
      let (mxRestored, s) : Except (Nat × Word) (Option MxState) × State :=
        if x.mxSaved then
          let (r, s) := readMx c .mx (x.savearea + 90112#64) s
          (r.map fun m => some (withFlags x.mxFlags0 (fixPops arch (dropAbandoned m))), s)
        else (.ok none, s)
      match mxRestored with
      | .error (code, a) => unhandled c (codeWord code 0 false) a s
      | .ok mx =>
        let old := if x.round0.isSome then x.round0 else x.round
        let s := modCtx c (fun y => { y with
          level := 0
          arch := arch
          tags := rdW rd 16 ||| x.heldTags
          busy := x.busy0
          busy0 := 0#64
          heldTags := 0#64
          heldFlags := 0#8
          agstate := rdW rd 40
          faults := rdFaults rd (nbits sw 12 4) (nbits sw 5 7) ++ x.faults.drop x.faults0
          faults0 := 0
          round := rdRound rd 0 old
          round0 := none
          ckpt := if x.round0.isSome then x.ckpt0 else x.ckpt
          ckpt0 := none
          ckptAt1 := false
          engFlags := if x.round0.isSome then x.engFlags0 else x.engFlags
          engFlags0 := 0#8
          waitColl := x.waitColl0
          waitColl0 := none
          mxSaved := false
          mxTouched := false
          noBreak := true
          rebase := true
          waited := 0
          block := none }) s
        let s := match mx with | some m => regainMx c m (releaseMx c s) | none => s
        feedPops c (resumeEngines c s)

/-- CKPT n of a die ends: its tag is set, with a fault or without; a fault waits for room (14 R329, R348). -/
def endCkpt (d n : Nat) (q : CkptCmd) (f : Option PFault) (s : State) : State :=
  let drop (s : State) : State := modDie d (fun x => { x with ckpts := x.ckpts.eraseIdx n }) s
  match f with
  | none => completeTag q.ctx q.level q.tag (drop s)
  | some f =>
    if canDeliver s q.ctx q.level then completeTag q.ctx q.level q.tag (drop (deliverF q.ctx q.level f s))
    else modDie d (fun x => { x with ckpts := x.ckpts.modify n fun k => { k with ending := some f } }) s

/-- A packet that has not been performed loses its contents: its place in the flow stays (11 R271). -/
def voidPkt (p : SendPkt) : SendPkt := { p with pkt := { p.pkt with pay := .empty, ctr := none } }

/-- The packets of a command that have not left are voided if strong and dropped if weak. -/
def dropUnsent (mine : SendPkt → Bool) (d : Die) : Die :=
  { d with sendq := d.sendq.filterMap fun p =>
      if !mine p || p.sent then some p else if p.pkt.strong then some (voidPkt p) else none }

/-! Run-ahead outcomes -/

/-- The present round and its checkpoint are over; those of the interrupted state come back (12 R311). -/
def roundOver (x : Ctx) : Ctx :=
  { x with round := x.round0, round0 := none, ckpt := x.ckpt0, ckpt0 := none, ckptAt1 := false
           engFlags := x.engFlags0, engFlags0 := 0#8 }

/-- Restore the run-ahead checkpoint (12 R309, R310; 03 R84): the agreed value, or none with a fault. -/
def restoreCheckpoint (c : Nat) (v : Verdict) (s : State) : State :=
  let x := getCtx s c
  match x.ckpt with
  | none => modCtx c (fun y => { y with restore := none }) s
  | some a =>
    let value := match v with | .value n => n | _ => 0
    let s := drainLs c (unwait c s)
    let s := modCtx c (fun y => { roundOver y with
      arch := { a with fstatus := a.fstatus ||| y.engFlags }
      bkt := [], hold := [], restore := none, rebase := true
      agstate := agResolved y.agstate value true }) s
    let word := match x.round with | some r => r.word &&& ~~~(0x3000000#64) | none => 0#64
    let gid := match x.round with | some r => r.gid | none => 0
    match v with
    | .value _ => s
    | .mismatch code => deliver c x.level code gid word s
    | .void => deliver c x.level 0x15 gid word s

/-- A DONE that has waited for a huddle is watched from its resolution on (10 R254). -/
def doneWatch (c : Nat) (s : State) : State :=
  let now := nowOf s c
  modCtx c (fun x => { x with block := x.block.map fun b => if b.1 = .doneHuddle then (.watched, now) else b }) s

/-- A decided outcome reaches the pending round of a context (12 R306 to R311). -/
def resolveRound (c : Nat) (v : Verdict) (s : State) : State :=
  let x := getCtx s c
  match x.round with
  | none => s
  | some r =>
    let hint := bitsN r.word 24 24
    let word := r.word &&& ~~~(0x3000000#64)
    let interrupted := (x.level == 1 && r.level == 0) || decide (1024 ≤ c)
    let ahead := x.ckpt.isSome && x.ckptAt1 == (r.level == 1)
    match v with
    | .value n =>
      if !ahead then
        if interrupted then modCtx c (fun y => { y with round := some { r with decided := some v } }) s
        else modCtx c (fun y => { roundOver y with agstate := agResolved y.agstate n false }) s
      else if n = hint then
        let s := if decide (1024 ≤ c) then s else commitHold c s
        if interrupted then
          modCtx c (fun y => { y with round := some { r with decided := some v }
                                      ckpt := if decide (1024 ≤ c) then y.ckpt else none }) s
        else doneWatch c (modCtx c (fun y => { roundOver y with agstate := agResolved y.agstate n false }) s)
      else if interrupted then modCtx c (fun y => { y with hold := [], round := some { r with decided := some v } }) s
      else modCtx c (fun y => { y with hold := [], restore := some v }) s
    | _ =>
      let code := match v with | .mismatch k => k | _ => 0x15
      if ahead then
        if interrupted then modCtx c (fun y => { y with hold := [], round := some { r with decided := some v } }) s
        else modCtx c (fun y => { y with hold := [], restore := some v }) s
      else if !canDeliver s c r.level then modCtx c (fun y => { y with round := some { r with decided := some v } }) s
      else
        let s := modCtx c (fun y =>
          if interrupted then { y with round := some { r with decided := some (.value 0) } }
          else { roundOver y with agstate := agResolved y.agstate 0 false }) s
        deliver c r.level code r.gid word s

/-- An outcome that arrived during a handler or a save acts on the resumed state (12 R311).
DEDUCED, log 16. -/
def applyDecided (c : Nat) (s : State) : State :=
  let x := getCtx s c
  match x.round with
  | some { decided := some v, level := lvl, .. } =>
    if lvl != x.level then s else
    match x.ckpt with
    | none =>
      match v with
      | .value n => modCtx c (fun y => { roundOver y with agstate := agResolved y.agstate n false }) s
      | _ =>
        if !canDeliver s c lvl then s else
        resolveRound c v (modCtx c (fun y => { y with round := y.round.map fun r => { r with decided := none } }) s)
    | some _ => resolveRound c v (modCtx c (fun y => { y with round := y.round.map fun r => { r with decided := none } }) s)
  | _ => s

/-! Records -/

/-- The core stops issuing from a context (10 R256). -/
def stopIssuing (c : Nat) (s : State) : State :=
  modCore (coreOf c) (fun k => if k.issuing = some (c % 4) then { k with issuing := none, last := c % 4 } else k) s

/-- Lines of a window placed in a slice (08 R198). -/
def winLinesIn (w : PinWin) (sl : Nat) : Nat :=
  let ss := slicesOf w.mask
  let n := w.len.toNat / 128
  let k := ss.length
  match ss.findIdx? (· == sl) with
  | some i => if k = 0 then 0 else (n + k - 1 - i) / k
  | none => 0

/-- A window no longer holds a line; one that no window holds stays cached with EP 0 (08 R199). -/
def unpinLine (age : Nat) (b : BLine) : BLine :=
  if !b.pins.contains age then b else
  let pins := b.pins.filter (· != age)
  { b with pins := pins, ep := if pins.isEmpty then 0 else b.ep }

/-- Close a PIN window (08 R199). -/
def closePin (c w : Nat) (s : State) : State :=
  let p := (getCtx s c).pins.getD w {}
  if !p.isOpen then s else
  modDie (dieOf c) (fun d => { d with basin := d.basin.map (unpinLine p.age) })
    (modCtx c (fun x => { x with pins := x.pins.set w {} }) s)

/-- One record less in a continuation queue (10 R251). -/
def occAdd (rid lvl : Nat) (up : Bool) (d : Die) : Die :=
  let cur := ((d.occ.find? fun e => e.1 == rid && e.2.1 == lvl).map (·.2.2)).getD 0
  { d with occ := (rid, lvl, if up then cur + 1 else cur - 1) :: d.occ.filter fun e => !(e.1 == rid && e.2.1 == lvl) }

/-- The faults that belong to a region go to the lowest context that holds a record of its subtree, and wait while that
context has no room (14 R329, R330). -/
def flushHeld (d : Nat) (s : State) : State :=
  foldS (fun (g : Region) s =>
    foldS (fun f s =>
      match (holders s d g.rcb.rid).head? with
      | some c =>
        if !canDeliver s c 0 then s else
        modDie d (modRegion g.rcb.rid fun r => { r with heldFaults := r.heldFaults.drop 1 })
          (modCtx c (fun x => { x with faults := x.faults ++ [f] }) s)
      | none => s) g.heldFaults s) ((getDie s d).regions.filter fun g => !g.heldFaults.isEmpty) s

/-- A fault of a fault domain waits for a context of it (14 R330). -/
def holdFault (d rid : Nat) (f : PFault) (s : State) : State :=
  modDie d (modRegion rid fun g => { g with heldFaults := g.heldFaults ++ [f] }) s

/-- A fault of a fault domain (14 R330). -/
def regionFault (d rid : Nat) (f : PFault) (s : State) : State := flushHeld d (holdFault d rid f s)

/-- The fault of a round that a member has dropped is its region's (12 R310; 14 R330). -/
def roundFault (d rid : Nat) (r : Round) (v : Verdict) (s : State) : State :=
  let code? : Option Nat := match v with
    | .value _ => none
    | .mismatch k => some k
    | .void => some 0x15
  match code? with
  | none => s
  | some code =>
    holdFault d (effFdom (getDie s d) rid) ⟨codeWord code r.gid true, r.word &&& ~~~(0x3000000#64)⟩ s

/-- A round still pending at the end of a record is dropped: a fault that it meets later is the region's (12 R310).
DEDUCED, log 22. -/
def dropRound (c : Nat) (s : State) : State :=
  match (getCtx s c).round with
  | none => s
  | some r =>
    let d := dieOf c
    let rid := ridOf s c
    match r.decided with
    | some v => roundFault d rid r v s
    | none => modDie d (fun x => { x with dropped := (domOf s c, rid, r) :: x.dropped }) s

/-- Give every command of context c another owner (10 R258): pre-emption and resumption. -/
def rehome (c n : Nat) (s : State) : State :=
  let cores := s.cores.map fun q => { q with copies := q.copies.map fun m => if m.ctx = c then { m with ctx := n } else m }
  let s := { s with
    cores := cores
    ports := s.ports.map fun p => { p with orders := p.orders.map fun o => if o.2.2.1 = c then (o.1, o.2.1, n, o.2.2.2) else o } }
  modDie (dieOf c) (fun d => { d with
    eddy := d.eddy.map fun e => if e.ctx = c then { e with ctx := n } else e
    colls := d.colls.map fun e => if e.ctx = c then { e with ctx := n } else e
    barriers := d.barriers.map fun e => if e.ctx = c then { e with ctx := n } else e
    sendq := d.sendq.map fun e => if e.ctx = c then { e with ctx := n } else e
    ckpts := d.ckpts.map fun e => if e.ctx = c then { e with ctx := n } else e
    waiters := (d.waiters.filter fun w => w.ctx != c || w.done.isSome).map fun w => if w.ctx = c then { w with ctx := n } else w
    regions := d.regions.map fun g => { g with counters := g.counters.map fun t =>
      { t with armed := t.armed.map fun a => if a.1 = c then (n, a.2) else a } } }) s

/-- The number of a new saved context of a die. -/
def savedId (s : State) (d : Nat) : Nat :=
  1024 + d + 4 * ((s.saved.map fun e => e.1 / 4 + 1).foldl max 0)

/-- Engine commands that the bundle of a DONE has started go on for a context that no record takes up again.
DESIGN CHOICE, log 100. -/
def orphan (c : Nat) (s : State) : State :=
  let x := getCtx s c
  if x.busy == 0#64 && x.fb.isEmpty then s else
  let n := savedId s (dieOf c)
  rehome c n { s with saved := (n, { x with status := .idle }) :: s.saved }

/-- The end of a record (10 R254): the conditions of DONE hold. -/
def endRecord (c : Nat) (s : State) : State :=
  let x := getCtx s c
  let s := orphan c (dropRound c s)
  let s := foldS (fun w s => closePin c w s) (List.range 8) s
  let s := modDie (dieOf c) (fun d => { d with waiters := d.waiters.filter fun w => w.ctx != c }) s
  let s := releaseMx c s
  let s := match x.record with
    | some r => modDie (dieOf c) (occAdd r.rid r.prio false) s
    | none => s
  flushHeld (dieOf c) (stopIssuing c (modCtx c (fun x => { Ctx.init with nextId := x.nextId }) s))

end Sys2Proof.Machine
end

