-- ==== Sys2Proof/Machine/Issue.lean ====
section
/-!
DEFINITION. Issuing a bundle of operations: the checks of R44 and R45, stalls, blocks, the guard, the operations
in their order, the loop unit at END, the program counter, the cycle count and the charge of context-cycles
(spec 02 R35 to R45; 04 R108 to R118; 10 R255 to R257; 12 R307; 14 R337, R339, R345).
-/

namespace Sys2Proof.Machine

open Sys2Proof

/-- What an operation answers when it executes in its bundle: the state after it, a precise fault, a block of the
context (with what the context leaves in a waiting list), or a stall of the core. -/
inductive Res
  | ok (s : State)
  | trap (code : Nat) (addr : Word)
  | block (k : BlockKind) (reg : State → State)
  | stall

/-- An operation acts for the context `cur` under the header `hdr`. -/
abbrev Op := State → Res

/-- What a bundle does when it is tried: it leaves a state, or it keeps its context blocked. -/
inductive Went
  | went (s : State)
  | waits (k : BlockKind) (s : State)

/-! Time and charge -/

/-- A pool that has no context-cycle left marks the contexts of the region's subtree (10 R258). -/
def exhaust (d r : Nat) (s : State) : State :=
  foldS (fun c s => modCtx c (fun x => { x with marked := true }) s) (holders s d r) s

/-- Charge n context-cycles to a region and its ancestors (10 R246, R257). DESIGN CHOICE, log 78. -/
def charge (d n rid : Nat) (s : State) : State :=
  foldS (fun r s =>
    match (region? (getDie s d) r).bind (·.pool) with
    | none | some 0 => s
    | some p =>
      let s := modDie d (modRegion r fun g => { g with pool := some (p - n) }) s
      if p ≤ n then exhaust d r s else s) (ancestry (getDie s d) rid) s

/-- n cycles of core k pass (02 R59; 10 R257). DESIGN CHOICE, log 78. -/
def tick (k n : Nat) (s : State) : State :=
  let d := k / 64
  let s := modCore k (fun q => { q with cycles := q.cycles + n }) s
  let s := modDie d (fun x => { x with clock := max x.clock (getCore s k).cycles }) s
  foldS (fun c s => match (getCtx s c).record with
    | some r => charge d n r.rid s
    | none => s) ((List.range 4).map (· + 4 * k)) s

/-- In-flight results of a restored state count from the first cycle in which the context issues (09 R239). -/
def rebaseNow (c : Nat) (s : State) : State :=
  if !(getCtx s c).rebase then s else
  let n := nowOf s c
  modCtx c (fun x => { x with rebase := false, arch := { x.arch with
    inflight := x.arch.inflight.map fun r => { r with due := r.due + n, ready := r.ready + n } } }) s

/-- The core waits until a context's padded results have been written (02 R37). DESIGN CHOICE, log 12. -/
def waitPadded (c : Nat) (s : State) : State :=
  let now := nowOf s c
  let w := ((getArch s c).inflight.filter (!·.late)).foldl (fun m r => max m (landAt r)) 0
  if (getCtx s c).rebase || w < now then s else landNow c (tick (coreOf c) (w + 1 - now) s)

/-- A context is blocked on its bundle since the cycle in which it first blocked so (10 R256). -/
def blockStill (c : Nat) (k : BlockKind) (s : State) : State :=
  let now := nowOf s c
  modCtx c (fun x => { x with block := match x.block with
    | some (j, t) => if j = k then some (j, t) else some (k, now)
    | none => some (k, now) }) s

/-- A context blocks on its bundle; the core stops issuing from it (10 R256). -/
def blockCtx (c : Nat) (k : BlockKind) (s : State) : State := stopIssuing c (blockStill c k s)

/-! Checks -/

/-- Some element of one list stands in the other. -/
def meets (a b : List RName) : Bool := a.any fun r => b.contains r

/-- Destinations of an operation that count: x0 is none (02 R45). -/
def realDests (i : Instr) : List RName := (dests i).filter (· != .x 0)

/-- Two different operations of a bundle obey R45 against one another. -/
def pairOk (i j : Instr) : Bool :=
  !meets (realDests i) (realDests j) && !meets (srcs i) (realDests j) && !meets (srcs j) (realDests i)
    && !((queuesOf i).any fun q => (queuesOf j).contains q)

/-- The in-bundle rules (02 R45). -/
def groupOk : List Instr → Bool
  | [] => true
  | i :: is => !(dests i).contains (.p 0) && is.all (pairOk i) && groupOk is

/-- The header checks (02 R44 step 2). -/
def headerOk (a : Arch) (h : Hdr) : Bool :=
  !(h.guard == 0#4 && h.gsense) && !(h.fin && a.loops.isEmpty) && !(h.stage != 0 && !inReplay a)

/-- The first failing check of R44 steps 2 to 5, as a fault code. DEDUCED, log 10. -/
def decodeFault (x : Ctx) (h : Hdr) (is : List Instr) : Option Nat :=
  if !headerOk x.arch h || !is.all Instr.wf || !groupOk is then some 0x01
  else if !is.all (privOk x.level) then some 0x03 else none

/-- Registers that a bundle names without a field: its guard, and what its END and a REPLAY act on (04 R116 to R118), whether
or not its stage is active, its REPLAY has effect or its pass is the last.
DESIGN CHOICE, log 119. -/
def implicitRegs (a : Arch) (h : Hdr) (is : List Instr) : List Dest :=
  (if h.guard = 0#4 then [] else [.p h.guard.toNat]) ++
  (if h.fin then ((List.range 16).filter fun n => decide ((a.a.getD n {}).lvl.toNat = a.loops.length)).map Dest.a else []) ++
  (if (h.fin && inReplay a) || is.any (fun i => match i with | .replay .. => true | _ => false)
    then (List.range 8).map fun n => Dest.p (n + 8) else [])

/-- Physical registers that a bundle names (02 R35). -/
def namedRegs (a : Arch) (h : Hdr) (is : List Instr) : List Dest :=
  implicitRegs a h is ++ is.flatMap fun i => ((realDests i ++ srcs i).filter (· != .x 0)).map (destOf a)

/-- Registers that a bundle reads without a field: its guard, if it is active, and what its END acts on: a pass that
follows takes p8 to p14 (04 R116, R118; 14 R345). -/
def implicitReads (a : Arch) (h : Hdr) (active : Bool) : List Dest :=
  (if h.guard = 0#4 || !active then [] else [.p h.guard.toNat]) ++
  (if h.fin then ((List.range 16).filter fun n => decide ((a.a.getD n {}).lvl.toNat = a.loops.length)).map Dest.a else []) ++
  (match a.loops.getLast? with
    | some l => if h.fin && l.kind == .replay && l.pass + 2 != l.count + l.stages then (List.range 7).map fun n => Dest.p (n + 8) else []
    | none => [])

/-- A named register is interlocked (02 R35). DEDUCED, log 10. -/
def interlocked (a : Arch) (named : List Dest) : Bool := a.inflight.any fun r => r.late && named.contains r.dest

/-- The innermost replay level's stage count, and whether the bundle's stage is active in this pass (04 R118). -/
def stageState (a : Arch) (h : Hdr) : Bool × Bool :=
  match a.loops.getLast? with
  | some l => if l.kind == .replay then (decide (l.stages ≤ h.stage), decide (h.stage ≤ l.pass) && decide (l.pass - h.stage < l.count))
              else (false, true)
  | none => (false, true)

/-- Operations of which at most 16 may be in flight (14 R329). -/
def shortKind : Instr → Bool
  | .ared .. | .aredH .. | .join .. | .bktset .. => true
  | _ => false

/-- How many of them a context has in flight. -/
def shortCount (x : Ctx) : Nat :=
  (x.lsq.filter fun e => match e.kind with | .ared .. | .join | .bktset .. => true | _ => false).length + x.bkt.length +
  (x.bk.filter fun e => match e.kind with | .ared .. => true | _ => false).length

/-- The bundle's results or posted operations find no room, or a descriptor read waits for earlier stores: the
bundle stalls (14 R329, R337; 09 R226). -/
def noRoom (x : Ctx) (h : Hdr) (is : List Instr) : Bool :=
  let n := is.foldl (fun n i => n + (dests i).length) 0
  let adv := if h.fin then (x.arch.a.filter fun r => decide (r.lvl.toNat = x.arch.loops.length)).length else 0
  decide (96 < x.arch.inflight.length + n + adv) || decide (16 < shortCount x + (is.filter shortKind).length) && is.any shortKind
    || (is.any readsDescriptor && x.lsq.any fun e => e.inS && !isMarker e.kind)

/-- A BKTSET of the table is in flight (05 R134). -/
def bktPending (x : Ctx) (t : Nat) : Bool :=
  (x.lsq.any fun e => match e.kind with | .bktset n _ => n == t | _ => false) || x.bkt.any fun b => b.1 == t

/-- A BKTJ of the bundle names a table that a BKTSET is to write: the bundle stalls, whatever its guard (02 R35; 05 R134). -/
def bktStalls (x : Ctx) (is : List Instr) : Bool :=
  is.any fun i => match i with | .bktj t _ => bktPending x t.toNat | _ => false

/-- An operation has effect under the guard (02 R43). -/
def takesEffect (g : Pred) (i : Instr) : Bool := if laneGuarded i then g != 0#128 else bit g 0

/-! Executing -/

/-- Operations that act after the others of their bundle: they change implicit state, leave the record, or read
memory after the M0 and M1 accesses (02 R45; 05 R134). A fault of another operation is therefore taken before one of
BKTSET.
DESIGN CHOICE, log 9. -/
def isLate : Instr → Bool
  | .mts .. | .tagsWrite .. | .fstatusWrite .. | .fctlWrite .. | .rowprogWrite .. | .scl .. | .rfe | .done | .halt ..
  | .bktset .. => true
  | _ => false

/-- Run operations one after another; where slot E would fault and slot A too, the fault is slot A's (02 R44). The entry of a
SPAWN or JOIN stands in its queue before those of M0 and M1 of the same bundle.
DESIGN CHOICE, log 9. DESIGN CHOICE, log 123. -/
def runOps : List (Instr × Op) → State → Res
  | [], s => .ok s
  | (i, f) :: rest, s =>
    match f s with
    | .ok t => runOps rest t
    | .trap c a =>
      match rest with
      | (j, g) :: _ =>
        if slotOf i = some .e && slotOf j = some .a then
          match g s with
          | .trap c' a' => .trap c' a'
          | _ => .trap c a
        else .trap c a
      | [] => .trap c a
    | r => r

/-! The loop unit at the end of a bundle -/

/-- A result for address register n that an operation numbered id0 or more has queued. -/
def joined (n id0 : Nat) (f : InFlight) : Bool := f.dest == .a n && decide (id0 ≤ f.id)

/-- The advance of a register, with its fields before the bundle, joins such a result (04 R116). -/
def joinAdvance (n id0 : Nat) (r : AReg) (f : InFlight) : InFlight :=
  if joined n id0 f then
    match f.val with
    | .areg ad st lv => { f with val := .areg (some (ad.getD r.addr + r.stride)) st lv }
    | _ => f
  else f

/-- AdvanceAddresses for a level (04 R116): an advance joins the write of an operation of the same bundle to the
same register, whose number in the context is at least id0. -/
def advance (c id0 lvl : Nat) (s : State) : State :=
  let a := getArch s c
  foldS (fun n s =>
    let r := a.a.getD n {}
    if r.lvl.toNat ≠ lvl then s else
    if (getArch s c).inflight.any (joined n id0) then
      modArch c (fun b => { b with inflight := b.inflight.map (joinAdvance n id0 r) }) s
    else addResult c (.a n) (.areg (some (r.addr + r.stride)) none none) 0#8 12 s) (List.range 16) s

/-- Shift p8 to p15 for the next pass (04 R118). -/
def shiftPreds (on : Bool) (a : Arch) : Arch :=
  { a with p := (a.p.take 8) ++ ((if on then pall else 0#128) :: (a.p.drop 8).take 7)
           poisoned := a.poisoned.filterMap fun d => match d with
             | .p n => if n < 8 then some d else if n < 15 then some (.p (n + 1)) else none
             | _ => some d }

/-- END acts on the innermost level (04 R113, R118): the next PC, with or without the loop-back. -/
def endStep (c id0 next : Nat) (back : Bool) (s : State) : Nat × State :=
  let a := getArch s c
  match a.loops.getLast? with
  | none => (next, s)
  | some l =>
    let s := advance c id0 a.loops.length s
    let pop (b : Arch) : Arch := { b with loops := b.loops.dropLast, rotBase := 0 }
    let put (l : LoopLevel) (b : Arch) : Arch := { b with loops := b.loops.dropLast ++ [l] }
    match l.kind with
    | .loop =>
      if 1 < l.count then (if back then l.start else next, modArch c (put { l with count := l.count - 1 }) s)
      else (next, modArch c (fun b => { b with loops := b.loops.dropLast }) s)
    | .replay =>
      if l.pass + 2 = l.count + l.stages then (next, modArch c pop s)
      else (if back then l.start else next, modArch c (fun b =>
        shiftPreds (decide (l.pass + 1 < l.count))
          { put { l with pass := l.pass + 1 } b with rotBase := (b.rotBase + 31) % 32 }) s)

/-- A taken branch pops the first level whose range its target leaves, and every level inside it (04 R114). -/
def popLevels (t : Nat) (a : Arch) : Arch :=
  let keep := a.loops.takeWhile fun l => decide (l.start ≤ t) && decide (t < l.exit)
  { a with loops := keep, rotBase := if keep.length = a.loops.length then a.rotBase else 0 }

/-- The target of a branch lies in the innermost level's range. -/
def inInner (t : Nat) (a : Arch) : Bool :=
  match a.loops.getLast? with
  | some l => decide (l.start ≤ t) && decide (t < l.exit)
  | none => false

/-- Where the context goes on after its operations have taken effect (04 R108 to R114). A level that a LOOP or REPLAY of
the bundle has pushed is among those that a taken branch of it tests.
DEDUCED, log 11. -/
def goOn (c id0 : Nat) (s : State) : State :=
  let f := s.flow
  let fin := s.hdr.fin
  let setPc (n : Nat) (s : State) : State := modArch c (fun a => { a with pc := n }) s
  match f.jump with
  | some t =>
    let s := if fin && inInner t (getArch s c) then (endStep c id0 f.nextPc false s).2 else s
    setPc t (modArch c (popLevels t) s)
  | none =>
    match f.call with
    | some (rd, t) =>
      let (link, s) := if fin then endStep c id0 f.nextPc true s else (f.nextPc, s)
      setPc t (addResult c (.x rd) (.word (BitVec.ofNat 64 link)) 0#8 0 s)
    | none =>
      match f.ret with
      | some t => setPc t (if fin then (endStep c id0 f.nextPc false s).2 else s)
      | none =>
        let (n, s) := if fin then endStep c id0 f.nextPc true s else (f.nextPc, s)
        setPc n s

/-- The checkpoint at the boundary after an AGB with RA = 1 (12 R307). -/
def takeCheckpoint (c : Nat) (s : State) : State :=
  let s := settle c s
  let n := nowOf s c
  modCtx c (fun x => { x with ckptAt1 := x.level == 1, engFlags := 0#8, ckpt := some { x.arch with
    inflight := x.arch.inflight.map fun r =>
      if known r then { r with due := r.due - n, ready := r.due - n, late := false }
      else { r with due := r.due - n, ready := r.ready - n } } }) s

/-- The end of a bundle that has issued (02 R44; 04 R113; 10 R255, R256; 12 R307; 14 R339). -/
def finishBundle (c id0 : Nat) (s : State) : State :=
  let f := s.flow
  let s := modCtx c (fun x =>
    let x := { x with quantum := x.quantum + 1 }
    if f.left then x else { x with noBreak := false, block := none, waited := 0, waitColl := none }) s
  let k := coreOf c
  if f.left then tick k 1 { s with flow := {} } else
  let s := tick k 1 (goOn c id0 s)
  let s := if f.yielded then stopIssuing c (modCtx c (fun x => { x with quantum := 0 }) s) else s
  let s := if f.ahead then takeCheckpoint c (landNow c s) else s
  let s := { s with flow := {} }
  match f.trap with
  | some imm => preciseFault c 0x20 imm.toNat 0#64 s
  | none => s

/-- A fault that an operation of a bundle raises is precise; poison that it meets in memory is delivered, when there is
room, and the bundle issues again (14 R328, R329, R345). DEDUCED, log 92. -/
def opFault (c code : Nat) (addr : Word) (s : State) : State :=
  if code != 0x18 then preciseFault c code 0 addr s
  else
    let lvl := (getCtx s c).level
    tick (coreOf c) 1 (if canDeliver s c lvl then deliver c lvl 0x18 0 addr s else s)

/-- The END of a bundle whose operations have taken effect acts (04 R113, R114). -/
def endActs (c : Nat) (s : State) : Bool :=
  s.hdr.fin && !s.flow.left && match s.flow.jump with | some t => inInner t (getArch s c) | none => true

/-- An END that acts reads a poisoned register (04 R113, R116, R118; 14 R345). -/
def endPoisoned (c : Nat) (s : State) : Bool :=
  endActs c s && (getArch s c).poisoned.any fun d => (implicitReads (getArch s c) s.hdr false).contains d

/-- Try a bundle of operations for the context `cur` under the header `hdr`; `next` is the PC after it.
DESIGN CHOICE, log 8. DESIGN CHOICE, log 9. DEDUCED, log 10. -/
def issueOps (next : Nat) (ops : List (Instr × Op)) (s : State) : Went :=
  let c := s.cur
  let h := s.hdr
  let s := landNow c (rebaseNow c s)
  let x := getCtx s c
  let a := x.arch
  let is := ops.map (·.1)
  match decodeFault x h is with
  | some code => .went (preciseFault c code 0 0#64 s)
  | none =>
    let st := stageState a h
    if interlocked a (namedRegs a h is) || bktStalls x is then .went (tick (coreOf c) 1 s)
    else if st.1 then .went (preciseFault c 0x01 0 0#64 s)
    else if runsAhead x && is.any heldBack then .waits .huddle s
    else
      let g := guardOf a h
      let live := if st.2 then ops.filter fun o => takesEffect g o.1 else []
      let ls := live.map (·.1)
      let read := implicitReads a { h with fin := false } st.2 ++ ls.flatMap fun i => (srcs i).map (destOf a)
      if a.poisoned.any fun d => read.contains d then .went (preciseFault c 0x18 0 (BitVec.allOnes 64) s)
      else if noRoom x h ls then .went (tick (coreOf c) 1 s)
      else
        let t := { s with flow := { nextPc := next, tags0 := x.tags, preds0 := a.p, id0 := x.nextId } }
        match runOps (live.filter (!isLate ·.1) ++ live.filter (isLate ·.1)) t with
        | .ok t => .went (if endPoisoned c t then preciseFault c 0x18 0 (BitVec.allOnes 64) s else finishBundle c x.nextId t)
        | .trap code addr => .went (opFault c code addr s)
        | .block k reg => .waits k (reg s)
        | .stall => .went (tick (coreOf c) 1 s)

/-- One operation alone in a bundle: the meaning of a syllable. DESIGN CHOICE, log 8. -/
def lone (i : Instr) (f : Op) (s : State) : State :=
  match issueOps ((getArch s s.cur).pc + 1) [(i, f)] s with
  | .went s => s
  | .waits k s => blockCtx s.cur k s

end Sys2Proof.Machine
end

