-- ==== Sys2Proof/Machine/Scalar.lean ====
section
/-!
DEFINITION. Bundle slots S0 and S1: the scalar instructions (spec 04 R92 to R96).
-/

namespace Sys2Proof.Machine

open Sys2Proof

/-- The architectural state of the context whose bundle issues. -/
def archOf (s : State) : Arch := getArch s s.cur

/-- The guard values of the bundle that issues (02 R43). -/
def guardNow (s : State) : Pred := guardOf (archOf s) s.hdr

/-- Queue a scalar result of a class with flags (02 R34, R35). -/
def putX (rd : BitVec 6) (cls : Nat) (w : Word) (fl : BitVec 8) (s : State) : Res :=
  .ok (addResult s.cur (.x rd.toNat) (.word w) fl cls s)

/-- A scalar operation on two registers. -/
def binX (f : Word → Word → Word) (cls : Nat) (rd ra rb : BitVec 6) : Op := fun s =>
  putX rd cls (f (rdX (archOf s) ra) (rdX (archOf s) rb)) 0#8 s

/-- A scalar operation on one register. -/
def unX (f : Word → Word) (rd ra : BitVec 6) : Op := fun s => putX rd 0 (f (rdX (archOf s) ra)) 0#8 s

/-! The values (04 R92, R94) -/

def mulHigh (a b : Word) : Word := BitVec.ofInt 64 (a.toInt * b.toInt / 2 ^ 64)
def mulHighU (a b : Word) : Word := BitVec.ofNat 64 (a.toNat * b.toNat / 2 ^ 64)
def shlX (a b : Word) : Word := a <<< bitsN b 5 0
def shrX (a b : Word) : Word := a >>> bitsN b 5 0
def sraX (a b : Word) : Word := a.sshiftRight (bitsN b 5 0)
def minX (a b : Word) : Word := if a.toInt ≤ b.toInt then a else b
def maxX (a b : Word) : Word := if a.toInt ≤ b.toInt then b else a
def minuX (a b : Word) : Word := if a.toNat ≤ b.toNat then a else b
def maxuX (a b : Word) : Word := if a.toNat ≤ b.toNat then b else a

/-- Quotient truncated towards zero; division by zero gives all ones (04 R94). -/
def divX (a b : Word) : Word := if b = 0#64 then BitVec.allOnes 64 else BitVec.ofInt 64 (Int.tdiv a.toInt b.toInt)

/-- Remainder with the sign of the dividend; division by zero gives the dividend (04 R94). -/
def remX (a b : Word) : Word := if b = 0#64 then a else BitVec.ofInt 64 (Int.tmod a.toInt b.toInt)

def divuX (a b : Word) : Word := if b = 0#64 then BitVec.allOnes 64 else BitVec.ofNat 64 (a.toNat / b.toNat)
def remuX (a b : Word) : Word := if b = 0#64 then a else BitVec.ofNat 64 (a.toNat % b.toNat)

/-- A division: DZ when the divisor is zero (04 R94). -/
def quotX (f : Word → Word → Word) (rd ra rb : BitVec 6) : Op := fun s =>
  let b := rdX (archOf s) rb
  putX rd 2 (f (rdX (archOf s) ra) b) (if b = 0#64 then fDZ else 0#8) s

def clzX (a : Word) : Word := BitVec.ofNat 64 (64 - bitLen a.toNat)
def ctzX (a : Word) : Word := BitVec.ofNat 64 (((List.range 64).find? (bit a)).getD 64)
def popcX (a : Word) : Word := BitVec.ofNat 64 ((List.range 64).filter (bit a)).length

def ExtW.bits : ExtW → Nat | .w8 => 8 | .w16 => 16 | .w32 => 32

def zextX (w : Nat) (a : Word) : Word := BitVec.ofNat 64 (a.toNat % 2 ^ w)
def sextX (w : Nat) (a : Word) : Word := BitVec.ofInt 64 (signedN w a.toNat)

/-- Replace the 16-bit field hw of a word (04 R96). -/
def movhiX (hw : BitVec 2) (imm : BitVec 16) (a : Word) : Word :=
  (a &&& ~~~((0xFFFF#64) <<< (16 * hw.toNat))) ||| ((zext imm) <<< (16 * hw.toNat))

/-! The operations -/

def opAdd := binX (· + ·) 0
def opSub := binX (· - ·) 0
def opMul := binX (· * ·) 1
def opMulh := binX mulHigh 1
def opMulhu := binX mulHighU 1
def opDiv := quotX divX
def opDivu := quotX divuX
def opRem := quotX remX
def opRemu := quotX remuX
def opAnd := binX (· &&& ·) 0
def opOr := binX (· ||| ·) 0
def opXor := binX (· ^^^ ·) 0
def opAndn := binX (fun a b => a &&& ~~~b) 0
def opShl := binX shlX 0
def opShr := binX shrX 0
def opSra := binX sraX 0
def opMin := binX minX 0
def opMax := binX maxX 0
def opMinu := binX minuX 0
def opMaxu := binX maxuX 0

/-- CMP writes its bit to the lanes under the guard (04 R93). -/
def opCmp (cc : Cond) (pd : BitVec 4) (ra rb : BitVec 6) : Op := fun s =>
  let a := archOf s
  .ok (addResult s.cur (.p pd.toNat)
    (.bits (guardNow s) (if condX cc (rdX a ra) (rdX a rb) then pall else 0#128)) 0#8 15 s)

def opSel (rd ra rb : BitVec 6) (pc : BitVec 4) : Op := fun s =>
  let a := archOf s
  putX rd 0 (if bit (rdP a pc) 0 then rdX a ra else rdX a rb) 0#8 s

def opClz := unX clzX
def opCtz := unX ctzX
def opPopc := unX popcX
def opLea (rd ra rb : BitVec 6) (sh : BitVec 2) : Op := binX (fun a b => a + (b <<< sh.toNat)) 0 rd ra rb
def opSext (rd ra : BitVec 6) (ew : ExtW) : Op := unX (sextX (ExtW.bits ew)) rd ra
def opZext (rd ra : BitVec 6) (ew : ExtW) : Op := unX (zextX (ExtW.bits ew)) rd ra
def opAddi (rd ra : BitVec 6) (imm : BitVec 12) : Op := unX (· + sext imm) rd ra
def opAndi (rd ra : BitVec 6) (imm : BitVec 12) : Op := unX (· &&& sext imm) rd ra
def opOri (rd ra : BitVec 6) (imm : BitVec 12) : Op := unX (· ||| sext imm) rd ra
def opXori (rd ra : BitVec 6) (imm : BitVec 12) : Op := unX (· ^^^ sext imm) rd ra
def opShli (rd ra : BitVec 6) (sh : BitVec 6) : Op := unX (· <<< sh.toNat) rd ra
def opShri (rd ra : BitVec 6) (sh : BitVec 6) : Op := unX (· >>> sh.toNat) rd ra
def opSrai (rd ra : BitVec 6) (sh : BitVec 6) : Op := unX (fun a => a.sshiftRight sh.toNat) rd ra
def opMovi (rd : BitVec 6) (imm : BitVec 18) : Op := putX rd 0 (sext imm) 0#8
def opMovhi (rd : BitVec 6) (hw : BitVec 2) (imm : BitVec 16) : Op := unX (movhiX hw imm) rd rd

/-! The meanings -/

/-- `ADD` (R92) -/
def execAdd (rd ra rb : BitVec 6) (s : State) : Result :=
  .next (lone (.add rd ra rb) (opAdd rd ra rb) s)

/-- `SUB` (R92) -/
def execSub (rd ra rb : BitVec 6) (s : State) : Result :=
  .next (lone (.sub rd ra rb) (opSub rd ra rb) s)

/-- `MUL` (R92) -/
def execMul (rd ra rb : BitVec 6) (s : State) : Result :=
  .next (lone (.mul rd ra rb) (opMul rd ra rb) s)

/-- `MULH` (R92) -/
def execMulh (rd ra rb : BitVec 6) (s : State) : Result :=
  .next (lone (.mulh rd ra rb) (opMulh rd ra rb) s)

/-- `MULHU` (R92) -/
def execMulhu (rd ra rb : BitVec 6) (s : State) : Result :=
  .next (lone (.mulhu rd ra rb) (opMulhu rd ra rb) s)

/-- `DIV` (R94) -/
def execDiv (rd ra rb : BitVec 6) (s : State) : Result :=
  .next (lone (.div rd ra rb) (opDiv rd ra rb) s)

/-- `DIVU` (R94) -/
def execDivu (rd ra rb : BitVec 6) (s : State) : Result :=
  .next (lone (.divu rd ra rb) (opDivu rd ra rb) s)

/-- `REM` (R94) -/
def execRem (rd ra rb : BitVec 6) (s : State) : Result :=
  .next (lone (.rem rd ra rb) (opRem rd ra rb) s)

/-- `REMU` (R94) -/
def execRemu (rd ra rb : BitVec 6) (s : State) : Result :=
  .next (lone (.remu rd ra rb) (opRemu rd ra rb) s)

/-- `AND` (R92) -/
def execAnd (rd ra rb : BitVec 6) (s : State) : Result :=
  .next (lone (.and rd ra rb) (opAnd rd ra rb) s)

/-- `OR` (R92) -/
def execOr (rd ra rb : BitVec 6) (s : State) : Result :=
  .next (lone (.or rd ra rb) (opOr rd ra rb) s)

/-- `XOR` (R92) -/
def execXor (rd ra rb : BitVec 6) (s : State) : Result :=
  .next (lone (.xor rd ra rb) (opXor rd ra rb) s)

/-- `ANDN` (R92) -/
def execAndn (rd ra rb : BitVec 6) (s : State) : Result :=
  .next (lone (.andn rd ra rb) (opAndn rd ra rb) s)

/-- `SHL` (R92) -/
def execShl (rd ra rb : BitVec 6) (s : State) : Result :=
  .next (lone (.shl rd ra rb) (opShl rd ra rb) s)

/-- `SHR` (R92) -/
def execShr (rd ra rb : BitVec 6) (s : State) : Result :=
  .next (lone (.shr rd ra rb) (opShr rd ra rb) s)

/-- `SRA` (R92) -/
def execSra (rd ra rb : BitVec 6) (s : State) : Result :=
  .next (lone (.sra rd ra rb) (opSra rd ra rb) s)

/-- `MIN` (R92) -/
def execMin (rd ra rb : BitVec 6) (s : State) : Result :=
  .next (lone (.min rd ra rb) (opMin rd ra rb) s)

/-- `MAX` (R92) -/
def execMax (rd ra rb : BitVec 6) (s : State) : Result :=
  .next (lone (.max rd ra rb) (opMax rd ra rb) s)

/-- `MINU` (R92) -/
def execMinu (rd ra rb : BitVec 6) (s : State) : Result :=
  .next (lone (.minu rd ra rb) (opMinu rd ra rb) s)

/-- `MAXU` (R92) -/
def execMaxu (rd ra rb : BitVec 6) (s : State) : Result :=
  .next (lone (.maxu rd ra rb) (opMaxu rd ra rb) s)

/-- `CMP.cc` (R93) -/
def execCmp (cc : Cond) (pd : BitVec 4) (ra rb : BitVec 6) (s : State) : Result :=
  .next (lone (.cmp cc pd ra rb) (opCmp cc pd ra rb) s)

/-- `SEL` (R92) -/
def execSel (rd ra rb : BitVec 6) (pc : BitVec 4) (s : State) : Result :=
  .next (lone (.sel rd ra rb pc) (opSel rd ra rb pc) s)

/-- `CLZ` (R92) -/
def execClz (rd ra : BitVec 6) (s : State) : Result :=
  .next (lone (.clz rd ra) (opClz rd ra) s)

/-- `CTZ` (R92) -/
def execCtz (rd ra : BitVec 6) (s : State) : Result :=
  .next (lone (.ctz rd ra) (opCtz rd ra) s)

/-- `POPC` (R92) -/
def execPopc (rd ra : BitVec 6) (s : State) : Result :=
  .next (lone (.popc rd ra) (opPopc rd ra) s)

/-- `LEA` (R92) -/
def execLea (rd ra rb : BitVec 6) (sh : BitVec 2) (s : State) : Result :=
  .next (lone (.lea rd ra rb sh) (opLea rd ra rb sh) s)

/-- `SEXT` (R92) -/
def execSext (rd ra : BitVec 6) (ew : ExtW) (s : State) : Result :=
  .next (lone (.sext rd ra ew) (opSext rd ra ew) s)

/-- `ZEXT` (R92) -/
def execZext (rd ra : BitVec 6) (ew : ExtW) (s : State) : Result :=
  .next (lone (.zext rd ra ew) (opZext rd ra ew) s)

/-- `ADDI` (R95) -/
def execAddi (rd ra : BitVec 6) (imm : BitVec 12) (s : State) : Result :=
  .next (lone (.addi rd ra imm) (opAddi rd ra imm) s)

/-- `ANDI` (R95) -/
def execAndi (rd ra : BitVec 6) (imm : BitVec 12) (s : State) : Result :=
  .next (lone (.andi rd ra imm) (opAndi rd ra imm) s)

/-- `ORI` (R95) -/
def execOri (rd ra : BitVec 6) (imm : BitVec 12) (s : State) : Result :=
  .next (lone (.ori rd ra imm) (opOri rd ra imm) s)

/-- `XORI` (R95) -/
def execXori (rd ra : BitVec 6) (imm : BitVec 12) (s : State) : Result :=
  .next (lone (.xori rd ra imm) (opXori rd ra imm) s)

/-- `SHLI` (R95) -/
def execShli (rd ra : BitVec 6) (sh : BitVec 6) (s : State) : Result :=
  .next (lone (.shli rd ra sh) (opShli rd ra sh) s)

/-- `SHRI` (R95) -/
def execShri (rd ra : BitVec 6) (sh : BitVec 6) (s : State) : Result :=
  .next (lone (.shri rd ra sh) (opShri rd ra sh) s)

/-- `SRAI` (R95) -/
def execSrai (rd ra : BitVec 6) (sh : BitVec 6) (s : State) : Result :=
  .next (lone (.srai rd ra sh) (opSrai rd ra sh) s)

/-- `MOVI` (R96) -/
def execMovi (rd : BitVec 6) (imm : BitVec 18) (s : State) : Result :=
  .next (lone (.movi rd imm) (opMovi rd imm) s)

/-- `MOVHI` (R96) -/
def execMovhi (rd : BitVec 6) (hw : BitVec 2) (imm : BitVec 16) (s : State) : Result :=
  .next (lone (.movhi rd hw imm) (opMovhi rd hw imm) s)


end Sys2Proof.Machine
end

