-- ==== Sys2Proof/Machine/Control.lean ====
section
/-!
DEFINITION. Bundle slot S1: branches, dispatch, waits, TRAP (spec 04 R108 to R110; 05 R132 to R135; 08 R206, R208;
10 R255; 14 R339).
-/

namespace Sys2Proof.Machine

open Sys2Proof

/-- Note in the flow of the bundle. -/
def setFlow (f : Flow → Flow) (s : State) : State := { s with flow := f s.flow }

/-- A PC at a signed distance in halfwords (02 R39). -/
def relPc (pc : Nat) (off : Int) : Nat := (((pc : Int) + off) % (2 ^ 64 : Nat)).toNat

/-- An unconditional branch (04 R108). -/
def opBr (off : BitVec 19) : Op := fun s =>
  .ok (setFlow (fun f => { f with jump := some (relPc (archOf s).pc off.toInt) }) s)

/-- A branch on pc[0] XOR N (04 R108). -/
def opBrc (pc : BitVec 4) (neg : Bool) (off : BitVec 19) : Op := fun s =>
  if (bit (rdP (archOf s) pc) 0).xor neg then
    .ok (setFlow (fun f => { f with jump := some (relPc (archOf s).pc off.toInt) }) s)
  else .ok s

/-- CALL: the link is written when the bundle knows its next PC (04 R109, R114). -/
def opCall (rd : BitVec 6) (off : BitVec 18) : Op := fun s =>
  .ok (setFlow (fun f => { f with call := some (rd.toNat, relPc (archOf s).pc off.toInt) }) s)

def opRet (ra : BitVec 6) : Op := fun s => .ok (setFlow (fun f => { f with ret := some (rdX (archOf s) ra).toNat }) s)

/-- The schedule that a count selects in a dispatch table (05 R135). -/
def bucketFor (t : List Bucket) (n : Nat) : Option Nat :=
  (t.find? fun b => b.cap != 0 && decide (n ≤ b.cap)).map (·.pc)

/-- BKTJ; while its table is to be written the bundle stalls (05 R134, R135). -/
def opBktj (tbl : BitVec 2) (ra : BitVec 6) : Op := fun s =>
  match bucketFor ((archOf s).disp.getD tbl.toNat []) (rdX (archOf s) ra).toNat with
  | some pc => .ok (setFlow (fun f => { f with jump := some pc }) s)
  | none => .trap 0x1B 0#64

/-- An access enters the LS queues of the context; a strong one is an order point (09 R223, R225). -/
def enqueue (c : Nat) (e : LsEntry) (s : State) : State :=
  modCtx c (fun x => { x with
    lsq := x.lsq ++ [{ e with stretch := x.stretch }]
    stretch := if e.strong then x.stretch + 1 else x.stretch }) s

/-- The latest held byte at an address (09 R240). -/
def heldAt (hs : List Held) (va : Nat) : Option Byte :=
  (hs.reverse.find? fun h => decide (h.va ≤ va) && decide (va < h.va + 64) && bit h.mask (va - h.va)).map
    fun h => h.data.getD (va - h.va) 0#8

/-- Bytes that the hold buffer gives to a load (09 R240). -/
def heldOver (x : Ctx) (segs : List Seg) : List (Option Byte) :=
  if runsAhead x && !x.hold.isEmpty then
    segs.flatMap fun g => (List.range g.len).map fun i => heldAt x.hold (g.va + i)
  else []

/-- Check an aligned access of the issuing context (08 R186 steps 1 and 2). -/
def checkAt (al : Nat) (nd : Need) (va : Word) (len : Nat) (s : State) : Except (Nat × Word) (List Seg) × State :=
  if va.toNat % al ≠ 0 then (.error (0x07, va), s) else
  match checkAccess s.cur nd va len s with
  | (.ok segs, s) => (.ok segs, s)
  | (.error (c, a), s) => (.error (c, BitVec.ofNat 64 a), s)

/-- Level at which the context runs. -/
def levelOf (s : State) : Nat := (getCtx s s.cur).level

def opBktset (tbl : BitVec 2) (ra : BitVec 6) : Op := fun s =>
  let c := s.cur
  let va := rdX (archOf s) ra
  match checkAt 64 { r := true } va 64 s with
  | (.error (code, a), _) => .trap code a
  | (.ok segs, s) =>
    let (id, s) := nextOp c s
    .ok (enqueue c { id := id, inL := true, inS := false, strong := true, kind := .bktset tbl.toNat va, segs := segs
                     got := List.replicate 64 none, ovl := heldOver (getCtx s c) segs, level := levelOf s } s)

/-- WAITT: every named tag is set (08 R206). -/
def opWaitt (ra : BitVec 6) : Op := fun s =>
  let m := rdX (archOf s) ra
  if (getCtx s s.cur).tags &&& m = m then .ok s else .block .watched id

/-- WAITANY: some named tag is set (08 R206). -/
def opWaitany (ra : BitVec 6) : Op := fun s =>
  let m := rdX (archOf s) ra
  if m = 0#64 then .trap 0x0A 0#64
  else if (getCtx s s.cur).tags &&& m = 0#64 then .block .watched id else .ok s

/-- The lowest tag that is set and named, or 64 (08 R206). -/
def firstReady (tags m : Word) : Word := BitVec.ofNat 64 (((List.range 64).find? (bit (tags &&& m))).getD 64)

def opFfrdy (rd ra : BitVec 6) : Op := fun s =>
  putX rd 14 (firstReady (getCtx s s.cur).tags (rdX (archOf s) ra)) 0#8 s

/-- RBWAIT: the ring holds a landed slot (08 R208). -/
def opRbwait (ring : BitVec 5) : Op := fun s =>
  let r := (getCore s (coreOf s.cur)).rings.getD ring.toNat {}
  if r.wptr = r.rptr then .block .watched id else .ok s

/-- YIELD: the context stops issuing and is ready at once (10 R255). -/
def opYield : Op := fun s => .ok (setFlow (fun f => { f with yielded := true }) s)

/-- TRAP is taken after the bundle (14 R339). -/
def opTrap (imm : BitVec 18) : Op := fun s => .ok (setFlow (fun f => { f with trap := some imm }) s)

/-- `BR` (R108) -/
def execBr (off : BitVec 19) (s : State) : Result :=
  .next (lone (.br off) (opBr off) s)

/-- `BRC` (R108) -/
def execBrc (pc : BitVec 4) (neg : Bool) (off : BitVec 19) (s : State) : Result :=
  .next (lone (.brc pc neg off) (opBrc pc neg off) s)

/-- `CALL` (R109) -/
def execCall (rd : BitVec 6) (off : BitVec 18) (s : State) : Result :=
  .next (lone (.call rd off) (opCall rd off) s)

/-- `RET` (R109) -/
def execRet (ra : BitVec 6) (s : State) : Result :=
  .next (lone (.ret ra) (opRet ra) s)

/-- `BKTJ` (R135) -/
def execBktj (tbl : BitVec 2) (ra : BitVec 6) (s : State) : Result :=
  .next (lone (.bktj tbl ra) (opBktj tbl ra) s)

/-- `BKTSET` (R134) -/
def execBktset (tbl : BitVec 2) (ra : BitVec 6) (s : State) : Result :=
  .next (lone (.bktset tbl ra) (opBktset tbl ra) s)

/-- `WAITT` (R206) -/
def execWaitt (ra : BitVec 6) (s : State) : Result :=
  .next (lone (.waitt ra) (opWaitt ra) s)

/-- `WAITANY` (R206) -/
def execWaitany (ra : BitVec 6) (s : State) : Result :=
  .next (lone (.waitany ra) (opWaitany ra) s)

/-- `FFRDY` (R206) -/
def execFfrdy (rd ra : BitVec 6) (s : State) : Result :=
  .next (lone (.ffrdy rd ra) (opFfrdy rd ra) s)

/-- `RBWAIT` (R208) -/
def execRbwait (ring : BitVec 5) (s : State) : Result :=
  .next (lone (.rbwait ring) (opRbwait ring) s)

/-- `YIELD` (R255) -/
def execYield (s : State) : Result :=
  .next (lone (.yield) opYield s)

/-- `TRAP` (R339) -/
def execTrap (imm : BitVec 18) (s : State) : Result :=
  .next (lone (.trap imm) (opTrap imm) s)


end Sys2Proof.Machine
end

