-- ==== Sys2Proof/Machine/Records.lean ====
section
/-!
DEFINITION. Bundle slot S1: pushing, joining and ending records (spec 10 R250 to R254).
-/

namespace Sys2Proof.Machine

open Sys2Proof

/-- The reserved bits of a pushed record are zero and SAVED is 0 (10 R248). -/
def recordReservedOk (r : BitVec 256) : Bool :=
  bitsN r 255 252 == 0 && bitsN r 235 192 == 0 && bitsN r 59 24 == 0

/-- The region in whose name a context pushes (10 R250). -/
def issuingRegion (s : State) (c : Nat) : Nat :=
  let d := getDie s (dieOf c)
  if (getCtx s c).level = 0 then ridOf s c else effFdom d (ridOf s c)

/-- Queue place taken: region, level, records (10 R251). -/
def occOf (d : Die) (rid lvl : Nat) : Nat :=
  ((d.occ.find? fun e => e.1 == rid && e.2.1 == lvl).map (·.2.2)).getD 0

/-- The fault of a push, checked in the order of R250, or 0. -/
def pushFault (s : State) (c : Nat) (r : BitVec 256) : Nat :=
  let d := getDie s (dieOf c)
  let rid := bitsN r 251 240
  let mine := issuingRegion s c
  let lvl := min (bitsN r 239 236) (effPrio d rid)
  if !recordReservedOk r then 0x01
  else if (region? d rid).isNone || !(rid == mine || ((getCtx s c).level == 1 && inSubtree d mine rid)) then 0x03
  else if bitsN r 127 64 % 64 ≠ 0 || bitsN r 191 128 % 4 ≠ 0 then 0x07
  else if 2 ^ effQlog d rid ≤ occOf d rid lvl then 0x1A else 0

/-- SPAWN: the place is reserved at once, the record stands in the store queue as a strong store (10 R250). -/
def opSpawn (ra : BitVec 6) : Op := fun s =>
  let c := s.cur
  let a := archOf s
  let w (k : Nat) : Nat := (rdXN a (ra.toNat + k)).toNat
  let r : BitVec 256 := BitVec.ofNat 256 (w 0 + w 1 * 2 ^ 64 + w 2 * 2 ^ 128 + w 3 * 2 ^ 192)
  match pushFault s c r with
  | 0 =>
    let rid := bitsN r 251 240
    let lvl := min (bitsN r 239 236) (effPrio (getDie s (dieOf c)) rid)
    let (id, s) := nextOp c (modDie (dieOf c) (occAdd rid lvl true) s)
    .ok (enqueue c { id := id, inL := false, inS := true, strong := true, kind := .spawn r lvl, segs := [], level := levelOf s } s)
  | f => .trap f 0#64

/-- The checks of a join counter (10 R252). -/
def checkCounter (va : Word) (s : State) : Except (Nat × Word) (List Seg) × State :=
  checkAt 4 { r := true, w := true, fmt := fmtInt 4, kind := onlyScratch } va 4 s

/-- An arrival: one entry of both queues (10 R252); without JOINPTR it has no effect. -/
def opJoin (ra : BitVec 6) : Op := fun s =>
  let c := s.cur
  let va := if ra = 0#6 then ((getCtx s c).record.map (·.joinptr)).getD 0#64 else rdX (archOf s) ra
  if ra = 0#6 && va == 0#64 then .ok s else
  match checkCounter va s with
  | (.error (code, a), _) => .trap code a
  | (.ok segs, s) =>
    let (id, s) := nextOp c s
    .ok (enqueue c { id := id, inL := true, inS := true, strong := true, kind := .join, segs := segs, level := levelOf s } s)

/-- JOIN.W: performed at the head of both queues, it waits for the word to be zero (10 R252). A poisoned word is 0x18,
delivered at the bundle (14 R345).
DEDUCED, log 13. DEDUCED, log 21. -/
def opJoinW (ra : BitVec 6) : Op := fun s =>
  let c := s.cur
  match checkCounter (rdX (archOf s) ra) s with
  | (.error (code, a), _) => .trap code a
  | (.ok segs, s) =>
    let s := drainLs c s
    match segs with
    | [] => .ok s
    | g :: _ =>
      if (poisonIn (getDie s (dieOf c)) g.pa g.len).isSome then .trap 0x18 (BitVec.ofNat 64 g.va)
      else if (bankDone s c .join g.pa).isSome then .ok (leaveWord true c .join g.pa s)
      else if natOf (peek s (dieOf c) g.pa g.len) = 0 then .ok (leaveWord false c .join g.pa s)
      else .block .watched (fun t => waitOn c .join g 0 (drainLs c t))

/-- The head of a context's queue is suspended. -/
def mxSuspended (x : Ctx) : Bool := (x.mx.run.map (·.suspended)).getD false

/-- Every matrix command of a context has completed (06 R138). -/
def mxQuiet (x : Ctx) : Bool := x.mx.cmds.isEmpty

/-- The conditions under which DONE ends the record, as they were before its own bundle (02 R45; 10 R254): the tags that it
has taken, its matrix commands and its LS accesses do not count. -/
def doneReady (f : Flow) (x : Ctx) : Bool :=
  let mine (e : LsEntry) : Bool := decide (f.id0 ≤ e.id)
  (x.tags ||| f.tags0) == BitVec.allOnes 64 && x.busy0 == 0#64 && decide (x.mx.cmds.length ≤ f.mxOwn) && x.lsq.all mine
    && x.bk.all mine && x.bkt.isEmpty

/-- The first fault that the accesses of a bundle have delivered. -/
def newFault (c : Nat) (s t : State) : Option PFault :=
  let x := getCtx s c
  let y := getCtx t c
  (y.faults.drop x.faults.length ++ y.faults1.drop x.faults1.length).head?

/-- The record ends with its bundle: the accesses of the bundle are performed, the padded results written. Poison that they
meet is taken at this bundle, which issues again (10 R254; 02 R37; 14 R345).
DESIGN CHOICE, log 100. -/
def leaveRecord (after : State → State) : Op := fun s =>
  let c := s.cur
  let t := settle c s
  match newFault c s t with
  | some f => .trap 0x18 f.addr
  | none => .ok (setFlow (fun f => { f with left := true }) (after (endRecord c (waitPadded c t))))

/-- DONE ends the record once its conditions hold (10 R254). -/
def opDone : Op := fun s =>
  let x := getCtx s s.cur
  if x.ckpt.isSome then .block .doneHuddle id
  else if !doneReady s.flow x then .block .watched id
  else leaveRecord id s

/-- `SPAWN` (R250) -/
def execSpawn (ra : BitVec 6) (s : State) : Result :=
  .next (lone (.spawn ra) (opSpawn ra) s)

/-- `JOIN` (R252) -/
def execJoin (ra : BitVec 6) (s : State) : Result :=
  .next (lone (.join ra) (opJoin ra) s)

/-- `JOIN.W` (R252) -/
def execJoinW (ra : BitVec 6) (s : State) : Result :=
  .next (lone (.joinW ra) (opJoinW ra) s)

/-- `DONE` (R254) -/
def execDone (s : State) : Result :=
  .next (lone (.done) opDone s)


end Sys2Proof.Machine
end

