-- ==== Sys2Proof/Machine/System.lean ====
section
/-!
DEFINITION. Bundle slot S1: special registers, keys, the return from a trap, HALT, CKWAIT
(spec 02 R58 to R61; 06 R151; 08 R205; 13 R319, R320; 14 R340, R341, R350).
-/

namespace Sys2Proof.Machine

open Sys2Proof

/-- SELFID (01 R18). -/
def selfId (s : State) (c : Nat) : Word :=
  BitVec.ofNat 64 ((getCtx s c).rank * 2 ^ 32 + s.pkg * 2 ^ 24 + dieOf c * 2 ^ 16 + coreInDie c / 8 * 2 ^ 13 +
    coreInDie c % 8 * 2 ^ 10 + c % 4 * 2 ^ 8)

/-- The value that MFS reads (02 R58, R60). DEDUCED, log 77. -/
def srValue (s : State) (c n : Nat) : Word :=
  let x := getCtx s c
  match n with
  | 0x000 => selfId s c
  | 0x001 => x.tags
  | 0x002 => zext x.arch.fstatus
  | 0x003 => zext x.arch.fctl
  | 0x004 => BitVec.ofNat 64 (nowOf s c)
  | 0x008 => rowprogOf x.mx
  | 0x010 => x.agstate
  | 0x011 => BitVec.ofNat 64 (holdCount x)
  | 0x020 => x.trapcode
  | 0x021 => x.trappc
  | 0x022 => x.trapaddr
  | 0x023 => x.savearea
  | 0x030 => x.regionid
  | _ => 0#64

def opMfs (rd : BitVec 6) (n : BitVec 12) : Op := fun s => putX rd 14 (srValue s s.cur n.toNat) 0#8 s

/-- TRAPPC and SAVEAREA keep their reserved bits zero (14 R334). -/
def opMts (n : BitVec 12) (ra : BitVec 6) : Op := fun s =>
  let v := rdX (archOf s) ra
  match n.toNat with
  | 0x021 => .ok (modCtx s.cur (fun x => { x with trappc := v &&& 0xF000000000FFFFFF#64 }) s)
  | 0x023 => .ok (modCtx s.cur (fun x => { x with savearea := v &&& ~~~(0x3F#64) }) s)
  | _ => .trap 0x03 0#64

/-- A write of TAGS changes only the tags with nothing in flight (08 R205). -/
def opTagsWrite (ra : BitVec 6) : Op := fun s =>
  let v := rdX (archOf s) ra
  .ok (modCtx s.cur (fun x => { x with tags := v &&& ~~~x.busy }) s)

/-- A write of FSTATUS replaces the flags that landed earlier; those landing in its cycle are ORed in (02 R61). -/
def opFstatusWrite (ra : BitVec 6) : Op := fun s =>
  let v := rdX (archOf s) ra
  let now := nowOf s s.cur
  .ok (modCtx s.cur (fun x => { x with arch := { x.arch with
    fstatus := BitVec.ofNat 8 (bitsN v 7 0) ||| (if x.landed.1 = now then x.landed.2 else 0#8) } }) s)

/-- A write of FCTL: modes 101 to 111 store 000 (03 R76). -/
def opFctlWrite (ra : BitVec 6) : Op := fun s =>
  let m := bitsN (rdX (archOf s) ra) 2 0
  .ok (modArch s.cur (fun a => { a with fctl := BitVec.ofNat 3 (if m ≤ 4 then m else 0) }) s)

/-- The suspended matrix command of a context is abandoned (06 R151). -/
def abandonMx (m : MxState) : MxState :=
  match m.run with
  | some r => if r.suspended then { m with run := none, cmds := m.cmds.drop 1 } else m
  | none => m

/-- A write of ROWPROG can only clear VALID (06 R151). -/
def opRowprogWrite (ra : BitVec 6) : Op := fun s =>
  if bit (rdX (archOf s) ra) 63 then .ok s
  else .ok (modCtx s.cur (fun x => { x with mx := abandonMx x.mx, mxPends := if mxSuspended x then [] else x.mxPends }) s)

/-! Keys -/

/-- The slot named is owned by the issuer's tenant domain (13 R320). -/
def ownsSlot (s : State) (k : KeySlot) : Bool :=
  k.state != .free && k.die == dieOf s.cur && k.top == domOf s s.cur && k.top != 0

def opKeyselGen (ra : BitVec 6) : Op := fun s =>
  let v := rdX (archOf s) ra
  let n := bitsN v 11 0
  let k := s.keys.getD n {}
  if bitsN v 63 12 ≠ 0 then .trap 0x01 0#64
  else if !ownsSlot s k || k.state != .assigned then .trap 0x19 0#64
  else .ok { s with keys := s.keys.modify n fun q => { q with state := .live, link := false, gen := q.gen + 1 } }

/-- A line that the basin drops unwritten leaves in DRAM what stood there before it was dirty (13 R320). -/
def dropUnwritten (d : Die) (b : BLine) : Die :=
  match b.stale with
  | some old => setLineKey b.line b.staleKey { d with mem := writeRun d.mem (b.line * 128) old }
  | none => d

/-- Zero a 64 KiB frame of the scratchpads, its words full (13 R320; 08 R190). -/
def zeroFrame (f : Nat) (d : Die) : Die :=
  let a := scratchBase + f * 65536
  let inside (x : Nat) : Bool := decide (a ≤ x) && decide (x < a + 65536)
  { d with
    mem := d.mem.filter (fun e => !inside e.1)
    empties := d.empties.filter (fun x => !inside x)
    poison := d.poison.filter (fun x => !inside x)
    unseen := dropUnseen a (a + 65536) d.unseen }

/-- Some access of a die holds a translation through a slot (13 R320; 09 R237). -/
def keyHeld (s : State) (d n : Nat) : Bool := (heldOn s d).any fun h => h.2.okey == n

/-- KEYSEL.KILL of a LIVE slot whose translations no access holds any more (13 R320). -/
def killKey (d n : Nat) (s : State) : State :=
  let k := s.keys.getD n {}
  let s := dropTlb d (fun e => leafOkey e.leaf == n) s
  let s := modDie d (fun x =>
    let gone := x.basin.filter fun b => b.okey == n && b.gen == k.gen
    let x := gone.foldl (fun y b =>
      let y := dropUnwritten y b
      { y with unseen := dropUnseen (b.line * 128) (b.line * 128 + 128) y.unseen }) x
    let mine := x.frames.filter fun f => f.1 == .scratch && f.2.2 == .slot n
    let x := mine.foldl (fun y f => zeroFrame f.2.1 y) x
    let x := leaveBank (fun b => b.seg.okey == n) x
    { x with
      basin := x.basin.filter (fun b => !(b.okey == n && b.gen == k.gen))
      killing := x.killing.filter (fun e => e.1 != n)
      frames := x.frames.filter fun f => !(f.1 == .scratch && f.2.2 == .slot n) }) s
  { s with keys := s.keys.modify n fun q => { q with state := .assigned } }

/-- KEYSEL.KILL waits, while no new translation is formed through the slot, until no access holds one (13 R320).
DESIGN CHOICE, log 14. -/
def opKeyselKill (ra : BitVec 6) : Op := fun s =>
  let c := s.cur
  let d := dieOf c
  let v := rdX (archOf s) ra
  let n := bitsN v 11 0
  let k := s.keys.getD n {}
  if bitsN v 63 12 ≠ 0 then .trap 0x01 0#64
  else if !ownsSlot s k then .trap 0x19 0#64
  else if k.state != .live then .ok s
  else if keyHeld s d n then
    .block .watched (modDie d fun x => { x with killing := (n, c) :: x.killing.filter fun e => e.2 != c })
  else .ok (killKey d n s)

/-! Leaving a handler -/

/-- RFE: the handler's tags are set and its matrix commands have completed, then the return (14 R340). -/
def opRfe : Op := fun s =>
  let c := s.cur
  let x := getCtx s c
  if runsAhead x then .block .huddle id else
  if x.tags != BitVec.allOnes 64 || (x.mxSaved && !mxQuiet x) then .block .watched id else
  .ok (setFlow (fun f => { f with left := true }) (trapReturn c s))

/-- HALT abandons the interrupted state: what is suspended ends, nothing held is performed (14 R341). -/
def abandonAll (c : Nat) (s : State) : State :=
  let d := dieOf c
  let x := getCtx s c
  let mine (m : Copy) : Bool := m.ctx == c && m.suspended
  let copies := s.cores.flatMap fun k => k.copies.filter mine
  let eddies := (getDie s d).eddy.filter fun e => e.ctx == c && e.suspended
  let fbs := x.fb.filter (·.suspended)
  let s := { s with cores := s.cores.map fun q => { q with copies := q.copies.filter fun m => !mine m } }
  let s := modDie d (fun y => { y with eddy := y.eddy.filter fun e => !(e.ctx == c && e.suspended) }) s
  let s := foldS (fun m s => completeTag c m.level m.tag s) copies s
  let s := foldS (fun m s => completeTag c m.level m.tag s) eddies s
  let s := foldS (fun m s => completeTag c m.level m.tag s) fbs s
  let s := modDie d (dropUnsent fun p => p.ctx == c && fbs.any fun m => m.ord == p.pkt.cmd) s
  let s := dropRound c s
  modCtx c (fun y => { y with
    faults := [], faults0 := 0, hold := [], ckpt := none, ckptAt1 := false, ckpt0 := none, round := none, round0 := none, restore := none
    engFlags := 0#8, engFlags0 := 0#8
    fb := y.fb.filter (fun m => !m.suspended)
    mx := abandonMx y.mx, mxPends := [] }) s

/-- TAGS of the interrupted state: the saved word with the bits held in the context (14 R341). -/
def savedTags (c : Nat) (s : State) : Word :=
  let x := getCtx s c
  match areaReader c (x.savearea + 16#64) 8 s with
  | some (rd, _) => rdW rd 0 ||| x.heldTags
  | none => if x.busy0 = 0#64 then BitVec.allOnes 64 else 0#64

/-- HALT ends the record once the handler's tags and those of the interrupted state are set (14 R341); it waits as DONE does
while the handler runs ahead (10 R254). -/
def opHalt (ra : BitVec 6) : Op := fun s =>
  let c := s.cur
  let v := rdX (archOf s) ra
  let x := getCtx s c
  if runsAhead x then .block .doneHuddle id else
  let t := abandonAll c s
  if savedTags c t != BitVec.allOnes 64 || !doneReady s.flow (getCtx t c) then .block .watched (abandonAll c)
  else
    let r : Report := { die := dieOf c, rid := ridOf s c, code := x.trapcode, pc := x.trappc, addr := BitVec.ofNat 64 (bitsN v 31 0) }
    leaveRecord (fun u => { u with reports := u.reports ++ [r] }) t

/-- CKWAIT: no checkpoint of the domain is in progress on the die (14 R350). -/
def opCkwait : Op := fun s =>
  let top := domOf s s.cur
  if (getDie s (dieOf s.cur)).ckpts.any fun k => k.top == top then .block .watched id else .ok s

/-- `MFS` (R60) -/
def execMfs (rd : BitVec 6) (n : BitVec 12) (s : State) : Result :=
  .next (lone (.mfs rd n) (opMfs rd n) s)

/-- `MTS` (R61) -/
def execMts (n : BitVec 12) (ra : BitVec 6) (s : State) : Result :=
  .next (lone (.mts n ra) (opMts n ra) s)

/-- `MTS` (R205) -/
def execTagsWrite (ra : BitVec 6) (s : State) : Result :=
  .next (lone (.tagsWrite ra) (opTagsWrite ra) s)

/-- `MTS` (R61) -/
def execFstatusWrite (ra : BitVec 6) (s : State) : Result :=
  .next (lone (.fstatusWrite ra) (opFstatusWrite ra) s)

/-- `MTS` (R76) -/
def execFctlWrite (ra : BitVec 6) (s : State) : Result :=
  .next (lone (.fctlWrite ra) (opFctlWrite ra) s)

/-- `MTS` (R151) -/
def execRowprogWrite (ra : BitVec 6) (s : State) : Result :=
  .next (lone (.rowprogWrite ra) (opRowprogWrite ra) s)

/-- `KEYSEL.GEN` (R320) -/
def execKeyselGen (ra : BitVec 6) (s : State) : Result :=
  .next (lone (.keyselGen ra) (opKeyselGen ra) s)

/-- `KEYSEL.KILL` (R320) -/
def execKeyselKill (ra : BitVec 6) (s : State) : Result :=
  .next (lone (.keyselKill ra) (opKeyselKill ra) s)

/-- `RFE` (R340) -/
def execRfe (s : State) : Result :=
  .next (lone (.rfe) opRfe s)

/-- `HALT` (R341) -/
def execHalt (ra : BitVec 6) (s : State) : Result :=
  .next (lone (.halt ra) (opHalt ra) s)

/-- `CKWAIT` (R350) -/
def execCkwait (s : State) : Result :=
  .next (lone (.ckwait) opCkwait s)


end Sys2Proof.Machine
end

