-- ==== Sys2Proof/Machine/Vector.lean ====
section
/-!
DEFINITION. Bundle slots V0 to V2: the vector and predicate instructions (spec 03 R76 to R88; 04 R97 to R107).
-/

namespace Sys2Proof.Machine

open Sys2Proof

/-- Queue a vector result under the guard (02 R43; 04 R119). -/
def putV (vd : BitVec 6) (cls : Nat) (v : VReg) (fl : BitVec 8) (s : State) : Res :=
  .ok (addResult s.cur (.v (physV (archOf s) vd.toNat)) (.lanes (guardNow s) v) fl cls s)

/-- Queue a predicate result under the guard (02 R43). -/
def putP (pd : BitVec 4) (p : Pred) (s : State) : Res :=
  .ok (addResult s.cur (.p pd.toNat) (.bits (guardNow s) p) 0#8 15 s)

/-- The lanes 0 to 127 of a function. -/
def lanesOf (f : Nat → Lane) : VReg := (List.range 128).map f

/-- A predicate from a truth value for each lane. -/
def predOf (f : Nat → Bool) : Pred :=
  BitVec.ofNat 128 ((List.range 128).foldl (fun n l => if f l then n + 2 ^ l else n) 0)

/-- One lane's result, its flags and its generator state. -/
abbrev LaneOut := Lane × BitVec 8 × Word

/-- Compute every lane under the guard; under RS each consumes one word of its generator (03 R81). -/
def roundLanes (mode : Mode) (g : Pred) (rng : List Word) (f : Nat → Nat → Nat × BitVec 8) : List LaneOut :=
  (List.range 128).map fun l =>
    let r := rng.getD l 0#64
    if !bit g l then (0#32, 0#8, r) else
    match mode with
    | .rs => let (w, r) := consume r
             let (y, fl) := f l w
             (BitVec.ofNat 32 y, fl, r)
    | _ => let (y, fl) := f l 0
           (BitVec.ofNat 32 y, fl, r)

/-- Queue rounded lanes and keep their generator states and flags (03 R81; 04 R98). -/
def putRounded (vd : BitVec 6) (cls : Nat) (mode : Mode) (f : Nat → Nat → Nat × BitVec 8) (s : State) : Res :=
  let out := roundLanes mode (guardNow s) (archOf s).rng f
  let s := match mode with
    | .rs => modArch s.cur (fun a => { a with rng := out.map (·.2.2) }) s
    | _ => s
  putV vd cls (out.map (·.1)) (out.foldl (fun fl o => fl ||| o.2.1) 0#8) s

/-- The arithmetic of a lane: floating operation and exact integer operation (04 R98). -/
def arithV (fmt : Fmt) (rm : RM) (vd va vb : BitVec 6)
    (fl : FF → Fx → Fx → Fx → Mode → Nat → Nat × BitVec 8) (int : Int → Int → Int → Int) : Op := fun s =>
  let a := archOf s
  let x := rdV a va
  let y := rdV a vb
  let z := rdV a vd
  if fmt.isFloat then
    let mode := modeOf rm a.fctl
    putRounded vd 4 mode (fun l w =>
      fl (ffOf fmt) (elemFx fmt (lane x l)) (elemFx fmt (lane y l)) (elemFx fmt (lane z l)) mode w) s
  else
    let k := widthOf fmt
    putV vd 3 (lanesOf fun l => BitVec.ofNat 32 (wrapN k
      (int (signedN k (elemBits fmt (lane x l))) (signedN k (elemBits fmt (lane y l))) (signedN k (elemBits fmt (lane z l)))))) 0#8 s

def opVadd (fmt : Fmt) (rm : RM) (vd va vb : BitVec 6) : Op :=
  arithV fmt rm vd va vb (fun f a b _ m w => addR f a b m w) (fun a b _ => a + b)
def opVsub (fmt : Fmt) (rm : RM) (vd va vb : BitVec 6) : Op :=
  arithV fmt rm vd va vb (fun f a b _ m w => addR f a (negFx b) m w) (fun a b _ => a - b)
def opVmul (fmt : Fmt) (rm : RM) (vd va vb : BitVec 6) : Op :=
  arithV fmt rm vd va vb (fun f a b _ m w => mulR f a b m w) (fun a b _ => a * b)
def opVfma (fmt : Fmt) (rm : RM) (vd va vb : BitVec 6) : Op :=
  arithV fmt rm vd va vb (fun f a b c m w => fmaR f a b c false false m w) (fun a b c => a * b + c)
def opVfms (fmt : Fmt) (rm : RM) (vd va vb : BitVec 6) : Op :=
  arithV fmt rm vd va vb (fun f a b c m w => fmaR f a b c false true m w) (fun a b c => a * b - c)
def opVfnma (fmt : Fmt) (rm : RM) (vd va vb : BitVec 6) : Op :=
  arithV fmt rm vd va vb (fun f a b c m w => fmaR f a b c true false m w) (fun a b c => c - a * b)

/-- A lane-wise function of element bits without rounding or flag. -/
def mapV2 (cls : Nat) (vd va vb : BitVec 6) (f : Lane → Lane → Nat) : Op := fun s =>
  let a := archOf s
  let x := rdV a va
  let y := rdV a vb
  putV vd cls (lanesOf fun l => BitVec.ofNat 32 (f (lane x l) (lane y l))) 0#8 s

/-- Minimum and maximum of elements (03 R83; 04 R98). -/
def minmaxV (fmt : Fmt) (isMax : Bool) (a b : Lane) : Nat :=
  let x := elemBits fmt a
  let y := elemBits fmt b
  if fmt.isFloat then minmaxBits (ffOf fmt) isMax x y
  else if (signedN (widthOf fmt) x ≤ signedN (widthOf fmt) y) = isMax then y else x

def opVmin (fmt : Fmt) (vd va vb : BitVec 6) : Op := mapV2 (classVec fmt) vd va vb (minmaxV fmt false)
def opVmax (fmt : Fmt) (vd va vb : BitVec 6) : Op := mapV2 (classVec fmt) vd va vb (minmaxV fmt true)

/-- Absolute value: a NaN becomes canonical, an integer wraps (04 R98). -/
def absV (fmt : Fmt) (a : Lane) : Nat :=
  let x := elemBits fmt a
  if fmt.isFloat then (if isNanFx (elemFx fmt a) then nanBits (ffOf fmt) else x % signBit (ffOf fmt))
  else wrapN (widthOf fmt) (signedN (widthOf fmt) x).natAbs

/-- Negation: a NaN becomes canonical, an integer wraps (04 R98). -/
def negV (fmt : Fmt) (a : Lane) : Nat :=
  let x := elemBits fmt a
  if fmt.isFloat then (if isNanFx (elemFx fmt a) then nanBits (ffOf fmt) else x.xor (signBit (ffOf fmt)))
  else wrapN (widthOf fmt) (-(signedN (widthOf fmt) x))

def opVabs (fmt : Fmt) (vd va : BitVec 6) : Op := mapV2 (classVec fmt) vd va va (fun a _ => absV fmt a)
def opVneg (fmt : Fmt) (vd va : BitVec 6) : Op := mapV2 (classVec fmt) vd va va (fun a _ => negV fmt a)

def opVand (vd va vb : BitVec 6) : Op := mapV2 3 vd va vb (fun a b => (a &&& b).toNat)
def opVor (vd va vb : BitVec 6) : Op := mapV2 3 vd va vb (fun a b => (a ||| b).toNat)
def opVxor (vd va vb : BitVec 6) : Op := mapV2 3 vd va vb (fun a b => (a ^^^ b).toNat)

/-- Width of an integer format of the shifts (04 R99). -/
def IFmt.width : IFmt → Nat | .i32 => 32 | .i8 => 8

/-- Shift amount: the low 5 or 3 bits of the element (04 R99). -/
def shiftOf (f : IFmt) (b : Lane) : Nat := b.toNat % IFmt.width f

def opVshl (fmt : IFmt) (vd va vb : BitVec 6) : Op :=
  mapV2 3 vd va vb (fun a b => a.toNat % 2 ^ IFmt.width fmt * 2 ^ shiftOf fmt b % 2 ^ IFmt.width fmt)
def opVshr (fmt : IFmt) (vd va vb : BitVec 6) : Op :=
  mapV2 3 vd va vb (fun a b => a.toNat % 2 ^ IFmt.width fmt / 2 ^ shiftOf fmt b)
def opVsra (fmt : IFmt) (vd va vb : BitVec 6) : Op :=
  mapV2 3 vd va vb (fun a b => wrapN (IFmt.width fmt) (signedN (IFmt.width fmt) a.toNat / (2 ^ shiftOf fmt b : Nat)))

/-- Saturating sum and difference (03 R79; 04 R99). -/
def satV (f : IFmt) (g : Int → Int → Int) (a b : Lane) : Nat :=
  let w := IFmt.width f
  wrapN w (satInt w (g (signedN w a.toNat) (signedN w b.toNat)))

def opVadds (fmt : IFmt) (vd va vb : BitVec 6) : Op := mapV2 3 vd va vb (satV fmt (· + ·))
def opVsubs (fmt : IFmt) (vd va vb : BitVec 6) : Op := mapV2 3 vd va vb (satV fmt (· - ·))

def opVcmp (cc : VCond) (fmt : Fmt) (pd : BitVec 4) (va vb : BitVec 6) : Op := fun s =>
  let a := archOf s
  let x := rdV a va
  let y := rdV a vb
  putP pd (predOf fun l => condV fmt cc (lane x l) (lane y l)) s

def opVsel (vd va vb : BitVec 6) (pc : BitVec 4) : Op := fun s =>
  let a := archOf s
  let x := rdV a va
  let y := rdV a vb
  let p := rdP a pc
  putV vd 3 (lanesOf fun l => if bit p l then lane x l else lane y l) 0#8 s

def opVmov (vd va : BitVec 6) : Op := mapV2 3 vd va va (fun a _ => a.toNat)

def opVbcst (vd ra : BitVec 6) : Op := fun s =>
  let x : Lane := (rdX (archOf s) ra).setWidth 32
  putV vd 3 (lanesOf fun _ => x) 0#8 s

def opVext (rd va rb : BitVec 6) : Op := fun s =>
  let a := archOf s
  let n := (rdX a rb).toNat
  putX rd 3 (if n < 128 then zext (lane (rdV a va) n) else 0#64) 0#8 s

/-- VINS writes one lane, if the guard lets it (04 R101). -/
def opVins (vd ra rb : BitVec 6) : Op := fun s =>
  let a := archOf s
  let n := (rdX a rb).toNat
  let x : Lane := (rdX a ra).setWidth 32
  let mask : Pred := if n < 128 then guardNow s &&& BitVec.ofNat 128 (2 ^ n) else 0#128
  .ok (addResult s.cur (.v (physV a vd.toNat)) (.lanes mask (lanesOf fun _ => x)) 0#8 3 s)

def opViota (vd : BitVec 6) : Op := putV vd 3 (lanesOf fun l => BitVec.ofNat 32 l) 0#8

/-- One element converted: the result bits and flags (04 R102). -/
def cvtElem (fmt sfmt : Fmt) (mode : Mode) (a : Lane) (w : Nat) : Nat × BitVec 8 :=
  let k := widthOf fmt
  if sfmt.isFloat then
    let x := elemFx sfmt a
    if fmt.isFloat then roundTo (ffOf fmt) x mode w
    else
      let (y, fl) := toIntR k x mode w
      (wrapN k y, fl)
  else
    let y := signedN (widthOf sfmt) (elemBits sfmt a)
    if fmt.isFloat then roundTo (ffOf fmt) (fxOfInt y) mode w else (wrapN k (satInt k y), 0#8)

/-- The conversions that round (04 R102, second and third rows). -/
def cvtRounds (fmt sfmt : Fmt) : Bool :=
  match sfmt with
  | .f32 => true
  | .bf16 | .f16 => fmt != .f32
  | .i32 => fmt.isFloat
  | .i8 => false

def opVcvt (fmt : Fmt) (rm : RM) (sfmt : Fmt) (vd va : BitVec 6) : Op := fun s =>
  let a := archOf s
  let x := rdV a va
  let mode := if cvtRounds fmt sfmt then modeOf rm a.fctl else .rne
  putRounded vd 5 mode (fun l w => cvtElem fmt sfmt mode (lane x l) w) s

/-- The lanes whose bit is set, in order (04 R103). -/
def packed (p : Pred) (v : VReg) : List Lane := ((List.range 128).filter (bit p)).map (lane v)

def opVcmpr (vd va : BitVec 6) (pb : BitVec 4) : Op := fun s =>
  let a := archOf s
  let t := packed (rdP a pb) (rdV a va)
  putV vd 5 (lanesOf fun l => t.getD l 0#32) 0#8 s

/-- Number of set bits below a lane (04 R104). -/
def rankOf (p : Pred) (l : Nat) : Nat := ((List.range l).filter (bit p)).length

def opVexpd (vd va : BitVec 6) (pb : BitVec 4) : Op := fun s =>
  let a := archOf s
  let p := rdP a pb
  let x := rdV a va
  putV vd 5 (lanesOf fun l => if bit p l then lane x (rankOf p l) else 0#32) 0#8 s

/-! Reductions -/

/-- A node of the tree: its value and the lowest lane below it whose guard is 1 (03 R86). -/
abbrev Node := Nat × Option Nat

/-- One level of the tree: pairs added in order, words taken from the lowest live lane (03 R86). -/
def addLevel (f : FF) (mode : Mode) : List Node → List Word → List Node × BitVec 8 × List Word
  | a :: b :: r, rng =>
    match a.2.orElse fun _ => b.2 with
    | none =>
      let (ns, fl, rng) := addLevel f mode r rng
      ((signBit f, none) :: ns, fl, rng)
    | some l =>
      let (w, rng) := match mode with
        | .rs => let (w, g) := consume (rng.getD l 0#64); (w, rng.set l g)
        | _ => (0, rng)
      let (y, fl) := addR f (fxOf f a.1) (fxOf f b.1) mode w
      let (ns, fl', rng) := addLevel f mode r rng
      ((y, some l) :: ns, fl ||| fl', rng)
  | r, rng => (r, 0#8, rng)

/-- The tree over 2^n nodes (03 R85, R86). -/
def addTree (f : FF) (mode : Mode) : Nat → List Node → List Word → Nat × BitVec 8 × List Word
  | 0, ns, rng => ((ns.headD (signBit f, none)).1, 0#8, rng)
  | n + 1, ns, rng =>
    let (ns, fl, rng) := addLevel f mode ns rng
    let (y, fl', rng) := addTree f mode n ns rng
    (y, fl ||| fl', rng)

/-- The elements of the lanes that take part (04 R105). -/
def partsOf (fmt : Fmt) (g p : Pred) (v : VReg) : List Nat :=
  ((List.range 128).filter fun l => bit g l && bit p l).map fun l => elemBits fmt (lane v l)

def opVrsum (fmt : Fmt) (rm : RM) (rd va : BitVec 6) (pb : BitVec 4) : Op := fun s =>
  let a := archOf s
  let g := guardNow s
  let p := rdP a pb
  let x := rdV a va
  if fmt.isFloat then
    let f := ffOf fmt
    let mode := modeOf rm a.fctl
    let leaves : List Node := (List.range 128).map fun l =>
      (if bit g l && bit p l then elemBits fmt (lane x l) else signBit f, if bit g l then some l else none)
    let (y, fl, rng) := addTree f mode 7 leaves a.rng
    putX rd 6 (BitVec.ofNat 64 y) fl (modArch s.cur (fun b => { b with rng := rng }) s)
  else
    let k := widthOf fmt
    putX rd 6 (BitVec.ofInt 64 (((partsOf fmt g p x).map (signedN k)).foldl (· + ·) 0)) 0#8 s

/-- Maximum or minimum of the lanes that take part; the identities are the infinities (03 R86; 04 R105). -/
def reduceMm (fmt : Fmt) (isMax : Bool) (xs : List Nat) : Word :=
  if fmt.isFloat then
    let f := ffOf fmt
    BitVec.ofNat 64 (xs.foldl (minmaxBits f isMax) (withSign f isMax (infBits f)))
  else
    let ys := xs.map (signedN (widthOf fmt))
    let z : Int := if isMax then -(2 ^ 63 : Nat) else (2 ^ 63 : Nat) - 1
    BitVec.ofInt 64 (ys.foldl (fun a b => if isMax then max a b else min a b) z)

def redMm (isMax : Bool) (fmt : Fmt) (rd va : BitVec 6) (pb : BitVec 4) : Op := fun s =>
  let a := archOf s
  putX rd 6 (reduceMm fmt isMax (partsOf fmt (guardNow s) (rdP a pb) (rdV a va))) 0#8 s

def opVrmax := redMm true
def opVrmin := redMm false

/-- Source lane of a destination lane under the cluster selectors (04 R106). -/
def xcopyLane (sel : Word) (l : Nat) : Nat := 16 * bitsN sel (3 * (l / 16) + 2) (3 * (l / 16)) + l % 16

def opXcopy (vd va rb : BitVec 6) : Op := fun s =>
  let a := archOf s
  let x := rdV a va
  let sel := rdX a rb
  putV vd 6 (lanesOf fun l => lane x (xcopyLane sel l)) 0#8 s

/-! Predicates -/

/-- A bitwise predicate operation (04 R107). -/
def binP (f : Pred → Pred → Pred) (pd pa pb : BitVec 4) : Op := fun s =>
  putP pd (f (rdP (archOf s) pa) (rdP (archOf s) pb)) s

def opPand := binP (· &&& ·)
def opPor := binP (· ||| ·)
def opPxor := binP (· ^^^ ·)
def opPandn := binP (fun a b => a &&& ~~~b)
def opPnot (pd pa : BitVec 4) : Op := binP (fun a _ => ~~~a) pd pa pa

def opPcnt (rd : BitVec 6) (pa : BitVec 4) : Op := fun s =>
  putX rd 3 (BitVec.ofNat 64 (rankOf (rdP (archOf s) pa) 128)) 0#8 s

def opPfirst (rd : BitVec 6) (pa : BitVec 4) : Op := fun s =>
  putX rd 3 (BitVec.ofNat 64 (((List.range 128).find? (bit (rdP (archOf s) pa))).getD 128)) 0#8 s

/-- `VADD` (R98) -/
def execVadd (fmt : Fmt) (rm : RM) (vd va vb : BitVec 6) (s : State) : Result :=
  .next (lone (.vadd fmt rm vd va vb) (opVadd fmt rm vd va vb) s)

/-- `VSUB` (R98) -/
def execVsub (fmt : Fmt) (rm : RM) (vd va vb : BitVec 6) (s : State) : Result :=
  .next (lone (.vsub fmt rm vd va vb) (opVsub fmt rm vd va vb) s)

/-- `VMUL` (R98) -/
def execVmul (fmt : Fmt) (rm : RM) (vd va vb : BitVec 6) (s : State) : Result :=
  .next (lone (.vmul fmt rm vd va vb) (opVmul fmt rm vd va vb) s)

/-- `VFMA` (R98) -/
def execVfma (fmt : Fmt) (rm : RM) (vd va vb : BitVec 6) (s : State) : Result :=
  .next (lone (.vfma fmt rm vd va vb) (opVfma fmt rm vd va vb) s)

/-- `VFMS` (R98) -/
def execVfms (fmt : Fmt) (rm : RM) (vd va vb : BitVec 6) (s : State) : Result :=
  .next (lone (.vfms fmt rm vd va vb) (opVfms fmt rm vd va vb) s)

/-- `VFNMA` (R98) -/
def execVfnma (fmt : Fmt) (rm : RM) (vd va vb : BitVec 6) (s : State) : Result :=
  .next (lone (.vfnma fmt rm vd va vb) (opVfnma fmt rm vd va vb) s)

/-- `VMIN` (R98) -/
def execVmin (fmt : Fmt) (vd va vb : BitVec 6) (s : State) : Result :=
  .next (lone (.vmin fmt vd va vb) (opVmin fmt vd va vb) s)

/-- `VMAX` (R98) -/
def execVmax (fmt : Fmt) (vd va vb : BitVec 6) (s : State) : Result :=
  .next (lone (.vmax fmt vd va vb) (opVmax fmt vd va vb) s)

/-- `VABS` (R98) -/
def execVabs (fmt : Fmt) (vd va : BitVec 6) (s : State) : Result :=
  .next (lone (.vabs fmt vd va) (opVabs fmt vd va) s)

/-- `VNEG` (R98) -/
def execVneg (fmt : Fmt) (vd va : BitVec 6) (s : State) : Result :=
  .next (lone (.vneg fmt vd va) (opVneg fmt vd va) s)

/-- `VAND` (R99) -/
def execVand (vd va vb : BitVec 6) (s : State) : Result :=
  .next (lone (.vand vd va vb) (opVand vd va vb) s)

/-- `VOR` (R99) -/
def execVor (vd va vb : BitVec 6) (s : State) : Result :=
  .next (lone (.vor vd va vb) (opVor vd va vb) s)

/-- `VXOR` (R99) -/
def execVxor (vd va vb : BitVec 6) (s : State) : Result :=
  .next (lone (.vxor vd va vb) (opVxor vd va vb) s)

/-- `VSHL` (R99) -/
def execVshl (fmt : IFmt) (vd va vb : BitVec 6) (s : State) : Result :=
  .next (lone (.vshl fmt vd va vb) (opVshl fmt vd va vb) s)

/-- `VSHR` (R99) -/
def execVshr (fmt : IFmt) (vd va vb : BitVec 6) (s : State) : Result :=
  .next (lone (.vshr fmt vd va vb) (opVshr fmt vd va vb) s)

/-- `VSRA` (R99) -/
def execVsra (fmt : IFmt) (vd va vb : BitVec 6) (s : State) : Result :=
  .next (lone (.vsra fmt vd va vb) (opVsra fmt vd va vb) s)

/-- `VADDS` (R99) -/
def execVadds (fmt : IFmt) (vd va vb : BitVec 6) (s : State) : Result :=
  .next (lone (.vadds fmt vd va vb) (opVadds fmt vd va vb) s)

/-- `VSUBS` (R99) -/
def execVsubs (fmt : IFmt) (vd va vb : BitVec 6) (s : State) : Result :=
  .next (lone (.vsubs fmt vd va vb) (opVsubs fmt vd va vb) s)

/-- `VCMP.cc` (R100) -/
def execVcmp (cc : VCond) (fmt : Fmt) (pd : BitVec 4) (va vb : BitVec 6) (s : State) : Result :=
  .next (lone (.vcmp cc fmt pd va vb) (opVcmp cc fmt pd va vb) s)

/-- `VSEL` (R101) -/
def execVsel (vd va vb : BitVec 6) (pc : BitVec 4) (s : State) : Result :=
  .next (lone (.vsel vd va vb pc) (opVsel vd va vb pc) s)

/-- `VMOV` (R101) -/
def execVmov (vd va : BitVec 6) (s : State) : Result :=
  .next (lone (.vmov vd va) (opVmov vd va) s)

/-- `VBCST` (R101) -/
def execVbcst (vd : BitVec 6) (ra : BitVec 6) (s : State) : Result :=
  .next (lone (.vbcst vd ra) (opVbcst vd ra) s)

/-- `VEXT` (R101) -/
def execVext (rd : BitVec 6) (va : BitVec 6) (rb : BitVec 6) (s : State) : Result :=
  .next (lone (.vext rd va rb) (opVext rd va rb) s)

/-- `VINS` (R101) -/
def execVins (vd : BitVec 6) (ra rb : BitVec 6) (s : State) : Result :=
  .next (lone (.vins vd ra rb) (opVins vd ra rb) s)

/-- `VIOTA` (R101) -/
def execViota (vd : BitVec 6) (s : State) : Result :=
  .next (lone (.viota vd) (opViota vd) s)

/-- `VCVT` (R102) -/
def execVcvt (fmt : Fmt) (rm : RM) (sfmt : Fmt) (vd va : BitVec 6) (s : State) : Result :=
  .next (lone (.vcvt fmt rm sfmt vd va) (opVcvt fmt rm sfmt vd va) s)

/-- `VCMPR` (R103) -/
def execVcmpr (vd va : BitVec 6) (pb : BitVec 4) (s : State) : Result :=
  .next (lone (.vcmpr vd va pb) (opVcmpr vd va pb) s)

/-- `VEXPD` (R104) -/
def execVexpd (vd va : BitVec 6) (pb : BitVec 4) (s : State) : Result :=
  .next (lone (.vexpd vd va pb) (opVexpd vd va pb) s)

/-- `VRSUM` (R105) -/
def execVrsum (fmt : Fmt) (rm : RM) (rd : BitVec 6) (va : BitVec 6) (pb : BitVec 4) (s : State) : Result :=
  .next (lone (.vrsum fmt rm rd va pb) (opVrsum fmt rm rd va pb) s)

/-- `VRMAX` (R105) -/
def execVrmax (fmt : Fmt) (rd : BitVec 6) (va : BitVec 6) (pb : BitVec 4) (s : State) : Result :=
  .next (lone (.vrmax fmt rd va pb) (opVrmax fmt rd va pb) s)

/-- `VRMIN` (R105) -/
def execVrmin (fmt : Fmt) (rd : BitVec 6) (va : BitVec 6) (pb : BitVec 4) (s : State) : Result :=
  .next (lone (.vrmin fmt rd va pb) (opVrmin fmt rd va pb) s)

/-- `XCOPY` (R106) -/
def execXcopy (vd va : BitVec 6) (rb : BitVec 6) (s : State) : Result :=
  .next (lone (.xcopy vd va rb) (opXcopy vd va rb) s)

/-- `PAND` (R107) -/
def execPand (pd pa pb : BitVec 4) (s : State) : Result :=
  .next (lone (.pand pd pa pb) (opPand pd pa pb) s)

/-- `POR` (R107) -/
def execPor (pd pa pb : BitVec 4) (s : State) : Result :=
  .next (lone (.por pd pa pb) (opPor pd pa pb) s)

/-- `PXOR` (R107) -/
def execPxor (pd pa pb : BitVec 4) (s : State) : Result :=
  .next (lone (.pxor pd pa pb) (opPxor pd pa pb) s)

/-- `PANDN` (R107) -/
def execPandn (pd pa pb : BitVec 4) (s : State) : Result :=
  .next (lone (.pandn pd pa pb) (opPandn pd pa pb) s)

/-- `PNOT` (R107) -/
def execPnot (pd pa : BitVec 4) (s : State) : Result :=
  .next (lone (.pnot pd pa) (opPnot pd pa) s)

/-- `PCNT` (R107) -/
def execPcnt (rd : BitVec 6) (pa : BitVec 4) (s : State) : Result :=
  .next (lone (.pcnt rd pa) (opPcnt rd pa) s)

/-- `PFIRST` (R107) -/
def execPfirst (rd : BitVec 6) (pa : BitVec 4) (s : State) : Result :=
  .next (lone (.pfirst rd pa) (opPfirst rd pa) s)


end Sys2Proof.Machine
end

