-- ==== Sys2Proof/Machine/Special.lean ====
section
/-!
DEFINITION. Bundle slot F: the special functions, random words and seeding (spec 05 R122 to R127).
A function result is the one RoundTo of the exact value: the value is enclosed in an interval of integers at scale
2^-w, and the interval is narrowed until both of its ends round alike.
-/

namespace Sys2Proof.Machine

open Sys2Proof

/-- The functions of slot F (05 R122). -/
inductive SFn | exp2 | log2 | rcp | rsq | sin | cos | tanh | erf
  deriving DecidableEq, Repr

/-! Fixed-point arithmetic at scale 2^-w: every operation is off by at most one unit -/

def fmul (w : Nat) (a b : Int) : Int := a * b / (2 ^ w : Nat)
def fdiv (w : Nat) (a b : Int) : Int := a * (2 ^ w : Nat) / b

/-- Sum of 1/((2k+1) q^(2k+1)), with alternating signs for the arc tangent: t holds 2^w / q^(2k+1). -/
def atanSum (alt : Bool) (q : Nat) : Nat → Nat → Nat → Int
  | 0, _, _ => 0
  | fuel + 1, t, k =>
    if t = 0 then 0 else
    let x : Int := (t / (2 * k + 1) : Nat)
    (if alt && k % 2 == 1 then -x else x) + atanSum alt q fuel (t / (q * q)) (k + 1)

/-- ln 2 = 2 artanh(1/3). -/
def fln2 (w : Nat) : Int := 2 * atanSum false 3 w (2 ^ w / 3) 0

/-- π = 16 arctan(1/5) − 4 arctan(1/239). -/
def fpi (w : Nat) : Int := 16 * atanSum true 5 w (2 ^ w / 5) 0 - 4 * atanSum true 239 w (2 ^ w / 239) 0

/-- Sum of y^k/k! from term t of index k on. -/
def expSum (w : Nat) (y : Int) : Nat → Int → Nat → Int
  | 0, _, _ => 0
  | fuel + 1, t, k => if t = 0 then 0 else t + expSum w y fuel (fmul w t y / ((k + 1 : Nat) : Int)) (k + 1)

/-- e^y for 0 ≤ y < 1. -/
def fexp (w : Nat) (y : Int) : Int := expSum w y w (2 ^ w : Nat) 0

/-- e^-y for y ≥ 0: e^-(n ln 2) and the rest. -/
def fexpNeg (w : Nat) (y : Int) : Int :=
  let l := fln2 w
  let n := (y / l).toNat
  fdiv w (2 ^ w : Nat) (fexp w (y - (n : Int) * l)) / (2 ^ n : Nat)

/-- Sum of z^(2k+1)/(2k+1) from power t on. -/
def artanhSum (w : Nat) (z2 : Int) : Nat → Int → Nat → Int
  | 0, _, _ => 0
  | fuel + 1, t, k => if t = 0 then 0 else t / ((2 * k + 1 : Nat) : Int) + artanhSum w z2 fuel (fmul w t z2) (k + 1)

/-- ln of a value from 1 to 2. -/
def fln (w : Nat) (m : Int) : Int :=
  let one : Int := (2 ^ w : Nat)
  let z := fdiv w (m - one) (m + one)
  2 * artanhSum w (fmul w z z) w z 0

/-- Alternating sum of r^j/j! from term t of index j on, in steps of 2. -/
def trigSum (w : Nat) (r2 : Int) : Nat → Int → Nat → Int
  | 0, _, _ => 0
  | fuel + 1, t, j =>
    if t = 0 then 0 else t + trigSum w r2 fuel (-(fmul w t r2 / (((j + 1) * (j + 2) : Nat) : Int))) (j + 2)

def fsin (w : Nat) (r : Int) : Int := trigSum w (fmul w r r) w r 1
def fcos (w : Nat) (r : Int) : Int := trigSum w (fmul w r r) w (2 ^ w : Nat) 0

/-- Sum of 2^n x^(2n+1) / (1·3·…·(2n+1)) from term t on. -/
def erfSum (w : Nat) (x2 : Int) : Nat → Int → Nat → Int
  | 0, _, _ => 0
  | fuel + 1, t, n => if t = 0 then 0 else t + erfSum w x2 fuel (2 * fmul w t x2 / ((2 * n + 3 : Nat) : Int)) (n + 1)

/-- Integer square root by Newton steps from above. -/
def isqrtFrom (n : Nat) : Nat → Nat → Nat
  | 0, x => x
  | fuel + 1, x =>
    let y := (x + n / x) / 2
    if x ≤ y then x else isqrtFrom n fuel y

def isqrt (n : Nat) : Nat := if n = 0 then 0 else isqrtFrom n (bitLen n + 8) (2 ^ (bitLen n / 2 + 1))

/-- A value m·2^e at scale 2^-w, rounded down. -/
def atScale (w : Nat) (m : Nat) (e : Int) : Int :=
  let sh := e + (w : Int)
  if 0 ≤ sh then (m * 2 ^ sh.toNat : Nat) else (m / 2 ^ (-sh).toNat : Nat)

/-- An approximation of the function at |a| = m·2^e (for log2 at a) at scale 2^-w, off by less than 2^180 units. -/
def approx (f : SFn) (w : Nat) (m : Nat) (e : Int) : Int :=
  let one : Int := (2 ^ w : Nat)
  let a := atScale w m e
  match f with
  | .log2 =>
    let k : Int := e + (bitLen m : Int) - 1
    let x := atScale w m (1 - (bitLen m : Int))
    k * one + fdiv w (fln w x) (fln2 w)
  | .sin | .cos =>
    let p := fpi w
    let n := (2 * a + p / 2) / p
    let r := a - n * p / 2
    let s := fsin w r
    let c := fcos w r
    let q := (n % 4).toNat
    match f, q with
    | .sin, 0 => s
    | .sin, 1 => c
    | .sin, 2 => -s
    | .sin, _ => -c
    | _, 0 => c
    | _, 1 => -s
    | _, 2 => -c
    | _, _ => s
  | .tanh =>
    let t := fexpNeg w (2 * a)
    fdiv w (one - t) (one + t)
  | .erf =>
    let x2 := fmul w a a
    let s := erfSum w x2 (4 * w) a 0
    let rootPi : Int := (isqrt ((fpi w).toNat * 2 ^ w) : Nat)
    fdiv w (2 * fmul w s (fexpNeg w x2)) rootPi
  | _ => 0

/-- 2^a of a value that is no integer at scale 2^-w, without its power of two: the significand from 1 to 2. -/
def approxExp2 (w : Nat) (frac : Int) : Int := fexp w (fmul w frac (fln2 w))

/-- Both ends of the interval around v round alike: then that is the result. Neither end is exact. -/
def decided? (f : FF) (neg : Bool) (mode : Mode) (wd w : Nat) (sh : Int) (v : Int) : Option (Nat × BitVec 8) × (Nat × BitVec 8) :=
  let lo := v - (2 ^ 180 : Nat)
  let hi := v + (2 ^ 180 : Nat)
  let fx (x : Int) : Fx := .fin (neg.xor (decide (x < 0))) x.natAbs (sh - (w : Int)) true
  -- toward zero the tail stands above the magnitude
  let a := roundTo f (fx (if v < 0 then hi else lo)) mode wd
  let b := roundTo f (fx (if v < 0 then lo else hi)) mode wd
  (if (0 < lo || hi < 0) && a == b then some a else none, if Config.undecided wd then a else b)

/-- Try the precisions in turn. DESIGN CHOICE, log 85. -/
def ladder (f : FF) (neg : Bool) (mode : Mode) (wd : Nat) (sh : Int) (g : Nat → Int) : List Nat → Nat × BitVec 8
  | [] => (0, 0#8)
  | p :: ps =>
    let w := p + 256
    match decided? f neg mode wd w sh (g w), ps with
    | (some r, _), _ => r
    | (none, r), [] => r
    | (none, _), q :: qs => ladder f neg mode wd sh g (q :: qs)

def precisions : List Nat := [96, 200, 700, 1600]

/-- 1/√a for a = m·2^e, exact but for a tail (05 R122). -/
def rsqFx (m : Nat) (e : Int) : Fx :=
  let m' := if e % 2 = 0 then m else 2 * m
  let e' := if e % 2 = 0 then e else e - 1
  let k := bitLen m' + 160
  let q := 2 ^ (2 * k) / m'
  let r := isqrt q
  .fin false r (-(k : Int) - e' / 2) (!(r * r * m' == 2 ^ (2 * k)))

/-- The result just below 1 in magnitude, of tanh and erf far from zero (05 R123). -/
def nearOne (neg : Bool) : Fx := .fin neg (2 ^ 128 - 1) (-128) true

/-- The function at a finite nonzero operand inside its open domain (05 R122, R124). -/
def fnFinite (fn : SFn) (f : FF) (mode : Mode) (wd : Nat) (neg : Bool) (m : Nat) (e : Int) : Nat × BitVec 8 :=
  let isInt := decide (0 ≤ e) || m % 2 ^ (-e).toNat == 0
  match fn with
  | .exp2 =>
    let mag : Int := if 0 ≤ e then (if e ≤ 12 then (m * 2 ^ e.toNat : Nat) else 4096) else (m / 2 ^ (-e).toNat : Nat)
    let fl : Int := if neg then (if isInt then -mag else -mag - 1) else mag
    let k := max (-1024) (min 1024 fl)
    if isInt then roundTo f (.fin false 1 k false) mode wd else
    ladder f false mode wd k (fun w =>
      let a := atScale w m e
      let v := if neg then -a else a
      approxExp2 w (v - fl * (2 ^ w : Nat))) precisions
  | .log2 =>
    if m = 2 ^ (bitLen m - 1) then roundTo f (fxOfInt (e + (bitLen m : Int) - 1)) mode wd
    else ladder f false mode wd 0 (fun w => approx .log2 w m e) precisions
  | .rcp =>
    let (x, fl) := divFx (.fin false 1 0 false) (.fin neg m e false)
    let (y, g) := roundTo f x mode wd
    (y, fl ||| g)
  | .rsq => roundTo f (rsqFx m e) mode wd
  | .sin => ladder f neg mode wd 0 (fun w => approx .sin w m e) precisions
  | .cos => ladder f false mode wd 0 (fun w => approx .cos w m e) precisions
  | .tanh =>
    if 6 < e + (bitLen m : Int) then roundTo f (nearOne neg) mode wd
    else ladder f neg mode wd 0 (fun w => approx .tanh w m e) precisions
  | .erf =>
    if 4 < e + (bitLen m : Int) || (e + (bitLen m : Int) = 4 && decide (10 * (2 : Int) ^ 40 ≤ atScale 40 m e)) then
      roundTo f (nearOne neg) mode wd
    else ladder f neg mode wd 0 (fun w => approx .erf w m e) precisions

/-- The operand of sin and cos is outside the reduction range (05 R124). -/
def outOfRange (m : Nat) (e : Int) : Bool := decide (20 < e + (bitLen m : Int))

/-- A function of slot F on element bits (05 R122 to R124). -/
def fnElem (fn : SFn) (f : FF) (mode : Mode) (bits : Nat) (wd : Nat) : Nat × BitVec 8 :=
  let one := nbits f.bias 0 f.eb * 2 ^ f.fb
  let inf (neg : Bool) : Nat := withSign f neg (infBits f)
  match fxOf f bits with
  | .nan => (nanBits f, 0#8)
  | .inf neg =>
    match fn with
    | .exp2 => (if neg then 0 else infBits f, 0#8)
    | .log2 => if neg then (nanBits f, fNV) else (infBits f, 0#8)
    | .rcp => (withSign f neg 0, 0#8)
    | .rsq => if neg then (nanBits f, fNV) else (0, 0#8)
    | .sin | .cos => (nanBits f, fRG)
    | .tanh | .erf => (withSign f neg one, 0#8)
  | .fin neg m e _ =>
    if m = 0 then
      match fn with
      | .exp2 | .cos => (one, 0#8)
      | .log2 => (inf true, fDZ)
      | .rcp | .rsq => (inf neg, fDZ)
      | _ => (withSign f neg 0, 0#8)
    else match fn with
      | .log2 | .rsq => if neg then (nanBits f, fNV) else fnFinite fn f mode wd neg m e
      | .sin | .cos => if outOfRange m e then (nanBits f, fRG) else fnFinite fn f mode wd neg m e
      | _ => fnFinite fn f mode wd neg m e

/-- A function instruction: under RS each lane consumes one word whatever its operand is (05 R125). -/
def fnOp (fn : SFn) (fmt : Fmt) (rm : RM) (vd va : BitVec 6) : Op := fun s =>
  let a := archOf s
  let x := rdV a va
  let mode := modeOf rm a.fctl
  putRounded vd 7 mode (fun l w => fnElem fn (ffOf fmt) mode (elemBits fmt (lane x l)) w) s

def opExp2 := fnOp .exp2
def opLog2 := fnOp .log2
def opRcp := fnOp .rcp
def opRsq := fnOp .rsq
def opSin := fnOp .sin
def opCos := fnOp .cos
def opTanh := fnOp .tanh
def opErf := fnOp .erf

/-- The value of RND from one output of the generator (05 R126). -/
def rndBits (fmt : Fmt) (out : Word) : Nat :=
  if fmt = .i32 then bitsN out 63 32
  else (roundTo ffF32 (.fin false (2 * bitsN out 63 41 + 1) (-24) false) .rne 0).1

def opRnd (fmt : Fmt) (vd : BitVec 6) : Op := fun s =>
  let g := guardNow s
  let st := (archOf s).rng
  let out := (List.range 128).map fun l =>
    let r := st.getD l 0#64
    if bit g l then nextRand r else (r, 0#64)
  putV vd 7 (out.map fun o => BitVec.ofNat 32 (rndBits fmt o.2)) 0#8
    (modArch s.cur (fun a => { a with rng := out.map (·.1) }) s)

/-- SEED sets the generators of the guarded lanes (05 R127). -/
def opSeed (ra : BitVec 6) : Op := fun s =>
  let g := guardNow s
  let w := rdX (archOf s) ra
  let st := (archOf s).rng
  .ok (modArch s.cur (fun a => { a with rng := (List.range 128).map fun l => if bit g l then mix w l else st.getD l 0#64 }) s)

/-- `EXP2` (R122) -/
def execExp2 (fmt : Fmt) (rm : RM) (vd va : BitVec 6) (s : State) : Result :=
  .next (lone (.exp2 fmt rm vd va) (opExp2 fmt rm vd va) s)

/-- `LOG2` (R122) -/
def execLog2 (fmt : Fmt) (rm : RM) (vd va : BitVec 6) (s : State) : Result :=
  .next (lone (.log2 fmt rm vd va) (opLog2 fmt rm vd va) s)

/-- `RCP` (R122) -/
def execRcp (fmt : Fmt) (rm : RM) (vd va : BitVec 6) (s : State) : Result :=
  .next (lone (.rcp fmt rm vd va) (opRcp fmt rm vd va) s)

/-- `RSQ` (R122) -/
def execRsq (fmt : Fmt) (rm : RM) (vd va : BitVec 6) (s : State) : Result :=
  .next (lone (.rsq fmt rm vd va) (opRsq fmt rm vd va) s)

/-- `SIN` (R124) -/
def execSin (fmt : Fmt) (rm : RM) (vd va : BitVec 6) (s : State) : Result :=
  .next (lone (.sin fmt rm vd va) (opSin fmt rm vd va) s)

/-- `COS` (R124) -/
def execCos (fmt : Fmt) (rm : RM) (vd va : BitVec 6) (s : State) : Result :=
  .next (lone (.cos fmt rm vd va) (opCos fmt rm vd va) s)

/-- `TANH` (R122) -/
def execTanh (fmt : Fmt) (rm : RM) (vd va : BitVec 6) (s : State) : Result :=
  .next (lone (.tanh fmt rm vd va) (opTanh fmt rm vd va) s)

/-- `ERF` (R122) -/
def execErf (fmt : Fmt) (rm : RM) (vd va : BitVec 6) (s : State) : Result :=
  .next (lone (.erf fmt rm vd va) (opErf fmt rm vd va) s)

/-- `RND` (R126) -/
def execRnd (fmt : Fmt) (vd : BitVec 6) (s : State) : Result :=
  .next (lone (.rnd fmt vd) (opRnd fmt vd) s)

/-- `SEED` (R127) -/
def execSeed (ra : BitVec 6) (s : State) : Result :=
  .next (lone (.seed ra) (opSeed ra) s)


end Sys2Proof.Machine
end

