-- ==== Sys2Proof/Machine/Sort.lean ====
section
/-!
DEFINITION. Bundle slot K: compare-exchange, maximum and minimum with index, renormalisation (spec 05 R128 to R131).
-/

namespace Sys2Proof.Machine

open Sys2Proof

/-- Direction of the pair whose lower lane is lo (05 R129). -/
def pairDesc (desc : Bool) (db lo : Nat) : Bool := if db = 7 then desc else desc.xor (lo.testBit db)

/-- Lane m ranks before lane n: the key, then the index of CXSI (05 R129). -/
def beforeK (k : KF) (desc : Bool) (idx : Option VReg) (v : VReg) (m n : Nat) : Bool :=
  if ranksBefore k desc (lane v m) (lane v n) then true
  else if ranksBefore k desc (lane v n) (lane v m) then false
  else match idx with
    | some i => decide ((lane i m).toNat < (lane i n).toNat)
    | none => false

/-- Source lane of lane l in one stage (05 R129). -/
def stageSrc (k : KF) (desc : Bool) (j db : Nat) (idx : Option VReg) (v : VReg) (l : Nat) : Nat :=
  let lo := l / 2 ^ (j + 1) * 2 ^ (j + 1) + l % 2 ^ j
  let hi := lo + 2 ^ j
  if beforeK k (pairDesc desc db lo) idx v hi lo then (if l = lo then hi else lo) else l

def opCxs (kf : KF) (desc : Bool) (vd va : BitVec 6) (j db : BitVec 3) : Op := fun s =>
  let x := rdV (archOf s) va
  putV vd 8 (lanesOf fun l => lane x (stageSrc kf desc j.toNat db.toNat none x l)) 0#8 s

/-- CXSI moves keys and indices together (05 R129). -/
def opCxsi (kf : KF) (desc : Bool) (vd va : BitVec 6) (j db : BitVec 3) : Op := fun s =>
  let a := archOf s
  let x := rdV a va
  let i := rdVN a (va.toNat + 1)
  let src := (List.range 128).map (stageSrc kf desc j.toNat db.toNat (some i) x)
  match putV vd 8 (src.map (lane x)) 0#8 s with
  | .ok s => .ok (addResult s.cur (.v (physV a (vd.toNat + 1))) (.lanes (guardOf a s.hdr) (src.map (lane i))) 0#8 8 s)
  | r => r

/-- Key l displaces key b (05 R130). -/
def betterK (k : KF) (isMax : Bool) (l b : Lane) : Bool :=
  if keyNan k l then false else if keyNan k b then true else ranksBefore k isMax l b

/-- The chosen lane among those that take part, ascending (05 R130). -/
def bestLane (k : KF) (isMax : Bool) (v : VReg) : List Nat → Option Nat → Option Nat
  | [], b => b
  | l :: ls, none => bestLane k isMax v ls (some l)
  | l :: ls, some b => bestLane k isMax v ls (some (if betterK k isMax (lane v l) (lane v b) then l else b))

/-- The result of VMAXI and VMINI (05 R130). -/
def indexed (k : KF) (isMax : Bool) (g p : Pred) (v : VReg) : Word :=
  match bestLane k isMax v ((List.range 128).filter fun l => bit g l && bit p l) none with
  | none => 128#64
  | some b =>
    let key := if keyNan k (lane v b) then nanBits (ffOf (kfFmt k)) else elemBits (kfFmt k) (lane v b)
    BitVec.ofNat 64 (key * 2 ^ 32 + b)

def mmIndex (isMax : Bool) (kf : KF) (rd va : BitVec 6) (pb : BitVec 4) : Op := fun s =>
  let a := archOf s
  putX rd 8 (indexed kf isMax (guardNow s) (rdP a pb) (rdV a va)) 0#8 s

def opVmaxi := mmIndex true
def opVmini := mmIndex false

/-- The smallest normal F32 value, below which the gate sum counts as zero (05 R131). -/
def minNormal : Fx := .fin false 1 (-126) false

/-- The lanes of one block renormalised, with the flags (05 R131). -/
def normBlock (k : KF) (n base : Nat) (win : Nat → Bool) (v : VReg) : List (Nat × BitVec 8) × BitVec 8 :=
  let f := kfFmt k
  let ls := (List.range (2 ^ n)).map (· + base)
  let w (l : Nat) : Fx := elemFx f (lane v l)
  let (sb, tfl) := tree64 ffF32 .rne n (ls.map fun l => if win l then (roundTo ffF32 (w l) .rne 0).1 else signBit ffF32)
  let sum := fxOf ffF32 sb
  let cnt := (ls.filter win).length
  let small := !isNanFx sum && cmpLt sum minNormal
  let out (l : Nat) : Nat × BitVec 8 :=
    if !win l then (0, 0#8)
    else if small then
      let (y, g) := roundTo (ffOf f) (divFx (.fin false 1 0 false) (fxOfInt cnt)).1 .rne 0
      (y, g ||| fZG)
    else
      let (q, fl) := divFx (w l) sum
      let (y, g) := roundTo (ffOf f) q .rne 0
      (y, fl ||| g)
  (ls.map out, tfl)

/-- VNORMSEL over every block; only guarded lanes raise the flags of their division (05 R131). -/
def opVnormsel (kf : KF) (vd va : BitVec 6) (pb : BitVec 4) (j : BitVec 3) : Op := fun s =>
  let a := archOf s
  let g := guardNow s
  let p := rdP a pb
  let x := rdV a va
  let n := j.toNat + 1
  let blocks := (List.range (128 / 2 ^ n)).map fun b => normBlock kf n (b * 2 ^ n) (fun l => bit g l && bit p l) x
  let outs := blocks.flatMap (·.1)
  let fl := blocks.foldl (fun f b => f ||| b.2) 0#8
  let fl := outs.foldl (fun f o => f ||| o.2) fl
  putV vd 8 (outs.map fun o => BitVec.ofNat 32 o.1) fl s

/-- `CXS` (R129) -/
def execCxs (kf : KF) (desc : Bool) (vd va : BitVec 6) (j db : BitVec 3) (s : State) : Result :=
  .next (lone (.cxs kf desc vd va j db) (opCxs kf desc vd va j db) s)

/-- `CXSI` (R129) -/
def execCxsi (kf : KF) (desc : Bool) (vd va : BitVec 6) (j db : BitVec 3) (s : State) : Result :=
  .next (lone (.cxsi kf desc vd va j db) (opCxsi kf desc vd va j db) s)

/-- `VMAXI` (R130) -/
def execVmaxi (kf : KF) (rd : BitVec 6) (va : BitVec 6) (pb : BitVec 4) (s : State) : Result :=
  .next (lone (.vmaxi kf rd va pb) (opVmaxi kf rd va pb) s)

/-- `VMINI` (R130) -/
def execVmini (kf : KF) (rd : BitVec 6) (va : BitVec 6) (pb : BitVec 4) (s : State) : Result :=
  .next (lone (.vmini kf rd va pb) (opVmini kf rd va pb) s)

/-- `VNORMSEL` (R131) -/
def execVnormsel (kf : KF) (vd va : BitVec 6) (pb : BitVec 4) (j : BitVec 3) (s : State) : Result :=
  .next (lone (.vnormsel kf vd va pb j) (opVnormsel kf vd va pb j) s)


end Sys2Proof.Machine
end

