-- ==== Sys2Proof/Machine/Access.lean ====
section
/-!
DEFINITION. Bundle slots M0 and M1: loads, stores, full/empty words, atomics, reductions, and the `.H` forms of slot E
(spec 08 R186 to R193, R213 to R217; 09 R225, R231, R233, R240).
-/

namespace Sys2Proof.Machine

open Sys2Proof

/-! Runs of lanes -/

/-- Effective address: base plus a signed offset scaled by the access size (08 R187, R188). -/
def effAddr (base : Word) (off : BitVec 6) (sz : Nat) : Word := base + sext off * BitVec.ofNat 64 sz

/-- The bytes of a scalar size (08 R187). -/
def Size.bytes : Size → Nat | .d64 => 8 | .d32 => 4 | .d16 => 2 | .d8 => 1

def ASize.bytes : ASize → Nat | .d32 => 4 | .d64 => 8

/-- Runs of adjacent active lanes: first lane and number, ascending. -/
def laneRuns (g : Pred) : List (Nat × Nat) :=
  ((List.range 128).foldl (fun (rs : List (Nat × Nat)) l =>
    if !bit g l then rs else
    match rs with
    | (a, n) :: t => if a + n = l then (a, n + 1) :: t else (l, 1) :: rs
    | [] => [(l, 1)]) []).reverse

/-- Check runs of bytes one after another (08 R186, R188). -/
def checkRuns (c : Nat) (nd : Need) (base : Word) : List (Nat × Nat) → State → Except (Nat × Word) (List Seg) × State
  | [], s => (.ok [], s)
  | (o, n) :: rs, s =>
    match checkAccess c nd (base + BitVec.ofNat 64 o) n s with
    | (.error (code, a), s) => (.error (code, BitVec.ofNat 64 a), s)
    | (.ok g, s) =>
      match checkRuns c nd base rs s with
      | (.error e, s) => (.error e, s)
      | (.ok gs, s) => (.ok (g ++ gs), s)

/-- Segments of a scalar or vector access: its byte runs from an aligned base. -/
def accessSegs (c al : Nat) (nd : Need) (base : Word) (runs : List (Nat × Nat)) (s : State) :
    Except (Nat × Word) (List Seg) × State :=
  if base.toNat % al ≠ 0 then (.error (0x07, base), s) else checkRuns c nd base runs s

/-! Loads -/

/-- Every byte stands in a scratchpad: class 9, else class 10 (02 R34). -/
def loadClass (segs : List Seg) : Nat := if segs.all fun g => isScratch g.pa then 9 else 10

/-- A load enters the load queue and its result is in flight (02 R35; 08 R187, R188; 09 R225). -/
def queueLoad (strong : Bool) (dst : Dest) (kind : LsKind) (segs : List Seg) (ep : Nat) (na : Bool) (s : State) : State :=
  let c := s.cur
  let (id, s) := addPending c dst (loadClass segs) s
  let x := getCtx s c
  enqueue c { id := id, inL := true, inS := false, strong := strong, kind := kind, segs := segs
              got := List.replicate (totalLen segs) none, ovl := heldOver x segs
              ep := ep, na := na, level := x.level, res := some id } s

def loadX (strong : Bool) (sz : Size) (ep : BitVec 2) (na : Bool) (rd ra off : BitVec 6) : Op := fun s =>
  let n := Size.bytes sz
  match accessSegs s.cur n { r := true } (effAddr (rdX (archOf s) ra) off n) [(0, n)] s with
  | (.error (code, a), _) => .trap code a
  | (.ok segs, s) => .ok (queueLoad strong (.x rd.toNat) .load segs ep.toNat na s)

/-- Byte runs of the active lanes of a vector access. -/
def vecRuns (g : Pred) (e : Nat) : List (Nat × Nat) := (laneRuns g).map fun r => (r.1 * e, r.2 * e)

def loadV (strong : Bool) (fmt : Fmt) (ep : BitVec 2) (na : Bool) (vd ra off : BitVec 6) : Op := fun s =>
  let g := guardNow s
  let e := esize fmt
  match accessSegs s.cur e { r := true, fmt := fmtVec fmt } (effAddr (rdX (archOf s) ra) off (128 * e)) (vecRuns g e) s with
  | (.error (code, a), _) => .trap code a
  | (.ok segs, s) =>
    .ok (queueLoad strong (.v (physV (archOf s) vd.toNat)) (.vload fmt g) segs ep.toNat na s)

def opLd := loadX false
def opLdS := loadX true
def opVld := loadV false
def opVldS := loadV true

/-! Stores -/

/-- Blocks of 64 bytes that the bytes of a store touch, ascending. -/
def blocksOf (bytes : List (Nat × Byte)) : List Nat := ((bytes.map fun b => b.1 / 64 * 64).eraseDups)

/-- The hold-buffer entries of a store (12 R307). -/
def heldOf (strong : Bool) (segs : List Seg) (data : List Byte) (ep : Nat) (na : Bool) : List Held :=
  let addrs := segs.flatMap fun g => (List.range g.len).map (g.va + ·)
  let bytes := addrs.zip data
  (blocksOf bytes).map fun b =>
    let mine := bytes.filter fun e => e.1 / 64 * 64 == b
    { va := b, strong := strong
      mask := BitVec.ofNat 64 (mine.foldl (fun n e => n + 2 ^ (e.1 - b)) 0)
      data := (List.range 64).map fun i => ((mine.find? fun e => e.1 == b + i).map (·.2)).getD 0#8
      segs := segs, ep := ep, na := na }

/-- A store enters the store queue, or the hold buffer while the context runs ahead (09 R225, R240; 12 R307). -/
def queueStore (strong : Bool) (kind : LsKind) (segs : List Seg) (data : List Byte) (ep : Nat) (na : Bool) (s : State) : Res :=
  let c := s.cur
  let x := getCtx s c
  if runsAhead x then
    let hs := heldOf strong segs data ep na
    if 1024 < holdCount x + hs.length then .block .huddle id
    else .ok (modCtx c (fun y => { y with hold := y.hold ++ hs }) s)
  else
    let (id, s) := nextOp c s
    .ok (enqueue c { id := id, inL := false, inS := true, strong := strong, kind := kind, segs := segs
                     data := data, ep := ep, na := na, level := x.level } s)

def storeX (strong : Bool) (sz : Size) (ep : BitVec 2) (na : Bool) (rs ra off : BitVec 6) : Op := fun s =>
  let n := Size.bytes sz
  let a := archOf s
  match accessSegs s.cur n { w := true } (effAddr (rdX a ra) off n) [(0, n)] s with
  | (.error (code, ad), _) => .trap code ad
  | (.ok segs, s) => queueStore strong .store segs (bytesOf n (rdX a rs).toNat) ep.toNat na s

def storeV (strong : Bool) (fmt : Fmt) (ep : BitVec 2) (na : Bool) (vs ra off : BitVec 6) : Op := fun s =>
  let g := guardNow s
  let e := esize fmt
  let a := archOf s
  let v := rdV a vs
  match accessSegs s.cur e { w := true, fmt := fmtVec fmt } (effAddr (rdX a ra) off (128 * e)) (vecRuns g e) s with
  | (.error (code, ad), _) => .trap code ad
  | (.ok segs, s) =>
    let data := ((List.range 128).filter (bit g)).flatMap fun l => bytesOf e (lane v l).toNat
    queueStore strong (.vstore e g) segs data ep.toNat na s

def opSt := storeX false
def opStS := storeX true
def opVst := storeV false
def opVstS := storeV true

/-! Full and empty -/

/-- The word that an LDF has read is its result (08 R191; 14 R345). -/
def ldfReads (c : Nat) (rd : BitVec 6) (g : Seg) (got : Word × Bool) (s : State) : State :=
  let (id, s) := addPending c (.x rd.toNat) 9 s
  let s := giveResult c id (nowOf s c) (.word got.1) 0#8 got.2 s
  if got.2 then deliver c (levelOf s) 0x18 0 (BitVec.ofNat 64 g.va) s else s

/-- LDF, performed at the head of both queues (08 R191; 09 R233, R234). DEDUCED, log 13. -/
def opLdf (rd ra off : BitVec 6) : Op := fun s =>
  let c := s.cur
  let d := dieOf c
  match accessSegs c 4 { r := true, kind := onlyScratch } (effAddr (rdX (archOf s) ra) off 4) [(0, 4)] s with
  | (.error (code, a), _) => .trap code a
  | (.ok segs, s) =>
    let s := drainLs c s
    match segs with
    | [] => .ok s
    | g :: _ =>
      match bankDone s c .ldf g.pa with
      | some got => .ok (ldfReads c rd g got (leaveWord true c .ldf g.pa s))
      | none =>
        if !isFull (getDie s d) g.pa || !myTurn (getDie s d) .ldf g.pa c then
          .block .watched (fun t => waitOn c .ldf g 0 (drainLs c t))
        else
          let s := modDie d (exposeFill g.pa) (leaveWord false c .ldf g.pa s)
          let (bs, po, s) := readBankOn d .ls g.pa 4 g.okey 0 false s
          .ok (ldfReads c rd g (wordOf bs, po.isSome) (modDie d (emptyWord g.pa) s))

/-- STE, performed at the head of both queues (08 R192; 09 R233). DEDUCED, log 13. -/
def opSte (rs ra off : BitVec 6) : Op := fun s =>
  let c := s.cur
  let d := dieOf c
  let a := archOf s
  match accessSegs c 4 { w := true, kind := onlyScratch } (effAddr (rdX a ra) off 4) [(0, 4)] s with
  | (.error (code, ad), _) => .trap code ad
  | (.ok segs, s) =>
    let s := drainLs c s
    match segs with
    | [] => .ok s
    | g :: _ =>
      match bankDone s c .ste g.pa with
      | some _ => .ok (leaveWord true c .ste g.pa s)
      | none =>
      if isFull (getDie s d) g.pa || !myTurn (getDie s d) .ste g.pa c then
        .block .watched (fun t => waitOn c .ste g (rdX a rs).toNat (drainLs c t))
      else
        let (id, s) := nextOp c (leaveWord false c .ste g.pa s)
        .ok (writeRunOn d .ls (opNum c id) g.pa g.okey 0 false (bytesOf 4 (rdX a rs).toNat) s)

/-! Atomics -/

/-- Page formats of a returning atomic: operations 6 and 7 are byte-moving, 8 is floating (03 R75). -/
def fmtAtomic (op n : Nat) (f : Nat) : Bool :=
  if op = 6 || op = 7 then true else if op = 8 then f == 0 || f == 1 else fmtInt n f

/-- A returning atomic: home false for the M-slot forms, true for the `.H` forms (08 R213 to R215; 09 R231). -/
def atomicX (home : Bool) (op n : Nat) (rd ra rb : BitVec 6) : Op := fun s =>
  let c := s.cur
  let a := archOf s
  let nd : Need := { r := true, w := true, fmt := fmtAtomic op n, kind := if home then noScratch else onlyScratch }
  match accessSegs c n nd (rdX a ra) [(0, n)] s with
  | (.error (code, ad), _) => .trap code ad
  | (.ok segs, s) =>
    let (id, s) := addPending c (.x rd.toNat) 11 s
    let e : LsEntry := { id := id, inL := true, inS := true, strong := true
                         kind := .atomic op (rdX a rd), segs := segs
                         data := bytesOf n (rdX a rb).toNat, level := levelOf s, res := some id }
    .ok (if home then modCtx c (fun x => { x with bk := x.bk ++ [e] }) s else enqueue c e s)

def opAadd (sz : ASize) := atomicX false 0 (ASize.bytes sz)
def opAand (sz : ASize) := atomicX false 1 (ASize.bytes sz)
def opAor (sz : ASize) := atomicX false 2 (ASize.bytes sz)
def opAxor (sz : ASize) := atomicX false 3 (ASize.bytes sz)
def opAmin (sz : ASize) := atomicX false 4 (ASize.bytes sz)
def opAmax (sz : ASize) := atomicX false 5 (ASize.bytes sz)
def opAswp (sz : ASize) := atomicX false 6 (ASize.bytes sz)
def opCas (sz : ASize) := atomicX false 7 (ASize.bytes sz)
def opAfadd := atomicX false 8 4
def opAaddH (sz : ASize) := atomicX true 0 (ASize.bytes sz)
def opAandH (sz : ASize) := atomicX true 1 (ASize.bytes sz)
def opAorH (sz : ASize) := atomicX true 2 (ASize.bytes sz)
def opAxorH (sz : ASize) := atomicX true 3 (ASize.bytes sz)
def opAminH (sz : ASize) := atomicX true 4 (ASize.bytes sz)
def opAmaxH (sz : ASize) := atomicX true 5 (ASize.bytes sz)
def opAswpH (sz : ASize) := atomicX true 6 (ASize.bytes sz)
def opCasH (sz : ASize) := atomicX true 7 (ASize.bytes sz)
def opAfaddH := atomicX true 8 4

/-- The directed address of a reduction: the segment of the old value and the barrier word (08 R216; 03 R75). -/
def directedSeg (c n : Nat) (fmt : Nat → Bool) (xv : Word) (s : State) : Except (Nat × Word) (Option (Seg × Nat)) × State :=
  if xv = 0#64 then (.ok none, s)
  else if xv.toNat % n ≠ 0 || 60 < xv.toNat % 64 + n then (.error (0x07, xv), s)
  else match checkRuns c { w := true, fmt := fmt, kind0 := onlyScratch } xv [(0, n)] s with
    | (.error e, s) => (.error e, s)
    | (.ok (g :: _), s) => (.ok (some (g, g.pa / 64 * 64 + 60)), s)
    | (.ok [], s) => (.ok none, s)

/-- ARED and ARED.H (08 R216). -/
def aredX (home : Bool) (op ra rb rv : BitVec 6) : Op := fun s =>
  let c := s.cur
  let a := archOf s
  let n := opSize op.toNat
  let nd : Need := { r := true, w := true, fmt := fmtOp op.toNat, kind := if home then noScratch else onlyScratch }
  match accessSegs c n nd (rdX a ra) [(0, n)] s with
  | (.error (code, ad), _) => .trap code ad
  | (.ok segs, s) =>
    match directedSeg c n (fmtOp op.toNat) (rdX a rv) s with
    | (.error (code, ad), _) => .trap code ad
    | (.ok dir, s) =>
      let (id, s) := nextOp c s
      let e : LsEntry := { id := id, inL := true, inS := true, strong := true
                           kind := .ared op (dir.map (·.1)) (dir.map (·.2)), segs := segs
                           data := bytesOf n (rdX a rb).toNat, level := levelOf s }
      .ok (if home then modCtx c (fun x => { x with bk := x.bk ++ [e] }) s else enqueue c e s)

def opAred := aredX false
def opAredH := aredX true

/-- `LD` (R187) -/
def execLd (sz : Size) (ep : BitVec 2) (na : Bool) (rd ra : BitVec 6) (off : BitVec 6) (s : State) : Result :=
  .next (lone (.ld sz ep na rd ra off) (opLd sz ep na rd ra off) s)

/-- `LD.S` (R187) -/
def execLdS (sz : Size) (ep : BitVec 2) (na : Bool) (rd ra : BitVec 6) (off : BitVec 6) (s : State) : Result :=
  .next (lone (.ldS sz ep na rd ra off) (opLdS sz ep na rd ra off) s)

/-- `ST` (R187) -/
def execSt (sz : Size) (ep : BitVec 2) (na : Bool) (rd ra : BitVec 6) (off : BitVec 6) (s : State) : Result :=
  .next (lone (.st sz ep na rd ra off) (opSt sz ep na rd ra off) s)

/-- `ST.S` (R187) -/
def execStS (sz : Size) (ep : BitVec 2) (na : Bool) (rd ra : BitVec 6) (off : BitVec 6) (s : State) : Result :=
  .next (lone (.stS sz ep na rd ra off) (opStS sz ep na rd ra off) s)

/-- `VLD` (R188) -/
def execVld (fmt : Fmt) (ep : BitVec 2) (na : Bool) (vd : BitVec 6) (ra : BitVec 6) (off : BitVec 6) (s : State) : Result :=
  .next (lone (.vld fmt ep na vd ra off) (opVld fmt ep na vd ra off) s)

/-- `VLD.S` (R188) -/
def execVldS (fmt : Fmt) (ep : BitVec 2) (na : Bool) (vd : BitVec 6) (ra : BitVec 6) (off : BitVec 6) (s : State) : Result :=
  .next (lone (.vldS fmt ep na vd ra off) (opVldS fmt ep na vd ra off) s)

/-- `VST` (R188) -/
def execVst (fmt : Fmt) (ep : BitVec 2) (na : Bool) (vd : BitVec 6) (ra : BitVec 6) (off : BitVec 6) (s : State) : Result :=
  .next (lone (.vst fmt ep na vd ra off) (opVst fmt ep na vd ra off) s)

/-- `VST.S` (R188) -/
def execVstS (fmt : Fmt) (ep : BitVec 2) (na : Bool) (vd : BitVec 6) (ra : BitVec 6) (off : BitVec 6) (s : State) : Result :=
  .next (lone (.vstS fmt ep na vd ra off) (opVstS fmt ep na vd ra off) s)

/-- `LDF` (R191) -/
def execLdf (rd ra : BitVec 6) (off : BitVec 6) (s : State) : Result :=
  .next (lone (.ldf rd ra off) (opLdf rd ra off) s)

/-- `STE` (R192) -/
def execSte (rd ra : BitVec 6) (off : BitVec 6) (s : State) : Result :=
  .next (lone (.ste rd ra off) (opSte rd ra off) s)

/-- `AADD` (R214) -/
def execAadd (sz : ASize) (rd ra rb : BitVec 6) (s : State) : Result :=
  .next (lone (.aadd sz rd ra rb) (opAadd sz rd ra rb) s)

/-- `AAND` (R214) -/
def execAand (sz : ASize) (rd ra rb : BitVec 6) (s : State) : Result :=
  .next (lone (.aand sz rd ra rb) (opAand sz rd ra rb) s)

/-- `AOR` (R214) -/
def execAor (sz : ASize) (rd ra rb : BitVec 6) (s : State) : Result :=
  .next (lone (.aor sz rd ra rb) (opAor sz rd ra rb) s)

/-- `AXOR` (R214) -/
def execAxor (sz : ASize) (rd ra rb : BitVec 6) (s : State) : Result :=
  .next (lone (.axor sz rd ra rb) (opAxor sz rd ra rb) s)

/-- `AMIN` (R214) -/
def execAmin (sz : ASize) (rd ra rb : BitVec 6) (s : State) : Result :=
  .next (lone (.amin sz rd ra rb) (opAmin sz rd ra rb) s)

/-- `AMAX` (R214) -/
def execAmax (sz : ASize) (rd ra rb : BitVec 6) (s : State) : Result :=
  .next (lone (.amax sz rd ra rb) (opAmax sz rd ra rb) s)

/-- `ASWP` (R214) -/
def execAswp (sz : ASize) (rd ra rb : BitVec 6) (s : State) : Result :=
  .next (lone (.aswp sz rd ra rb) (opAswp sz rd ra rb) s)

/-- `CAS` (R214) -/
def execCas (sz : ASize) (rd ra rb : BitVec 6) (s : State) : Result :=
  .next (lone (.cas sz rd ra rb) (opCas sz rd ra rb) s)

/-- `AFADD` (R214) -/
def execAfadd (rd ra rb : BitVec 6) (s : State) : Result :=
  .next (lone (.afadd rd ra rb) (opAfadd rd ra rb) s)

/-- `ARED` (R216) -/
def execAred (op : BitVec 6) (ra rb rv : BitVec 6) (s : State) : Result :=
  .next (lone (.ared op ra rb rv) (opAred op ra rb rv) s)

/-- `AADD.H` (R214) -/
def execAaddH (sz : ASize) (rd ra rb : BitVec 6) (s : State) : Result :=
  .next (lone (.aaddH sz rd ra rb) (opAaddH sz rd ra rb) s)

/-- `AAND.H` (R214) -/
def execAandH (sz : ASize) (rd ra rb : BitVec 6) (s : State) : Result :=
  .next (lone (.aandH sz rd ra rb) (opAandH sz rd ra rb) s)

/-- `AOR.H` (R214) -/
def execAorH (sz : ASize) (rd ra rb : BitVec 6) (s : State) : Result :=
  .next (lone (.aorH sz rd ra rb) (opAorH sz rd ra rb) s)

/-- `AXOR.H` (R214) -/
def execAxorH (sz : ASize) (rd ra rb : BitVec 6) (s : State) : Result :=
  .next (lone (.axorH sz rd ra rb) (opAxorH sz rd ra rb) s)

/-- `AMIN.H` (R214) -/
def execAminH (sz : ASize) (rd ra rb : BitVec 6) (s : State) : Result :=
  .next (lone (.aminH sz rd ra rb) (opAminH sz rd ra rb) s)

/-- `AMAX.H` (R214) -/
def execAmaxH (sz : ASize) (rd ra rb : BitVec 6) (s : State) : Result :=
  .next (lone (.amaxH sz rd ra rb) (opAmaxH sz rd ra rb) s)

/-- `ASWP.H` (R214) -/
def execAswpH (sz : ASize) (rd ra rb : BitVec 6) (s : State) : Result :=
  .next (lone (.aswpH sz rd ra rb) (opAswpH sz rd ra rb) s)

/-- `CAS.H` (R214) -/
def execCasH (sz : ASize) (rd ra rb : BitVec 6) (s : State) : Result :=
  .next (lone (.casH sz rd ra rb) (opCasH sz rd ra rb) s)

/-- `AFADD.H` (R214) -/
def execAfaddH (rd ra rb : BitVec 6) (s : State) : Result :=
  .next (lone (.afaddH rd ra rb) (opAfaddH rd ra rb) s)

/-- `ARED.H` (R216) -/
def execAredH (op : BitVec 6) (ra rb rv : BitVec 6) (s : State) : Result :=
  .next (lone (.aredH op ra rb rv) (opAredH op ra rb rv) s)


end Sys2Proof.Machine
end

