-- ==== Sys2Proof/Machine/Memory.lean ====
section
/-!
DEFINITION. Bundle slots M0 and M1: the basin (PREFT, PIN, UNPIN, PHASE), the ordering instructions and RBREL;
copy descriptors, completion tags and the route table as the engine slots use them
(spec 08 R194 to R208; 09 R226 to R230; 11 R265).
-/

namespace Sys2Proof.Machine

open Sys2Proof

/-! Descriptors -/

/-- The fields of a 64-byte copy descriptor (08 R201). -/
def descOf (n : Nat) : Desc :=
  { base := BitVec.ofNat 64 (nbits n 0 64), run := nbits n 128 16, rb := nbits n 167 1 == 1, ring := nbits n 160 5
    dims := (List.range 6).map fun d => (signedN 40 (nbits n (184 + 56 * d) 40), nbits n (168 + 56 * d) 16) }

/-- A descriptor is valid in its role (08 R201, R202); BASE is ignored where RB = 1, and a RING
that is not zero where RB = 0 makes it invalid (R201). DEDUCED, log 27. -/
def descOk (dest : Bool) (n : Nat) : Bool :=
  let q := descOf n
  nbits n 504 8 == 0 && nbits n 64 64 == 0 && nbits n 144 16 == 0 && nbits n 165 2 == 0 && (q.rb || q.ring == 0)
    && (!q.rb || dest) && q.run != 0 && q.run % 4 == 0 && (q.rb || q.base.toNat % 4 == 0)
    && q.dims.all fun e => e.2 != 0 && e.1 % 4 == 0

/-- The length of a descriptor's stream (08 R202). -/
def descLen (q : Desc) : Nat := q.dims.foldl (fun n e => n * e.2) q.run

/-- The offset that run i of a stream adds to BASE, dimension 0 innermost (08 R202). -/
def runOffset : Nat → List (Int × Nat) → Int
  | _, [] => 0
  | i, (st, n) :: ds => ((i % n : Nat) : Int) * st + runOffset (i / n) ds

/-- The address of byte n of a stream (08 R202). -/
def streamAddr (q : Desc) (n : Nat) : Word :=
  q.base + BitVec.ofInt 64 (runOffset (n / q.run) q.dims + ((n % q.run : Nat) : Int))

/-- Bytes left in the run that holds byte n of a stream. -/
def runLeft (q : Desc) (n : Nat) : Nat := q.run - n % q.run

/-- The pages of a descriptor in the scratchpad, checked as a strong read (08 R200, R204). -/
def descSegs (al : Nat) (va : Word) (s : State) : Except (Nat × Word) (List Seg) × State :=
  checkAt al { r := true, kind := onlyScratch } va 64 s

/-- The strong LS read of a descriptor behind the accesses issued before it: its bytes, or the address of a poisoned
granule (09 R226; 14 R345).
DEDUCED, log 90. -/
def descRead (segs : List Seg) (s : State) : Except Nat Nat × State :=
  let c := s.cur
  let s := drainLs c s
  let (bs, po, s) := readSegsBy 64 (dieOf c) .ls 0 false segs s
  match po with
  | some g => (.error (vaOf segs g), s)
  | none => (.ok (natOf bs), s)

/-- A command whose descriptor is poisoned starts nothing: the fault is delivered, and the bundle waits while there is no
room for it (14 R329, R345).
DEDUCED, log 26. -/
def descPoison (tag : Option (BitVec 6)) (addr : Nat) : Op := fun s =>
  let c := s.cur
  if tag.any fun t => !bit s.flow.tags0 t.toNat then .trap 0x0A 0#64
  else if !canDeliver s c (levelOf s) then .stall
  else .ok (deliver c (levelOf s) 0x18 0 (BitVec.ofNat 64 addr) s)

/-- The tag that an operation names is not in flight before the bundle (02 R45; 08 R205). -/
def tagFree (t : BitVec 6) (s : State) : Bool := bit s.flow.tags0 t.toNat

/-- The active commands of a copy unit, 64 at most, prefetches among them (08 R200, R204). -/
def copyCount (k : Core) : Nat := k.copies.length

/-- PREFT: the checks in the order of R200, then the prefetch starts. -/
def opPreft (tag ra off : BitVec 6) (ep : BitVec 2) : Op := fun s =>
  if 64 ≤ copyCount (getCore s (coreOf s.cur)) then .block .watched id else
  match descSegs 64 (effAddr (rdX (archOf s) ra) off 64) s with
  | (.error (code, a), _) => .trap code a
  | (.ok segs, s) =>
    match descRead segs s with
    | (.error a, s) => descPoison (some tag) a s
    | (.ok n, s) =>
      if !descOk false n then .trap 0x01 0#64
      else if !tagFree tag s then .trap 0x0A 0#64
      else
        let c := s.cur
        let (id, s) := nextOp c (startTag c tag.toNat s)
        .ok (modCore (coreOf c) (fun k => { k with copies := k.copies ++
          [{ id := id, ctx := c, kind := 3, tag := tag.toNat, level := levelOf s, dst := descOf n, src := descOf n
             ep := ep.toNat }] }) s)

/-! Windows and direct storage -/

/-- Bytes that a context pins in a slice (08 R198). -/
def ctxPinned (x : Ctx) (sl : Nat) : Nat :=
  (x.pins.filter (·.isOpen)).foldl (fun n w => n + winLinesIn w sl * 128) 0

/-- Bytes that the contexts of a region's subtree pin in a slice (10 R246). -/
def pinnedBy (s : State) (d r sl : Nat) : Nat :=
  (recordsOf s d).foldl (fun n e => if inSubtree (getDie s d) r e.1 then n + ctxPinned e.2 sl else n) 0

/-- Bytes that all records of the die pin in a slice. -/
def pinnedAll (s : State) (d sl : Nat) : Nat := (recordsOf s d).foldl (fun n e => n + ctxPinned e.2 sl) 0

/-- Direct bytes of a slice that are charged in a region's subtree (08 R194; 10 R246). -/
def directBy (s : State) (d r sl : Nat) : Nat :=
  let x := (getDie s d).slices.getD sl {}
  if directSteps x = 0 then 0 else if inSubtree (getDie s d) r x.owner then directSteps x * 262144 else 0

/-- The cache part of a slice in bytes (08 R194). -/
def cacheBytes (s : State) (d sl : Nat) : Nat := (8 - directSteps ((getDie s d).slices.getD sl {})) * 262144

/-- A window's lines with the region's pins and direct bytes in a slice (08 R198). -/
def pinSum (s : State) (d r : Nat) (w : PinWin) (sl : Nat) : Nat := winLinesIn w sl * 128 + pinnedBy s d r sl + directBy s d r sl

/-- A window's lines fit the budgets of the region and its ancestors and the cache part of a slice (08 R198; 10 R246). -/
def pinFits (s : State) (d rid : Nat) (w : PinWin) (sl : Nat) : Bool :=
  (ancestry (getDie s d) rid).all (fun r => decide (pinSum s d r w sl ≤ effPinb (getDie s d) r)) &&
  decide (pinSum s d rid w sl ≤ cacheBytes s d sl)

/-- PIN opens a window and charges its bytes (08 R198). -/
def opPin (win : BitVec 3) (ra rb : BitVec 6) : Op := fun s =>
  let c := s.cur
  let d := dieOf c
  let a := archOf s
  let w : PinWin := { isOpen := true, start := rdX a ra, len := rdXN a (ra.toNat + 1), mask := rdX a rb, age := (getDie s d).pinSeq + 1 }
  if w.start.toNat % 128 ≠ 0 then .trap 0x07 w.start
  else if w.len.toNat % 128 ≠ 0 || w.len == 0#64 then .trap 0x07 w.start
  else if w.mask == 0#64 || ((getCtx s c).pins.getD win.toNat {}).isOpen then .trap 0x01 0#64
  else if !(slicesOf w.mask).all (pinFits s d (ridOf s c) w) then .trap 0x1A 0#64
  else .ok (modDie d (fun x => { x with pinSeq := x.pinSeq + 1 }) (modCtx c (fun x => { x with pins := x.pins.set win.toNat w }) s))

def opUnpin (win : BitVec 3) : Op := fun s => .ok (closePin s.cur win.toNat s)

/-- New direct steps of a slice fit the budgets, and its pins fit the cache part that is left (08 R195). -/
def phaseFits (s : State) (d rid n sl : Nat) : Bool :=
  (ancestry (getDie s d) rid).all (fun r =>
    decide (n * 262144 + pinnedBy s d r sl ≤ effPinb (getDie s d) r)) &&
  decide (pinnedAll s d sl ≤ (8 - n) * 262144)

/-- Lines beyond the cache part of a slice are written back and dropped (08 R196, R197). -/
def shrink (sl : Nat) : Nat → Die → Die
  | 0, d => d
  | n + 1, d =>
    let held := (d.basin.filter fun b => b.slice == sl).length
    if held ≤ cacheLines (d.slices.getD sl {}) then d else
    match victim d sl with
    | some v => shrink sl n (evict v.line d)
    | none => d

/-- A slice begins a drain to n direct steps that ends in a cycle (08 R195, R196). DEDUCED, log 25. -/
def startDrain (n till rid sl : Nat) (d : Die) : Die :=
  let d := { d with slices := d.slices.modify sl fun x =>
    { x with owner := if x.direct = n then x.owner else rid, drain := some (n, till) } }
  shrink sl (d.basin.filter fun b => b.slice == sl).length d

/-- PHASE: the checks in the order of R195; a slice that drains stalls the core (08 R196) after the check of the operands
and before those of the slices.
DEDUCED, log 25. DESIGN CHOICE, log 101. -/
def opPhase (ra rb : BitVec 6) : Op := fun s =>
  let c := s.cur
  let d := dieOf c
  let a := archOf s
  let xa := rdX a ra
  let xb := rdX a rb
  let n := bitsN xb 3 0
  let rid := ridOf s c
  let named := slicesOf xa
  let slice (i : Nat) : Slice := (getDie s d).slices.getD i {}
  let changing := named.filter fun i => (slice i).direct != n
  if 8 < n || bitsN xb 63 4 ≠ 0 || xa == 0#64 then .trap 0x01 0#64
  else if named.any fun i => (slice i).drain.isSome then .stall
  else if changing.any fun i => (slice i).direct != 0 && (slice i).owner != rid then .trap 0x05 0#64
  else if !named.all (phaseFits s d rid n) then .trap 0x1A 0#64
  else
    let m := named.foldl (fun m i => max m (max n (slice i).direct - min n (slice i).direct)) 0
    let till := (getDie s d).clock + 1 + 1024 + 2048 * m
    .ok (modDie d (fun x => named.foldl (fun y i => startDrain n till rid i y) x) s)

/-! The route table -/

/-- The entry of a rank in the table in force on a die (11 R265). -/
def routeOf (d : Die) (top rank : Nat) : Word := ((region? d top).map fun g => g.routes.getD rank 0#64).getD 0#64

def rtValid (e : Word) : Bool := bit e 47
def rtDrid (e : Word) : Nat := bitsN e 43 32
def rtPkg (e : Word) : Nat := bitsN e 31 24
def rtDie (e : Word) : Nat := bitsN e 17 16
def rtPlane (e : Word) : Nat := bitsN e 15 10
def rtLocal (e : Word) : Bool := bit e 9
def rtPhase (e : Word) : Nat := bitsN e 7 0

/-- The valid entry of a group on a die (12 R288). -/
def group? (d : Die) (top gid : Nat) : Option Group :=
  (region? d top).bind fun g => g.groups.find? fun e => e.gid == gid && e.valid

/-- The rank of a member of a group. -/
def memberRank (d : Die) (top gid i : Nat) : Nat := ((group? d top gid).map fun g => g.ranks.getD i 0).getD 0

/-! Ordering -/

def opQalign : Op := fun s => .ok (placeMarker s.cur .qalign s)

/-- The collectives that a context has issued and that have not ended. -/
def collsOf (s : State) (c : Nat) : List Coll := (getDie s (dieOf c)).colls.filter fun q => q.ctx == c && !q.ended

/-- The fabric commands and collectives of a context that a fence of a scope waits for, each with whether it is waited for
only in what it does within the package (09 R229).
DEDUCED, log 23. -/
def fenced (s : State) (c : Nat) (all : Bool) : List (Nat × Bool) :=
  let d := getDie s (dieOf c)
  let mine := (getCtx s c).fb.filter fun f => decide (f.kind < 6) && f.kind != 1 &&
    (all || rtLocal (routeOf d (domOf s c) f.rank))
  mine.map (fun f => (f.id, false)) ++ (collsOf s c).map fun q => (q.id, !all)

/-- What a collective still has to write: at every rank, or at ranks of this package only (09 R229; 12 R294). -/
def collOwes (d : Die) (q : Coll) (here : Bool) : Bool :=
  !q.started || !here || q.entries.any fun e => !e.acked && rtLocal (routeOf d q.top (memberRank d q.top q.gid e.peer))

/-- A command that a fence names has not yet been performed. -/
def stillOwed (s : State) (c : Nat) (n : Nat × Bool) : Bool :=
  ((getCtx s c).fb.any fun f => f.id == n.1) || (collsOf s c).any fun q => q.id == n.1 && collOwes (getDie s (dieOf c)) q n.2

/-- A fabric access held by a fence may leave now (09 R229). DEDUCED, log 23. -/
def fencePassed (s : State) (c : Nat) (after : List (Nat × Bool)) : Bool := after.all fun n => !stillOwed s c n

/-- FENCE: a marker in both LS queues; PKG and GRP hold back later fabric accesses (09 R229). -/
def opFence (sc : Scope) : Op := fun s =>
  let c := s.cur
  let s := placeMarker c .fence s
  let hold (all : Bool) : State := modCtx c (fun x => { x with fbFence := (x.fbFence ++ fenced s c all).eraseDups }) s
  .ok (match sc with | .pkg => hold false | .grp => hold true | _ => s)

/-- A window of a context still fetches lines (08 R198). -/
def fetching (x : Ctx) : Bool := x.pins.any fun w => w.isOpen && decide (128 * w.next < w.len.toNat)

/-- Accesses of this context on a path have not been performed: engine commands that have not completed, at either level;
on CP the lines of its windows and its checkpoint commands too (09 R220, R230; 14 R348). -/
def pathBusy (s : State) (c : Nat) : Path → Bool
  | .ls | .bk => false
  | .cp => ((getCore s (coreOf c)).copies.any fun m => m.ctx == c) || fetching (getCtx s c) ||
           (getDie s (dieOf c)).ckpts.any fun q => q.ctx == c
  | .mx => !(getCtx s c).mx.cmds.isEmpty
  | .sv => (getDie s (dieOf c)).eddy.any fun e => e.ctx == c
  | .fb => ((getCtx s c).fb.any fun f => decide (f.kind < 6)) || !(collsOf s c).isEmpty

/-- Perform what a context has on the LS or the BK path (09 R230). DEDUCED, log 24. -/
def drainPath (c : Nat) (p : Path) (s : State) : State :=
  match p with
  | .ls => drainLs c s
  | .bk => foldS (fun _ s => bkPerform c s) (getCtx s c).bk s
  | _ => s

/-- XFENCE: both conditions of R230; the context waits for its commands on the first path. It is an order point of the LS
queues (09 R223).
DEDUCED, log 24. -/
def opXfence (pf pt : Path) : Op := fun s =>
  let c := s.cur
  let s := drainPath c pf s
  if pathBusy s c pf then .block .watched id
  else .ok (modDie (dieOf c) (exposeTo pf pt) (orderPoint c s))

/-! Rings -/

/-- RBREL: the slot at RPTR is given back; the counters have 32 bits (08 R207, R208). -/
def opRbrel (ring : BitVec 5) : Op := fun s =>
  let k := coreOf s.cur
  let r := (getCore s k).rings.getD ring.toNat {}
  if r.wptr = r.rptr then .trap 0x0A 0#64
  else .ok (modCore k (fun q => { q with rings := q.rings.modify ring.toNat fun r => { r with rptr := (r.rptr + 1) % 2 ^ 32 } }) s)

/-- `PREFT` (R200) -/
def execPreft (tag : BitVec 6) (ra : BitVec 6) (off : BitVec 6) (ep : BitVec 2) (s : State) : Result :=
  .next (lone (.preft tag ra off ep) (opPreft tag ra off ep) s)

/-- `PIN` (R198) -/
def execPin (win : BitVec 3) (ra rb : BitVec 6) (s : State) : Result :=
  .next (lone (.pin win ra rb) (opPin win ra rb) s)

/-- `UNPIN` (R199) -/
def execUnpin (win : BitVec 3) (s : State) : Result :=
  .next (lone (.unpin win) (opUnpin win) s)

/-- `PHASE` (R195) -/
def execPhase (ra rb : BitVec 6) (s : State) : Result :=
  .next (lone (.phase ra rb) (opPhase ra rb) s)

/-- `QALIGN` (R228) -/
def execQalign (s : State) : Result :=
  .next (lone (.qalign) opQalign s)

/-- `FENCE.scope` (R229) -/
def execFence (sc : Scope) (s : State) : Result :=
  .next (lone (.fence sc) (opFence sc) s)

/-- `XFENCE` (R230) -/
def execXfence (pf pt : Path) (s : State) : Result :=
  .next (lone (.xfence pf pt) (opXfence pf pt) s)

/-- `RBREL` (R208) -/
def execRbrel (ring : BitVec 5) (s : State) : Result :=
  .next (lone (.rbrel ring) (opRbrel ring) s)


end Sys2Proof.Machine
end

