-- ==== Sys2Proof/Machine/Address.lean ====
section
/-!
DEFINITION. Bundle slot A: the loop unit, address registers, the scale table (spec 04 R111 to R119; 06 R143).
-/

namespace Sys2Proof.Machine

open Sys2Proof

/-- A new level may be pushed (04 R112, R117). -/
def levelFree (a : Arch) : Bool := decide (a.loops.length < 4) && !inReplay a

/-- The exit of a loop: PC of the bundle plus the offset. -/
def exitOf (a : Arch) (imm : BitVec 14) : Nat := a.pc + imm.toNat

/-- LOOP: a zero count continues at the exit (04 R112). DEDUCED, log 11. -/
def opLoop (ra : BitVec 6) (imm : BitVec 14) : Op := fun s =>
  let a := archOf s
  let n := (rdX a ra).toNat
  if n = 0 then .ok (setFlow (fun f => { f with nextPc := exitOf a imm }) s)
  else if !levelFree a then .trap 0x01 0#64
  else .ok (modArch s.cur (fun b => { b with loops := b.loops ++
    [{ kind := .loop, count := n, start := s.flow.nextPc, exit := exitOf a imm }] }) s)

/-- The predicates at the start of a replay: p8 is set, p9 to p15 are clear (04 R117). -/
def replayPreds (a : Arch) : Arch :=
  let keep (d : Dest) : Bool := match d with | .p n => decide (n < 8) | _ => true
  { a with p := a.p.take 8 ++ pall :: List.replicate 7 0#128, poisoned := a.poisoned.filter keep }

/-- REPLAY (04 R117). DEDUCED, log 11. -/
def opReplay (st : BitVec 4) (ra : BitVec 6) (imm : BitVec 14) : Op := fun s =>
  let a := archOf s
  let n := (rdX a ra).toNat
  if n = 0 then .ok (setFlow (fun f => { f with nextPc := exitOf a imm }) s)
  else if !levelFree a then .trap 0x01 0#64
  else .ok (modArch s.cur (fun b => replayPreds { b with rotBase := 0, loops := b.loops ++
    [{ kind := .replay, count := n, start := s.flow.nextPc, exit := exitOf a imm, stages := st.toNat + 1 }] }) s)

/-- A write to the parts of an address register, class 12 (04 R115). -/
def putA (ad : BitVec 4) (addr stride : Option Word) (lvl : Option (BitVec 3)) (s : State) : State :=
  addResult s.cur (.a ad.toNat) (.areg addr stride lvl) 0#8 12 s

def opAset (ad : BitVec 4) (ra : BitVec 6) (imm : BitVec 14) : Op := fun s =>
  .ok (putA ad (some (rdX (archOf s) ra + sext imm)) none none s)

def opAstr (ad : BitVec 4) (ra : BitVec 6) (lvl : BitVec 3) : Op := fun s =>
  .ok (putA ad none (some (rdX (archOf s) ra)) (some lvl) s)

/-- AINC: ADDR goes to a scalar register and steps by the stride n times (04 R115). -/
def opAinc (rd : BitVec 6) (ad : BitVec 4) (imm : BitVec 14) : Op := fun s =>
  let r := rdA (archOf s) ad
  putX rd 12 r.addr 0#8 (putA ad (some (r.addr + r.stride * sext imm)) none none s)

/-- Byte k of a word. -/
def byteAt (w : Word) (k : Nat) : Byte := BitVec.ofNat 8 (w.toNat / 256 ^ k)

/-- SCL: entries e to e+c-1 of the core's scale table (06 R143). -/
def opScl (e : BitVec 4) (ra : BitVec 6) (c : BitVec 3) : Op := fun s =>
  let v := rdX (archOf s) ra
  let load (t : List Byte) : List Byte :=
    (List.range (c.toNat + 1)).foldl (fun t i => t.set (e.toNat + i) (byteAt v i)) t
  .ok (modCore (coreOf s.cur) (fun k => { k with scale := load k.scale }) s)

/-- `LOOP` (R112) -/
def execLoop (ra : BitVec 6) (imm : BitVec 14) (s : State) : Result :=
  .next (lone (.loop ra imm) (opLoop ra imm) s)

/-- `REPLAY` (R117) -/
def execReplay (s : BitVec 4) (ra : BitVec 6) (imm : BitVec 14) (st : State) : Result :=
  .next (lone (.replay s ra imm) (opReplay s ra imm) st)

/-- `ASET` (R115) -/
def execAset (ad : BitVec 4) (ra : BitVec 6) (imm : BitVec 14) (s : State) : Result :=
  .next (lone (.aset ad ra imm) (opAset ad ra imm) s)

/-- `AINC` (R115) -/
def execAinc (rd : BitVec 6) (ad : BitVec 4) (imm : BitVec 14) (s : State) : Result :=
  .next (lone (.ainc rd ad imm) (opAinc rd ad imm) s)

/-- `ASTR` (R115) -/
def execAstr (ad : BitVec 4) (ra : BitVec 6) (lvl : BitVec 3) (s : State) : Result :=
  .next (lone (.astr ad ra lvl) (opAstr ad ra lvl) s)

/-- `SCL` (R143) -/
def execScl (e : BitVec 4) (ra : BitVec 6) (c : BitVec 3) (s : State) : Result :=
  .next (lone (.scl e ra c) (opScl e ra c) s)


end Sys2Proof.Machine
end

