-- ==== Sys2Proof/Machine/Sha3.lean ====
section
/-!
DEFINITION. SHA3-384, by which the measurement registers are extended (spec 15 R354). PRESUMED, log 109: the manual names
the function and does not print it.
-/

namespace Sys2Proof.Machine

open Sys2Proof

/-- Lane x + 5y of a state of 25 lanes. -/
def klane (a : List Word) (x y : Nat) : Word := a.getD (x % 5 + 5 * (y % 5)) 0#64

/-- Lanes computed from their coordinates. -/
def lanesBy (f : Nat → Nat → Word) : List Word := (List.range 25).map fun i => f (i % 5) (i / 5)

/-- The offsets by which lanes are rotated. -/
def rotOffsets : List Nat := [0, 1, 62, 28, 27, 36, 44, 6, 55, 20, 3, 10, 43, 25, 39, 41, 45, 15, 21, 8, 18, 2, 61, 56, 14]

/-- The constants of the 24 rounds. -/
def roundConsts : List Word :=
  [0x0000000000000001#64, 0x0000000000008082#64, 0x800000000000808A#64, 0x8000000080008000#64, 0x000000000000808B#64,
   0x0000000080000001#64, 0x8000000080008081#64, 0x8000000000008009#64, 0x000000000000008A#64, 0x0000000000000088#64,
   0x0000000080008009#64, 0x000000008000000A#64] ++
  [0x000000008000808B#64, 0x800000000000008B#64, 0x8000000000008089#64, 0x8000000000008003#64, 0x8000000000008002#64,
   0x8000000000000080#64, 0x000000000000800A#64, 0x800000008000000A#64, 0x8000000080008081#64, 0x8000000000008080#64,
   0x0000000080000001#64, 0x8000000080008008#64]

/-- One round of the permutation. -/
def keccakRound (a : List Word) (rc : Word) : List Word :=
  let c := (List.range 5).map fun x => klane a x 0 ^^^ klane a x 1 ^^^ klane a x 2 ^^^ klane a x 3 ^^^ klane a x 4
  let d (x : Nat) : Word := c.getD ((x + 4) % 5) 0#64 ^^^ (c.getD ((x + 1) % 5) 0#64).rotateLeft 1
  let t := lanesBy fun x y => (klane a x y ^^^ d x).rotateLeft (rotOffsets.getD (x + 5 * y) 0)
  let b := lanesBy fun x y => klane t (x + 3 * y) x
  (lanesBy fun x y => klane b x y ^^^ (~~~(klane b (x + 1) y) &&& klane b (x + 2) y)).modify 0 (· ^^^ rc)

/-- The permutation of the 25 lanes. -/
def keccak (a : List Word) : List Word := roundConsts.foldl keccakRound a

/-- Bytes absorbed in one application of the permutation. -/
def sha3Rate : Nat := 104

/-- A message with its padding. -/
def padded (m : List Byte) : List Byte :=
  let n := sha3Rate - m.length % sha3Rate
  m ++ (if n = 1 then [0x86#8] else 0x06#8 :: (List.replicate (n - 2) 0#8 ++ [0x80#8]))

/-- Absorb a number of blocks. -/
def absorb : Nat → List Byte → List Word → List Word
  | 0, _, a => a
  | n + 1, m, a =>
    absorb n (m.drop sha3Rate) (keccak (a.zipIdx.map fun w =>
      if w.2 < 13 then w.1 ^^^ BitVec.ofNat 64 (natOf ((m.drop (8 * w.2)).take 8)) else w.1))

/-- The SHA3-384 digest of a byte string: 48 bytes, the first the least significant. -/
def sha3 (m : List Byte) : BitVec 384 :=
  let p := padded m
  BitVec.ofNat 384 (natOf (((absorb (p.length / sha3Rate) p (List.replicate 25 0#64)).take 6).flatMap fun w => bytesOf 8 w.toNat))

end Sys2Proof.Machine
end

