-- ==== Sys2Proof/Machine/Attach.lean ====
section
/-!
DEFINITION. The queues, doorbells and vectors of the host link (spec 15 R356 to R358, R360).
-/

namespace Sys2Proof.Machine

open Sys2Proof

/-- Firmware runs and accepts requests (15 R356 FWUP). -/
def fwUp (s : State) : Bool := bit s.bootstat 0

/-- A queue size that the rule allows: 2^4 to 2^16 entries (15 R356). -/
def queueSizeOk (w : Word) : Bool := (List.range 13).any fun n => w.toNat == 2 ^ (n + 4)

/-- The next index of a queue. DEDUCED, log 64. -/
def nextIndex (size i : Word) : Word := BitVec.ofNat 64 ((i.toNat + 1) % size.toNat)

/-- The host's queue holds a request that can be taken (15 R356). DEDUCED, log 64. -/
def hostWaits (s : State) : Bool := s.hqprod != s.hqcons && queueSizeOk s.hqsize && queueSizeOk s.cqsize

/-- A vector of the endpoint is raised (15 R356). -/
def raiseMsix (n : Nat) (s : State) : State := { s with msix := s.msix ++ [n] }

/-- Bytes go to host memory (15 R356). -/
def dmaWrite (a : Word) (bs : List Byte) (s : State) : State := if bs.isEmpty then s else { s with dma := s.dma ++ [(a, bs)] }

/-- A host event (15 R360): 1 throttle, 2 trip, 3 relock failure, on vector 1. DESIGN CHOICE, log 45. -/
def hostEvent (n : Nat) (s : State) : State := raiseMsix 1 { s with hostEvents := s.hostEvents ++ [n] }

/-- The 16 bytes of a completion (15 R357). -/
def completionBytes (tag status : Nat) (result : Word) : List Byte := bytesOf 8 (tag % 65536 + status * 65536) ++ bytesOf 8 result.toNat

/-- A request of the host is complete: what it reports goes to PTR, its entry to the completion queue, vector 0 is raised
(15 R357, R358). DEDUCED, log 64. -/
def writeCompletion (q : Req) (status : Nat) (result : Word) (report : List Byte) (s : State) : State :=
  let s := dmaWrite q.ptr report s
  let s := dmaWrite (s.cqbase + BitVec.ofNat 64 (16 * s.cqprod.toNat)) (completionBytes q.tag status result) s
  raiseMsix 0 { s with
    hqcons := nextIndex s.hqsize s.hqcons
    cqprod := nextIndex s.cqsize s.cqprod
    completions := s.completions ++ [{ sup := none, tag := q.tag, status := status, result := result, report := report }] }

/-- A route table of the host is installed: its request is complete (11 R266; 15 R358). DEDUCED, log 65. -/
def finishRoutes (s : State) : State :=
  match s.openReq with
  | none => s
  | some q =>
    if ((region? (getDie s q.die) q.rid).bind (·.nextRoutes)).isSome then s
    else writeCompletion q 0 0#64 [] { s with openReq := none }

end Sys2Proof.Machine
end

