-- ==== Sys2Proof/Machine/Matrix.lean ====
section
/-!
DEFINITION. The matrix engine: allocation, command queues, line fetches and their faults, the products, drains and
pops, the matrix save area (spec 06 R136 to R168; 03 R71, R72, R75, R87).
-/

namespace Sys2Proof.Machine

open Sys2Proof

/-! Issue -/

/-- The engine still has commands of the context to run that no suspended one holds back. -/
def mxRunning (x : Ctx) : Bool := !x.mx.cmds.isEmpty && !mxSuspended x

/-- Flags of the K-steps that a state's suspended command has done (06 R142). -/
def runFlags (m : MxState) : BitVec 8 := (m.run.map (·.flags)).getD 0#8

/-- A handler's first matrix instruction: the automatic save, then an empty matrix state (06 R160). -/
def autoSave (k : Op) : Op := fun s =>
  let c := s.cur
  let x := getCtx s c
  if !mxInterrupted x then k s
  else if mxRunning x then .block .watched id
  else match writeParts c .mx { w := true } (x.savearea + 90112#64) (mxParts x.mx) s with
    | .error (code, a) => .trap code a
    | .ok s =>
      let s := poisonPlaces c (x.savearea + 90112#64) (mxBad x.mx) s
      let s := modCtx c (fun x => { x with mxTouched := true, mxSaved := true, mxFlags0 := runFlags x.mx }) s
      let s := releaseMx c s
      match k s with
      | .block b reg => .block b fun _ => reg s
      | r => r

/-- A command enters its queue with the registers it names and the scale table; a full queue blocks (06 R140).
DEDUCED, log 15. -/
def withRoom (k : Op) : Op := autoSave fun s =>
  if 8 ≤ (getCtx s s.cur).mx.cmds.length then .block .watched id else k s

/-- Queue a matrix command (06 R140). -/
def queueMx (m : MxCmd) (s : State) : Res :=
  let m := { m with scale := (getCore s (coreOf s.cur)).scale }
  .ok (setFlow (fun f => { f with mxOwn := f.mxOwn + 1 })
    (modCtx s.cur (fun x => { x with mx := { x.mx with cmds := x.mx.cmds ++ [m] } }) s))

/-- Tiles of the allocation (06 R139). -/
def tileCount (s : State) : Nat := (getCtx s s.cur).mx.tiles.length

/-- V, the count of valid A rows, at most n (06 R144, R148). -/
def validRows (x1 : Word) (n : Nat) : Nat := min (bitsN x1 63 48) n

/-- Dense operands: address and stride are multiples of the element size (06 R145). -/
def denseAligned (sz : Nat) (x0 x1 : Word) : Bool := x0.toNat % sz == 0 && bitsN x1 47 0 % sz == 0

/-- Bytes of a frame of blocks of m-bit mantissas (03 R72). -/
def frameBytes (m : Nat) : Nat := 32 * m + 4

/-- An address is the start of a frame of its page, as far as the page's format is known (03 R72; 06 R146). -/
def frameStart (s : State) (c : Nat) (a : Word) : Bool :=
  match (lookup (tlbOf c) s (dieOf c) (domOf s c) a.toNat).1 with
  | .ok lf =>
    let m := sbWidth (leafFormat lf.entry)
    let o := a.toNat - lf.vbase
    m == 0 || (o % frameBytes m == 0 && decide (o / frameBytes m < lf.size / frameBytes m))
  | .error _ => true

/-- The alignment check of an operand of MMA or MMR: n lines (06 R145, R146). -/
def operandAligned (s : State) (m : MxCmd) (opnd : Bool) (n : Nat) : Bool :=
  match m.instr with
  | .mma .sb .. | .mmr .sb .. => (List.range n).all fun l => frameStart s s.cur (lineAddr m opnd 0 l)
  | _ => if opnd then denseAligned 2 m.xb0 m.xb1 else denseAligned 2 m.xa0 m.xa1

/-- The registers that a product captures (06 R140). -/
def productCmd (i : Instr) (ra rb : BitVec 6) (a : Arch) : MxCmd :=
  { instr := i, xa0 := rdX a ra, xa1 := rdXN a (ra.toNat + 1), xb0 := rdX a rb, xb1 := rdXN a (rb.toNat + 1) }

def opMma (mf : MF) (td : BitVec 4) (ra rb : BitVec 6) (n : BitVec 4) : Op := withRoom fun s =>
  let m := productCmd (.mma mf td ra rb n) ra rb (archOf s)
  if tileCount s ≤ td.toNat then .trap 0x01 0#64
  else if !operandAligned s m false (validRows m.xa1 64) then .trap 0x07 m.xa0
  else if !operandAligned s m true 64 then .trap 0x07 m.xb0
  else queueMx m s

def opMmr (mf : MF) (mode : MMode) (td : BitVec 4) (ra rb : BitVec 6) : Op := withRoom fun s =>
  let m := productCmd (.mmr mf mode td ra rb) ra rb (archOf s)
  if tileCount s < td.toNat + 4 then .trap 0x01 0#64
  else if mf == .sb && mode != .classical then .trap 0x0E m.xa0
  else if !operandAligned s m false (validRows m.xa1 128) then .trap 0x07 m.xa0
  else if !operandAligned s m true 128 then .trap 0x07 m.xb0
  else queueMx m s

def opMload (td : BitVec 4) (ra : BitVec 6) : Op := withRoom fun s =>
  let a := archOf s
  let m : MxCmd := { instr := .mload td ra, xa0 := rdX a ra, xa1 := rdXN a (ra.toNat + 1) }
  if tileCount s ≤ td.toNat then .trap 0x01 0#64
  else if !denseAligned 4 m.xa0 m.xa1 then .trap 0x07 m.xa0
  else queueMx m s

def opMzero (td n : BitVec 4) : Op := withRoom fun s =>
  if tileCount s < td.toNat + n.toNat + 1 then .trap 0x01 0#64
  else queueMx { instr := .mzero td n } s

/-- The format of an entry. -/
def newEntry (of_ : OFmt) : QEntry := { fmt := of_, elems := [], ready := false }

/-- MDRAIN: its entry counts from issue (06 R157). -/
def opMdrain (of_ : OFmt) (clr : Bool) (q : BitVec 3) (td : BitVec 4) : Op := withRoom fun s =>
  let x := getCtx s s.cur
  let es := x.mx.queues.getD q.toNat []
  if tileCount s ≤ td.toNat || decide (x.mx.queues.length ≤ q.toNat) then .trap 0x01 0#64
  else if 4 ≤ es.length then .trap 0x08 0#64
  else queueMx { instr := .mdrain of_ clr q td }
    (modCtx s.cur (fun x => { x with mx := { x.mx with queues := x.mx.queues.set q.toNat (es ++ [newEntry of_]) } }) s)

/-- A bundle asks for tiles and queues that are not free and waits for them in issue order (06 R137). -/
def askMx (c n m : Nat) (held : Option MxState) (s : State) : State :=
  if (getCtx s c).wantMx.isSome then s else
  modCore (coreOf c) (fun k => { k with mxWait := k.mxWait ++ [c] })
    (modCtx c (fun x => { x with mxHeld := held, wantMx := some (n, m) }) s)

/-- A request that fits is granted in its issue cycle (06 R137, R159). -/
def grantNow (c n m : Nat) (held : Option MxState) (s : State) : State :=
  let own := ownMx (getCtx s c)
  takeGrant c (freeMx (coreOf c) (fun f => (f.1 - (n - own.1), f.2 - (m - own.2)))
    (modCtx c (fun x => { x with mxHeld := held, wantMx := some (n, m) }) s))

/-- MTALLOC: all or nothing; it waits in issue order for what is not free (06 R137). DESIGN CHOICE, log 95. -/
def opMtalloc (n m : BitVec 4) : Op := autoSave fun s =>
  let c := s.cur
  let x := getCtx s c
  let nt := n.toNat + 1
  if x.granted then .ok (takeGrant c s)
  else if x.mx.alloc then .trap 0x01 0#64
  else if x.wantMx.isNone && fitsMx (getCore s (coreOf c)) (0, 0) nt m.toNat then .ok (grantNow c nt m.toNat none s)
  else .block .watched (askMx c nt m.toNat none)

/-- MTFREE: after every command has completed, tiles and queues are released (06 R138). -/
def opMtfree : Op := autoSave fun s =>
  if !mxQuiet (getCtx s s.cur) then .block .watched id else .ok (releaseMx s.cur s)

/-- MXSAVE: written after the commands have completed or are suspended; before any other matrix instruction of a
handler it skips the automatic save (06 R159, R160). DESIGN CHOICE, log 98. -/
def opMxsave (ra : BitVec 6) : Op := fun s =>
  let c := s.cur
  let x := getCtx s c
  let a := rdX (archOf s) ra
  if a.toNat % 4096 ≠ 0 then .trap 0x07 a
  else if mxRunning x then .block .watched id
  else match writeParts c .mx { w := true } a (mxParts x.mx) s with
    | .error (code, ad) => .trap code ad
    | .ok s =>
      .ok (modCtx c (fun x => { x with mxTouched := x.mxTouched || x.level == 1, mxFlags := runFlags x.mx })
        (poisonPlaces c a (mxBad x.mx) s))

/-- MXREST: it reads the area, releases the context's allocation, waits for the one recorded in the area, and restores
(06 R159); poison of the area is delivered (14 R328).
DESIGN CHOICE, log 95. -/
def opMxrest (ra : BitVec 6) : Op := autoSave fun s =>
  let c := s.cur
  let x := getCtx s c
  let a := rdX (archOf s) ra
  if x.granted then .ok (feedPops c (takeGrant c s))
  else if x.wantMx.isSome then .block .watched id
  else if a.toNat % 4096 ≠ 0 then .trap 0x07 a
  else if mxRunning x then .block .watched id
  else match readMx c .mx a s with
    | (.error (code, ad), _) => .trap code ad
    | (.ok m, s) =>
      let m := withFlags x.mxFlags (fixPops (archOf s) (dropAbandoned m))
      let n := m.tiles.length
      let q := m.queues.length
      let t := releaseMx c s
      if !m.alloc then .ok t
      else if fitsMx (getCore t (coreOf c)) (0, 0) n q then .ok (feedPops c (grantNow c n q (some m) t))
      else .block .watched fun u => askMx c n q (some m) (releaseMx c u)

/-- A pop of an entry not yet ready, or of a poisoned one whose fault has no room yet: the destination is interlocked
(06 R158; 14 R329). -/
def pendPop (vd : BitVec 6) (g : Pred) (q e k : Nat) (s : State) : State :=
  let c := s.cur
  let now := nowOf s c
  let (id, s) := nextOp c s
  modArch c (fun a => { a with inflight := a.inflight ++
    [{ id := id, dest := .v (physV a vd.toNat), due := now + latOf s c 13, late := true, ready := now, val := .pending
       pop := some (q, e, k + 32 * g.toNat) }] }) s

/-- Result n of a context is poisoned (14 R345). -/
def poisonResult (c n : Nat) (s : State) : State :=
  modArch c (fun a => { a with inflight := a.inflight.map fun r => if r.id = n then { r with poisoned := true } else r }) s

/-- QPOP: the next two rows of the head entry (06 R158). -/
def opQpop (vd : BitVec 6) (q : BitVec 3) : Op := autoSave fun s =>
  let c := s.cur
  let g := guardNow s
  let m := (getCtx s c).mx
  let es := m.queues.getD q.toNat []
  let n := m.pops.getD q.toNat 0
  if m.queues.length ≤ q.toNat then .trap 0x01 0#64
  else match es[n / 32]? with
    | none => .trap 0x09 0#64
    | some e =>
      let s := modCtx c (fun x => { x with mx := { x.mx with pops := x.mx.pops.set q.toNat (n + 1) } }) s
      if !e.ready || (e.poisoned && !canDeliver s c (levelOf s)) then .ok (pendPop vd g q.toNat (n / 32) (n % 32) s)
      else
        let d : Dest := .v (physV (archOf s) vd.toNat)
        let s := addResult c d (.lanes g (popLanes e (n % 32))) 0#8 13 s
        let s := if e.poisoned then
            deliver c (levelOf s) 0x18 0 (BitVec.allOnes 64) (poisonResult c ((getCtx s c).nextId - 1) s)
          else s
        .ok (feedPops c s)

/-! Line fetches -/

/-- Lines of A, lines of B and K-steps of a command (06 R145, R148, R149). -/
def lineNeed (m : MxCmd) : Nat × Nat × Nat :=
  match m.instr with
  | .mma _ _ _ _ n => (validRows m.xa1 64, 64, n.toNat + 1)
  | .mmr .. => (validRows m.xa1 128, 128, 1)
  | .mload .. => (validRows m.xa1 64, 0, 1)
  | _ => (0, 0, 0)

/-- Sixteen-bit elements from bytes. -/
def halves : List Byte → List (BitVec 16)
  | a :: b :: r => BitVec.ofNat 16 (a.toNat + 256 * b.toNat) :: halves r
  | _ => []

/-- The lowest address of a line in the page of a poisoned granule (06 R150). -/
def linePage (segs : List Seg) (pa : Nat) : Nat :=
  ((segs.find? fun g => decide (g.pa < pa + 8) && decide (pa < g.pa + g.len)).map (·.va)).getD 0

/-- Read the bytes of a line on the MX path, or the fault of R149; `held` is the translation of the stream's present visit
to a page (09 R237). The line of a fault is what the K-step fetches of it.
DEDUCED, log 30. DEDUCED, log 103. -/
def readLine (c : Nat) (fmt : Nat → Bool) (held : Option TlbEntry) (a n : Nat) (s : State) :
    Except (Nat × Nat) (List Byte × Option TlbEntry) × State :=
  match visitRun (tlbOf c) (dieOf c) (domOf s c) { r := true, fmt := fmt } (n / 65536 + 2) held a n s with
  | (.error e, s) => (.error e, s)
  | (.ok (segs, last), s) =>
    match readSegs (dieOf c) .mx 0 false segs s with
    | (_, some g, s) => (.error (0x18, linePage segs g), s)
    | (bs, none, s) => (.ok (bs, last), s)

/-- Page formats of dense matrix operands (03 R75). -/
def fmtMF (mf : MF) (f : Nat) : Bool := f == 0 || f == (match mf with | .bf16 => 2 | _ => 3)

/-- Mantissas of m bits from a block's bytes (03 R72). -/
def mantissas (m : Nat) (bs : List Byte) : List (BitVec 16) :=
  let n := natOf bs
  (List.range 32).map fun j => (BitVec.ofInt 16 (signedN m (nbits n (m * j) m)))

/-- The frame that lies f frames after the one at an address of a page, and its page (06 R146). -/
def frameAt (c m : Nat) : Nat → TlbEntry → Nat → Nat → State → Except (Nat × Nat) (Nat × TlbEntry) × State
  | 0, _, va, _, s => (.error (0x0E, va), s)
  | fuel + 1, e, va, f, s =>
    let i := (va - e.vbase) / frameBytes m + f
    let per := e.size / frameBytes m
    if i < per then (.ok (e.vbase + i * frameBytes m, e), s) else
    let next := e.vbase + e.size
    match visit (tlbOf c) (dieOf c) (domOf s c) none { r := true, fmt := fun f => sbWidth f == m } next s with
    | (.error x, s) => (.error x, s)
    | (.ok g, s) => frameAt c m fuel g next (i - per) s

/-- Read nb blocks from block b of a line of SB data: the header and the blocks of their frame under one translation
(03 R71, R72; 06 R146; 09 R237). The GEOM of a page is not looked at.
DESIGN CHOICE, log 104. DEDUCED, log 103. -/
def readBlocks (c : Nat) (held : Option TlbEntry) (a b nb : Nat) (s : State) :
    Except (Nat × Nat) (Line × Option TlbEntry) × State :=
  match visit (tlbOf c) (dieOf c) (domOf s c) held { r := true, fmt := isSB } a s with
  | (.error x, s) => (.error x, s)
  | (.ok first, s) =>
    let m := sbWidth (leafFormat first.leaf)
    match frameAt c m 5 first a (b / 8) s with
    | (.error x, s) => (.error x, s)
    | (.ok (fa, e), s) =>
      let part (o n : Nat) : Seg := ⟨placeOf e (fa + o), n, fa + o, leafOkey e.leaf⟩
      match readSegs (dieOf c) .mx 0 false [part 0 4, part (4 + 4 * m * (b % 8)) (4 * m * nb)] s with
      | (_, some _, s) => (.error (0x18, max a e.vbase), s)
      | (bs, none, s) =>
        let hd := natOf (bs.take 4)
        (.ok ({ m := m
                idx := (List.range nb).map fun k => BitVec.ofNat 8 (nbits hd (4 * (b % 8 + k)) 4)
                elems := (List.range nb).flatMap fun k => mantissas m ((bs.drop (4 + 4 * m * k)).take (4 * m)) }, some e), s)

/-- Fetch line l of an operand in a K-step, and the translation of its last page (06 R145 to R149). -/
def fetchLine (c : Nat) (m : MxCmd) (held : Option TlbEntry) (opnd : Bool) (k l : Nat) (s : State) :
    Except (Nat × Nat) (Line × Option TlbEntry) × State :=
  let a := (lineAddr m opnd k l).toNat
  let dense (fmt : Nat → Bool) (n : Nat) : Except (Nat × Nat) (Line × Option TlbEntry) × State :=
    match readLine c fmt held a n s with
    | (.error e, s) => (.error e, s)
    | (.ok (bs, last), s) => (.ok ({ elems := halves bs }, last), s)
  match m.instr with
  | .mma .sb .. => readBlocks c held a (2 * k) 2 s
  | .mmr .sb .. => readBlocks c held a 0 4 s
  | .mma mf .. => dense (fmtMF mf) 128
  | .mmr mf .. => dense (fmtMF mf) 256
  | _ => dense (fun _ => true) 256

/-- The address of the line of an operand that follows line l of K-step k, if there is one. -/
def nextLine (m : MxCmd) (opnd : Bool) (k l : Nat) : Option Word :=
  let (na, nb, steps) := lineNeed m
  if l + 1 < (if opnd then nb else na) then some (lineAddr m opnd k (l + 1))
  else if k + 1 < steps then some (lineAddr m opnd (k + 1) 0) else none

/-! Products -/

/-- The value of element k of a line (03 R71). -/
def lineVal (i : Instr) (scale : List Byte) (l : Line) (k : Nat) : Fx :=
  let e := l.elems.getD k 0#16
  match i with
  | .mma .bf16 .. | .mmr .bf16 .. => fxOf ffBF16 e.toNat
  | .mma .f16 .. | .mmr .f16 .. => fxOf ffF16 e.toNat
  | _ =>
    let sc := (scale.getD ((l.idx.getD (k / 32) 0#8).toNat % 16) 0#8).toNat
    if sc = 0 then .fin false 0 0 false
    else if sc = 255 then .nan
    else .fin (decide (e.toInt < 0)) e.toInt.natAbs ((sc : Int) - 127 - ((l.m : Int) - 1)) false

def zeroFx : Fx := .fin false 0 0 false

/-- Rows of values, padded with +0.0 (06 R148). -/
def lineRows (m : MxCmd) (n w : Nat) (ls : List Line) : List (List Fx) :=
  (List.range n).map fun i => match ls[i]? with
    | some l => (List.range w).map (lineVal m.instr m.scale l)
    | none => List.replicate w zeroFx

/-- The columns of a matrix of w columns. -/
def columns (w : Nat) (rows : List (List Fx)) : List (List Fx) :=
  (List.range w).map fun j => rows.map fun r => r.getD j zeroFx

/-- Columns of B: rows of dense data, columns of SB data (06 R145, R146). -/
def bCols (m : MxCmd) (w : Nat) (ls : List Line) : List (List Fx) :=
  match m.instr with
  | .mma .sb .. | .mmr .sb .. => lineRows m w w ls
  | _ => columns w (lineRows m w w ls)

/-- The rows of a tile. -/
def tileRow (t : List Lane) (i : Nat) : List Lane := (t.drop (64 * i)).take 64

/-- Rows with their flags. -/
abbrev Cells := List (List (Nat × BitVec 8))

def flagsOfCells (cs : Cells) : BitVec 8 := cs.foldl (fun f r => r.foldl (fun g e => g ||| e.2) f) 0#8

def lanesOfCells (cs : Cells) : List Lane := cs.flatMap fun r => r.map fun e => BitVec.ofNat 32 e.1

/-- One K-step over a tile: rows below nv are written (03 R87; 06 R148). -/
def macTile (nv : Nat) (t : List Lane) (a cols : List (List Fx)) : Cells :=
  (List.range 64).map fun i =>
    if i < nv then
      (tileRow t i).zip cols |>.map fun e => macStep (some (fxOf ffF32 e.1.toNat)) ((a.getD i []).zip e.2)
    else (tileRow t i).map fun e => (e.toNat, 0#8)

/-- Block (r, c) of a matrix held as rows of 128. -/
def block (rows : List (List Fx)) (r c : Nat) : List (List Fx) :=
  ((rows.drop (64 * r)).take 64).map fun w => (w.drop (64 * c)).take 64

/-- A factor of a recombined product: rows or columns, with the flags of its pre-adds (06 R162, R163). -/
abbrev Factor := List (List Fx × BitVec 8)

def exactF (a : List (List Fx)) : Factor := a.map fun r => (r, 0#8)

/-- A pre-add, rounded once to the PA format (06 R163). -/
def preAdd (f : FF) (neg : Bool) (a b : List (List Fx)) : Factor :=
  (a.zip b).map fun rs =>
    let es := (rs.1.zip rs.2).map fun e =>
      let (x, fl) := sumFx [e.1, if neg then negFx e.2 else e.2] false
      let (y, g) := roundTo f x .rne 0
      (fxOf f y, fl ||| g)
    (es.map (·.1), es.foldl (fun f e => f ||| e.2) 0#8)

/-- A product tile with the flags that each element carries (06 R164). -/
def product (a b : Factor) : Cells :=
  a.map fun r => b.map fun c =>
    let (y, fl) := macStep none (r.1.zip c.1)
    (y, fl ||| r.2 ||| c.2)

/-- Post-adds of products into a block, in order (06 R164): rows below nv are written. -/
def postAdd (nv : Nat) (t : List Lane) (ps : List (Bool × Cells)) : Cells :=
  (List.range 64).map fun i =>
    let row : List (Nat × BitVec 8) := (tileRow t i).map fun e => (e.toNat, 0#8)
    if i < nv then
      ps.foldl (fun (acc : List (Nat × BitVec 8)) p =>
        (acc.zip (p.2.getD i [])).map fun e =>
          let m := fxOf ffF32 e.2.1
          let (y, fl) := addR ffF32 (fxOf ffF32 e.1.1) (if p.1 then negFx m else m) .rne 0
          (y, e.1.2 ||| e.2.2 ||| fl)) row
    else row

/-- The four blocks of a recombined MMR (06 R162 to R164): A as rows, B as columns of 128. -/
def recombined (f : FF) (v : Nat) (ts : List (List Lane)) (a b : List (List Fx)) : List Cells :=
  let A (r c : Nat) := block a r c
  let B (r c : Nat) := block b c r
  let m1 := product (preAdd f false (A 0 0) (A 1 1)) (preAdd f false (B 0 0) (B 1 1))
  let m2 := product (preAdd f false (A 1 0) (A 1 1)) (exactF (B 0 0))
  let m3 := product (exactF (A 0 0)) (preAdd f true (B 0 1) (B 1 1))
  let m4 := product (exactF (A 1 1)) (preAdd f true (B 1 0) (B 0 0))
  let m5 := product (preAdd f false (A 0 0) (A 0 1)) (exactF (B 1 1))
  let m6 := product (preAdd f true (A 1 0) (A 0 0)) (preAdd f false (B 0 0) (B 0 1))
  let m7 := product (preAdd f true (A 0 1) (A 1 1)) (preAdd f false (B 1 0) (B 1 1))
  let t (i : Nat) := ts.getD i []
  [postAdd v (t 0) [(false, m1), (false, m4), (true, m5), (false, m7)],
   postAdd v (t 1) [(false, m3), (false, m5)],
   postAdd (v - 64) (t 2) [(false, m2), (false, m4)],
   postAdd (v - 64) (t 3) [(false, m1), (true, m2), (false, m3), (false, m6)]]

/-- The four blocks of a classical MMR (06 R154). -/
def classical (v : Nat) (ts : List (List Lane)) (a b : List (List Fx)) : List Cells :=
  [(0, 0), (0, 1), (1, 0), (1, 1)].map fun rc =>
    let nv := v - 64 * rc.1
    let one := macTile nv (ts.getD (2 * rc.1 + rc.2) []) (block a rc.1 0) (block b rc.2 0)
    let two := macTile nv (lanesOfCells one) (block a rc.1 1) (block b rc.2 1)
    (one.zip two).map fun r => (r.1.zip r.2).map fun e => (e.2.1, e.1.2 ||| e.2.2)

def finiteFx : Fx → Bool | .fin .. => true | _ => false

/-- The arithmetic of a command whose lines are present: tiles written, flags (06 R153 to R165). -/
def mxCompute (m : MxCmd) (r : MxRun) (tiles : List (List Lane)) : List (List Lane) × BitVec 8 :=
  match m.instr with
  | .mma _ td _ _ _ =>
    let cs := macTile (validRows m.xa1 64) (tiles.getD td.toNat []) (lineRows m 64 64 r.aLines) (bCols m 64 r.bLines)
    (tiles.set td.toNat (lanesOfCells cs), flagsOfCells cs)
  | .mmr mf mode td _ _ =>
    let a := lineRows m 128 128 r.aLines
    let b := bCols m 128 r.bLines
    let v := validRows m.xa1 128
    let ts := (tiles.drop td.toNat).take 4
    let finite := a.all (·.all finiteFx) && b.all (·.all finiteFx)
    let f := match mf with | .bf16 => ffPABF16 | _ => ffPAF16
    let (cs, fl) : List Cells × BitVec 8 := match mode with
      | .classical => (classical v ts a b, 0#8)
      | .recombined => (recombined f v ts a b, 0#8)
      | .fallback => if finite then (recombined f v ts a b, 0#8) else (classical v ts a b, fRF)
    (cs.zipIdx.foldl (fun t e => t.set (td.toNat + e.2) (lanesOfCells e.1)) tiles,
     cs.foldl (fun f c => f ||| flagsOfCells c) fl)
  | .mload td _ =>
    let t := tiles.getD td.toNat []
    let row (i : Nat) : List Lane := match r.aLines[i]? with
      | some l => (List.range 64).map fun j =>
          BitVec.ofNat 32 ((l.elems.getD (2 * j) 0#16).toNat + 65536 * (l.elems.getD (2 * j + 1) 0#16).toNat)
      | none => tileRow t i
    (tiles.set td.toNat ((List.range 64).flatMap row), 0#8)
  | _ => (tiles, 0#8)

/-- The tile rows that a command reads when it adds into them. DESIGN CHOICE, log 33. -/
def rowsRead (m : MxCmd) : List (Nat × Nat) :=
  match m.instr with
  | .mma _ td _ _ _ => (List.range (validRows m.xa1 64)).map fun i => (td.toNat, i)
  | .mmr _ _ td _ _ =>
    let v := validRows m.xa1 128
    [(0, v), (1, v), (2, v - 64), (3, v - 64)].flatMap fun b => (List.range (min b.2 64)).map fun i => (td.toNat + b.1, i)
  | .mdrain _ _ _ td => (List.range 64).map fun i => (td.toNat, i)
  | _ => []

/-- The tile rows that a command writes whole without reading them. -/
def rowsCleared (m : MxCmd) : List (Nat × Nat) :=
  match m.instr with
  | .mload td _ => (List.range (validRows m.xa1 64)).map fun i => (td.toNat, i)
  | .mzero td n => (List.range (n.toNat + 1)).flatMap fun t => (List.range 64).map fun i => (td.toNat + t, i)
  | .mdrain _ true _ td => (List.range 64).map fun i => (td.toNat, i)
  | _ => []

/-- A command reads a poisoned tile row (14 R345). DESIGN CHOICE, log 33. -/
def readsPoison (x : Ctx) (m : MxCmd) : Bool := x.mx.tilePoison.any fun p => (rowsRead m).contains p

/-! The engine -/

/-- Level of a context's matrix commands (06 R160). -/
def mxLevel (x : Ctx) : Nat := if x.level = 1 && x.mxTouched then 1 else 0

/-- The engine takes the next command in turn (06 R140). -/
def mxStart (k : Nat) (s : State) : State :=
  let q := getCore s k
  if q.mxBusy.isSome then s else
  match [1, 2, 3, 4].find? fun i => mxRunning (getCtx s (4 * k + (q.mxLast + i) % 4)) with
  | none => s
  | some i =>
    let n := (q.mxLast + i) % 4
    let c := 4 * k + n
    let need := ((getCtx s c).mx.cmds.head?.map lineNeed).getD (0, 0, 0)
    let fresh : MxRun := { opnd := need.1 == 0 && need.2.1 != 0, finished := need.1 + need.2.1 == 0 }
    modCore k (fun q => { q with mxBusy := some c, mxLast := n })
      (modCtx c (fun x => { x with mx := { x.mx with run := some (x.mx.run.getD fresh) } }) s)

/-- A line fetch has failed: the command is suspended, holds no translation, and the fault is delivered (06 R150; 09 R237;
14 R329). -/
def mxFail (k c code : Nat) (addr : Word) (s : State) : State :=
  let x := getCtx s c
  let lvl := mxLevel x
  let s := modCtx c (fun x => { x with mx := { x.mx with run := x.mx.run.map fun r =>
    { r with suspended := true, aPage := none, bPage := none } } }) s
  let s := modCore k (fun q => { q with mxBusy := none }) s
  if canDeliver s c lvl then deliver c lvl code 0 addr s
  else modCtx c (fun x => { x with mxPends := x.mxPends ++ [⟨codeWord code 0 true, addr⟩] }) s

/-- The lines of a K-step are present: its arithmetic is done (06 R150, R153). -/
def mxStep (c : Nat) (m : MxCmd) (r : MxRun) (steps : Nat) (s : State) : State :=
  let x := getCtx s c
  let bad := readsPoison x m
  if bad && r.kstep == 0 && !canDeliver s c (mxLevel x) then s else
  let (ts, fl) := mxCompute m r x.mx.tiles
  let last := decide (steps ≤ r.kstep + 1)
  let r' : MxRun := { r with aLines := [], bLines := [], opnd := (lineNeed m).1 == 0, line := 0, kstep := r.kstep + 1
                             finished := last, flags := r.flags ||| fl }
  let gone := rowsCleared m
  let s := modCtx c (fun x => { x with mx := { x.mx with
    tiles := ts, run := some r', tilePoison := x.mx.tilePoison.filter (fun p => !gone.contains p) } }) s
  if bad && r.kstep == 0 then deliver c (mxLevel x) 0x18 0 (BitVec.allOnes 64) s else s

/-- Fetch the next line of the command that the engine runs (06 R149). -/
def mxFetch (k : Nat) (s : State) : State :=
  match (getCore s k).mxBusy with
  | none => s
  | some c =>
    let x := getCtx s c
    match x.mx.run, x.mx.cmds with
    | some r, m :: _ =>
      if r.finished || r.suspended then s else
      let (na, nb, steps) := lineNeed m
      if na ≤ r.aLines.length && nb ≤ r.bLines.length then mxStep c m r steps s else
      let opnd := decide (na ≤ r.aLines.length)
      let l := if opnd then r.bLines.length else r.aLines.length
      match fetchLine c m (if opnd then r.bPage else r.aPage) opnd r.kstep l s with
      | (.error (code, a), s) =>
        mxFail k c code (BitVec.ofNat 64 a) (modCtx c (fun x => { x with mx := { x.mx with
          run := some { r with opnd := opnd, line := l } } }) s)
      | (.ok (ln, last), s) =>
        let page := last.bind fun e => (nextLine m opnd r.kstep l).bind fun a => stillIn e a.toNat
        let r' : MxRun :=
          if opnd then { r with opnd := true, bLines := r.bLines ++ [ln], line := l + 1, bPage := page }
          else { r with opnd := na == l + 1 && nb != 0, aLines := r.aLines ++ [ln], aPage := page
                        line := if na == l + 1 && nb != 0 then 0 else l + 1 }
        let s := modCtx c (fun x => { x with mx := { x.mx with run := some r' } }) s
        if na ≤ r'.aLines.length && nb ≤ r'.bLines.length then mxStep c m r' steps s else s
    | _, _ => s

/-- The entry that an MDRAIN makes, with its flags (06 R157). -/
def drainEntry (of_ : OFmt) (t : List Lane) (bad : Bool) : QEntry × BitVec 8 :=
  let f := match of_ with | .f32 => ffF32 | .bf16 => ffBF16 | .f16 => ffF16
  let conv (l : Lane) : Nat × BitVec 8 := match of_ with
    | .f32 => (l.toNat, 0#8)
    | _ => roundTo f (fxOf ffF32 l.toNat) .rne 0
  let es := t.map conv
  ({ fmt := of_, elems := es.map fun e => BitVec.ofNat 32 e.1, ready := true, poisoned := bad },
   es.foldl (fun f e => f ||| e.2) 0#8)

/-- Put an entry in the place of the first that is not ready. -/
def fillEntry (e : QEntry) : List QEntry → List QEntry
  | [] => []
  | q :: qs => if q.ready then q :: fillEntry e qs else e :: qs

/-- The effect of a command without lines when it completes (06 R156, R157). -/
def mxEffect (m : MxCmd) (x : MxState) (bad : Bool) : MxState × BitVec 8 :=
  match m.instr with
  | .mzero td n =>
    ({ x with tiles := (List.range (n.toNat + 1)).foldl (fun t i => t.set (td.toNat + i) (List.replicate 4096 0#32)) x.tiles },
     0#8)
  | .mdrain of_ clr q td =>
    let (e, fl) := drainEntry of_ (x.tiles.getD td.toNat []) bad
    ({ x with queues := x.queues.modify q.toNat (fillEntry e)
              tiles := if clr then x.tiles.set td.toNat (List.replicate 4096 0#32) else x.tiles }, fl)
  | _ => (x, 0#8)

/-- The command that the engine runs completes: flags, entry, pops (06 R142, R157, R158). -/
def mxComplete (k : Nat) (s : State) : State :=
  match (getCore s k).mxBusy with
  | none => s
  | some c =>
    let x := getCtx s c
    match x.mx.run, x.mx.cmds with
    | some r, m :: rest =>
      if !r.finished then s else
      let (na, nb, _) := lineNeed m
      let fresh := decide (na + nb = 0) && readsPoison x m
      if fresh && !canDeliver s c (mxLevel x) then s else
      let (mx, fl) := mxEffect m x.mx fresh
      let gone := rowsCleared m
      let mx := { mx with cmds := rest, run := none, tilePoison := mx.tilePoison.filter (fun p => !gone.contains p) }
      let s := modCore k (fun q => { q with mxBusy := none }) (modCtx c (fun x => { x with mx := mx }) s)
      let s := engineFlags c (mxLevel x) (r.flags ||| fl) s
      let s := if fresh then deliver c (mxLevel x) 0x18 0 (BitVec.allOnes 64) s else s
      feedPops c s
    | _, _ => s

/-- `MMA` (R153) -/
def execMma (mf : MF) (td : BitVec 4) (ra rb : BitVec 6) (n : BitVec 4) (s : State) : Result :=
  .next (lone (.mma mf td ra rb n) (opMma mf td ra rb n) s)

/-- `MMR` (R154) -/
def execMmr (mf : MF) (mode : MMode) (td : BitVec 4) (ra rb : BitVec 6) (s : State) : Result :=
  .next (lone (.mmr mf mode td ra rb) (opMmr mf mode td ra rb) s)

/-- `MLOAD` (R155) -/
def execMload (td : BitVec 4) (ra : BitVec 6) (s : State) : Result :=
  .next (lone (.mload td ra) (opMload td ra) s)

/-- `MDRAIN` (R157) -/
def execMdrain (of_ : OFmt) (clr : Bool) (q : BitVec 3) (td : BitVec 4) (s : State) : Result :=
  .next (lone (.mdrain of_ clr q td) (opMdrain of_ clr q td) s)

/-- `MZERO` (R156) -/
def execMzero (td : BitVec 4) (n : BitVec 4) (s : State) : Result :=
  .next (lone (.mzero td n) (opMzero td n) s)

/-- `MXSAVE` (R159) -/
def execMxsave (ra : BitVec 6) (s : State) : Result :=
  .next (lone (.mxsave ra) (opMxsave ra) s)

/-- `MXREST` (R159) -/
def execMxrest (ra : BitVec 6) (s : State) : Result :=
  .next (lone (.mxrest ra) (opMxrest ra) s)

/-- `MTALLOC` (R137) -/
def execMtalloc (n m : BitVec 4) (s : State) : Result :=
  .next (lone (.mtalloc n m) (opMtalloc n m) s)

/-- `MTFREE` (R138) -/
def execMtfree (s : State) : Result :=
  .next (lone (.mtfree) opMtfree s)

/-- `QPOP` (R158) -/
def execQpop (vd : BitVec 6) (q : BitVec 3) (s : State) : Result :=
  .next (lone (.qpop vd q) (opQpop vd q) s)


/-- `MATRIX_ALLOC_GRANT` (R137) -/
def execMatrixAllocGrant (k : Nat) (s : State) : Result :=
  .next (onDie (k / 64) s (grantMx k s))

/-- `MATRIX_COMMAND_START` (R140) -/
def execMatrixCommandStart (k : Nat) (s : State) : Result :=
  .next (onDie (k / 64) s (mxStart k s))

/-- `MATRIX_LINE_FETCH` (R149) -/
def execMatrixLineFetch (k : Nat) (s : State) : Result :=
  .next (onDie (k / 64) s (mxFetch k s))

/-- `MATRIX_COMMAND_COMPLETE` (R142) -/
def execMatrixCommandComplete (k : Nat) (s : State) : Result :=
  .next (onDie (k / 64) s (mxComplete k s))

end Sys2Proof.Machine
end

