-- ==== Sys2Proof/Machine/Preempt.lean ====
section
/-!
DEFINITION. The pre-emption of a record: its context is saved into the frame and the record is queued again
(spec 10 R258; 14 R342; 06 R161).
-/

namespace Sys2Proof.Machine

open Sys2Proof

/-- A record's bits (10 R248). -/
def recordBits (r : RecInfo) (saved : Bool) : BitVec 256 :=
  BitVec.ofNat 256 (r.entry + r.kid * 2 ^ 60 + r.frame.toNat * 2 ^ 64 + r.joinptr.toNat * 2 ^ 128 +
    (if saved then 2 ^ 224 else 0) + r.prio * 2 ^ 236 + r.rid * 2 ^ 240)

/-- The matrix command that the engine runs comes to a line boundary: a compute phase finishes, a command that has
fetched nothing goes back to its queue, and one whose arithmetic waits fetches its last line again (06 R150, R161).
DEDUCED, log 99. -/
def quietMx (c : Nat) (s : State) : State :=
  let again (r : MxRun) : MxRun :=
    if r.bLines.isEmpty then { r with opnd := false, aLines := r.aLines.dropLast, line := r.aLines.length - 1 }
    else { r with opnd := true, bLines := r.bLines.dropLast, line := r.bLines.length - 1 }
  let back (x : Ctx) : Ctx :=
    match x.mx.run, x.mx.cmds with
    | some r, m :: _ =>
      let (na, nb, _) := lineNeed m
      if r.suspended then x
      else if na + nb = 0 then { x with mx := { x.mx with run := none } }
      else if na ≤ r.aLines.length && nb ≤ r.bLines.length then { x with mx := { x.mx with run := some (again r) } } else x
    | _, _ => x
  let s := match (getCtx s c).mx.run with
    | some r => if r.finished && (getCore s (coreOf c)).mxBusy == some c then mxComplete (coreOf c) s else s
    | none => s
  modCtx c back s

/-- Cycles for which a context has been blocked on its bundle with a watchdog (10 R256). -/
def blockedFor (s : State) (c : Nat) : Nat :=
  let x := getCtx s c
  x.waited + match x.block with
    | some (.watched, t) => nowOf s c - t
    | _ => 0

/-- Pre-emption at a boundary (10 R258; 14 R342; 06 R161). -/
def preempt (c : Nat) (s : State) : State :=
  match (getCtx s c).record with
  | none => s
  | some r =>
    let waited := blockedFor s c
    let s1 := landNow c (settle c (quietMx c (unwait c s)))
    let y := getCtx s1 c
    let x := { y with mx := y.mxHeld.getD y.mx }
    let held := { x with mx := { x.mx with run := x.mx.run.map fun q => { q with suspended := true } } }
    match writeParts c .ls { r := true, w := true } r.frame (preemptParts (boundary s1 c) held) s1 with
    | .error (code, a) => unhandled c (codeWord code 0 false) a s1
    | .ok s2 =>
      let d := dieOf c
      let ahead := match x.ckpt with | some a => (archBad a).map fun e => (e.1 + 946176, e.2) | none => []
      let s2 := poisonPlaces c r.frame (archBad x.arch ++ holdBad x.hold ++ ahead ++
        (mxBad x.mx).map fun e => (e.1 + 90112, e.2)) s2
      let n := savedId s2 d
      let shadow : Ctx := { x with
        faults := [], arch := {}, block := none, marked := false, waited := waited, hold := [], wantMx := none, mxHeld := none
        ckpt := x.ckpt.map fun _ => {}
        mx := { run := x.mx.run.map fun r => { suspended := r.suspended, flags := r.flags } } }
      let s3 := rehome c n { s2 with saved := (n, shadow) :: s2.saved }
      let s3 := releaseMx c s3
      let s3 := modCtx c (fun x => { Ctx.init with nextId := x.nextId }) s3
      let s3 := stopIssuing c s3
      modDie d (fun y => { y with queue := y.queue ++
        [{ bits := recordBits r true, rid := r.rid, level := r.prio, enq := y.clock, order := (0, c) }] }) s3

end Sys2Proof.Machine
end

