-- ==== Sys2Proof/Machine/Copy.lean ====
section
/-!
DEFINITION. The copy unit and the basin's background work: copies, multicasts, reductions, rings, prefetches,
window fetches, drains (spec 08 R196 to R212).
-/

namespace Sys2Proof.Machine

open Sys2Proof

/-! Issue -/

/-- The descriptor in eight registers (08 R203). -/
def regDesc (a : Arch) (r : BitVec 6) : Nat :=
  (List.range 8).foldl (fun n k => n + (rdXN a (r.toNat + k)).toNat * 2 ^ (64 * k)) 0

/-- A descriptor operand: its registers, or an address. -/
inductive DescOp
  | regs (n : Nat)
  | mem (va : Word)

def descOp (a : Arch) (inRegs : Bool) (r : BitVec 6) : DescOp := if inRegs then .regs (regDesc a r) else .mem (rdX a r)

/-- Alignment of a descriptor operand (08 R204). -/
def descAligned : DescOp → Option Word
  | .regs _ => none
  | .mem va => if va.toNat % 64 = 0 then none else some va

/-- The pages of a descriptor operand (08 R204). -/
def descPages (o : DescOp) (s : State) : Except (Nat × Word) (List Seg) × State :=
  match o with
  | .regs _ => (.ok [], s)
  | .mem va => descSegs 64 va s

/-- The bytes of a descriptor operand, or the address of its poison. -/
def descBytes (o : DescOp) (segs : List Seg) (s : State) : Except Nat Nat × State :=
  match o with
  | .regs n => (.ok n, s)
  | .mem _ => descRead segs s

/-- The stages of R204 for two descriptors: alignment, pages, then the descriptors' bytes go to `k`; a poisoned
descriptor is delivered and starts nothing (14 R345).
DEDUCED, log 15. DEDUCED, log 20. DEDUCED, log 26. -/
def withDescs (tag : BitVec 6) (d r : DescOp) (k : Nat → Nat → Op) : Op := fun s =>
  if 64 ≤ copyCount (getCore s (coreOf s.cur)) then .block .watched id else
  match descAligned d, descAligned r with
  | some a, _ => .trap 0x07 a
  | none, some a => .trap 0x07 a
  | none, none =>
    match descPages d s with
    | (.error (code, a), _) => .trap code a
    | (.ok dg, s) =>
      match descPages r s with
      | (.error (code, a), _) => .trap code a
      | (.ok rg, s) =>
        let (dn, s) := descBytes d dg s
        let (rn, s) := descBytes r rg s
        match dn, rn with
        | .ok x, .ok y => k x y s
        | .error a, _ => descPoison (some tag) a s
        | _, .error a => descPoison (some tag) a s

/-- A ring destination fits its ring on a core (08 R208). -/
def ringFits (s : State) (core : Nat) (q : Desc) : Bool :=
  !q.rb || decide (descLen q ≤ ((getCore s core).rings.getD q.ring {}).size)

/-- A copy command enters the copy unit (08 R204). -/
def startCopy (tag : BitVec 6) (m : Nat → Copy) : Op := fun s =>
  if !tagFree tag s then .trap 0x0A 0#64 else
  let c := s.cur
  let (id, s) := nextOp c (startTag c tag.toNat s)
  .ok (modCore (coreOf c) (fun k => { k with copies := k.copies ++ [{ m id with num := opNum c id }] }) s)

/-- A register block that may hold a descriptor (08 R203). DEDUCED, log 20. -/
def blockOk (r : BitVec 6) : Bool := r.toNat % 8 == 0 && r != 0#6

/-- CPY (08 R203, R204). DEDUCED, log 20. -/
def opCpy (dr sr : Bool) (ra rb tag : BitVec 6) : Op := fun s =>
  let a := archOf s
  if decide (copyCount (getCore s (coreOf s.cur)) < 64) && ((dr && !blockOk ra) || (sr && !blockOk rb)) then .trap 0x01 0#64 else
  withDescs tag (descOp a dr ra) (descOp a sr rb) (fun x y s =>
    if !descOk true x || !descOk false y || descLen (descOf x) != descLen (descOf y)
        || !ringFits s (coreOf s.cur) (descOf x) then .trap 0x01 0#64
    else startCopy tag (fun id => { id := id, ctx := s.cur, kind := 0, tag := tag.toNat, level := levelOf s
                                    dst := descOf x, src := descOf y }) s) s

/-- The cores of a multicast, numbered through the package (08 R209). -/
def receivers (d : Nat) (m : Word) : List Nat := (slicesOf m).map (· + 64 * d)

/-- CPYM (08 R209); an empty mask is checked with the descriptors' contents. DESIGN CHOICE, log 101. -/
def opCpym (ra rb rc tag : BitVec 6) : Op := fun s =>
  let a := archOf s
  let m := rdX a rc
  withDescs tag (.mem (rdX a ra)) (.mem (rdX a rb)) (fun x y s =>
    if m == 0#64 || !descOk true x || !descOk false y || descLen (descOf x) != descLen (descOf y)
        || !(receivers (dieOf s.cur) m).all (fun q => ringFits s q (descOf x)) then .trap 0x01 0#64
    else startCopy tag (fun id => { id := id, ctx := s.cur, kind := 1, tag := tag.toNat, level := levelOf s
                                    dst := descOf x, src := descOf y, mask := m }) s) s

/-- CPYR (08 R211). -/
def opCpyr (op ra rb tag : BitVec 6) : Op := fun s =>
  let a := archOf s
  withDescs tag (.mem (rdX a ra)) (.mem (rdX a rb)) (fun x y s =>
    if !descOk false x || !descOk false y || descLen (descOf x) != descLen (descOf y)
        || descLen (descOf x) % opSize op.toNat != 0 then .trap 0x01 0#64
    else startCopy tag (fun id => { id := id, ctx := s.cur, kind := 2, tag := tag.toNat, level := levelOf s
                                    dst := descOf x, src := descOf y, op := op }) s) s

/-- RBINIT (08 R207): the address is checked first, then the operands, then the ring. DESIGN CHOICE, log 101. -/
def opRbinit (ring : BitVec 5) (ra rb : BitVec 6) : Op := fun s =>
  let a := archOf s
  let base := rdX a ra
  let v := rdX a rb
  let k := coreOf s.cur
  let size := bitsN v 15 0
  let n := bitsN v 23 16
  let r := (getCore s k).rings.getD ring.toNat {}
  match checkAt 64 { kind := onlyScratch } base 64 s with
  | (.error (code, ad), _) => .trap code ad
  | (.ok segs, s) =>
    if segs.any fun g => (g.pa - scratchBase) / 2097152 != coreInDie s.cur then .trap 0x05 base
    else if size = 0 || size % 64 != 0 || n = 0 || bitsN v 63 24 != 0 || decide (2097152 < n * size) then .trap 0x01 0#64
    else if r.claim != r.wptr then .trap 0x0A 0#64
    else .ok (modCore k (fun q => { q with rings := q.rings.set ring.toNat { base := base, size := size, n := n } }) s)

/-! Moving -/

/-- Copy n of core k. -/
def copyAt (s : State) (k n : Nat) : Option Copy := (getCore s k).copies[n]?

def modCopy (k n : Nat) (f : Copy → Copy) (s : State) : State :=
  modCore k (fun q => { q with copies := q.copies.modify n f }) s

/-- A copy leaves the copy unit and its tag is set (08 R204, R205). -/
def endCopy (k n : Nat) (m : Copy) (s : State) : State :=
  completeTag m.ctx m.level m.tag (modCore k (fun q => { q with copies := q.copies.eraseIdx n }) s)

/-- A copy stops with a fault: suspended, or ended with its tag set when the fault is delivered (08 R209, R212; 14 R329). -/
def stopCopy (k n : Nat) (m : Copy) (susp : Bool) (code : Nat) (addr : Nat) (s : State) : State :=
  let a := BitVec.ofNat 64 addr
  let s := modCopy k n (fun q => { q with suspended := susp, sleaf := none, dpages := [] }) s
  if canDeliver s m.ctx m.level then
    let s := deliver m.ctx m.level code 0 a s
    if susp then s else endCopy k n m s
  else modCopy k n (fun q => { q with ending := some ⟨codeWord code 0 true, a⟩ }) s

/-- A copy reaches an address on a page: the page of its present visit, or a new translation (08 R212; 09 R237). -/
def reach (m : Copy) (held : Option TlbEntry) (nd : Need) (va : Nat) (s : State) : Except (Nat × Nat) TlbEntry × State :=
  visit (tlbOf m.ctx) (dieOf m.ctx) (domOf s m.ctx) held nd va s

/-- A copy reaches a destination address, on one of the destination pages that it holds or a new one. -/
def reachDst (m : Copy) (nd : Need) (va : Nat) (s : State) : Except (Nat × Nat) TlbEntry × State :=
  reach m (m.dpages.find? fun e => (stillIn e va).isSome) nd va s

/-- The address of byte n of a ring slot on a core (08 R207, R208). -/
def slotAddr (s : State) (m : Copy) (q : Nat × Nat) (n : Nat) : Nat :=
  let r := (getCore s q.1).rings.getD m.dst.ring {}
  (r.base + BitVec.ofNat 64 (q.2 % max r.n 1 * r.size + n)).toNat

/-- The addresses at which byte n of a copy lands: its destination stream, or its ring slots (08 R202, R208, R209). -/
def landAddrs (s : State) (m : Copy) (n : Nat) : List Nat :=
  if m.dst.rb then m.slots.map fun q => slotAddr s m q n else [(streamAddr m.dst n).toNat]

/-- Bytes left in the run of the destination that holds byte n. -/
def landLeft (m : Copy) (n : Nat) : Nat := if m.dst.rb then descLen m.dst - n else runLeft m.dst n

/-- Read bytes on the CP path: those before the first poisoned granule, and whether it comes at once. -/
def readGood (d : Nat) (pa n okey ep : Nat) (s : State) : List Byte × Bool × State :=
  let (bs, po, s) := readRunOn d .cp pa n okey ep false s
  match po with
  | some g => (bs.take (g - pa), decide (g ≤ pa), s)
  | none => (bs, false, s)

/-- The destination pages of a piece, each with the address there. -/
def reachAll (m : Copy) (nd : Need) : List Nat → State → Except (Nat × Nat) (List (TlbEntry × Nat)) × State
  | [], s => (.ok [], s)
  | va :: vs, s =>
    match reachDst m nd va s with
    | (.error x, s) => (.error x, s)
    | (.ok e, s) =>
      match reachAll m nd vs s with
      | (.error x, s) => (.error x, s)
      | (.ok es, s) => (.ok ((e, va) :: es), s)

/-- The places at which a byte of a multicast without a ring lands: one core offset in every receiver (08 R209). -/
def castPlaces (d : Nat) (m : Copy) (pa : Nat) : List Nat :=
  (receivers d m.mask).map fun q => scratchBase + q % 64 * 2097152 + (pa - scratchBase) % 2097152

/-- The places at which a byte lands that stands on a destination page. -/
def landPlaces (m : Copy) (e : TlbEntry × Nat) : List Nat :=
  let pa := placeOf e.1 e.2
  if m.kind = 1 && !m.dst.rb then castPlaces (dieOf m.ctx) m pa else [pa]

/-- The landing of a multicast without a ring may not begin: the first word of a receiver is full (08 R209). -/
def castFull (s : State) (m : Copy) (es : List (TlbEntry × Nat)) : Bool :=
  m.kind == 1 && !m.dst.rb && m.pos == 0 && es.any fun e => (landPlaces m e).any (isFull (getDie s (dieOf m.ctx)))

/-- The bytes of a piece are written where they land; the first word of a multicast without a ring is written last. -/
def landPiece (m : Copy) (es : List (TlbEntry × Nat)) (bs : List Byte) (s : State) : State :=
  let skip := if m.kind = 1 && !m.dst.rb then min bs.length (4 - m.pos) else 0
  foldS (fun e s => foldS (fun pa s =>
    writeRunOn (dieOf m.ctx) .cp m.num (pa + skip) (leafOkey e.1.leaf) m.ep false (bs.drop skip) s) (landPlaces m e) s) es s

/-- The destination pages that a copy goes on holding: those of the next byte, and that of a first word not yet written. -/
def keepPages (s : State) (m : Copy) (es : List (TlbEntry × Nat)) (p : Nat) : List TlbEntry :=
  let next := (if p < descLen m.dst then landAddrs s m p else []) ++
    (if m.kind = 1 && !m.dst.rb then [(streamAddr m.dst 0).toNat] else [])
  (m.dpages ++ es.map (·.1)).eraseDups.filter fun e => next.any fun va => (stillIn e va).isSome

/-- Move at most `len` bytes, up to whole words, of a copy or a multicast within one page of each side (08 R204, R209, R212;
09 R219). Where a byte fails on both sides, the source's fault is taken; the landing places are cached with EP 0.
DESIGN CHOICE, log 101. DESIGN CHOICE, log 102. -/
def copyPiece (k n : Nat) (m : Copy) (len : Nat) (s : State) : State :=
  let d := dieOf m.ctx
  let sa := (streamAddr m.src m.pos).toNat
  match reach m m.sleaf { r := true } sa s with
  | (.error (code, a), s) => stopCopy k n m true code a s
  | (.ok se, s) =>
    match reachAll m { w := true, kind := if m.kind = 1 then onlyScratch else fun _ => true } (landAddrs s m m.pos) s with
    | (.error (code, a), s) => stopCopy k n m true code a s
    | (.ok es, s) =>
      let want := min (min ((max len 1 + 3) / 4 * 4) (descLen m.src - m.pos)) (min (runLeft m.src m.pos)
        (es.foldl (fun w e => min w (pageLeft e.1 e.2)) (min (landLeft m m.pos) (pageLeft se sa))))
      let (bs, bad, s) := readGood d (placeOf se sa) want (leafOkey se.leaf) m.ep s
      if bad then stopCopy k n m true 0x18 sa s
      else if castFull s m es then stopCopy k n m false 0x0D (streamAddr m.dst 0).toNat s
      else
      let s := landPiece m es bs s
      let p := m.pos + bs.length
      modCopy k n (fun q => { q with
        pos := p
        bytes := q.bytes ++ (if m.kind = 1 && !m.dst.rb then bs.take (4 - m.pos) else [])
        sleaf := if p < descLen m.src then stillIn se (streamAddr m.src p).toNat else none
        dpages := keepPages s m es p }) s

/-- Places of the parts of an element in a stream: 4-byte parts of an 8-byte element may lie apart (08 R202, R211). -/
def elemParts (q : Desc) (n z : Nat) : List (Nat × Nat) :=
  if z = 8 then [((streamAddr q n).toNat, 4), ((streamAddr q (n + 4)).toNat, 4)] else [((streamAddr q n).toNat, z)]

/-- Translate the parts of an element in stream order. DEDUCED, log 28. -/
def reachParts (m : Copy) (nd : Need) : Option TlbEntry → List (Nat × Nat) → State →
    Except (Nat × Nat) (List (TlbEntry × Nat × Nat)) × State
  | _, [], s => (.ok [], s)
  | held, (va, n) :: ps, s =>
    match reach m held nd va s with
    | (.error e, s) => (.error e, s)
    | (.ok e, s) =>
      match reachParts m nd (some e) ps s with
      | (.error f, s) => (.error f, s)
      | (.ok es, s) => (.ok ((e, va, n) :: es), s)

/-- Read the parts of an element: bytes, and the address of a poisoned part. `bank`: the value at its bank. -/
def readParts (d : Nat) (bank : Bool) : List (TlbEntry × Nat × Nat) → State → List Byte × Option Nat × State
  | [], s => ([], none, s)
  | (e, va, n) :: ps, s =>
    let rd := if bank then readBankOn d .cp (placeOf e va) n (leafOkey e.leaf) 0 false s
              else readRunOn d .cp (placeOf e va) n (leafOkey e.leaf) 0 false s
    let (bs, po, t) := readParts d bank ps rd.2.2
    (rd.1 ++ bs, (rd.2.1.map fun _ => va).orElse fun _ => po, t)

def writePartsAt (d op : Nat) : List (TlbEntry × Nat × Nat) → List Byte → State → State
  | [], _, s => s
  | (e, va, n) :: ps, bs, s =>
    writePartsAt d op ps (bs.drop n) (writeRunOn d .cp op (placeOf e va) (leafOkey e.leaf) 0 false (bs.take n) s)

/-- Reduce one element of a CPYR at its bank (08 R210, R211). -/
def reduceStep (k n : Nat) (m : Copy) (s : State) : State :=
  let d := dieOf m.ctx
  let z := opSize m.op.toNat
  let nd : Need := { r := true, fmt := fmtOp m.op.toNat }
  match reachParts m nd m.sleaf (elemParts m.src m.pos z) s with
  | (.error (code, a), s) => stopCopy k n m true code a s
  | (.ok ss, s) =>
    match reachParts m { nd with w := true } m.dpages.head? (elemParts m.dst m.pos z) s with
    | (.error (code, a), s) => stopCopy k n m true code a s
    | (.ok ds, s) =>
      let (b, po, s) := readParts d false ss s
      let (old, qo, s) := readParts d true ds s
      match po.orElse fun _ => qo with
      | some a => stopCopy k n m true 0x18 a s
      | none =>
        let (new, fl) := reduceElem m.op.toNat (natOf old) (natOf b)
        let s := writePartsAt d m.num ds (bytesOf z new) s
        let s := engineFlags m.ctx m.level fl s
        let p := m.pos + z
        modCopy k n (fun q => { q with
          pos := p
          sleaf := if p < descLen m.src then ss.getLast?.bind fun e => stillIn e.1 (streamAddr m.src p).toNat else none
          dpages := if p < descLen m.dst then (ds.getLast?.bind fun e => stillIn e.1 (streamAddr m.dst p).toNat).toList else [] }) s

/-- A copy may move: it runs, is not at its end, and has its ring slots (08 R208). -/
def copyMoves (m : Copy) : Bool :=
  !m.suspended && m.ending.isNone && !m.landed && decide (m.pos < descLen m.src) && (!m.dst.rb || !m.slots.isEmpty)

/-- Command n of core k moves or reduces at most `len` bytes, up to whole elements, stopping at a fault (08 R204, R209, R211,
R212). The elements of one command are performed in stream order, those of different banks too.
DEDUCED, log 28. DESIGN CHOICE, log 114. -/
def copyReach (k n : Nat) : Nat → Nat → State → State
  | 0, _, s => s
  | fuel + 1, len, s =>
    match copyAt s k n with
    | none => s
    | some m =>
      if !copyMoves m || m.kind == 3 || len = 0 then s else
      let t := match m.kind with
        | 2 => reduceStep k n m s
        | _ => copyPiece k n m len s
      match copyAt t k n with
      | some q => if q.id = m.id && decide (m.pos < q.pos) then copyReach k n fuel (len - (q.pos - m.pos)) t else t
      | none => t

/-! Rings -/

/-- The distance of two 32-bit counters. -/
def ctrDiff (a b : Nat) : Nat := (a + 2 ^ 32 - b) % 2 ^ 32

/-- A ring has a free slot (08 R208). -/
def ringFree (r : Ring) : Bool := decide (ctrDiff r.claim r.rptr < r.n)

/-- The cores whose rings a copy claims: its own, or every receiver (08 R208, R209). -/
def ringCores (k : Nat) (m : Copy) : List Nat := if m.kind = 1 then receivers (k / 64) m.mask else [k]

/-- A copy claims its slots together once each ring has a free one (08 R208, R209). -/
def claimSlots (k n : Nat) (s : State) : State :=
  match copyAt s k n with
  | none => s
  | some m =>
    let ring (q : Nat) : Ring := (getCore s q).rings.getD m.dst.ring {}
    let qs := ringCores k m
    if !m.dst.rb || !m.slots.isEmpty || m.suspended || !qs.all (fun q => ringFree (ring q)) then s
    else
      let slots := qs.map fun q => (q, (ring q).claim)
      let s := foldS (fun q s => modCore q (fun x => { x with rings := x.rings.modify m.dst.ring fun r =>
        { r with claim := (r.claim + 1) % 2 ^ 32 } }) s) qs s
      modCopy k n (fun q => { q with slots := slots }) s

/-- WPTR advances past landed slots (08 R208). -/
def advanceRing : Nat → Ring → Ring
  | 0, r => r
  | fuel + 1, r =>
    if r.landed.contains r.wptr then
      advanceRing fuel { r with landed := r.landed.filter (· != r.wptr), wptr := (r.wptr + 1) % 2 ^ 32 }
    else r

/-- A slot has landed. -/
def slotLanded (slot : Nat) (r : Ring) : Ring := advanceRing 256 { r with landed := slot :: r.landed }

/-- WPTR has passed a slot. -/
def slotPassed (r : Ring) (slot : Nat) : Bool := !r.landed.contains slot && decide (ctrDiff r.wptr (slot + 1) < 2 ^ 31)

/-! Landing of a multicast -/

/-- A multicast whose stream has been moved lands: its ring slots, or the first word at every receiver (08 R209).
DEDUCED, log 29. -/
def cpymLand (k n : Nat) (s : State) : State :=
  match copyAt s k n with
  | none => s
  | some m =>
    if m.kind != 1 || m.suspended || m.ending.isSome || m.landed || decide (m.pos < descLen m.src) then s
    else if m.dst.rb then
      let s := foldS (fun q s => modCore q.1 (fun x => { x with rings := x.rings.modify m.dst.ring (slotLanded q.2) }) s) m.slots s
      modCopy k n (fun q => { q with landed := true }) s
    else
      let va := (streamAddr m.dst 0).toNat
      match reachDst m { w := true, kind := onlyScratch } va s with
      | (.error (code, a), s) => stopCopy k n m true code a s
      | (.ok e, s) =>
        let s := foldS (fun pa s => writeRunOn (dieOf m.ctx) .cp m.num pa (leafOkey e.leaf) m.ep false m.bytes s) (landPlaces m (e, va)) s
        modCopy k n (fun q => { q with landed := true, bytes := [], dpages := [] }) s

/-- A copy completes: its stream has landed, WPTR has passed its ring slots, its tag is set (08 R204, R208, R209). -/
def copyDone (k n : Nat) (s : State) : State :=
  match copyAt s k n with
  | none => s
  | some m =>
    if m.kind = 3 || m.suspended || m.ending.isSome || decide (m.pos < descLen m.src) || (m.kind = 1 && !m.landed) then s else
    let s := if m.landed || !m.dst.rb then s else
      foldS (fun q s => modCore q.1 (fun x => { x with rings := x.rings.modify m.dst.ring (slotLanded q.2) }) s) m.slots s
    let s := modCopy k n (fun q => { q with landed := true }) s
    if m.slots.all fun q => slotPassed ((getCore s q.1).rings.getD m.dst.ring {}) q.2 then endCopy k n m s else s

/-! Prefetch and windows -/

/-- Bring the DRAM lines of a run of bytes into their home slices, skipping pages that cannot be read (08 R200). -/
def fetchRun (m : Copy) : Nat → Nat → Nat → State → State
  | 0, _, _, s => s
  | fuel + 1, va, len, s =>
    if len = 0 then s else
    let d := dieOf m.ctx
    match reach m none { r := true } va s with
    | (.error _, s) =>
      let n := min len (65536 - va % 65536)
      fetchRun m fuel (va + n) (len - n) s
    | (.ok e, s) =>
      let n := min len (pageLeft e va)
      let wins := fun l => windowsOf s d l
      let key := keyTag s (leafOkey e.leaf)
      let s := if leafKind e.leaf = 0 then
          modDie d (fun x => (linesOf (placeOf e va) n).foldl (fun y l => touchLine (wins l) l m.ep false false key y) x) s
        else s
      fetchRun m fuel (va + n) (len - n) s

/-- A prefetch completes: every line is present or skipped, its tag is set (08 R200). -/
def prefetchDone (k n : Nat) (s : State) : State :=
  match copyAt s k n with
  | none => s
  | some m =>
    if m.kind ≠ 3 then s else
    let q := m.src
    let s := foldS (fun i s => fetchRun m (q.run / 65536 + 2) (streamAddr q (i * q.run)).toNat q.run s)
      (List.range (descLen q / max q.run 1)) s
    endCopy k n m s

/-- Hold a line in the slice of the window opened first among those that hold it (08 R198). -/
def placeLine (wins : List (Nat × Nat)) (line : Nat) (k : Config.KeyTag) (d : Die) : Die :=
  let old := d.basin.find? fun b => b.line == line
  let gone := evict line d
  let sl := homeOf gone wins line
  let d := { d with uses := d.uses + 1 }
  if (old.map (·.slice)) = some sl then
    { d with basin := d.basin.map fun b => if b.line = line then { b with pins := wins.map (·.1) } else b }
  else
    let d := { gone with uses := d.uses }
    let cap := cacheLines (d.slices.getD sl {})
    let held := (d.basin.filter fun b => b.slice == sl).length
    let d := if held < cap then d else match victim d sl with | some v => evict v.line d | none => d
    if cap ≤ (d.basin.filter fun b => b.slice == sl).length then d else
    let b : BLine := match old with
      | some b => if (b.okey, b.gen) = k then b else { b with okey := k.1, gen := k.2, stale := none }
      | none => { line := line, slice := sl, ep := 0, stamp := d.uses, okey := k.1, gen := k.2 }
    { d with basin := { b with slice := sl, pins := wins.map (·.1) } :: d.basin }

/-- Line n of window w of a context is fetched when its turn comes; lines that are unmapped or not in DRAM are skipped
(08 R198). The lines of a window are fetched in ascending order.
DESIGN CHOICE, log 105. -/
def pinFetch (c w n : Nat) (s : State) : State :=
  let p := (getCtx s c).pins.getD w {}
  let ss := slicesOf p.mask
  if !p.isOpen || n != p.next || decide (p.len.toNat ≤ 128 * n) then s else
  let d := dieOf c
  let va := (p.start + BitVec.ofNat 64 (128 * n)).toNat
  let s := modCtx c (fun x => { x with pins := x.pins.modify w fun q => { q with next := n + 1 } }) s
  match visit (tlbOf c) d (domOf s c) none {} va s with
  | (.error _, s) => s
  | (.ok e, s) =>
    if leafKind e.leaf ≠ 0 then s else
    let line := placeOf e va / 128
    let wins := windowsOf s d line
    let wins := if wins.any fun v => v.1 == p.age then wins else (p.age, ss.getD (n % max ss.length 1) 0) :: wins
    modDie d (placeLine wins line (keyTag s (leafOkey e.leaf))) s

/-- The drain of slice i ends if its time has come (08 R196). DEDUCED, log 25. -/
def endDrain (i : Nat) (d : Die) : Die :=
  let sl := d.slices.getD i {}
  match sl.drain with
  | none => d
  | some (n, till) =>
    if d.clock < till then d else
    let lo := directBase + i * 2097152 + min n sl.direct * 262144
    let hi := directBase + i * 2097152 + max n sl.direct * 262144
    let inside (a : Nat) : Bool := decide (lo ≤ a) && decide (a < hi)
    { d with
      mem := d.mem.filter (fun e => !inside e.1)
      poison := d.poison.filter (fun a => !inside a)
      unseen := dropUnseen lo hi d.unseen
      slices := d.slices.set i { sl with direct := n, drain := none } }

/-- `CPY` (R203) -/
def execCpy (dr sr : Bool) (ra rb : BitVec 6) (tag : BitVec 6) (s : State) : Result :=
  .next (lone (.cpy dr sr ra rb tag) (opCpy dr sr ra rb tag) s)

/-- `CPYM` (R209) -/
def execCpym (ra rb rc : BitVec 6) (tag : BitVec 6) (s : State) : Result :=
  .next (lone (.cpym ra rb rc tag) (opCpym ra rb rc tag) s)

/-- `CPYR` (R211) -/
def execCpyr (op : BitVec 6) (ra rb : BitVec 6) (tag : BitVec 6) (s : State) : Result :=
  .next (lone (.cpyr op ra rb tag) (opCpyr op ra rb tag) s)

/-- `RBINIT` (R207) -/
def execRbinit (ring : BitVec 5) (ra rb : BitVec 6) (s : State) : Result :=
  .next (lone (.rbinit ring ra rb) (opRbinit ring ra rb) s)


/-- `COPY_PAGE_REACH` (R212) -/
def execCopyPageReach (k n len : Nat) (s : State) : Result :=
  .next (onDie (k / 64) s (copyReach k n len len s))

/-- `COPY_COMPLETE` (R204) -/
def execCopyComplete (k n : Nat) (s : State) : Result :=
  .next (onDie (k / 64) s (copyDone k n s))

/-- `RING_SLOT_CLAIM` (R208) -/
def execRingSlotClaim (k n : Nat) (s : State) : Result :=
  .next (onDie (k / 64) s (claimSlots k n s))

/-- `CPYM_LANDING` (R209) -/
def execCpymLanding (k n : Nat) (s : State) : Result :=
  .next (onDie (k / 64) s (cpymLand k n s))

/-- `PREFETCH_COMPLETE` (R200) -/
def execPrefetchComplete (k n : Nat) (s : State) : Result :=
  .next (onDie (k / 64) s (prefetchDone k n s))

/-- `PIN_LINE_FETCH` (R198) -/
def execPinLineFetch (c w n : Nat) (s : State) : Result :=
  .next (onDie (dieOf c) s (pinFetch c w n s))

/-- `PHASE_DRAIN_END` (R196) -/
def execPhaseDrainEnd (d : Nat) (s : State) : Result :=
  .next (onDie d s (modDie d (fun x => (List.range 64).foldl (fun y i => endDrain i y) x) s))

end Sys2Proof.Machine
end

