-- ==== Sys2Proof/Machine/Send.lean ====
section
/-!
DEFINITION. Packets enter the send queues of a die: link keys, ranks, the numbers of a flow (spec 11 R270, R273; 13 R325).
-/

namespace Sys2Proof.Machine

open Sys2Proof

/-- The live link key of a program on a die (13 R325). -/
def linkSlot (s : State) (d top : Nat) : Option KeySlot := s.keys.find? fun k => k.state == .live && k.link && k.die == d && k.top == top

/-- The program of a top region has a live link key on a die (13 R325). -/
def linkOk (s : State) (d top : Nat) : Bool := (linkSlot s d top).isSome

/-- Which link key the program holds on a die. -/
def linkId (s : State) (d top : Nat) : Nat := ((linkSlot s d top).map (·.id)).getD 0

/-- The rank of a program on a die. -/
def progRank (d : Die) (top : Nat) : Nat := ((region? d top).map (·.rank)).getD 0

/-- The sequence number and the place among the strong packets that a flow gives next (11 R270). -/
def flowOf (d : Die) (top dst : Nat) : Nat × Nat :=
  ((d.flowSeq.find? fun e => e.1 == top && e.2.1 == dst).map (·.2.2)).getD (0, 0)

/-- A place in the die's order of issue. -/
def nextOrd (d : Nat) (s : State) : Nat × State := ((getDie s d).fbSeq, modDie d (fun x => { x with fbSeq := x.fbSeq + 1 }) s)

/-- A packet enters the send queue of its rank, numbered in its flow (11 R270, R273). -/
def enqueuePkt (d top c rid dst : Nat) (direct strong : Bool) (cmd cnt : Nat) (ctr : Option Nat) (pay : Pay) (s : State) : State :=
  let dd := getDie s d
  let (q, o) := flowOf dd top dst
  let p : Pkt :=
    { src := progRank dd top, dst := dst, top := 0, stop := top, pkg := 0, die := 0, spkg := s.pkg, sdie := d, ver := 0
      seq := q, ord := o, strong := strong, good := true, cmd := cmd, cnt := cnt, ctr := ctr, pay := pay }
  modDie d (fun x => { x with
    flowSeq := (top, dst, (q + 1) % 2 ^ 32, if strong then o + 1 else o) :: x.flowSeq.filter fun e => !(e.1 == top && e.2.1 == dst)
    sendq := x.sendq ++ [{ pkt := p, ctx := c, rid := rid, direct := direct }] }) s

end Sys2Proof.Machine
end

