-- ==== Sys2Proof/Machine/Eddy.lean ====
section
/-!
DEFINITION. The Eddy state-vector engine: issue, start, exchanges, gates, completion (spec 07 R169 to R183).
-/

namespace Sys2Proof.Machine

open Sys2Proof

/-! Issue -/

/-- Queue an Eddy command: 32 at most, alignment of the descriptor and of a second address, the tag (07 R181).
DEDUCED, log 15. -/
def issueEddy (i : Instr) (ra rb rc tag : BitVec 6) (al : Nat) : Op := fun s =>
  let c := s.cur
  let d := dieOf c
  let a := archOf s
  if 32 ≤ (getDie s d).eddy.length then .block .watched id
  else if (rdX a ra).toNat % 64 ≠ 0 then .trap 0x07 (rdX a ra)
  else if (rdX a rb).toNat % al ≠ 0 then .trap 0x07 (rdX a rb)
  else if !tagFree tag s then .trap 0x0A 0#64
  else
    let (id, s) := nextOp c (startTag c tag.toNat s)
    .ok (modDie d (fun x => { x with eddy := x.eddy ++
      [{ id := id, ctx := c, top := domOf s c, tag := tag.toNat, level := levelOf s, instr := i
         xa := rdX a ra, xb := rdX a rb, xc := rdX a rc }] }) s)

def opSvinit (ra rb tag : BitVec 6) : Op := issueEddy (.svinit ra rb tag) ra rb 0#6 tag 1
def opSvapply (ra rb tag : BitVec 6) : Op := issueEddy (.svapply ra rb tag) ra rb 0#6 tag 64
def opSvdiag (ra rb tag : BitVec 6) : Op := issueEddy (.svdiag ra rb tag) ra rb 0#6 tag 64
def opSvprob (ra rb rc tag : BitVec 6) : Op := issueEddy (.svprob ra rb rc tag) ra rb rc tag 8
def opSvnorm (ra rb tag : BitVec 6) : Op := issueEddy (.svnorm ra rb tag) ra rb 0#6 tag 1
def opSvmap (ra rb tag : BitVec 6) : Op := issueEddy (.svmap ra rb tag) ra rb 0#6 tag 64

/-! Descriptors and records -/

def svLB (n : Nat) : Nat := nbits n 72 8
def svDB (n : Nat) : Nat := nbits n 80 8
def svPB (n : Nat) : Nat := nbits n 88 8
def svNQ (n : Nat) : Nat := nbits n 64 8
def svBase (n : Nat) : Nat := nbits n 0 64
def svGroup (n : Nat) : Nat := nbits n 96 16
def svSerial (n : Nat) : Nat := nbits n 128 32
/-- The map of a descriptor, NQ entries (07 R172). -/
def svMap (n : Nat) : List Nat := (List.range (svNQ n)).map fun q => nbits n (160 + 8 * q) 8

/-- A list is a permutation of 0 to n−1. -/
def isPerm (n : Nat) (l : List Nat) : Bool := l.length == n && (List.range n).all fun i => l.contains i

/-- The rules of R171 to R173; `perm`: the permutation is checked too, and with it that the bytes of MAP behind it are zero.
DESIGN CHOICE, log 115. -/
def descValid (d : Die) (top : Nat) (perm : Bool) (n : Nat) : Bool :=
  let nq := svNQ n
  nbits n 496 16 == 0 && nbits n 112 16 == 0
    && decide (1 ≤ svLB n) && decide (svLB n ≤ 32) && decide (svDB n ≤ 2) && decide (svPB n ≤ 8)
    && nq == svLB n + svDB n + svPB n && decide (nq ≤ 42) && svBase n % 256 == 0
    && (match group? d top (svGroup n) with
        | some g => g.ranks.length == 2 ^ (svDB n + svPB n) && g.ranks.contains (progRank d top)
        | none => false)
    && (!perm || (isPerm nq (svMap n) && (List.range (42 - nq)).all fun q => nbits n (160 + 8 * (nq + q)) 8 == 0))

/-- The member index of the issuing rank. -/
def svMember (d : Die) (m : EddyCmd) : Nat := ((group? d m.top (svGroup m.desc)).map (·.self)).getD 0

/-- The fields of a gate record (07 R177). -/
def gateK (g : List Byte) : Nat := natOf (g.take 1)
def gateTgt (g : List Byte) : List Nat := (List.range (gateK g)).map fun j => natOf ((g.drop (1 + j)).take 1)
def gateMask (g : List Byte) : Nat := natOf ((g.drop 8).take 8)
def gateVal (g : List Byte) : Nat := natOf ((g.drop 16).take 8)
/-- Entry e of a record: real and imaginary parts. -/
def gateEntry (g : List Byte) (e : Nat) : Nat × Nat :=
  (natOf ((g.drop (64 + 8 * e)).take 4), natOf ((g.drop (68 + 8 * e)).take 4))

/-- A gate record is valid (07 R177). -/
def gateValid (nq : Nat) (g : List Byte) : Bool :=
  let k := gateK g
  let ts := gateTgt g
  decide (1 ≤ k) && decide (k ≤ 3) && ts.eraseDups.length == k && ts.all (fun t => decide (t < nq) && !(gateMask g).testBit t)
    && (List.range (3 - k)).all (fun j => natOf ((g.drop (1 + k + j)).take 1) == 0)
    && decide (gateMask g < 2 ^ nq) && gateVal g &&& gateMask g == gateVal g
    && natOf ((g.drop 4).take 4) == 0 && natOf ((g.drop 24).take 40) == 0

/-- Control qubits of a record. -/
def controls (nq : Nat) (g : List Byte) : List Nat := (List.range nq).filter fun q => (gateMask g).testBit q

/-! Swaps -/

/-- The logical qubits on two physical bits trade places (07 R174). -/
def tradeBits (p1 p2 : Nat) (map : List Nat) : List Nat := map.map fun p => if p = p1 then p2 else if p = p2 then p1 else p

/-- The highest local bit that is not excluded (07 R176). -/
def victimBit (lb : Nat) (ex : List Nat) : Option Nat := ((List.range lb).reverse.find? fun b => !ex.contains b)

/-- The exchanges of a gate: targets in order, each with its victim; none when no victim remains (07 R176). -/
def gatePlan (lb : Nat) (ex map : List Nat) : List Nat → List Nat → Option (List (Nat × Nat))
  | [], _ => some []
  | t :: ts, chosen =>
    let p := map.getD t 0
    if p < lb then gatePlan lb ex map ts chosen else
    match victimBit lb (ex ++ chosen) with
    | none => none
    | some b => (gatePlan lb ex map ts (b :: chosen)).map fun r => (b, p) :: r

/-- The swaps of SVMAP (07 R179): local, exchange, or through a victim not chosen before; none when no victim remains
(07 R176). -/
def mapPlan (lb : Nat) (tgt : List Nat) : List Nat → List Nat → List Nat → Option (List (Nat × Nat))
  | [], _, _ => some []
  | q :: qs, map, chosen =>
    let p := map.getD q 0
    let t := tgt.getD q 0
    let rest := mapPlan lb tgt qs (tradeBits p t map)
    if p = t then rest chosen
    else if p < lb || t < lb then (rest chosen).map fun r => (min p t, max p t) :: r
    else match victimBit lb chosen with
      | none => none
      | some b => (rest (b :: chosen)).map fun r => (b, p) :: (b, t) :: (b, p) :: r

/-! Amplitudes -/

/-- The bytes of amplitudes as pairs of FP32 bits. -/
def ampsOf : List Byte → List (Nat × Nat)
  | a :: b :: c :: d :: e :: f :: g :: h :: r => (natOf [a, b, c, d], natOf [e, f, g, h]) :: ampsOf r
  | _ => []

def bytesOfAmps (as : List (Nat × Nat)) : List Byte := as.flatMap fun a => bytesOf 4 a.1 ++ bytesOf 4 a.2

/-- An index with two bits interchanged. -/
def swapIndex (p1 p2 i : Nat) : Nat :=
  if i.testBit p1 = i.testBit p2 then i else (i ^^^ 2 ^ p1) ^^^ 2 ^ p2

/-- Two local bits are swapped within the array (07 R179). -/
def swapLocal (p1 p2 : Nat) (as : Array (Nat × Nat)) : Array (Nat × Nat) :=
  ((List.range as.size).map fun i => as.getD (swapIndex p1 p2 i) (0, 0)).toArray

/-- Positions that an exchange sends and receives: local bit b is not v (07 R174). -/
def sentPositions (lb b : Nat) (v : Bool) : List Nat := (List.range (2 ^ lb)).filter fun i => i.testBit b != v

def f32 (n : Nat) : Fx := fxOf ffF32 n

/-- CDot (07 R178). -/
def cdot (ua : List ((Nat × Nat) × (Nat × Nat))) : (Nat × Nat) × BitVec 8 :=
  ua.foldl (fun acc e =>
    let ((re, im), fl) := acc
    let (u, a) := e
    let (r1, g1) := fmaR ffF32 (f32 u.1) (f32 a.1) (f32 re) false false .rne 0
    let (r2, g2) := fmaR ffF32 (f32 u.2) (f32 a.2) (f32 r1) true false .rne 0
    let (i1, h1) := fmaR ffF32 (f32 u.1) (f32 a.2) (f32 im) false false .rne 0
    let (i2, h2) := fmaR ffF32 (f32 u.2) (f32 a.1) (f32 i1) false false .rne 0
    ((r2, i2), fl ||| g1 ||| g2 ||| h1 ||| h2)) ((0, 0), 0#8)

/-- The value of physical bit p of the amplitude at position i of member mem. -/
def physBit (lb mem p i : Nat) : Bool := if p < lb then i.testBit p else mem.testBit (p - lb)

/-- Every control has its value at position i (07 R179). -/
def controlsMet (lb mem nq : Nat) (map : List Nat) (g : List Byte) (i : Nat) : Bool :=
  (controls nq g).all fun q => physBit lb mem (map.getD q 0) i == (gateVal g).testBit q

/-- Positions with index bits spread over the bits ps. -/
def spread (ps : List Nat) (c : Nat) : Nat :=
  (ps.zipIdx.filter fun e => c.testBit e.2).foldl (fun n e => n + 2 ^ e.1) 0

/-- A gate on local bits (07 R179): the array and its flags. -/
def applyGate (lb mem nq : Nat) (map : List Nat) (g : List Byte) (as : Array (Nat × Nat)) : Array (Nat × Nat) × BitVec 8 :=
  let k := gateK g
  let ps := (gateTgt g).map fun t => map.getD t 0
  let n := 2 ^ k
  (List.range (2 ^ lb)).foldl (fun (acc : Array (Nat × Nat) × BitVec 8) i =>
    if ps.any (fun p => i.testBit p) || !controlsMet lb mem nq map g i then acc else
    let a := (List.range n).map fun c => acc.1.getD (i + spread ps c) (0, 0)
    let out := (List.range n).map fun r => cdot (((List.range n).map fun c => gateEntry g (n * r + c)).zip a)
    (out.zipIdx.foldl (fun arr e => arr.setIfInBounds (i + spread ps e.2) e.1.1) acc.1,
     out.foldl (fun f e => f ||| e.2) acc.2)) (as, 0#8)

/-- A diagonal gate (07 R179). -/
def applyDiag (lb mem nq : Nat) (map : List Nat) (g : List Byte) (as : Array (Nat × Nat)) : Array (Nat × Nat) × BitVec 8 :=
  let ps := (gateTgt g).map fun t => map.getD t 0
  (List.range (2 ^ lb)).foldl (fun (acc : Array (Nat × Nat) × BitVec 8) i =>
    if !controlsMet lb mem nq map g i then acc else
    let c := (ps.zipIdx.filter fun e => physBit lb mem e.1 i).foldl (fun n e => n + 2 ^ e.2) 0
    let (y, fl) := cdot [(gateEntry g c, acc.1.getD i (0, 0))]
    (acc.1.setIfInBounds i y, acc.2 ||| fl)) (as, 0#8)

/-- re² + im², rounded once (07 R179). -/
def ampProb (a : Nat × Nat) : Nat × BitVec 8 :=
  let (x, f) := mulFx (f32 a.1) (f32 a.1)
  let (y, g) := mulFx (f32 a.2) (f32 a.2)
  let (z, h) := sumFx [x, y] false
  let (r, e) := roundTo ffF32 z .rne 0
  (r, f ||| g ||| h ||| e)

/-- The blocks of a list. -/
def chunks {α : Type} (n : Nat) : Nat → List α → List (List α)
  | 0, _ => []
  | k + 1, l => l.take n :: chunks n k (l.drop n)

/-- Block sums by Tree64, then added from the lowest block upwards (07 R179). -/
def blockSum (lb : Nat) (xs : List Nat) : Nat × BitVec 8 :=
  let w := min lb 6
  let sums := (chunks (2 ^ w) (2 ^ (lb - w)) xs).map (tree64 ffF32 .rne w)
  match sums with
  | [] => (0, 0#8)
  | x :: rest => rest.foldl (fun acc e =>
      let (y, g) := addR ffF32 (fxOf ffF32 acc.1) (fxOf ffF32 e.1) .rne 0
      (y, acc.2 ||| e.2 ||| g)) x

/-- −0 as FP32 bits. -/
def negZero : Nat := 0x80000000

/-- The two sums of SVPROB for physical bit p (07 R179). -/
def probSums (lb mem p : Nat) (as : List (Nat × Nat)) : (Nat × Nat) × BitVec 8 :=
  let ps := as.map ampProb
  let pick (v : Bool) : List Nat := ps.zipIdx.map fun e => if physBit lb mem p e.2 == v then e.1.1 else negZero
  let fl := ps.foldl (fun f e => f ||| e.2) 0#8
  if p < lb then
    let (a, f) := blockSum lb (pick false)
    let (b, g) := blockSum lb (pick true)
    ((a, b), fl ||| f ||| g)
  else
    let v := mem.testBit (p - lb)
    let (a, f) := blockSum lb (pick v)
    (if v then (negZero, a) else (a, negZero), fl ||| f)

/-! The engine -/

/-- Place of the command that the engine runs. -/
def eddyRunning (d : Die) : Option Nat := d.eddy.findIdx? fun e => e.started && !e.suspended

/-- Place of the command that the engine takes next: no earlier command of its context is suspended (07 R181). -/
def eddyNext (d : Die) : Option Nat :=
  (List.range d.eddy.length).find? fun n => match d.eddy[n]? with
    | some e => !e.suspended && e.ending.isNone && !(d.eddy.take n).any fun f => f.ctx == e.ctx && (f.suspended || f.ending.isSome)
    | none => false

def modEddy (d n : Nat) (f : EddyCmd → EddyCmd) (s : State) : State :=
  modDie d (fun x => { x with eddy := x.eddy.modify n f }) s

/-- A command ends: with its tag set, or, its state being lost, with the tag left as it is (07 R181). -/
def endEddy (d n : Nat) (m : EddyCmd) (lost : Bool) (s : State) : State :=
  let s := modDie d (fun x => { x with eddy := x.eddy.eraseIdx n }) s
  if lost then
    modCtx m.ctx (fun x => if x.level = 1 && m.level = 0 then { x with busy0 := clearBit x.busy0 m.tag }
                           else { x with busy := clearBit x.busy m.tag }) s
  else completeTag m.ctx m.level m.tag s

/-- A fault of the start phase: nothing has changed, the command waits suspended and restarts (07 R181). -/
def eddySuspend (d n : Nat) (m : EddyCmd) (code : Nat) (addr : Nat) (s : State) : State :=
  let a := BitVec.ofNat 64 addr
  let ok := canDeliver s m.ctx m.level
  let s := modEddy d n (fun e => { e with
    started := false, suspended := true, shaken := false, dsegs := [], segs := [], rsegs := []
    ending := if ok then none else some ⟨codeWord code 0 true, a⟩ }) s
  if ok then deliver m.ctx m.level code 0 a s else s

/-- The exchange that a running command waits for: local bit, global bit. -/
def pendingExchange (m : EddyCmd) : Option (Nat × Nat) :=
  match m.swaps with
  | (p, g) :: _ => if m.started && !m.finished && decide (svLB m.desc ≤ g) then some (p, g) else none
  | [] => none

/-- The rank of the partner of an exchange on global bit g (07 R174). -/
def partnerOf (d : Die) (m : EddyCmd) (g : Nat) : Nat :=
  memberRank d m.top (svGroup m.desc) (svMember d m ^^^ 2 ^ (g - svLB m.desc))

/-- What a die knows of a rank with which it exchanges. -/
def svPeer (d : Die) (top rank : Nat) : SvPeer :=
  (d.svPeers.find? fun p => p.top == top && p.rank == rank).getD { top := top, rank := rank }

def setPeer (p : SvPeer) (d : Die) : Die :=
  { d with svPeers := p :: d.svPeers.filter fun q => !(q.top == p.top && q.rank == p.rank) }

/-- An exchange with a rank is over: what belongs to it and comes later is stale. -/
def closePeer (lost : Bool) (top rank : Nat) (d : Die) : Die :=
  let p := svPeer d top rank
  setPeer { p with next := p.next + 1, lost := lost } d

/-- What the partner's handshake says if both agree (07 R175). -/
def shakeOf (d : Die) (m : EddyCmd) (p g : Nat) : Shake :=
  { top := m.top, src := partnerOf d m g, gid := svGroup m.desc, serial := m.serial, b := p, g := g }

/-- A handshake from the partner of a running command's exchange. -/
def fromPartner (h t : Shake) : Bool := h.top == t.top && h.src == t.src

/-- What has arrived from a rank is dropped, and what still comes of the same exchange. -/
def dropHeard (top rank : Nat) (d : Die) : Die :=
  setPeer { svPeer d top rank with live := false } { d with
    shakes := d.shakes.filter fun h => !(h.top == top && h.src == rank)
    halves := d.halves.filter fun h => !(h.1.top == top && h.1.src == rank) }

/-- The open exchange of a command is lost, with what has arrived for it (07 R181); the handshake of a partner that has
gone on to the next exchange stays. -/
def loseExchange (m : EddyCmd) (d : Die) : Die :=
  match pendingExchange m with
  | some (p, g) =>
    let want := shakeOf d m p g
    let q := svPeer d m.top want.src
    closePeer true m.top want.src (if q.next < q.heard then
        { d with shakes := if m.shaken then d.shakes else d.shakes.eraseP (fromPartner want)
                 halves := d.halves.filter fun h => h.1 != want }
      else dropHeard m.top want.src d)
  | none => d

/-- A fault after an exchange or a write has begun ends the command without its tag (07 R181).
DESIGN CHOICE, log 35. -/
def eddyLost (d n : Nat) (m : EddyCmd) (code arg : Nat) (addr : Nat) (s : State) : State :=
  let a := BitVec.ofNat 64 addr
  let s := modDie d (loseExchange m) s
  if canDeliver s m.ctx m.level then endEddy d n m true (deliver m.ctx m.level code arg a s)
  else modEddy d n (fun e => { e with
    started := false, dsegs := [], segs := [], rsegs := [], ending := some ⟨codeWord code arg true, a⟩ }) s

/-- Read a run on the SV path for the start of a command: bytes and pages, or the fault. -/
def svRead (c : Nat) (nd : Need) (va len : Nat) (s : State) : Except (Nat × Nat) (List Byte × List Seg) × State :=
  match checkAccess c nd (BitVec.ofNat 64 va) len s with
  | (.error e, s) => (.error e, s)
  | (.ok segs, s) =>
    match readSegs (dieOf c) .sv 0 false segs s with
    | (_, some g, s) => (.error (0x18, vaOf segs g), s)
    | (bs, none, s) => (.ok (bs, segs), s)

/-- Page formats of amplitude streams and of the result (03 R75; 07 R179). -/
def fmtAmp (f : Nat) : Bool := f == 0 || f == 7
def fmtRes (f : Nat) : Bool := f == 0 || f == 1

/-- The second structure that a command reads at its start: gate record or target map (07 R177, R179). -/
def svSecond (m : EddyCmd) (nq : Nat) (s : State) : Except (Nat × Nat) (List Byte) × State :=
  let c := m.ctx
  let bad : Except (Nat × Nat) (List Byte) := .error (0x01, m.xa.toNat)
  let record (n : Nat → Nat) : Except (Nat × Nat) (List Byte) × State :=
    match svRead c { r := true } m.xb.toNat 64 s with
    | (.error e, s) => (.error e, s)
    | (.ok (hd, _), s) =>
      if !gateValid nq hd then (bad, s) else
      match svRead c { r := true } (m.xb.toNat + 64) (8 * n (gateK hd)) s with
      | (.error e, s) => (.error e, s)
      | (.ok (es, _), s) => (.ok (hd ++ es), s)
  match m.instr with
  | .svapply .. => record fun k => 4 ^ k
  | .svdiag .. => record fun k => 2 ^ k
  | .svmap .. =>
    match svRead c { r := true } m.xb.toNat 64 s with
    | (.error e, s) => (.error e, s)
    | (.ok (bs, _), s) =>
      let t := (bs.take nq).map (·.toNat)
      if isPerm nq t && (bs.drop nq).all (· == 0#8) then (.ok bs, s) else (bad, s)
  | _ => (.ok [], s)

/-- The swaps that a command makes; none when a target finds no victim. -/
def svPlan (m : EddyCmd) (n : Nat) (g : List Byte) : Option (List (Nat × Nat)) :=
  let lb := svLB n
  let map := svMap n
  match m.instr with
  | .svapply .. =>
    let ex := (gateTgt g ++ controls (svNQ n) g).map fun q => map.getD q 0
    gatePlan lb ex map (gateTgt g) []
  | .svmap .. => mapPlan lb (g.map (·.toNat)) (List.range (svNQ n)) map []
  | _ => some []

/-- The operand limits of SVINIT and SVPROB (07 R179): a qubit out of range is the fault of an index out of range.
DESIGN CHOICE, log 115. -/
def svOperandOk (m : EddyCmd) (nq : Nat) : Bool :=
  match m.instr with
  | .svinit .. => decide (m.xb.toNat < 2 ^ nq)
  | .svprob .. => decide (m.xc.toNat < nq)
  | _ => true

/-- The array of a command, or the address of a poisoned amplitude. -/
def svArray (d : Nat) (m : EddyCmd) (s : State) : Array (Nat × Nat) × Option Nat × State :=
  let (bs, po, s) := readSegs d .sv 0 false m.segs s
  ((ampsOf bs).toArray, po.map (vaOf m.segs), s)

/-- The local array is written (07 R181, R182): the model's chunk is the whole array.
DESIGN CHOICE, log 35. -/
def svStore (d : Nat) (m : EddyCmd) (as : Array (Nat × Nat)) (s : State) : State :=
  writeSegs d .sv (opNum m.ctx m.id) 0 false m.segs (bytesOfAmps as.toList) s

/-- A poisoned amplitude has been read (07 R181). -/
def svPoison (d n : Nat) (m : EddyCmd) (a : Nat) (s : State) : State := eddyLost d n m 0x18 0 a s

/-- The arithmetic of a command whose swaps are made (07 R179). -/
def eddyWork (d n : Nat) (m : EddyCmd) (s : State) : State :=
  let lb := svLB m.desc
  let nq := svNQ m.desc
  let mem := svMember (getDie s d) m
  let done (s : State) (fl : BitVec 8) (map : List Nat) (serial : Nat) : State :=
    modEddy d n (fun e => { e with finished := true, flags := fl, map := map, serial := serial }) s
  match m.instr with
  | .svinit .. =>
    let k := m.xb.toNat
    let one (i : Nat) : Nat × Nat := if k / 2 ^ lb = mem && i = k % 2 ^ lb then (0x3F800000, 0) else (0, 0)
    done (svStore d m ((List.range (2 ^ lb)).map one).toArray s) 0#8 (List.range nq) 0
  | .svmap .. => done s 0#8 m.map m.serial
  | _ =>
    match svArray d m s with
    | (_, some a, s) => svPoison d n m a s
    | (as, none, s) =>
      match m.instr with
      | .svapply .. =>
        let (out, fl) := applyGate lb mem nq m.map m.gate as
        done (svStore d m out s) fl m.map m.serial
      | .svdiag .. =>
        let (out, fl) := applyDiag lb mem nq m.map m.gate as
        done (svStore d m out s) fl m.map m.serial
      | .svprob .. =>
        let ((a, b), fl) := probSums lb mem (m.map.getD m.xc.toNat 0) as.toList
        done (writeSegs d .sv (opNum m.ctx m.id) 0 false m.rsegs (bytesOf 4 a ++ bytesOf 4 b) s) fl m.map m.serial
      | _ =>
        let f := f32 (bitsN m.xb 31 0)
        let out := as.toList.map fun a =>
          let (r, g) := mulR ffF32 f (f32 a.1) .rne 0
          let (i, h) := mulR ffF32 f (f32 a.2) .rne 0
          ((r, i), g ||| h)
        done (svStore d m (out.map (·.1)).toArray s) (out.foldl (fun f e => f ||| e.2) 0#8) m.map m.serial

/-- A strong packet of a command leaves for the partner of its exchange, wherever it stands (07 R170, R175). -/
def svSend (d : Nat) (m : EddyCmd) (g : Nat) (pay : Pay) (s : State) : State :=
  let (o, s) := nextOrd d s
  enqueuePkt d m.top m.ctx (ridOf s m.ctx) (partnerOf (getDie s d) m g) false true o 1 none pay s

/-- An exchange opens with a handshake, numbered among those of the pair; the number of one that the partner has opened and
this rank has not is taken over (07 R175).
DESIGN CHOICE, log 116. -/
def openExchange (d : Nat) (m : EddyCmd) (p g : Nat) (s : State) : State :=
  let x := getDie s d
  let q := svPeer x m.top (partnerOf x m g)
  let no := max q.next q.heard
  svSend d m g (.shake (svGroup m.desc) m.serial p g no q.lost) (modDie d (setPeer { q with next := no, lost := false }) s)

/-- Local swaps are made; an exchange opens with a handshake that is sent (07 R175, R179). -/
def eddyAdvance (d n : Nat) : Nat → State → State
  | 0, s => s
  | fuel + 1, s =>
    match (getDie s d).eddy[n]? with
    | none => s
    | some m =>
      match m.swaps with
      | [] => eddyWork d n m s
      | (p, g) :: rest =>
        if g < svLB m.desc then
          match svArray d m s with
          | (_, some a, s) => svPoison d n m a s
          | (as, none, s) =>
            let s := svStore d m (swapLocal p g as) s
            eddyAdvance d n fuel (modEddy d n (fun e => { e with swaps := rest, map := tradeBits p g e.map, begun := true }) s)
        else openExchange d m p g s

/-- What a command needs of its array (07 R179). -/
def svNeed (m : EddyCmd) : Need :=
  match m.instr with
  | .svinit .. => { w := true, fmt := fmtAmp }
  | .svprob .. => { r := true, fmt := fmtAmp }
  | _ => { r := true, w := true, fmt := fmtAmp }

/-- The page of a second structure, when its contents cannot be judged yet. -/
def svPeek (m : EddyCmd) (s : State) : Except (Nat × Nat) (List Byte) × State :=
  match m.instr with
  | .svapply .. | .svdiag .. | .svmap .. =>
    match svRead m.ctx { r := true } m.xb.toNat 64 s with
    | (.error e, s) => (.error e, s)
    | (.ok (bs, _), s) => (.ok bs, s)
  | _ => (.ok [], s)

/-- The place of the result of SVPROB (07 R179). -/
def svResult (m : EddyCmd) (s : State) : Except (Nat × Nat) (List Seg) × State :=
  match m.instr with
  | .svprob .. => checkAccess m.ctx { w := true, fmt := fmtRes } m.xb 8 s
  | _ => (.ok [], s)

/-- The failure of a check. -/
def failOf {α : Type} : Except (Nat × Nat) α → Option (Nat × Nat)
  | .error e => some e
  | .ok _ => none

/-- Of the failures of a start, the one with the lowest address (07 R181). -/
def lowestFault (fs : List (Option (Nat × Nat))) : Option (Nat × Nat) :=
  (fs.filterMap id).foldl (fun best f => match best with
    | none => some f
    | some b => if f.2 < b.2 then some f else some b) none

/-- What a start has read: descriptor, its pages, second structure, swaps, pages of the array and the result. -/
structure SvStart where
  desc : Nat
  dsegs : List Seg
  gate : List Byte
  swaps : List (Nat × Nat)
  segs : List Seg
  rsegs : List Seg

/-- The checks of a start: every structure that can be judged is, and the lowest failing address is the fault's; that of
0x01 is the descriptor's (07 R181), and the fault of a plan without a victim counts only where nothing else fails.
DESIGN CHOICE, log 115. -/
def svCheck (d : Nat) (m : EddyCmd) (s : State) : Except (Nat × Nat) SvStart × State :=
  let init := match m.instr with | .svinit .. => true | _ => false
  let fail (fs : List (Option (Nat × Nat))) : Except (Nat × Nat) SvStart := .error ((lowestFault fs).getD (0x01, m.xa.toNat))
  let (res, s) := svResult m s
  match svRead m.ctx { r := true, w := true } m.xa.toNat 64 s with
  | (.error e, s) =>
    let (g, s) := svPeek m s
    (fail [some e, failOf g, failOf res], s)
  | (.ok (bs, dsegs), s) =>
    let q := natOf bs
    if !descValid (getDie s d) m.top (!init) q || !svOperandOk m (svNQ q) then
      let (g, s) := svPeek m s
      (fail [some (0x01, m.xa.toNat), failOf g, failOf res], s)
    else
      let (g, s) := svSecond m (svNQ q) s
      let (arr, s) := checkAccess m.ctx (svNeed m) (BitVec.ofNat 64 (svBase q)) (8 * 2 ^ svLB q) s
      match g, arr, res with
      | .ok gate, .ok segs, .ok rsegs =>
        match svPlan m q gate with
        | some swaps => (.ok ⟨q, dsegs, gate, swaps, segs, rsegs⟩, s)
        | none => (fail [], s)
      | _, _, _ => (fail [failOf g, failOf arr, failOf res], s)

/-- EDDY_COMMAND_START: the structures are read and checked, every page is translated (07 R181). -/
def eddyStart (d : Nat) (s : State) : State :=
  match eddyRunning (getDie s d), eddyNext (getDie s d) with
  | none, some n =>
    match (getDie s d).eddy[n]? with
    | none => s
    | some m =>
      match svCheck d m s with
      | (.error (code, a), s) => eddySuspend d n m code a s
      | (.ok r, s) =>
        eddyAdvance d n (r.swaps.length + 1) (modEddy d n (fun e => { e with
          started := true, desc := r.desc, gate := r.gate, swaps := r.swaps, map := svMap r.desc, serial := svSerial r.desc
          dsegs := r.dsegs, segs := r.segs, rsegs := r.rsegs, shaken := false, begun := false }) s)
  | _, _ => s

/-- A handshake differs (07 R175): the fault of the start phase, or the end of a command that has begun.
DESIGN CHOICE, log 35. -/
def eddyMismatch (d n : Nat) (m : EddyCmd) (s : State) : State :=
  if m.begun then eddyLost d n m 0x12 (svGroup m.desc) m.xa.toNat s
  else
    let a := BitVec.ofNat 64 m.xa.toNat
    let ok := canDeliver s m.ctx m.level
    let s := match pendingExchange m with
      | some (_, g) => modDie d (fun x => closePeer false m.top (partnerOf x m g) x) s
      | none => s
    let s := modEddy d n (fun e => { e with
      started := false, suspended := true, shaken := false, dsegs := [], segs := [], rsegs := []
      ending := if ok then none else some ⟨codeWord 0x12 (svGroup m.desc) true, a⟩ }) s
    if ok then deliver m.ctx m.level 0x12 (svGroup m.desc) a s else s

/-- The amplitudes that this rank sends, in ascending position (07 R174). -/
def sentAmps (m : EddyCmd) (mem p g : Nat) (as : Array (Nat × Nat)) : List (Nat × Nat) :=
  (sentPositions (svLB m.desc) p (mem.testBit (g - svLB m.desc))).map fun i => as.getD i (0, 0)

/-- Received amplitudes take the places of those sent; MAP and SERIAL step (07 R174). -/
def takeAmps (d n : Nat) (m : EddyCmd) (mem p g : Nat) (got : List (Nat × Nat)) (as : Array (Nat × Nat)) (s : State) : State :=
  let ps := sentPositions (svLB m.desc) p (mem.testBit (g - svLB m.desc))
  let out := (ps.zip got).foldl (fun (a : Array (Nat × Nat)) e => a.setIfInBounds e.1 e.2) as
  let s := modDie d (fun x => closePeer false m.top (partnerOf x m g) x) (svStore d m out s)
  eddyAdvance d n (m.swaps.length + 1) (modEddy d n (fun e => { e with
    swaps := e.swaps.drop 1, map := tradeBits p g e.map, serial := (e.serial + 1) % 2 ^ 32, shaken := false, begun := true }) s)

/-- The command that the engine runs, with its place. -/
def eddyHead (s : State) (d : Nat) : Option (Nat × EddyCmd) :=
  (eddyRunning (getDie s d)).bind fun n => ((getDie s d).eddy[n]?).map fun m => (n, m)

/-- The running command's exchange: place, command, local bit, global bit. -/
def exchanging (s : State) (d : Nat) : Option (Nat × EddyCmd × Nat × Nat) :=
  (eddyHead s d).bind fun e => (pendingExchange e.2).map fun b => (e.1, e.2, b.1, b.2)

/-- Bytes that one side of an exchange sends: half of the array (07 R174). -/
def halfBytes (m : EddyCmd) : Nat := 4 * 2 ^ svLB m.desc

/-- The amplitudes leave for the partner in packets (07 R174, R175; 11 R270). -/
def sendHalf (d : Nat) (m : EddyCmd) (p g : Nat) (bs : List Byte) (s : State) : State :=
  foldS (fun b s => svSend d m g (.amps (svGroup m.desc) m.serial p g b) s) (chunks 4096 ((bs.length + 4095) / 4096) bs) s

/-- What the partner of an exchange said first, of what has reached the die (07 R175). -/
def heardShake (x : Die) (want : Shake) : Option Shake := x.shakes.find? fun h => fromPartner h want

/-- EXCHANGE_HANDSHAKE: the partner's handshake, which may have come before this rank's command, meets the running
command's exchange: a difference is 0x12, else this rank's half leaves (07 R174, R175). The event names what the
handshake says, and one that has not come changes nothing. -/
def eddyShake (d gid serial b gb : Nat) (s : State) : State :=
  match exchanging s d with
  | none => s
  | some (n, m, p, g) =>
    let want := shakeOf (getDie s d) m p g
    match m.shaken, (heardShake (getDie s d) want).filter (· == { want with gid := gid, serial := serial, b := b, g := gb }) with
    | false, some h =>
      let s := modDie d (fun x => { x with shakes := x.shakes.erase h }) s
      if h ≠ want then eddyMismatch d n m s else
      match svArray d m s with
      | (_, some a, s) => svPoison d n m a s
      | (as, none, s) =>
        sendHalf d m p g (bytesOfAmps (sentAmps m (svMember (getDie s d) m) p g as)) (modEddy d n (fun x => { x with shaken := true }) s)
    | _, _ => s

/-- The half that has arrived whole for a running command's exchange. -/
def halfOf (d : Die) (m : EddyCmd) (p g : Nat) : Option (List Byte) :=
  ((d.halves.find? fun h => h.1 == shakeOf d m p g).map (·.2)).filter fun bs => bs.length == halfBytes m

/-- EXCHANGE_DATA: the partner's half has arrived whole and takes the places of the one sent (07 R174); data
that have not arrived change nothing. -/
def eddyData (d : Nat) (data : List Byte) (s : State) : State :=
  match exchanging s d with
  | none => s
  | some (n, m, p, g) =>
    match m.shaken, (halfOf (getDie s d) m p g).filter (· == data) with
    | true, some bs =>
      match svArray d m s with
      | (_, some a, s) => svPoison d n m a s
      | (as, none, s) =>
        let mem := svMember (getDie s d) m
        let s := modDie d (fun x => { x with halves := x.halves.filter fun h => h.1 != shakeOf x m p g }) s
        takeAmps d n m mem p g (ampsOf bs) as s
    | _, _ => s

/-- A handshake reaches the die, number `no` of the pair (07 R175). One of an exchange that is over here is stale and
dropped. One whose sender has lost the exchange before it ends what had come of that, and an exchange that is open here
opens again under the new number.
DESIGN CHOICE, log 116. -/
def hearShake (d : Nat) (h : Shake) (no : Nat) (lost : Bool) (s : State) : State :=
  let p := svPeer (getDie s d) h.top h.src
  if no < p.next then modDie d (setPeer { p with live := false }) s else
  let s := modDie d (fun x =>
    let x := setPeer { p with heard := no, live := true } (if lost then dropHeard h.top h.src x else x)
    { x with shakes := x.shakes ++ [h] }) s
  match exchanging s d with
  | some (n, m, b, g) =>
    if lost && decide (p.next < no) && m.top == h.top && partnerOf (getDie s d) m g == h.src then
      openExchange d m b g (modEddy d n (fun e => { e with shaken := false }) s)
    else s
  | none => s

/-- Amplitudes reach the die, in the order in which they were sent (07 R174; 11 R271); those of an exchange that is over
here are dropped. -/
def hearAmps (d : Nat) (h : Shake) (bs : List Byte) (s : State) : State :=
  modDie d (fun x =>
    if !(svPeer x h.top h.src).live then x else
    let old := ((x.halves.find? fun e => e.1 == h).map (·.2)).getD []
    { x with halves := (h, old ++ bs) :: x.halves.filter fun e => e.1 != h }) s

/-- A packet of the running command's exchange cannot be delivered (07 R181; 11 R267, R268; 13 R324). -/
def exchangeFails (d top code : Nat) (s : State) : State :=
  match exchanging s d with
  | some (n, m, _) => if m.top = top then eddyLost d n m code 0 0 s else s
  | none => s

/-- EXCHANGE_PARTNER_TIMEOUT: the partner is unreachable or lost, and the command ends (07 R181).
DESIGN CHOICE, log 35. -/
def eddyTimeout (d : Nat) (lost : Bool) (s : State) : State :=
  match exchanging s d with
  | none => s
  | some (n, m, _) => if lost then eddyLost d n m 0x15 (svGroup m.desc) 0 s else eddyLost d n m 0x10 0 0 s

/-- EDDY_COMMAND_COMPLETE: MAP and SERIAL are written back, flags enter FSTATUS, the tag is set (07 R172, R181). -/
def eddyComplete (d : Nat) (s : State) : State :=
  match eddyHead s d with
  | none => s
  | some (n, m) =>
    if !m.finished then s else
    let bs := bytesOf 4 m.serial ++ (m.map.map fun p => BitVec.ofNat 8 p) ++ List.replicate (42 - m.map.length) 0#8
    let s := writeSegs d .sv (opNum m.ctx m.id) 0 false (subSegs m.dsegs 16 46) bs s
    endEddy d n m false (engineFlags m.ctx m.level m.flags s)

/-- `SVINIT` (R179) -/
def execSvinit (ra rb : BitVec 6) (tag : BitVec 6) (s : State) : Result :=
  .next (lone (.svinit ra rb tag) (opSvinit ra rb tag) s)

/-- `SVAPPLY` (R179) -/
def execSvapply (ra rb : BitVec 6) (tag : BitVec 6) (s : State) : Result :=
  .next (lone (.svapply ra rb tag) (opSvapply ra rb tag) s)

/-- `SVDIAG` (R179) -/
def execSvdiag (ra rb : BitVec 6) (tag : BitVec 6) (s : State) : Result :=
  .next (lone (.svdiag ra rb tag) (opSvdiag ra rb tag) s)

/-- `SVPROB` (R179) -/
def execSvprob (ra rb rc : BitVec 6) (tag : BitVec 6) (s : State) : Result :=
  .next (lone (.svprob ra rb rc tag) (opSvprob ra rb rc tag) s)

/-- `SVNORM` (R179) -/
def execSvnorm (ra rb : BitVec 6) (tag : BitVec 6) (s : State) : Result :=
  .next (lone (.svnorm ra rb tag) (opSvnorm ra rb tag) s)

/-- `SVMAP` (R179) -/
def execSvmap (ra rb : BitVec 6) (tag : BitVec 6) (s : State) : Result :=
  .next (lone (.svmap ra rb tag) (opSvmap ra rb tag) s)


/-- `EDDY_COMMAND_START` (R181) -/
def execEddyCommandStart (d : Nat) (s : State) : Result :=
  .next (onDie d s (eddyStart d s))

/-- `EXCHANGE_HANDSHAKE` (R175) -/
def execExchangeHandshake (d gid serial b g : Nat) (s : State) : Result :=
  .next (onDie d s (eddyShake d gid serial b g s))

/-- `EXCHANGE_DATA` (R174) -/
def execExchangeData (d : Nat) (data : List Byte) (s : State) : Result :=
  .next (onDie d s (eddyData d data s))

/-- `EDDY_COMMAND_COMPLETE` (R181) -/
def execEddyCommandComplete (d : Nat) (s : State) : Result :=
  .next (onDie d s (eddyComplete d s))

/-- `EXCHANGE_PARTNER_TIMEOUT` (R181) -/
def execExchangePartnerTimeout (d : Nat) (lost : Bool) (s : State) : Result :=
  .next (onDie d s (eddyTimeout d lost s))

end Sys2Proof.Machine
end

