-- ==== Sys2Proof/Machine/Fabric.lean ====
section
/-!
DEFINITION. The Predar fabric as an instruction meets it: fabric words, the commands of bundle slot E, arrival
counters, port orders, TLBI, and the cutting of commands into packets
(spec 11 R265 to R282, R285 to R287; 13 R317, R318, R325).
-/

namespace Sys2Proof.Machine

open Sys2Proof

/-! Names and words -/

/-- The fields of a fabric word (11 R276). -/
def fwLen (w : Word) : Nat := bitsN w 31 0
def fwRank (w : Word) : Nat := bitsN w 41 32
def fwCtr (w : Word) : Nat := bitsN w 57 50
def fwCen (w : Word) : Bool := bit w 60
def fwDirect (w : Word) : Bool := bit w 61

/-- Commands whose arrival a counter may count: FPUT, FPUT.S, FPUT.R (11 R276, R278). -/
def countable (kind : Nat) : Bool := kind == 2 || kind == 3 || kind == 4

/-- The fabric word of a command is valid (11 R278). DEDUCED, log 38. -/
def fwOk (kind : Nat) (w : Word) : Bool :=
  bitsN w 63 62 == 0 && bitsN w 59 58 == 0 && bitsN w 49 42 == 0 && fwLen w != 0 && fwLen w % 4 == 0
    && decide (fwLen w ≤ 16777216) && (!fwCen w || countable kind) && (fwCen w || fwCtr w == 0)
    && (decide (2 ≤ kind) || decide (fwLen w ≤ 65536))

/-! Queueing a command -/

/-- A fabric command enters the engine queue of its context and its tag is cleared (08 R205; 11 R278). -/
def queueFb (m : FbCmd) (s : State) : State :=
  let c := s.cur
  let d := dieOf c
  let s := startTag c m.tag s
  let (id, s) := nextOp c s
  let (n, s) := nextOrd d s
  modCtx c (fun x => { x with
    fbFence := x.fbFence.filter fun k => !fencePassed s c [k]
    fb := x.fb ++ [{ m with id := id, ord := n, level := x.level }] }) s

/-- The engine queue of a context is full (11 R278; 13 R318). -/
def fbFull (s : State) : Bool := decide (32 ≤ (getCtx s s.cur).fb.length)

/-- A fence holds the context's fabric accesses back (09 R229). -/
def fbHeld (s : State) (c : Nat) : Bool := !fencePassed s c (getCtx s c).fbFence

/-- The checks of a transfer in the order of R278, with R325; `al`: element size; remote address if there is one.
DEDUCED, log 38. -/
def transferFault (kind al : Nat) (loc : Word) (rem : Option Word) (w : Word) (tag : BitVec 6) (s : State) :
    Option (Nat × Word) :=
  let bad (a : Word) : Bool := a.toNat % al != 0
  if !fwOk kind w then some (0x01, 0#64)
  else if bad loc then some (0x07, loc)
  else if (rem.map bad).getD false then some (0x07, rem.getD 0#64)
  else if fwLen w % al ≠ 0 then some (0x01, 0#64)
  else if !tagFree tag s then some (0x0A, 0#64)
  else if !linkOk s (dieOf s.cur) (domOf s s.cur) then some (0x19, 0#64)
  else none

/-- The command of a transfer. -/
def transfer (kind : Nat) (op : BitVec 6) (loc rem w : Word) (tag : BitVec 6) : FbCmd :=
  { id := 0, kind := kind, tag := tag.toNat, loc := loc, rem := rem, len := fwLen w, rank := fwRank w
    direct := fwDirect w, ctr := if fwCen w then some (fwCtr w) else none, op := op }

/-- Issue a transfer; one that a fence holds waits with its context, as one does that finds the queue full (11 R278).
DEDUCED, log 23. DEDUCED, log 38. -/
def issueTransfer (kind al : Nat) (op : BitVec 6) (loc : Word) (rem : Option Word) (w : Word) (tag : BitVec 6) : Op :=
  fun s =>
    if fbFull s || fbHeld s s.cur then .block .watched id else
    match transferFault kind al loc rem w tag s with
    | some (code, a) => .trap code a
    | none => .ok (queueFb (transfer kind op loc (rem.getD 0#64) w tag) s)

/-- Issue a transfer whose addresses stand in a pair (11 R277). -/
def issuePair (kind al : Nat) (op ra rb tag : BitVec 6) : Op := fun s =>
  let a := archOf s
  issueTransfer kind al op (rdX a ra) (some (rdXN a (ra.toNat + 1))) (rdX a rb) tag s

/-- FSEND (11 R280). -/
def opFsend (ra rb tag : BitVec 6) : Op := fun s =>
  issueTransfer 0 4 0#6 (rdX (archOf s) ra) none (rdX (archOf s) rb) tag s

def opFput (ra rb tag : BitVec 6) : Op := issuePair 2 4 0#6 ra rb tag
def opFputS (ra rb tag : BitVec 6) : Op := issuePair 3 4 0#6 ra rb tag
/-- FPUT.R: at least four bytes, and its element's alignment (11 R278). -/
def opFputR (op ra rb tag : BitVec 6) : Op := issuePair 4 (max 4 (opSize op.toNat)) op ra rb tag
def opFget (ra rb tag : BitVec 6) : Op := issuePair 5 4 0#6 ra rb tag

/-- The link receive queue of a program for a source rank (11 R280). -/
def linkq (d : Die) (top src : Nat) : LinkQ := (d.linkqs.find? fun q => q.top == top && q.src == src).getD { top := top, src := src }

def setLinkq (q : LinkQ) (d : Die) : Die :=
  { d with linkqs := q :: d.linkqs.filter fun r => !(r.top == q.top && r.src == q.src) }

/-- FRECV waits for a message at the head of its queue, takes it, and leaves it to be copied (11 R280). -/
def opFrecv (ra rb tag : BitVec 6) : Op := fun s =>
  let a := archOf s
  let w := rdX a rb
  let loc := rdX a ra
  let d := dieOf s.cur
  let top := domOf s s.cur
  if fbFull s || fbHeld s s.cur then .block .watched id else
  match transferFault 1 4 loc none w tag s with
  | some (code, ad) => .trap code ad
  | none =>
    let q := linkq (getDie s d) top (fwRank w)
    match q.msgs with
    | [] => .block .frecv id
    | m :: rest =>
      if fwLen w < m.length then .trap 0x01 0#64
      else
        let s := modDie d (setLinkq { q with msgs := rest }) s
        .ok (queueFb { transfer 1 0#6 loc 0#64 w tag with bytes := m } s)

/-! Arrival counters -/

/-- Change an arrival counter of a top region (11 R281). -/
def modCounter (d top n : Nat) (f : ArrCtr → ArrCtr) (s : State) : State :=
  modDie d (modRegion top fun g => { g with counters := g.counters.modify n f }) s

def counterOf (s : State) (d top n : Nat) : ArrCtr :=
  ((region? (getDie s d) top).bind fun g => g.counters[n]?).getD {}

/-- An arrival at a counter (11 R281). -/
def stepCounter (d top n : Nat) (s : State) : State :=
  let c := counterOf s d top n
  if 16777215 ≤ c.cnt then
    match c.armed with
    | some (x, _, lvl) =>
      if canDeliver s x lvl then deliver x lvl 0x0C 0 0#64 s
      else modCounter d top n (fun c => { c with owed := c.owed + 1 }) s
    | none => regionFault d (effFdom (getDie s d) top) ⟨codeWord 0x0C 0 true, 0#64⟩ s
  else
    let s := modCounter d top n (fun c => { c with cnt := c.cnt + 1 }) s
    match c.armed with
    | some (x, tag, lvl) =>
      if c.mark ≤ c.cnt + 1 then
        completeTag x lvl tag (modCounter d top n (fun c => { c with armed := none }) s)
      else s
    | none => s

/-- FEXPECT: the checks in the order of R281, then the tag's and the link key's (13 R325). DEDUCED, log 39. -/
def opFexpect (clr : Bool) (ra rb tag : BitVec 6) : Op := fun s =>
  let a := archOf s
  let c := s.cur
  let d := dieOf c
  let top := domOf s c
  let n := (rdX a ra).toNat
  let k := counterOf s d top n
  let base := if clr then 0 else k.mark
  let mark := base + (rdX a rb).toNat
  if 256 ≤ n then .trap 0x01 0#64
  else if k.armed.isSome then .trap 0x0A 0#64
  else if 16777215 < mark then .trap 0x0C 0#64
  else if !tagFree tag s then .trap 0x0A 0#64
  else if !linkOk s d top then .trap 0x19 0#64
  else
    let cnt := if clr then (k.cnt + 16777216 - k.mark) % 16777216 else k.cnt
    let set (arm : Option (Nat × Nat × Nat)) (s : State) : State :=
      modCounter d top n (fun x => { x with cnt := cnt, mark := mark, armed := arm }) s
    .ok (if mark ≤ cnt then set none s else set (some (c, tag.toNat, levelOf s)) (startTag c tag.toNat s))

/-! Routes, ports, translations -/

/-- The status word of a port (11 R286). -/
def portStatus (s : State) (n : Nat) : Word :=
  let p := s.ports.getD n {}
  BitVec.ofNat 64 ((if (s.planes.getD n {}).active then 1 else 0) + (if p.lp then 2 else 0) + p.width * 4 +
    p.locked * 16 + if p.drop then 4096 else 0)

/-- An entry of a route table as it reads: no VER, reserved bits 0, PLANE and SPH 0 in this package (11 R265). -/
def cleanRoute (e : Word) : Word := e &&& (if rtLocal e then 0x00008FFFFF030200#64 else 0x00008FFFFF03FEFF#64)

/-- The word that FROUTE returns (11 R265, R282). -/
def routeWord (s : State) (port : Bool) (x : Word) : Word :=
  let d := getDie s (dieOf s.cur)
  let top := domOf s s.cur
  if port then if bitsN x 63 6 = 0 then portStatus s (bitsN x 5 0) else 0#64
  else
    let ver := ((region? d top).map (·.ver)).getD 0 * 2 ^ 48
    if bitsN x 63 10 = 0 then BitVec.ofNat 64 (ver + (cleanRoute (routeOf d top (bitsN x 9 0))).toNat) else BitVec.ofNat 64 ver

/-- FROUTE (11 R282); as every fabric command it needs a link key (13 R325). -/
def opFroute (rd rb : BitVec 6) (port : Bool) : Op := fun s =>
  if !linkOk s (dieOf s.cur) (domOf s s.cur) then .trap 0x19 0#64 else
  .ok (addResult s.cur (.x rd.toNat) (.word (routeWord s port (rdX (archOf s) rb))) 0#8 14 s)

/-- FPORT: the order waits for the port's next guard interval (11 R285). DEDUCED, log 39. -/
def opFport (ra rb tag : BitVec 6) : Op := fun s =>
  let a := archOf s
  let c := s.cur
  let n := (rdX a ra).toNat
  let o := rdX a rb
  if fbFull s then .block .watched id
  else if 64 ≤ n || bitsN o 63 3 ≠ 0 then .trap 0x01 0#64
  else if !tagFree tag s then .trap 0x0A 0#64
  else if !linkOk s (dieOf c) (domOf s c) then .trap 0x19 0#64
  else
    let id := (getCtx s c).nextId
    let s := queueFb { id := 0, kind := 6, tag := tag.toNat, loc := 0#64, rem := 0#64, len := 0, rank := 0, direct := false, ctr := none } s
    .ok { s with ports := s.ports.modify n fun p => { p with drop := false, orders := p.orders ++ [(bit o 2, bitsN o 1 0, c, id)] } }

/-- TLBI: the checks in the order of R318; earlier LS accesses are performed, then the entries go, from both levels of
the TLB and from the walks' upper levels. The command waits for what then still holds a removed translation.
DEDUCED, log 30. -/
def opTlbi (ra rb tag : BitVec 6) : Op := fun s =>
  let a := archOf s
  let c := s.cur
  let d := dieOf c
  let top := domOf s c
  let va := (rdX a ra).toNat
  let mode := rdX a rb
  if fbFull s then .block .watched id
  else if bitsN mode 63 1 ≠ 0 then .trap 0x01 0#64
  else if mode == 0#64 && 2 ^ 48 ≤ va then .trap 0x04 (rdX a ra)
  else if !tagFree tag s then .trap 0x0A 0#64
  else
    let s := drainLs c s
    let hit (e : TlbEntry) : Bool := e.top == top && (mode != 0#64 || (decide (e.vbase ≤ va) && decide (va < e.vbase + e.size)))
    let gone := (tlbsOf s d).filter hit
    let removed (g : Seg) : Bool := mode != 0#64 || (decide (g.va < va / 65536 * 65536 + 65536) && decide (va / 65536 * 65536 < g.va + g.len)) ||
      gone.any fun e => decide (e.vbase ≤ g.va) && decide (g.va < e.vbase + e.size)
    let held := ((heldOn s d).filter fun h => h.1 == top && removed h.2).map (·.2)
    let s := modDie d (fun x => { x with upper := x.upper.filter fun e => !hit e }) (dropTlb d hit s)
    let s := modDie d (leaveBank fun b => b.top == top && removed b.seg) s
    .ok (queueFb { id := 0, kind := 7, tag := tag.toNat, loc := 0#64, rem := 0#64, len := 0, rank := 0, direct := false
                   ctr := none, holds := held } s)

/-! Commands of a die -/

/-- Contexts of a die, running and saved. -/
def dieCtxs (s : State) (d : Nat) : List Nat :=
  (List.range 256).map (· + 256 * d) ++ (s.saved.map (·.1)).filter fun n => n % 4 == d

/-- Fabric commands of a die with their contexts, in context order. -/
def fbCmds (s : State) (d : Nat) : List (Nat × FbCmd) :=
  (dieCtxs s d).flatMap fun c => (getCtx s c).fb.map fun f => (c, f)

/-- Insert a command by its place in the order of issue. -/
def insertOrd (e : Nat × FbCmd) : List (Nat × FbCmd) → List (Nat × FbCmd)
  | [] => [e]
  | q :: qs => if e.2.ord < q.2.ord then e :: q :: qs else q :: insertOrd e qs

/-- Transfers of a die that send packets, in the order of issue (11 R273). DESIGN CHOICE, log 37. -/
def sendOrder (s : State) (d : Nat) : List (Nat × FbCmd) :=
  ((fbCmds s d).filter fun e => decide (e.2.kind < 6) && e.2.kind != 1).foldl (fun l e => insertOrd e l) []

def modFb (c id : Nat) (f : FbCmd → FbCmd) (s : State) : State :=
  modCtx c (fun x => { x with fb := x.fb.map fun m => if m.id = id then f m else m }) s

/-- The program of a context, running or saved. -/
def progOf (s : State) (c : Nat) : Nat := domOf s c

/-- A command leaves its queue and its tag is set (08 R205; 11 R272). -/
def endFb (c : Nat) (m : FbCmd) (s : State) : State :=
  completeTag c m.level m.tag (modCtx c (fun x => { x with fb := x.fb.filter fun f => f.id != m.id }) s)

/-- A command ends with a fault; its tag is set when the fault is delivered (11 R278; 14 R329).
DEDUCED, log 40. -/
def failFb (c : Nat) (m : FbCmd) (code : Nat) (addr : Word) (s : State) : State :=
  let s := modDie (dieOf c) (dropUnsent fun p => p.ctx == c && p.pkt.cmd == m.ord) s
  if canDeliver s c m.level then endFb c m (deliver c m.level code 0 addr s)
  else modFb c m.id (fun f => { f with ending := some ⟨codeWord code 0 true, addr⟩, suspended := false, page := none }) s

/-- A command stops at a local page: suspended, with its fault delivered or waiting for room (11 R278; 14 R329). -/
def suspendFb (c : Nat) (m : FbCmd) (code : Nat) (addr : Nat) (s : State) : State :=
  let a := BitVec.ofNat 64 addr
  if canDeliver s c m.level then
    modFb c m.id (fun f => { f with suspended := true, page := none }) (deliver c m.level code 0 a s)
  else modFb c m.id (fun f => { f with suspended := true, page := none, ending := some ⟨codeWord code 0 true, a⟩ }) s

/-! Local bytes -/

/-- Write bytes of a stream on the FB path, page by page: the bytes written, the translation held last and a fault
(11 R278; 09 R237). -/
def putRun (k : Option Nat) (d top op : Nat) : Nat → Option TlbEntry → Nat → List Byte → State →
    Nat × Option TlbEntry × Option (Nat × Nat) × State
  | 0, held, _, _, s => (0, held, none, s)
  | fuel + 1, held, va, bs, s =>
    if bs.isEmpty then (0, held, none, s) else
    match visit k d top held { w := true } va s with
    | (.error e, s) => (0, none, some e, s)
    | (.ok e, s) =>
      let n := min bs.length (pageLeft e va)
      let s := writeRunOn d .fb op (placeOf e va) (leafOkey e.leaf) 0 false (bs.take n) s
      let (m, held, f, s) := putRun k d top op fuel (some e) (va + n) (bs.drop n) s
      (n + m, held, f, s)

/-- Write what is left of a received message or an answer; the tag is set when all is written (11 R279, R280). -/
def landFb (c : Nat) (m : FbCmd) (s : State) : State :=
  if m.suspended || m.ending.isSome then s else
  let rest := m.bytes.drop m.pos
  let va := (m.loc + BitVec.ofNat 64 m.pos).toNat
  let (n, held, f, s) := putRun (tlbOf c) (dieOf c) (domOf s c) (opNum c m.id) (rest.length / 65536 + 2) m.page va rest s
  let s := modFb c m.id (fun x => { x with pos := x.pos + n, page := held }) s
  match f with
  | some (code, a) => suspendFb c m code a s
  | none => endFb c m s

/-! Cutting -/

/-- Read the source bytes of one packet on the FB path: all of them with the translation held last, or the first fault
(11 R270; 09 R237). -/
def getLocal (c : Nat) : Nat → Option TlbEntry → Nat → Nat → State → Except (Nat × Nat) (List Byte × Option TlbEntry) × State
  | 0, held, _, _, s => (.ok ([], held), s)
  | fuel + 1, held, va, n, s =>
    if n = 0 then (.ok ([], held), s) else
    match visit (tlbOf c) (dieOf c) (domOf s c) held { r := true } va s with
    | (.error e, s) => (.error e, s)
    | (.ok e, s) =>
      let k := min n (pageLeft e va)
      let (bs, po, s) := readRunOn (dieOf c) .fb (placeOf e va) k (leafOkey e.leaf) 0 false s
      match po with
      | some g => (.error (0x18, va + (g - placeOf e va)), s)
      | none =>
        match getLocal c fuel (some e) (va + k) (n - k) s with
        | (.error f, s) => (.error f, s)
        | (.ok (more, held), s) => (.ok (bs ++ more, held), s)

/-- Bytes of a packet that starts at byte n of a command: 4,096 at most (11 R270). DESIGN CHOICE, log 36. -/
def pktLen (len n : Nat) : Nat := min 4096 (len - n)

/-- Packets of a command of a length. DESIGN CHOICE, log 36. -/
def pktCount (len : Nat) : Nat := (len + 4095) / 4096

/-- What packet n of a transfer carries. -/
def pktPay (m : FbCmd) (bs : List Byte) : Pay :=
  let a := m.rem + BitVec.ofNat 64 m.pos
  match m.kind with
  | 0 => .msg m.len bs
  | 4 => .red m.op a bs
  | _ => .put a bs

/-- Cut one more packet of a transfer, whose source is read now; the request of FGET is one packet (11 R270, R271).
DESIGN CHOICE, log 36. -/
def cutPacket (d c : Nat) (m : FbCmd) (s : State) : State :=
  let top := progOf s c
  let rid := ridOf s c
  if m.kind = 5 then
    let s := enqueuePkt d top c rid m.rank m.direct true m.ord 1 none (.getReq m.rem m.len) s
    modFb c m.id (fun f => { f with unacked := 1, cut := true }) s
  else
    let n := pktLen m.len m.pos
    match getLocal c 3 m.page (m.loc + BitVec.ofNat 64 m.pos).toNat n s with
    | (.error (code, a), s) => suspendFb c m code a s
    | (.ok (bs, held), s) =>
      let next := (m.loc + BitVec.ofNat 64 (m.pos + n)).toNat
      let s := enqueuePkt d top c rid m.rank m.direct (m.kind != 2) m.ord (pktCount m.len) m.ctr (pktPay m bs) s
      modFb c m.id (fun f => { f with 
        pos := f.pos + n, unacked := f.unacked + 1, cut := decide (f.len ≤ f.pos + n)
        page := if f.len ≤ f.pos + n then none else held.bind fun e => stillIn e next }) s

/-- A transfer may be cut now: it runs, its rank is mapped, and the earlier transfers of its program to the same rank
have been cut whole (11 R267, R270, R273). -/
def cuttable (s : State) (d : Nat) (earlier : List (Nat × FbCmd)) (e : Nat × FbCmd) : Bool :=
  let (c, m) := e
  !m.cut && !m.suspended && m.ending.isNone
    && rtValid (routeOf (getDie s d) (progOf s c) m.rank)
    && earlier.all fun q => q.2.cut || q.2.ending.isSome || !(q.2.rank == m.rank && progOf s q.1 == progOf s c)

/-- The first transfer that may be cut. -/
def firstCut (s : State) (d : Nat) : List (Nat × FbCmd) → List (Nat × FbCmd) → Option (Nat × FbCmd)
  | _, [] => none
  | seen, e :: es => if cuttable s d seen e then some e else firstCut s d (seen ++ [e]) es

/-- Cut packets in the order of issue, at most `fuel` of them. DESIGN CHOICE, log 37. -/
def cutAll (d : Nat) : Nat → State → State
  | 0, s => s
  | fuel + 1, s =>
    match firstCut s d [] (sendOrder s d) with
    | none => s
    | some (c, m) => cutAll d fuel (cutPacket d c m s)

/-- A bound on the packets that a die's transfers still give. DESIGN CHOICE, log 37. -/
def cutBound (s : State) (d : Nat) : Nat := (sendOrder s d).foldl (fun n e => n + pktCount (e.2.len - e.2.pos) + 1) 0

/-- Answers and messages that have come are written to local memory (11 R279, R280). -/
def landAll (d : Nat) (s : State) : State :=
  foldS (fun e s => if e.2.kind == 5 && e.2.answered then landFb e.1 e.2 s else s) (fbCmds s d) s

/-! Ports at a guard interval -/

/-- A port's order takes effect: the FPORT leaves its queue and its tag is set (11 R285). -/
def portDone (c id : Nat) (s : State) : State :=
  match (getCtx s c).fb.find? fun f => f.id == id with
  | some m => endFb c m s
  | none => s

/-- The orders of port n in turn at a guard interval: a wider width or a wake may still wait (11 R285, R287).
DEDUCED, log 39. -/
def portOrders (n : Nat) : List (Bool × Nat × Nat × Nat) → State → State
  | [], s => s
  | (lp, w, c, id) :: rest, s =>
    let p := s.ports.getD n {}
    let (late, s) := if !lp && (p.lp || p.width < w) then choose 2 s else (0, s)
    if late = 1 then s else
    let s := { s with ports := s.ports.modify n fun q =>
      { q with lp := lp, width := if lp then q.width else w, orders := rest } }
    portOrders n rest (portDone c id s)

/-- A wake in its turn: the port returns to its last width (11 R287). -/
def portWake (n : Nat) (s : State) : State :=
  let p := s.ports.getD n {}
  if !p.wake then s else
  let (late, s) := choose 2 s
  if late = 1 then s else
  { s with ports := s.ports.modify n fun q => { q with lp := false, wake := false } }

/-- A wake hint reaches port n; an order for low power of the same cycle is dropped (11 R287). -/
def wakePort (n : Nat) (s : State) : State :=
  let p := s.ports.getD n {}
  let (apart, s) := if p.orders.any (·.1) then choose 2 s else (1, s)
  let s := if apart = 1 then s else
    foldS (fun (o : Bool × Nat × Nat × Nat) s => portDone o.2.2.1 o.2.2.2 s) (p.orders.filter (·.1))
      { s with ports := s.ports.modify n fun q => { q with drop := true, orders := q.orders.filter fun o => !o.1 } }
  if (s.ports.getD n {}).lp then { s with ports := s.ports.modify n fun q => { q with wake := true } } else s

/-- `FSEND` (R280) -/
def execFsend (ra rb : BitVec 6) (tag : BitVec 6) (s : State) : Result :=
  .next (lone (.fsend ra rb tag) (opFsend ra rb tag) s)

/-- `FRECV` (R280) -/
def execFrecv (ra rb : BitVec 6) (tag : BitVec 6) (s : State) : Result :=
  .next (lone (.frecv ra rb tag) (opFrecv ra rb tag) s)

/-- `FPUT` (R279) -/
def execFput (ra rb : BitVec 6) (tag : BitVec 6) (s : State) : Result :=
  .next (lone (.fput ra rb tag) (opFput ra rb tag) s)

/-- `FPUT.S` (R279) -/
def execFputS (ra rb : BitVec 6) (tag : BitVec 6) (s : State) : Result :=
  .next (lone (.fputS ra rb tag) (opFputS ra rb tag) s)

/-- `FPUT.R` (R279) -/
def execFputR (op : BitVec 6) (ra rb : BitVec 6) (tag : BitVec 6) (s : State) : Result :=
  .next (lone (.fputR op ra rb tag) (opFputR op ra rb tag) s)

/-- `FGET` (R279) -/
def execFget (ra rb : BitVec 6) (tag : BitVec 6) (s : State) : Result :=
  .next (lone (.fget ra rb tag) (opFget ra rb tag) s)

/-- `FEXPECT` (R281) -/
def execFexpect (clr : Bool) (ra rb : BitVec 6) (tag : BitVec 6) (s : State) : Result :=
  .next (lone (.fexpect clr ra rb tag) (opFexpect clr ra rb tag) s)

/-- `FPORT` (R285) -/
def execFport (ra rb : BitVec 6) (tag : BitVec 6) (s : State) : Result :=
  .next (lone (.fport ra rb tag) (opFport ra rb tag) s)

/-- `FROUTE` (R282) -/
def execFroute (rd rb : BitVec 6) (port : Bool) (s : State) : Result :=
  .next (lone (.froute rd rb port) (opFroute rd rb port) s)

/-- `TLBI` (R318) -/
def execTlbi (ra rb : BitVec 6) (tag : BitVec 6) (s : State) : Result :=
  .next (lone (.tlbi ra rb tag) (opTlbi ra rb tag) s)


/-- FRECV_COPY_COMPLETE: the taken message of command n is written to its local address and the tag is set (11 R280). -/
def recvCopy (c n : Nat) (s : State) : State :=
  match ((getCtx s c).fb.filter fun f => f.kind == 1)[n]? with
  | some m => landFb c m s
  | none => s

/-- `FRECV_COPY_COMPLETE` (R280) -/
def execFrecvCopyComplete (c n : Nat) (s : State) : Result :=
  .next (onDie (dieOf c) s (recvCopy c n s))

/-- Some access or stream of the domain still holds one of these translations (09 R237). -/
def pagesHeld (s : State) (d top : Nat) (gs : List Seg) : Bool := (heldOn s d).any fun h => h.1 == top && gs.contains h.2

/-- TLBI_COMPLETE: TLBI n of a die completes once nothing holds a removed translation (13 R318). -/
def tlbiDone (d n : Nat) (s : State) : State :=
  match ((fbCmds s d).filter fun e => e.2.kind == 7)[n]? with
  | some (c, m) => if pagesHeld s d (progOf s c) m.holds then s else endFb c m s
  | none => s

/-- `TLBI_COMPLETE` (R318) -/
def execTlbiComplete (d n : Nat) (s : State) : Result :=
  .next (onDie d s (tlbiDone d n s))

/-- `WAKE_HINT` (R287) -/
def execWakeHint (port : Nat) (s : State) : Result := .next (wakePort port s)

end Sys2Proof.Machine
end

