-- ==== Sys2Proof/Machine/Cistern.lean ====
section
/-!
DEFINITION. Checkpoint images in the cistern and their pieces on the fabric (spec 14 R347, R348, R351).
-/

namespace Sys2Proof.Machine

open Sys2Proof

/-- An image takes its bank: those of its own kind with the same parity of generation go (14 R347). -/
def putImage (i : Image) (g : Region) : Region :=
  { g with images := i :: g.images.filter fun j => !(j.mirror == i.mirror && j.gen % 2 == i.gen % 2) }

/-- The page of an image at an address, with a piece more. -/
def pagePlus (i : ImgPiece) (ps : List ImgPage) : List ImgPage :=
  match ps.find? fun p => p.va == i.va with
  | some p => ps.map fun q => if q.va == i.va then { p with bytes := p.bytes ++ i.bytes, poison := p.poison ++ i.poison } else q
  | none => ps ++ [{ va := i.va, size := i.size, attr := i.attr, bytes := i.bytes, poison := i.poison }]

/-- A piece of an image arrives in its bank; the first begins the image anew, the header comes last and makes it complete
(14 R348).
DESIGN CHOICE, log 59. -/
def takePiece (i : ImgPiece) (g : Region) : Region :=
  let hit (m : Image) : Bool := !m.complete && m.gen == i.gen && m.rank == i.rank && m.mirror == i.mirror && m.key == i.key
  let begun : Option Image := if i.first then none else g.images.find? hit
  let m : Image := begun.getD { gen := i.gen, rank := i.rank, mirror := i.mirror, key := i.key, pages := [], complete := false }
  putImage (if i.last then { m with complete := true } else { m with pages := pagePlus i m.pages }) g

/-- Firmware copies an image of a program, unread, into the cistern of a die (14 R351). DESIGN CHOICE, log 121. -/
def copyImage (d top : Nat) (ps : List ImgPiece) (s : State) : State :=
  modDie d (modRegion top fun g => ps.foldl (fun g i => takePiece i g) g) s

/-- A save ends: its own image is complete and current (14 R348). -/
def endSave (d n : Nat) (q : CkptCmd) (s : State) : State :=
  let gen := bitsN q.word 31 0
  let finish (g : Region) : Region :=
    { g with curGen := gen, images := g.images.map fun i => if !i.mirror && i.gen == gen then { i with complete := true } else i }
  endCkpt d n q none (modDie d (modRegion q.top finish) s)

/-- The CKPT whose mirror a packet carries. -/
def ckptOf (s : State) (d cmd : Nat) : Option (Nat × CkptCmd) :=
  ((getDie s d).ckpts.findIdx? fun q => q.ord == cmd && q.saved && q.ending.isNone).bind fun n =>
    ((getDie s d).ckpts[n]?).map fun q => (n, q)

/-- A piece of a mirror is acknowledged; with the last one both images are complete (14 R348). -/
def ackImage (d cmd : Nat) (s : State) : State :=
  match ckptOf s d cmd with
  | some (n, q) =>
    if q.unacked ≤ 1 then endSave d n q s
    else modDie d (fun x => { x with ckpts := x.ckpts.modify n fun k => { k with unacked := k.unacked - 1 } }) s
  | none => s

/-- A packet carries a piece of the mirror of a CKPT. -/
def imagePiece (top cmd : Nat) (p : SendPkt) : Bool :=
  p.pkt.stop == top && p.pkt.cmd == cmd && match p.pkt.pay with | .image _ => true | _ => false

/-- A CKPT whose mirror cannot be written ends with 0x10, 0x11, 0x15 or 0x18: the generation before stays current, and
its bank holds no complete image (14 R348). -/
def ckptFails (d n : Nat) (q : CkptCmd) (code : Nat) (s : State) : State :=
  endCkpt d n q (some ⟨codeWord code 0 true, 0#64⟩) (modDie d (dropUnsent (imagePiece q.top q.ord)) s)

/-- The mirrors of a program at a lost rank fail (14 R348). -/
def mirrorsLost (d top rank : Nat) (s : State) : State :=
  foldS (fun (q : CkptCmd) s =>
    if !(q.top == top && bit q.word 42 && bitsN q.word 41 32 == rank && q.ending.isNone) then s else
    match (getDie s d).ckpts.findIdx? fun k => k.ord == q.ord with
    | some n => ckptFails d n q 0x15 s
    | none => s) (getDie s d).ckpts s

end Sys2Proof.Machine
end

