-- ==== Sys2Proof/Machine/Collective.lean ====
section
/-!
DEFINITION. Groups, collectives, the group barrier and agreed branches (spec 12 R288 to R311).
-/

namespace Sys2Proof.Machine

open Sys2Proof

/-! Groups and messages -/

/-- A region may name group g: it lies below E(AGRP) and this rank is a member of a valid entry (12 R288). -/
def nameable (s : State) (c gid : Nat) : Option Group :=
  let d := getDie s (dieOf c)
  let top := domOf s c
  if effAgrp d (ridOf s c) ≤ gid then none else
  match group? d top gid with
  | some g => if g.ranks.contains (progRank d top) then some g else none
  | none => none

/-- The next sequence number of a group on this rank (12 R289). -/
def seqOf (s : State) (d top gid : Nat) : Nat := ((group? (getDie s d) top gid).map (·.seq)).getD 0

/-- A group operation takes its number; a round decided half the numbers ago is forgotten, before its number comes again
(12 R289, R306). -/
def takeSeq (d top gid : Nat) (s : State) : State :=
  let old := (seqOf s d top gid + 2 ^ 31) % 2 ^ 32
  modDie d (fun x => { x with decisions := x.decisions.filter fun q => !(q.top == top && q.gid == gid && q.seq == old) })
    (modDie d (modRegion top fun g => { g with groups := g.groups.map fun e =>
      if e.gid = gid then { e with seq := (e.seq + 1) % 2 ^ 32 } else e }) s)

/-! What runs under a sequence number -/

/-- The collective of a program under a sequence number that has not ended. -/
def coll? (s : State) (d top gid seq : Nat) : Option Coll :=
  (getDie s d).colls.find? fun q => q.top == top && q.gid == gid && q.seq == seq && !q.ended

def barrier? (s : State) (d top gid seq : Nat) : Option Barrier :=
  (getDie s d).barriers.find? fun b => b.top == top && b.gid == gid && b.seq == seq && b.ending.isNone

/-- The outcome of a context's round has reached it: it is kept, or its restore waits for the boundary (12 R306, R309). -/
def hasOutcome (x : Ctx) (r : Round) : Bool := r.decided.isSome || x.restore.isSome

/-- The context whose pending round has a group and a sequence number and no outcome yet (12 R306). -/
def roundCtx (s : State) (d top gid seq : Nat) : Option (Nat × Round) :=
  (dieCtxs s d).findSome? fun c =>
    match (getCtx s c).round with
    | some r => if !hasOutcome (getCtx s c) r && r.gid == gid && r.seq == seq && domOf s c == top then some (c, r) else none
    | none => none

/-- A dropped round of a program (12 R310). -/
def dropped? (s : State) (d top gid seq : Nat) : Option (Nat × Nat × Round) :=
  (getDie s d).dropped.find? fun e => e.1 == top && e.2.2.gid == gid && e.2.2.seq == seq

/-- The region whose share a message of an operation uses: that of the record that issued it (11 R274). -/
def groupRid (s : State) (d : Nat) (m : GMsg) : Nat :=
  match coll? s d m.top m.gid m.seq, barrier? s d m.top m.gid m.seq, roundCtx s d m.top m.gid m.seq with
  | some q, _, _ => q.rid
  | none, some b, _ => ridOf s b.ctx
  | none, none, some (c, _) => ridOf s c
  | none, none, none => m.top

/-- A message leaves for its rank: to this rank at once, else as a packet of its flow (11 R270, R273; 12 R289).
DESIGN CHOICE, log 48. -/
def sendGroup (d top : Nat) (m : GMsg) (s : State) : State :=
  let m := { m with src := progRank (getDie s d) top, top := top }
  if m.dst = m.src then { s with msgs := s.msgs ++ [(d, m)] } else
  let (n, s) := nextOrd d s
  enqueuePkt d top (256 * d) (groupRid s d m) m.dst false false n 1 none (.group m) s

/-- Send a body to members of a group, each with the same header. DESIGN CHOICE, log 48. -/
def tellMembers (d top : Nat) (g : Group) (members : List Nat) (m : GMsg) (s : State) : State :=
  foldS (fun i s => sendGroup d top { m with dst := g.ranks.getD i 0 } s) members s

def allMembers (g : Group) : List Nat := List.range g.ranks.length
def otherMembers (g : Group) : List Nat := (allMembers g).filter (· != g.self)

/-- How two messages under one sequence number differ: the code of the fault, or none (12 R289). -/
def mismatchCode (gen1 : Nat) (a : GSig) (gen2 : Nat) (b : GSig) : Option Nat :=
  if gen1 ≠ gen2 then some 0x12 else if a = b then none else
  match a, b with
  | .huddle .., .huddle .. => some 0x14
  | _, _ => some 0x12

/-! Ending a collective -/

/-- A packet carries a part of a collective. -/
def chunkOf (top gid seq : Nat) (p : SendPkt) : Bool :=
  p.pkt.stop == top && match p.pkt.pay with | .chunk g _ q .. => g == gid && q == seq | _ => false

/-- STATUS and SEQ are written into the descriptor on the FB path (12 R292). DEDUCED, log 49. -/
def writeStatus (d : Nat) (q : Coll) (status : Nat) (s : State) : State :=
  let put (o v : Nat) (s : State) : State :=
    match checkRun d q.top { kind := onlyScratch } (q.desc + BitVec.ofNat 64 o) 4 s with
    | (.ok segs, s) => writeSegs d .fb (opNum q.ctx q.id) 0 false segs (bytesOf 4 v) s
    | (.error _, s) => s
  put 56 status (put 28 q.seq s)

def sameColl (q r : Coll) : Bool := r.top == q.top && r.gid == q.gid && r.seq == q.seq && r.ctx == q.ctx

def modColl (d : Nat) (q : Coll) (f : Coll → Coll) (s : State) : State :=
  modDie d (fun x => { x with colls := x.colls.map fun r => if sameColl q r then f r else r }) s

/-- What a completed collective leaves behind. -/
def overOf (q : Coll) : OverColl := { top := q.top, gid := q.gid, gen := q.gen, seq := q.seq, rid := q.rid, desc := q.desc }

/-- A completed collective of a program under a sequence number (12 R289, R297). -/
def over? (s : State) (d top gid seq : Nat) : Option OverColl :=
  (getDie s d).past.find? fun o => o.top == top && o.gid == gid && o.seq == seq

/-- A completed collective turns out to be mismatched: 0x12 is its region's (12 R297; 14 R330). DESIGN CHOICE, log 107. -/
def overFault (d : Nat) (o : OverColl) (s : State) : State :=
  regionFault d (effFdom (getDie s d) o.rid) ⟨codeWord 0x12 o.gid true, o.desc⟩
    (modDie d (fun x => { x with past := x.past.filter (· != o) }) s)

/-- A collective ends: STATUS, SEQ, its flags, its fault, its tag; a COLLW passes at its own bundle (12 R290, R300).
DEDUCED, log 49. -/
def endColl (d : Nat) (q : Coll) (status : Nat) (f : Option PFault) (s : State) : State :=
  let s := modDie d (dropUnsent (chunkOf q.top q.gid q.seq)) s
  let s := if status = 0 then modDie d (fun x => { x with past := overOf q :: x.past }) s else s
  let s := engineFlags q.ctx q.level q.flags (writeStatus d q status s)
  let wait (s : State) : State := modColl d q (fun r => { r with ended := true, ending := f }) s
  match q.tag with
  | none => wait s
  | some t =>
    if f.isSome && !canDeliver s q.ctx q.level then wait s else
    let s := match f with | some f => deliverF q.ctx q.level f s | none => s
    completeTag q.ctx q.level t (modDie d (fun x => { x with colls := x.colls.filter fun r => !sameColl q r }) s)

/-- The header of this member's messages of an operation. -/
def header (top gid gen seq self : Nat) (sig : GSig) (b : GBody) : GMsg :=
  { dst := 0, src := 0, top := top, gid := gid, gen := gen, seq := seq, mem := self, sig := sig, body := b }

def collMsg (q : Coll) (b : GBody) : GMsg := header q.top q.gid q.gen q.seq q.self q.sig b

/-- Tell other members how a collective ended here. -/
def tellAbort (d : Nat) (q : Coll) (members : List Nat) (code mem : Nat) (s : State) : State :=
  match group? (getDie s d) q.top q.gid with
  | some g => tellMembers d q.top g (members.filter (· != q.self)) (collMsg q (.abort code mem)) s
  | none => s

def collMembers (s : State) (d : Nat) (q : Coll) : List Nat :=
  ((group? (getDie s d) q.top q.gid).map allMembers).getD []

/-- TRAPCODE's ARG of a group fault (14 R334). -/
def groupArg (code gid : Nat) : Nat := if code = 0x12 || code = 0x14 || code = 0x15 then gid else 0

/-- The collective ends on this member with its own fault, CODE 2 (12 R300). DEDUCED, log 51. -/
def collFault (d : Nat) (q : Coll) (code : Nat) (addr : Word) (s : State) : State :=
  endColl d q (2 + code * 256) (some ⟨codeWord code (groupArg code q.gid) true, addr⟩) s

/-- The collective fails here and every other member is told (12 R300). DEDUCED, log 52. -/
def failColl (d : Nat) (q : Coll) (code : Nat) (addr : Word) (s : State) : State :=
  let s := tellAbort d q (collMembers s d q) code q.self s
  collFault d q code addr s

/-- An abort notice ends the collective: a mismatch or a lost member is this member's fault too (12 R300).
DEDUCED, log 50. -/
def abortColl (d : Nat) (q : Coll) (code mem : Nat) (s : State) : State :=
  if code = 0x12 || code = 0x15 then collFault d q code q.desc s
  else endColl d q (1 + code * 256 + mem * 65536) none s

/-! Barriers and rounds under a sequence number -/

def sameBarrier (b r : Barrier) : Bool := r.top == b.top && r.gid == b.gid && r.seq == b.seq && r.ctx == b.ctx

/-- A barrier ends, with a fault or without (12 R302; 14 R329). DEDUCED, log 55. -/
def endBarrier (d : Nat) (b : Barrier) (f : Option PFault) (s : State) : State :=
  if f.isSome && !canDeliver s b.ctx b.level then
    modDie d (fun x => { x with barriers := x.barriers.map fun r => if sameBarrier b r then { r with ending := f } else r }) s
  else
    let s := match f with | some f => deliverF b.ctx b.level f s | none => s
    completeTag b.ctx b.level b.tag (modDie d (fun x => { x with barriers := x.barriers.filter fun r => !sameBarrier b r }) s)

/-- The outcome of a dropped round reaches its member: a fault is its region's. DEDUCED, log 22. -/
def endDropped (d : Nat) (e : Nat × Nat × Round) (v : Verdict) (s : State) : State :=
  flushHeld d (roundFault d e.2.1 e.2.2 v (modDie d (fun x => { x with dropped := x.dropped.filter fun o => o != e }) s))

/-- The signature of a round (12 R289, R303). -/
def roundSig (r : Round) : GSig := .huddle r.agbx (bitsN r.word 29 28) (bitsN r.word 47 32)

/-- What this rank has issued under a sequence number: GEN and signature. -/
def localSig (s : State) (d top gid seq : Nat) : Option (Nat × GSig) :=
  match coll? s d top gid seq, barrier? s d top gid seq, roundCtx s d top gid seq with
  | some q, _, _ => some (q.gen, q.sig)
  | _, some b, _ => some (b.gen, .barr)
  | _, _, some (_, r) => some (r.gen, roundSig r)
  | none, none, none => (dropped? s d top gid seq).map fun e => (e.2.2.gen, roundSig e.2.2)

/-- The operation under a sequence number ends on this rank with a code (12 R289, R300, R302, R306). -/
def endLocal (d top gid seq code mem : Nat) (s : State) : State :=
  match coll? s d top gid seq, barrier? s d top gid seq, roundCtx s d top gid seq with
  | some q, _, _ => abortColl d q code mem s
  | _, some b, _ => endBarrier d b (some ⟨codeWord code (groupArg code gid) true, 0#64⟩) s
  | _, _, some (c, _) => resolveRound c (if code = 0x15 then .void else .mismatch code) s
  | none, none, none =>
    match dropped? s d top gid seq with
    | some e => endDropped d e (if code = 0x15 then .void else .mismatch code) s
    | none => s

/-- The operation under a sequence number ends on every member (12 R289). -/
def endEverywhere (d top gid seq code : Nat) (s : State) : State :=
  match group? (getDie s d) top gid, localSig s d top gid seq with
  | some g, some (gen, sig) =>
    let s := tellMembers d top g (otherMembers g) (header top gid gen seq g.self sig (.abort code g.self)) s
    endLocal d top gid seq code g.self s
  | _, _ => s

/-- An entry beyond EXPECT comes to a collective that has completed here: 0x12 on every member (12 R297).
DESIGN CHOICE, log 107. -/
def lateEntry (d : Nat) (o : OverColl) (sig : GSig) (s : State) : State :=
  let s := match group? (getDie s d) o.top o.gid with
    | some g => tellMembers d o.top g (otherMembers g) (header o.top o.gid o.gen o.seq g.self sig (.abort 0x12 g.self)) s
    | none => s
  overFault d o s

/-- A sequence number has not been taken here yet. -/
def notTaken (s : State) (d top gid seq : Nat) : Bool :=
  decide ((seq + 2 ^ 32 - seqOf s d top gid) % 2 ^ 32 < 2 ^ 31)

/-- A notice that tells of a mismatch. -/
def mismatchNotice : GBody → Bool
  | .abort code _ => code == 0x12 || code == 0x14
  | _ => false

/-- A message meets what this rank has issued under its sequence number: it is kept for an operation still to come,
0x12 or nothing after one that is over, ends the operation on a mismatch, or goes to `act` (12 R289, R296). -/
def meet (d : Nat) (m : GMsg) (act : State → State) (s : State) : State :=
  match localSig s d m.top m.gid m.seq with
  | some (gen, sig) =>
    match mismatchCode gen sig m.gen m.sig with
    | some code => if mismatchNotice m.body then act s else endEverywhere d m.top m.gid m.seq code s
    | none => act s
  | none =>
    match over? s d m.top m.gid m.seq, m.body with
    | some o, .abort code _ => if code = 0x12 then overFault d o s else if o.gen ≠ m.gen then lateEntry d o m.sig s else s
    | some o, .step .. => lateEntry d o m.sig s
    | some o, _ => if o.gen ≠ m.gen then lateEntry d o m.sig s else s
    | none, _ => if notTaken s d m.top m.gid m.seq then modDie d (fun x => { x with early := x.early ++ [m] }) s else s

/-! Running a collective -/

/-- Read and parse the plan (12 R293, R294): the header, then the entries. -/
def entryOf (n : Nat) : PlanEntry :=
  { kind := nbits n 0 4, peer := nbits n 96 10, direct := nbits n 113 1 == 1
    sl := if nbits n 114 1 = 1 then some (nbits n 115 4) else none
    sd := if nbits n 119 1 = 1 then some (nbits n 120 4) else none
    arm := nbits n 124 4, thresh := nbits n 128 16, soff := nbits n 144 40, doff := nbits n 184 40, len := nbits n 224 32 }

/-- A plan entry is valid (12 R294). -/
def entryOk (oper count n : Nat) : Bool :=
  let e := entryOf n
  let z := opSize oper
  nbits n 4 92 == 0 && nbits n 106 7 == 0 && decide (e.kind < 4) && decide (e.peer < count)
    && (if e.kind = 3 then e.len == 0 else e.len != 0 && e.len % 4 == 0 && decide (e.len ≤ 16777216))
    && (e.kind != 1 || (oper != 0xFF && e.len % z == 0 && e.soff % z == 0 && e.doff % z == 0))

/-- A plan header is valid (12 R293, R294). DEDUCED, log 51. -/
def headOk (n : Nat) : Bool :=
  nbits n 96 416 == 0 && nbits n 68 4 == 0 && nbits n 45 19 == 0 && nbits n 0 32 == 0
    && decide (nbits n 64 4 ≤ 8) && decide (1 ≤ nbits n 32 13) && decide (nbits n 32 13 ≤ 4096)

/-- Read bytes on the FB path in a domain: the bytes, or the fault (12 R293; 14 R345). -/
def readFb (d top : Nat) (nd : Need) (va : Word) (len : Nat) (s : State) : Except (Nat × Word) (List Byte) × State :=
  match checkRun d top nd va len s with
  | (.error (code, a), s) => (.error (code, BitVec.ofNat 64 a), s)
  | (.ok segs, s) =>
    let (bs, po, s) := readSegs d .fb 0 false segs s
    match po with
    | some g => (.error (0x18, BitVec.ofNat 64 (vaOf segs g)), s)
    | none => (.ok bs, s)

/-- Entry i of a plan's bytes as a number. -/
def entryBits (bs : List Byte) (i : Nat) : Nat := natOf ((bs.drop (32 * i)).take 32)

/-- Step a plan counter; it saturates (12 R296). -/
def bumpCounter (n : Nat) (q : Coll) : Coll := { q with counters := q.counters.modify n fun v => min 65535 (v + 1) }

/-- A plan entry may fire (12 R296). -/
def ready (q : Coll) (e : PlanEntry) : Bool :=
  !e.fired && decide (e.thresh ≤ q.counters.getD e.arm 0) && q.notices.any fun n => n.1 == e.peer

/-- The acknowledgement of an entry arrives: its local step (12 R295). -/
def ackEntry (i : Nat) (q : Coll) : Coll :=
  let e := q.entries.getD i { kind := 0, peer := 0, direct := false, sl := none, sd := none, arm := 0, thresh := 0, soff := 0, doff := 0, len := 0 }
  let q := { q with entries := q.entries.modify i fun e => { e with acked := true } }
  match e.sl with
  | some n => bumpCounter n q
  | none => q

/-- Entries that are ready fire in plan order; one without data sends its step (12 R295, R296). -/
def fire (d : Nat) (q : Coll) (s : State) : State :=
  foldS (fun (e : PlanEntry × Nat) s =>
    match coll? s d q.top q.gid q.seq with
    | none => s
    | some q =>
      let now := q.entries.getD e.2 e.1
      if !q.started || !ready q now then s else
      let s := modColl d q (fun r => { r with entries := r.entries.modify e.2 fun x => { x with fired := true } }) s
      if now.kind ≠ 3 then s else
      match group? (getDie s d) q.top q.gid with
      | some g => tellMembers d q.top g [now.peer] (collMsg q (.step e.2 now.sd)) s
      | none => s) q.entries.zipIdx s

/-- The collective completes on this member when its incoming entries equal EXPECT and its own are acknowledged (12 R297). -/
def tryComplete (d : Nat) (q : Coll) (s : State) : State :=
  match coll? s d q.top q.gid q.seq with
  | none => s
  | some q =>
    if q.started && q.count == q.expect && q.entries.all (·.acked) then endColl d q 0 none s else s

/-- Counters have moved: entries fire, and the collective may be complete. -/
def advanceColl (d : Nat) (q : Coll) (s : State) : State :=
  match coll? s d q.top q.gid q.seq with
  | some q => tryComplete d q (fire d q s)
  | none => s

/-- One incoming entry has been performed here with its step (12 R295, R297). -/
def countEntry (d : Nat) (q : Coll) (step : Option Nat) (s : State) : State :=
  let s := modColl d q (fun r =>
    let r := { r with count := r.count + 1 }
    match step with | some n => bumpCounter n r | none => r) s
  advanceColl d q s

/-- An incoming entry of a member would be beyond EXPECT (12 R297). -/
def beyond (q : Coll) (mem ent : Nat) : Bool :=
  !(q.heard.any fun h => h.1 == mem && h.2.1 == ent) && decide (q.expect ≤ q.heard.length)

/-- An incoming entry without data: its step (12 R295); before the start it is held (12 R296). -/
def planStep (d : Nat) (q : Coll) (m : GMsg) (ent : Nat) (step : Option Nat) (s : State) : State :=
  if !q.started then modColl d q (fun r => { r with heldSteps := r.heldSteps ++ [m] }) s
  else if beyond q m.mem ent then failColl d q 0x12 q.desc s
  else
    let s := modColl d q (fun r => { r with heard := (m.mem, ent, 0) :: r.heard }) s
    countEntry d q step s

/-- The acknowledgement of a step that has been taken goes back to its member. -/
def ackStep (d : Nat) (m : GMsg) (ent : Nat) (s : State) : State :=
  let dd := getDie s d
  let e := routeOf dd m.top m.src
  if m.src = progRank dd m.top || (rtValid e && rtLocal e) then
    let (x, t) := if m.src = progRank dd m.top then (d, m.top) else (rtDie e, rtDrid e)
    match coll? s x t m.gid m.seq with
    | some q => advanceColl x q (modColl x q (ackEntry ent) s)
    | none => s
  else { s with acksOut := s.acksOut ++ [(rtPkg e, .ackArrival (rtDie e) (.step (rtDrid e) m.gid m.seq ent))] }

/-- A step arrives (12 R296). -/
def stepArrives (d : Nat) (m : GMsg) (s : State) : State :=
  match m.body with
  | .step ent ctr =>
    meet d m (fun s =>
      match coll? s d m.top m.gid m.seq with
      | some q => let s := planStep d q m ent ctr s
                  if q.started && !beyond q m.mem ent then ackStep d m ent s else s
      | none => s) s
  | _ => s

/-- An open notice arrives (12 R296). -/
def noticeArrives (d : Nat) (m : GMsg) (s : State) : State :=
  match m.body with
  | .openNotice rbuf =>
    meet d m (fun s =>
      match coll? s d m.top m.gid m.seq with
      | some q => advanceColl d q (modColl d q (fun r => { r with notices := (m.mem, rbuf) :: r.notices }) s)
      | none => s) s
  | _ => s

/-- An abort notice arrives (12 R300). DEDUCED, log 50. -/
def abortArrives (d : Nat) (m : GMsg) (s : State) : State :=
  match m.body with
  | .abort code mem => meet d m (endLocal d m.top m.gid m.seq code mem) s
  | _ => s

/-- The collective starts: the plan is read and checked, the open notices leave, held steps are applied (12 R293, R296).
DEDUCED, log 51. -/
def startColl (d : Nat) (q : Coll) (s : State) : State :=
  if q.started || !fencePassed s q.ctx q.after then s else
  if q.plan.toNat % 64 ≠ 0 then failColl d q 0x01 q.plan s else
  match readFb d q.top { r := true } q.plan 64 s with
  | (.error (code, a), s) => failColl d q code a s
  | (.ok hd, s) =>
    let h := natOf hd
    if !headOk h then failColl d q 0x01 q.plan s else
    let n := nbits h 32 13
    match readFb d q.top { r := true } (q.plan + 64#64) (32 * n) s with
    | (.error (code, a), s) => failColl d q code a s
    | (.ok bs, s) =>
      let members := collMembers s d q
      match (List.range n).find? fun i => !entryOk q.oper members.length (entryBits bs i) with
      | some i => failColl d q 0x01 (q.plan + BitVec.ofNat 64 (64 + 32 * i)) s
      | none =>
        let s := modColl d q (fun r => { r with
          started := true
          chunk := 2 ^ (12 + nbits h 64 4)
          entries := (List.range n).map fun i => entryOf (entryBits bs i)
          expect := nbits h 72 24
          heldSteps := [] }) s
        let s := match group? (getDie s d) q.top q.gid with
          | some g => tellMembers d q.top g members (collMsg q (.openNotice q.rbuf)) s
          | none => s
        let s := foldS (fun m s => stepArrives d m s) q.heldSteps s
        match coll? s d q.top q.gid q.seq with
        | some q => advanceColl d q s
        | none => s

/-! Chunks -/

/-- The bytes that an entry sends for source bytes: PUTC converts FP32 to BF16 (12 R295). -/
def chunkBytes (kind : Nat) : List Byte → List Byte × BitVec 8
  | a :: b :: c :: e :: rest =>
    let (more, fl) := chunkBytes kind rest
    if kind = 2 then
      let (v, g) := roundTo ffBF16 (fxOf ffF32 (natOf [a, b, c, e])) .rne 0
      (bytesOf 2 v ++ more, g ||| fl)
    else (a :: b :: c :: e :: more, fl)
  | _ => ([], 0#8)

/-- Cut the packets of one chunk of an entry from its source bytes (12 R296). -/
def chunkPackets (d : Nat) (q : Coll) (i : Nat) (e : PlanEntry) (rank : Nat) : Nat → Nat → List Byte → State → State
  | 0, _, _, s => s
  | fuel + 1, off, bs, s =>
    if bs.isEmpty then s else
    let src := bs.take 4096
    let (out, fl) := chunkBytes e.kind src
    let at0 := if e.kind = 2 then off / 2 else off
    let s := modColl d q (fun r => { r with
      flags := r.flags ||| fl
      entries := r.entries.modify i fun x => { x with unacked := x.unacked + 1 } }) s
    let s := enqueuePkt d q.top q.ctx q.rid rank e.direct true q.ord 1 none
      (.chunk q.gid q.gen q.seq q.self i e.kind q.oper (e.doff + at0) (e.soff + off)
        (if e.kind = 2 then e.len / 2 else e.len) out e.sd q.sig) s
    chunkPackets d q i e rank fuel (off + src.length) (bs.drop 4096) s

/-- Read bytes of a stream of a domain on the FB path: the bytes and the translation held last, or the fault (09 R237;
14 R345). -/
def visitFb (d top : Nat) (nd : Need) (held : Option TlbEntry) (va len : Nat) (s : State) :
    Except (Nat × Word) (List Byte × Option TlbEntry) × State :=
  match visitRun none d top nd (len / 65536 + 2) held va len s with
  | (.error (code, a), s) => (.error (code, BitVec.ofNat 64 a), s)
  | (.ok (segs, held), s) =>
    let (bs, po, s) := readSegs d .fb 0 false segs s
    match po with
    | some g => (.error (0x18, BitVec.ofNat 64 (vaOf segs g)), s)
    | none => (.ok (bs, held), s)

/-- One chunk of entry i leaves: its source is read now (12 R295, R296, R301). -/
def cutChunk (d : Nat) (q : Coll) (i : Nat) (e : PlanEntry) (s : State) : State :=
  let n := min q.chunk (e.len - e.sent)
  let nd : Need := { r := true, fmt := fun f => e.kind != 2 || f == 0 || f == 1 }
  let at_ (k : Nat) : Nat := (q.sbuf + BitVec.ofNat 64 (e.soff + k)).toNat
  match visitFb d q.top nd e.page (at_ e.sent) n s with
  | (.error (code, a), s) => failColl d q code a s
  | (.ok (bs, held), s) =>
    let rank := memberRank (getDie s d) q.top q.gid e.peer
    let s := modColl d q (fun r => { r with
      turn := i + 1
      entries := r.entries.modify i fun x => { x with
        sent := x.sent + n, page := if e.len ≤ e.sent + n then none else held.bind fun p => stillIn p (at_ (e.sent + n)) } }) s
    chunkPackets d q i e rank (n / 4096 + 1) e.sent bs s

/-- The entry whose chunk leaves next, round-robin in plan order (12 R296). -/
def nextChunk (q : Coll) : Option (PlanEntry × Nat) :=
  let es := q.entries.zipIdx.filter fun e => e.1.fired && e.1.kind != 3 && decide (e.1.sent < e.1.len)
  (es.find? fun e => decide (q.turn ≤ e.2)).orElse fun _ => es.head?

/-- Cut at most `fuel` chunks of a collective. -/
def cutChunks (d top gid seq : Nat) : Nat → State → State
  | 0, s => s
  | fuel + 1, s =>
    match coll? s d top gid seq with
    | none => s
    | some q =>
      match nextChunk q with
      | none => s
      | some (e, i) => cutChunks d top gid seq fuel (cutChunk d q i e s)

def chunkBound (q : Coll) : Nat :=
  q.entries.foldl (fun n e => if e.fired then n + (e.len - e.sent + 4095) / 4096 else n) 0

/-! Issue of collectives and barriers -/

/-- Early messages of an operation that has now been issued reach it (12 R289, R296). -/
def takeEarly (d top gid seq : Nat) (s : State) : State :=
  let mine (m : GMsg) : Bool := m.top == top && m.gid == gid && m.seq == seq
  let ms := (getDie s d).early.filter mine
  if ms.isEmpty then s else
  { modDie d (fun x => { x with early := x.early.filter fun m => !mine m }) s with
    msgs := ms.map (fun m => (d, m)) ++ s.msgs }

/-- The fields of a collective descriptor (12 R291). -/
def collOk (s : State) (c n : Nat) : Bool :=
  nbits n 480 32 == 0 && nbits n 144 48 == 0 && nbits n 112 16 == 0 && nbits n 100 4 == 0 && nbits n 74 22 == 0
    && nbits n 0 64 == 0 && decide (nbits n 96 4 < 7) && (validOp (nbits n 104 8) || nbits n 104 8 == 0xFF)
    && (match nameable s c (nbits n 64 10) with
        | some g => decide (nbits n 128 16 < g.ranks.length)
        | none => false)

/-- The collective of a captured descriptor takes its number and waits for its start (12 R289, R290). -/
def openColl (tag : Option Nat) (va : Word) (n : Nat) (s : State) : State :=
  let c := s.cur
  let d := dieOf c
  let top := domOf s c
  let gid := nbits n 64 10
  match group? (getDie s d) top gid with
  | none => s
  | some g =>
    let alive := (getCtx s c).fbFence.filter fun k => !fencePassed s c [k]
    let s := match tag with | some t => startTag c t s | none => s
    let (id, s) := nextOp c s
    let (n0, s) := nextOrd d s
    let q : Coll :=
      { id := id, ord := n0, ctx := c, top := top, rid := ridOf s c, tag := tag, level := levelOf s, gid := gid, gen := g.gen
        seq := g.seq, sig := .coll (nbits n 96 4) (nbits n 104 8) (nbits n 128 16) (nbits n 192 32), self := g.self
        desc := va, plan := BitVec.ofNat 64 (nbits n 384 64), sbuf := BitVec.ofNat 64 (nbits n 256 64)
        rbuf := BitVec.ofNat 64 (nbits n 320 64), oper := nbits n 104 8, after := alive }
    let s := modDie d (fun x => { x with
      colls := x.colls ++ [q]
      past := x.past.filter fun o => !(o.top == top && o.gid == gid && o.seq == g.seq) }) (takeSeq d top gid s)
    takeEarly d top gid g.seq (modCtx c (fun x => { x with fbFence := alive }) s)

/-- The cascade sequencer holds 16 active collectives (12 R290). -/
def collFull (s : State) : Bool := decide (16 ≤ ((getDie s (dieOf s.cur)).colls.filter fun q => !q.ended).length)

/-- The checks of R290 in their order; a poisoned descriptor starts nothing. DEDUCED, log 26. -/
def checkColl (tag : Option (BitVec 6)) (ra : BitVec 6) (k : Nat → Op) : Op := fun s =>
  let va := rdX (archOf s) ra
  let free := (tag.map fun t => tagFree t s).getD true
  if collFull s then .block .watched id else
  match descSegs 64 va s with
  | (.error (code, a), _) => .trap code a
  | (.ok segs, s) =>
    match descRead segs s with
    | (.error a, s) => descPoison tag a s
    | (.ok n, s) =>
      if !collOk s s.cur n then .trap 0x01 0#64
      else if !free then .trap 0x0A 0#64
      else if !linkOk s (dieOf s.cur) (domOf s s.cur) then .trap 0x19 0#64
      else k n s

/-- COLL (12 R290). -/
def opColl (ra tag : BitVec 6) : Op := fun s =>
  checkColl (some tag) ra (fun n s => .ok (openColl (some tag.toNat) (rdX (archOf s) ra) n s)) s

/-- The started collective of this COLLW bundle. -/
def myColl (s : State) : Option Nat :=
  match (getCtx s s.cur).waitColl with
  | some (id, pc) => if pc = (archOf s).pc then some id else none
  | none => none

/-- COLLW starts its collective once and waits until it has ended; its fault is delivered behind its bundle (12 R290, R300).
DEDUCED, log 53. -/
def opCollw (ra : BitVec 6) : Op := fun s =>
  let c := s.cur
  let d := dieOf c
  match myColl s with
  | some id =>
    match (getDie s d).colls.find? fun q => q.ctx == c && q.id == id with
    | none => .ok s
    | some q =>
      if !q.ended || (q.ending.isSome && !canDeliver s c q.level) then .block .huddle (fun t => t) else
      let s := modDie d (fun x => { x with colls := x.colls.filter fun r => !sameColl q r }) s
      .ok (match q.ending with | some f => deliverF c q.level f s | none => s)
  | none =>
    checkColl none ra (fun n s =>
      let va := rdX (archOf s) ra
      .block .huddle fun t =>
        let id := (getCtx t c).nextId
        modCtx c (fun x => { x with waitColl := some (id, x.arch.pc) }) (openColl none va n (drainLs c t))) s

/-- Numbers of the accesses of a context that have not been performed: LS, then fabric and collectives (12 R302). -/
def lsPending (s : State) (c : Nat) : List Nat :=
  let x := getCtx s c
  (x.lsq.filter fun e => !isMarker e.kind).map (·.id)
def fbPending (s : State) (c : Nat) : List (Nat × Bool) :=
  fenced s c true ++ ((getCtx s c).fb.filter fun f => f.kind == 1).map fun f => (f.id, false)

/-- BARR (12 R302). -/
def opBarr (rb tag : BitVec 6) : Op := fun s =>
  let c := s.cur
  let d := dieOf c
  let top := domOf s c
  let w := rdX (archOf s) rb
  let gid := bitsN w 9 0
  let named := if bitsN w 63 10 ≠ 0 then none else nameable s c gid
  match named with
  | none => .trap 0x01 0#64
  | some g =>
    if !tagFree tag s then .trap 0x0A 0#64
    else if !linkOk s d top then .trap 0x19 0#64
    else
    let b : Barrier :=
      { ctx := c, top := top, tag := tag.toNat, level := levelOf s, gid := gid, gen := g.gen, seq := g.seq
        ls := lsPending s c, fb := fbPending s c, self := g.self }
    let s := modDie d (fun x => { x with barriers := x.barriers ++ [b] }) (takeSeq d top gid (startTag c tag.toNat s))
    .ok (takeEarly d top gid g.seq s)

/-- The barrier's arrival leaves once the accesses before it have been performed (12 R302). -/
def barrSend (d n : Nat) (s : State) : State :=
  match (getDie s d).barriers[n]? with
  | none => s
  | some b =>
    let x := getCtx s b.ctx
    let passed := b.ls.all (fun i => !(x.lsq.any fun e => e.id == i)) && fencePassed s b.ctx b.fb
    match group? (getDie s d) b.top b.gid with
    | some g =>
      if b.sent || b.ending.isSome || !passed then s else
      let s := modDie d (fun y => { y with barriers := y.barriers.modify n fun r => { r with sent := true } }) s
      tellMembers d b.top g (allMembers g) (header b.top b.gid b.gen b.seq b.self .barr .barr) s
    | none => s

/-- The members that have arrived at a barrier. -/
def heard (b : Barrier) (l : List Nat) (r : Barrier) : Barrier := if sameBarrier b r then { r with arrived := l } else r

/-- A member's arrival reaches this rank; the last one sets the tag (12 R302). -/
def barrReceive (d : Nat) (m : GMsg) (s : State) : State :=
  match m.body with
  | .barr =>
    meet d m (fun s =>
      match barrier? s d m.top m.gid m.seq, group? (getDie s d) m.top m.gid with
      | some b, some g =>
        let arrived := (m.mem :: b.arrived).eraseDups
        if g.ranks.length ≤ arrived.length then endBarrier d b none s
        else modDie d (fun x => { x with barriers := x.barriers.map (heard b arrived) }) s
      | _, _ => s) s
  | _ => s

/-! Agreed branches -/

/-- The agreement word is valid (12 R303, R304). -/
def agreeOk (w : Word) : Bool :=
  bitsN w 63 48 == 0 && bitsN w 31 30 == 0 && bitsN w 27 26 == 0 && bitsN w 23 10 == 0 && (bit w 25 || !bit w 24)

/-- A pending round of this context has not been decided (12 R304, R311). -/
def roundPending (x : Ctx) : Bool :=
  match x.round with
  | some r => r.decided.isNone || r.level == x.level
  | none => false

/-- A handler that opens a round of its own sets the decided round of the interrupted state aside (12 R311).
DEDUCED, log 56. -/
def setAside (x : Ctx) : Ctx :=
  if x.round.isSome then { x with round0 := x.round, round := none, ckpt0 := x.ckpt, ckpt := none, engFlags0 := x.engFlags, engFlags := 0#8 } else x

/-- AGSTATE when a round opens (12 R305). -/
def agOpened (w : Word) : Word :=
  BitVec.ofNat 64 (bitsN w 47 32 * 2 ^ 48 + bitsN w 9 0 * 2 ^ 32 + (if bit w 25 then bitsN w 24 24 * 16 + 4 else 0) + 2)

/-- A round opens: it takes its number and its contribution leaves for the decision point, member 0 (12 R304, R306).
DESIGN CHOICE, log 54. -/
def openRound (agbx : Bool) (w : Word) (v : Nat) (g : Group) (s : State) : State :=
  let c := s.cur
  let d := dieOf c
  let top := domOf s c
  let r : Round := { word := w, contribution := v, gid := g.gid, seq := g.seq, gen := g.gen, agbx := agbx, level := levelOf s }
  let s := modCtx c (fun x => { setAside x with round := some r, agstate := agOpened w }) (takeSeq d top g.gid s)
  let s := tellMembers d top g [0] (header top g.gid g.gen g.seq g.self (roundSig r) (.contrib v)) s
  let s := if bit w 25 then setFlow (fun f => { f with ahead := true }) s else s
  takeEarly d top g.gid g.seq s

/-- The checks of an agreement instruction, the link key's last, then its round (12 R304; 13 R325). DESIGN CHOICE, log 54. -/
def issueRound (agbx : Bool) (w : Word) (bad : Bool) (v : Nat) : Op := fun s =>
  if roundPending (getCtx s s.cur) then .block .huddle id
  else if !agreeOk w || bad then .trap 0x01 0#64
  else
    match nameable s s.cur (bitsN w 9 0) with
    | none => .trap 0x01 0#64
    | some g => if linkOk s (dieOf s.cur) (domOf s s.cur) then .ok (openRound agbx w v g s) else .trap 0x19 0#64

/-- AGB contributes pc[0] as it was before the bundle (12 R304; 02 R45). -/
def opAgb (pc : BitVec 4) (rb : BitVec 6) : Op := fun s =>
  issueRound false (rdX (archOf s) rb) false (if bit (rdP { archOf s with p := s.flow.preds0 } pc) 0 then 1 else 0) s

/-- AGBX contributes xa[15:0] (12 R304). -/
def opAgbx (ra rb : BitVec 6) : Op := fun s =>
  let w := rdX (archOf s) rb
  let v := (rdX (archOf s) ra).toNat
  issueRound true w (bit w 25 || decide (65536 ≤ v)) v s

def opAgwait : Op := fun s => if roundPending (getCtx s s.cur) then .block .huddle id else .ok s

/-! The decision point -/

/-- The agreed value of contributions (12 R303, R304). -/
def combine (agbx : Bool) (oper : Nat) (vs : List Nat) : Nat :=
  let f (a b : Nat) : Nat := match oper with
    | 0 => a &&& b
    | 1 => a ||| b
    | 2 => min a b
    | _ => max a b
  match vs with
  | [] => 0
  | v :: rest => rest.foldl f v

def sameDecision (q r : Decision) : Bool := r.top == q.top && r.gid == q.gid && r.gen == q.gen && r.seq == q.seq

/-- The decision point sends an outcome to members (12 R306). -/
def sendOutcome (d : Nat) (q : Decision) (v : Verdict) (members : List Nat) (s : State) : State :=
  match group? (getDie s d) q.top q.gid with
  | some g => tellMembers d q.top g members
      (header q.top q.gid q.gen q.seq g.self (q.sig.getD (.huddle false 0 0)) (.outcome v)) s
  | none => s

/-- The outcome of a round is decided once and sent to every member (12 R306). -/
def decideRound (d : Nat) (q : Decision) (v : Verdict) (s : State) : State :=
  let s := modDie d (fun x => { x with decisions := x.decisions.map fun r => if sameDecision q r then { r with verdict := some v } else r }) s
  match group? (getDie s d) q.top q.gid with
  | some g => sendOutcome d q v (allMembers g) s
  | none => s

/-- The round at the decision point that a message belongs to; a new one when there is none. -/
def decisionFor (d : Nat) (m : GMsg) (s : State) : Decision × State :=
  match (getDie s d).decisions.find? fun q => q.top == m.top && q.gid == m.gid && q.seq == m.seq && q.gen == m.gen with
  | some q => (q, s)
  | none =>
    let q : Decision := { top := m.top, gid := m.gid, gen := m.gen, seq := m.seq, contributions := [], sig := none }
    (q, modDie d (fun x => { x with decisions := q :: x.decisions }) s)

/-- The round of a message is a mismatch, unless it has been decided. -/
def mismatchRound (d : Nat) (m : GMsg) (s : State) : State :=
  let (q, s) := decisionFor d m s
  match q.verdict with
  | some v => sendOutcome d q v [m.mem] s
  | none => decideRound d q (.mismatch 0x12) s

/-- A contribution joins its round; the last one decides it (12 R289, R306). -/
def joinRound (d : Nat) (m : GMsg) (v : Nat) (s : State) : State :=
  let (q, s) := decisionFor d m s
  match q.verdict with
  | some v => sendOutcome d q v [m.mem] s
  | none =>
    match q.sig.bind fun g => mismatchCode q.gen g m.gen m.sig with
    | some code => decideRound d q (.mismatch code) s
    | none =>
      let q := { q with sig := some m.sig, contributions := (m.mem, v) :: q.contributions.filter fun e => e.1 != m.mem }
      let s := modDie d (fun x => { x with decisions := x.decisions.map fun r => if sameDecision q r then q else r }) s
      let count := ((group? (getDie s d) m.top m.gid).map fun g => g.ranks.length).getD 0
      match m.sig with
      | .huddle agbx oper _ =>
        if q.contributions.length < count || count == 0 then s
        else decideRound d q (.value (combine agbx oper (q.contributions.map (·.2)))) s
      | _ => s

/-- A contribution reaches the decision point. Under its sequence number a round of another generation that is still open
is mismatched with it, and so is a collective or a barrier of this rank (12 R289, R306). -/
def contribArrives (d : Nat) (m : GMsg) (s : State) : State :=
  match m.body with
  | .contrib v =>
    let other := (getDie s d).decisions.find? fun q =>
      q.top == m.top && q.gid == m.gid && q.seq == m.seq && q.gen != m.gen && q.verdict.isNone
    match other, coll? s d m.top m.gid m.seq, barrier? s d m.top m.gid m.seq with
    | some q, _, _ => mismatchRound d m (decideRound d q (.mismatch 0x12) s)
    | none, some _, _ | none, none, some _ => mismatchRound d m (endEverywhere d m.top m.gid m.seq 0x12 s)
    | none, none, none => joinRound d m v s
  | _ => s

/-- An outcome reaches a member (12 R306 to R311). -/
def outcomeArrives (d : Nat) (m : GMsg) (s : State) : State :=
  match m.body with
  | .outcome v =>
    match roundCtx s d m.top m.gid m.seq with
    | some (c, r) => if r.gen = m.gen then resolveRound c v s else s
    | none =>
      match dropped? s d m.top m.gid m.seq with
      | some e => if e.2.2.gen = m.gen then endDropped d e v s else s
      | none => s
  | _ => s

/-- A void request reaches the decision point (12 R306). -/
def voidArrives (d : Nat) (m : GMsg) (s : State) : State :=
  match m.body with
  | .voidReq =>
    let (q, s) := decisionFor d m s
    match q.verdict with
    | some v => sendOutcome d q v [m.mem] s
    | none => decideRound d q .void s
  | _ => s

/-- A member cannot learn the outcome of its round: the round is void for every member unless it has been decided; a decision
point in another package is told (09 R241; 12 R306).
DEDUCED, log 106. -/
def voidEverywhere (d top : Nat) (gid gen seq : Nat) (sig : GSig) (s : State) : State :=
  let dd := getDie s d
  match group? dd top gid with
  | none => s
  | some g =>
    let rank := g.ranks.getD 0 0
    let e := routeOf dd top rank
    let here := decide (rank = progRank dd top)
    let req (t : Nat) : GMsg := { header t gid gen seq g.self sig .voidReq with dst := rank, src := progRank dd top }
    let decide_ (x t : Nat) : State :=
      let (q, s) := decisionFor x (req t) s
      if q.verdict.isNone then decideRound x q .void s else s
    if here then decide_ d top
    else if rtValid e && rtLocal e then decide_ (rtDie e) (rtDrid e)
    else { s with acksOut := s.acksOut ++ [(rtPkg e, .voidRequestArrival (rtDie e) (req (rtDrid e)))] }

/-- A member whose round has not resolved in time asks for it to be void; if that brings no answer either, it cannot learn the
outcome (09 R241; 12 R306).
DESIGN CHOICE, log 54. -/
def askVoid (c : Nat) (s : State) : State :=
  let d := dieOf c
  let top := domOf s c
  let x := getCtx s c
  match x.round with
  | some r =>
    if hasOutcome x r then s
    else if r.asked then resolveRound c .void (voidEverywhere d top r.gid r.gen r.seq (roundSig r) s)
    else match group? (getDie s d) top r.gid with
      | some g =>
        tellMembers d top g [0] (header top r.gid r.gen r.seq g.self (roundSig r) .voidReq)
          (modCtx c (fun x => { x with round := x.round.map fun r => { r with asked := true } }) s)
      | none => s
  | none => s

/-- A message of an operation could not be delivered: 0x10 and 0x11 end a collective here and abort it elsewhere, and end
a barrier; a huddle's member that cannot reach the decision point takes its round as void, and every other member does
unless it has been decided (09 R241; 12 R300, R302, R306).
DEDUCED, log 106. -/
def groupFails (d : Nat) (m : GMsg) (code : Nat) (s : State) : State :=
  match m.body with
  | .outcome _ => s
  | .contrib _ | .voidReq => endLocal d m.top m.gid m.seq 0x15 m.mem (voidEverywhere d m.top m.gid m.gen m.seq m.sig s)
  | .barr => endEverywhere d m.top m.gid m.seq code s
  | .openNotice _ | .step .. | .abort .. =>
    match coll? s d m.top m.gid m.seq with
    | some q => failColl d q code q.desc s
    | none => s

/-- The decision point sends an outcome again to a member (12 R306). -/
def resendOutcome (d n mem : Nat) (s : State) : State :=
  match (getDie s d).decisions[n]? with
  | some q =>
    match q.verdict with
    | some v => sendOutcome d q v [mem] s
    | none => s
  | none => s

/-! A lost member -/

/-- A group of a program names a rank. -/
def groupHas (d : Die) (top gid rank : Nat) : Bool := ((group? d top gid).map fun g => g.ranks.contains rank).getD false

/-- Firmware reports a rank of a program lost: collectives and barriers of its groups end, rounds not decided become
void for every member, a round is void here whose decision point, or whose own rank, is lost, and no stream from the rank goes
on (12 R300, R302, R306; 14 R348).
DEDUCED, log 55. DEDUCED, log 72. -/
def memberLost (d top rank : Nat) (s : State) : State :=
  let dd := getDie s d
  let cutOff (gid : Nat) : Bool := groupHas dd top gid rank &&
    (rank == progRank dd top || ((group? dd top gid).bind fun g => g.ranks.head?) == some rank)
  let s := mirrorsLost d top rank s
  let s := modDie d (fun x => { x with flowsIn := x.flowsIn.map fun f => if f.top = top ∧ f.src = rank then { f with pages := [] } else f }) s
  let s := foldS (fun q s => if q.top == top && !q.ended && groupHas dd top q.gid rank then failColl d q 0x15 q.desc s else s) dd.colls s
  let s := foldS (fun b s => if b.top == top && b.ending.isNone && groupHas dd top b.gid rank then
      endEverywhere d top b.gid b.seq 0x15 s else s) dd.barriers s
  let s := foldS (fun q s => if q.top == top && q.verdict.isNone && groupHas dd top q.gid rank then decideRound d q .void s else s)
    dd.decisions s
  let s := foldS (fun e s => if e.1 == top && cutOff e.2.2.gid then endDropped d e .void s else s) dd.dropped s
  foldS (fun c s =>
    match (getCtx s c).round with
    | some r =>
      if domOf s c != top || hasOutcome (getCtx s c) r || !groupHas dd top r.gid rank then s else
      let s := voidEverywhere d top r.gid r.gen r.seq (roundSig r) s
      if cutOff r.gid then resolveRound c .void s else s
    | none => s) (dieCtxs s d) s

/-- Something of a collective is still awaited here: an open notice, data or a step (12 R300). -/
def awaits (q : Coll) : Bool := q.started && !q.ended && (decide (q.count < q.expect) || q.entries.any fun e => !e.fired)

/-- Nothing of the collective has reached this member in time while something is awaited (12 R300).
DESIGN CHOICE, log 79. -/
def collTimeout (d n : Nat) (s : State) : State :=
  match (getDie s d).colls[n]? with
  | some q => if awaits q then failColl d q 0x10 q.desc s else s
  | none => s

/-! Events -/

/-- A group message that has reached a die acts on it; one that has not does nothing (13 R324). -/
def hear (d : Nat) (m : GMsg) (act : State → State) (s : State) : State :=
  if s.msgs.contains (d, m) then onDie d s (act { s with msgs := s.msgs.erase (d, m) }) else s

/-- `COLL` (R290) -/
def execColl (ra : BitVec 6) (tag : BitVec 6) (s : State) : Result :=
  .next (lone (.coll ra tag) (opColl ra tag) s)

/-- `COLLW` (R290) -/
def execCollw (ra : BitVec 6) (s : State) : Result :=
  .next (lone (.collw ra) (opCollw ra) s)

/-- `AGB` (R304) -/
def execAgb (pc : BitVec 4) (rb : BitVec 6) (s : State) : Result :=
  .next (lone (.agb pc rb) (opAgb pc rb) s)

/-- `AGBX` (R304) -/
def execAgbx (ra rb : BitVec 6) (s : State) : Result :=
  .next (lone (.agbx ra rb) (opAgbx ra rb) s)

/-- `AGWAIT` (R304) -/
def execAgwait (s : State) : Result :=
  .next (lone (.agwait) opAgwait s)

/-- `BARR` (R302) -/
def execBarr (rb : BitVec 6) (tag : BitVec 6) (s : State) : Result :=
  .next (lone (.barr rb tag) (opBarr rb tag) s)


/-- `COLLECTIVE_START` (R296) -/
def execCollectiveStart (d n : Nat) (s : State) : Result :=
  .next (onDie d s (match (getDie s d).colls[n]? with | some q => if q.ended then s else startColl d q s | none => s))

/-- `OPEN_NOTICE_ARRIVAL` (R296) -/
def execOpenNoticeArrival (d : Nat) (m : GMsg) (s : State) : Result :=
  .next (hear d m (noticeArrives d m) s)

/-- `PLAN_STEP_ARRIVAL` (R296) -/
def execPlanStepArrival (d : Nat) (m : GMsg) (s : State) : Result :=
  .next (hear d m (stepArrives d m) s)

/-- `ABORT_NOTICE_ARRIVAL` (R300) -/
def execAbortNoticeArrival (d : Nat) (m : GMsg) (s : State) : Result :=
  .next (hear d m (abortArrives d m) s)

/-- `COLLECTIVE_TIMEOUT` (R300) -/
def execCollectiveTimeout (d n : Nat) (s : State) : Result :=
  .next (onDie d s (collTimeout d n s))

/-- `MEMBER_LOST_REPORT` (R300) -/
def execMemberLostReport (d top rank : Nat) (s : State) : Result := .next (memberLost d top rank s)

/-- `BARR_ARRIVAL_SEND` (R302) -/
def execBarrArrivalSend (d n : Nat) (s : State) : Result :=
  .next (onDie d s (barrSend d n s))

/-- `BARR_ARRIVAL_RECEIVE` (R302) -/
def execBarrArrivalReceive (d : Nat) (m : GMsg) (s : State) : Result :=
  .next (hear d m (barrReceive d m) s)

/-- `HUDDLE_CONTRIBUTION_ARRIVAL` (R306) -/
def execHuddleContributionArrival (d : Nat) (m : GMsg) (s : State) : Result :=
  .next (hear d m (contribArrives d m) s)

/-- `HUDDLE_OUTCOME_ARRIVAL` (R306) -/
def execHuddleOutcomeArrival (d : Nat) (m : GMsg) (s : State) : Result :=
  .next (hear d m (outcomeArrives d m) s)

/-- `HUDDLE_TIMEOUT` (R306) -/
def execHuddleTimeout (c : Nat) (s : State) : Result :=
  .next (onDie (dieOf c) s (askVoid c s))

/-- `VOID_REQUEST_ARRIVAL` (R306) -/
def execVoidRequestArrival (d : Nat) (m : GMsg) (s : State) : Result :=
  .next (hear d m (voidArrives d m) s)

/-- `OUTCOME_RESEND` (R306) -/
def execOutcomeResend (d n mem : Nat) (s : State) : Result :=
  .next (onDie d s (resendOutcome d n mem s))

end Sys2Proof.Machine
end

