-- ==== Sys2Proof/Machine/Transport.lean ====
section
/-!
DEFINITION. Packets on their way: leaving, relays, arrival, acceptance, performing, acknowledgements, notices,
retransmission, timeouts (spec 11 R262 to R275, R279 to R284; 12 R295 to R299; 13 R324).
-/

namespace Sys2Proof.Machine

open Sys2Proof

/-! Which packets may leave -/

/-- Distance of two sequence numbers (11 R270). -/
def seqDist (a b : Nat) : Nat := (a + 2 ^ 32 - b) % 2 ^ 32

/-- A packet of the same flow. -/
def sameFlow (p q : Pkt) : Bool := p.stop == q.stop && p.dst == q.dst

/-- A strong packet keeps within 64 sequence numbers of each older strong packet of its flow that the destination has
not acknowledged (11 R271).
DEDUCED, log 43. -/
def inWindow (d : Die) (p : Pkt) : Bool :=
  !p.strong || d.sendq.all fun q =>
    !(sameFlow p q.pkt && q.pkt.strong) || decide (seqDist p.seq q.pkt.seq < 64) || decide (2 ^ 31 ≤ seqDist p.seq q.pkt.seq)

/-- Bytes that stand in a link receive queue or have a place there (11 R280). -/
def linkBytes (q : LinkQ) : Nat := (q.msgs.map (·.length)).foldl (· + ·) 0 + q.total

/-- A message has a place in a link receive queue: it is arriving already, or it fits (11 R280).
DESIGN CHOICE, log 42. -/
def fitsQueue (q : LinkQ) (cmd total : Nat) : Bool :=
  (q.total != 0 && q.cmd == cmd) ||
  (q.total == 0 && decide (q.msgs.length < 8) && decide (linkBytes q + total ≤ 65536))

/-- A message waits in its send queue until it fits its receiver's queue (11 R280): of another package it is not
known here, so the tape may say that it does not fit.
DESIGN CHOICE, log 42. -/
def hasRoom (s : State) (p : Pkt) (e : Word) : Bool × State :=
  match p.pay with
  | .msg total _ =>
    if rtLocal e then (fitsQueue (linkq (getDie s (rtDie e)) (rtDrid e) p.src) p.cmd total, s)
    else let (n, s) := choose 2 s; (n == 0, s)
  | _ => (true, s)

/-- The flits of a packet: whole 64-byte flits (11 R270). -/
def flitsOf (p : Pkt) : Nat :=
  let n := match p.pay with
    | .put _ bs | .red _ _ bs | .msg _ bs | .amps _ _ _ _ bs => bs.length
    | .chunk _ _ _ _ _ _ _ _ _ _ bs _ _ => bs.length
    | .image i => i.bytes.length
    | .getReq .. | .group _ | .shake .. | .empty => 64
  max 1 ((n + 63) / 64)

/-- The version of a program's table on a die. -/
def verOf (d : Die) (top : Nat) : Nat := ((region? d top).map (·.ver)).getD 0

/-- The place of the oldest strong packet of a flow that has not been acknowledged: those before it have been performed
(11 R271). -/
def oldestOrd (d : Die) (p : Pkt) : Nat :=
  ((d.sendq.filter fun q => sameFlow p q.pkt && q.pkt.strong).map (·.pkt.ord)).foldl min p.ord

/-- A packet as it leaves: the route in force is stamped on it, and it is sealed under the link key that its die then holds
(11 R266, R268; 13 R324). -/
def stamp (s : State) (d : Nat) (e : Word) (p : Pkt) : Pkt :=
  { p with
    top := rtDrid e, pkg := rtPkg e, die := rtDie e, ver := verOf (getDie s d) p.stop
    good := linkOk s d p.stop, key := linkId s d p.stop, low := if p.strong then oldestOrd (getDie s d) p else 0 }

/-- A retransmission waits until the version that was named, or a later one, is installed (11 R268). -/
def waitsVersion (d : Die) (p : SendPkt) : Bool :=
  match p.needVer with
  | some v => decide (32768 ≤ (verOf d p.pkt.stop + 65536 - v) % 65536)
  | none => false

/-- The place of the first packet of a rank's queue that has not left. DEDUCED, log 43. -/
def queueHead (d : Die) (top dst : Nat) : Option Nat :=
  d.sendq.findIdx? fun p => !p.sent && !waitsVersion d p && p.pkt.stop == top && p.pkt.dst == dst

/-- The send queues that hold a packet to leave: program, rank (11 R273). -/
def queuesOfDie (d : Die) : List (Nat × Nat) :=
  ((d.sendq.filter fun p => !p.sent).map fun p => (p.pkt.stop, p.pkt.dst)).eraseDups

def modSend (d n : Nat) (f : SendPkt → SendPkt) (s : State) : State :=
  modDie d (fun x => { x with sendq := x.sendq.modify n f }) s

/-! Inside the package -/

/-- The head of a queue goes onto the die-to-die links if its rank is in the package (11 R273). -/
def sendLocal (d top dst : Nat) (s : State) : State × Bool :=
  let dd := getDie s d
  match queueHead dd top dst with
  | none => (s, false)
  | some n =>
    match dd.sendq[n]? with
    | none => (s, false)
    | some p =>
      let e := routeOf dd top dst
      if !rtValid e || !rtLocal e || !inWindow dd p.pkt then (s, false) else
      let (room, s) := hasRoom s p.pkt e
      if !room then (s, false) else
      let q := stamp s d e p.pkt
      ({ modSend d n (fun x => { x with sent := true, pkt := q, needVer := none }) s with wire := s.wire ++ [q] }, true)

/-- Packets of one queue leave for the package's dies as long as they may. DEDUCED, log 43. -/
def drainQueue (d top dst : Nat) : Nat → State → State
  | 0, s => s
  | fuel + 1, s =>
    match sendLocal d top dst s with
    | (s, true) => drainQueue d top dst fuel s
    | (s, false) => s

/-! Performing -/

/-- The receiving side of a flow (11 R269, R271). -/
def flowIn (d : Die) (p : Pkt) : FlowIn :=
  (d.flowsIn.find? fun f => f.src == p.src && f.top == p.top).getD { src := p.src, top := p.top }

def setFlowIn (f : FlowIn) (d : Die) : Die :=
  { d with flowsIn := f :: d.flowsIn.filter fun g => !(g.src == f.src && g.top == f.top) }

def modFlowIn (d : Nat) (p : Pkt) (f : FlowIn → FlowIn) (s : State) : State :=
  modDie d (fun x => setFlowIn (f (flowIn x p)) x) s

/-- The translation that a command holds here on its present visit to a page (09 R237). -/
def heldPage (s : State) (d : Nat) (p : Pkt) : Option TlbEntry :=
  ((flowIn (getDie s d) p).pages.find? fun e => e.1 == p.cmd).map (·.2)

/-- The command goes on holding a translation, or none; a weak packet is a visit of its own (09 R237; 11 R271). -/
def holdPage (d : Nat) (p : Pkt) (h : Option TlbEntry) (s : State) : State :=
  modFlowIn d p (fun f => { f with pages :=
    (if p.strong then h.toList else []).map (fun e => (p.cmd, e)) ++ f.pages.filter fun e => e.1 != p.cmd }) s

/-- The number of a packet's operation among the writes of a die: the packets of one command are one operation (09 R234). -/
def pktOp (p : Pkt) : Nat := opNum 65535 ((p.top * 1024 + p.src) * 2 ^ 32 + p.cmd)

/-- A float of a reduction operator's format that is a NaN or infinite (12 R299). -/
def nonFinite (op v : Nat) : Bool :=
  if op < 16 then false else
  let f := if op < 20 then ffF32 else if op < 24 then ffBF16 else ffF16
  let x := fxOf f v
  isNanFx x || isInfFx x

/-- How a reduction at a destination went on: done, a page fault, or an exceptional value: whose it was (12 R299). -/
inductive RedEnd
  | done (fl : BitVec 8)
  | fault (code addr : Nat) (fl : BitVec 8)
  | halt (old new : Bool) (at_ : Nat) (fl : BitVec 8)

/-- Reduce elements in a domain, each at its bank, once, with the translation held last; `coll`: it halts at exceptional
values (11 R279; 12 R295, R299; 09 R237). -/
def reduceRemote (d top op opn : Nat) (coll : Bool) : Nat → Option TlbEntry → Nat → List Byte → BitVec 8 → State →
    RedEnd × Option TlbEntry × State
  | 0, held, _, _, fl, s => (.done fl, held, s)
  | fuel + 1, held, va, bs, fl, s =>
    if bs.isEmpty then (.done fl, held, s) else
    let z := opSize op
    match visitRun none d top { r := true, w := true, fmt := fmtOp op } 2 held va z s with
    | (.error e, s) => (.fault e.1 e.2 fl, none, s)
    | (.ok (segs, held), s) =>
      let (old, po, s) := match segs with
        | g :: _ => readBankOn d .fb g.pa g.len g.okey 0 false s
        | [] => ([], none, s)
      if po.isSome then (.fault 0x18 va fl, none, s) else
      let a := natOf old
      let b := natOf (bs.take z)
      let (v, g) := reduceElem op a b
      if coll && (nonFinite op a || nonFinite op b || nonFinite op v) then
        (.halt (nonFinite op a) (nonFinite op b || !nonFinite op a) va fl, none, s)
      else
        reduceRemote d top op opn coll fuel held (va + z) (bs.drop z) (fl ||| g)
          (writeSegs d .fb opn 0 false segs (bytesOf z v) s)

/-- What performing a packet gives: flags, a remote fault, answered bytes. -/
structure Done where
  fl : BitVec 8 := 0#8
  fail : Option (Nat × Word) := none
  data : List Byte := []

/-- A part of a plan entry is not performed here: the notice of the end, not this acknowledgement, tells its member (12
R295, R300). -/
def Done.lost : Done := { fail := some (0, 0#64) }

/-- A piece of a message enters the link receive queue (11 R280). -/
def putMessage (d : Nat) (p : Pkt) (total : Nat) (bs : List Byte) (s : State) : State :=
  modDie d (fun x =>
    let q := linkq x p.top p.src
    let part := if q.total != 0 && q.cmd == p.cmd then q.part ++ bs else bs
    if total ≤ part.length then setLinkq { q with msgs := q.msgs ++ [part], part := [], total := 0 } x
    else setLinkq { q with part := part, cmd := p.cmd, total := total } x) s

/-- A command that has ended leaves no part of a message (11 R280). -/
def dropPart (d : Nat) (p : Pkt) (s : State) : State :=
  modDie d (fun x =>
    let q := linkq x p.top p.src
    if q.total != 0 && q.cmd == p.cmd then setLinkq { q with part := [], total := 0 } x else x) s

/-- An element with an exceptional value halts the collective here; whose it was decides who faults (12 R299, R300).
DEDUCED, log 52. -/
def haltColl (d : Nat) (q : Coll) (mem : Nat) (old new : Bool) (addr : Nat) (s : State) : State :=
  let mine := old && mem != q.self
  let raisers := (if new then [mem] else []) ++ (if old then [q.self] else [])
  let low := raisers.foldl min (raisers.headD 0)
  let s := tellAbort d q ((collMembers s d q).filter fun i => !raisers.contains i) 0x13 low s
  if mine then collFault d q 0x13 (BitVec.ofNat 64 addr) s
  else if new && mem == q.self then s
  else if old then collFault d q 0x13 (BitVec.ofNat 64 addr) s
  else endColl d q (1 + 0x13 * 256 + low * 65536) none s

/-- The translation that an incoming entry holds on its present visit to a page of RBUF (09 R237). -/
def inPage (q : Coll) (mem ent : Nat) : Option TlbEntry :=
  (q.inPages.find? fun e => e.1 == mem && e.2.1 == ent).map fun e => e.2.2

/-- A part of an incoming entry has been performed: its bytes count, and it goes on holding its page (12 R297). -/
def hearPart (mem ent got : Nat) (held : Option TlbEntry) (r : Coll) : Coll :=
  { r with
    heard := (mem, ent, got) :: r.heard.filter fun h => !(h.1 == mem && h.2.1 == ent)
    inPages := held.toList.map (fun e => (mem, ent, e)) ++ r.inPages.filter fun h => !(h.1 == mem && h.2.1 == ent) }

/-- A part of a plan entry is performed at this member (12 R295 to R299). -/
def performChunk (d : Nat) (p : Pkt) (s : State) : Done × State :=
  match p.pay with
  | .chunk gid gen seq mem ent kind oper doff soff total bs step sig =>
    match localSig s d p.top gid seq with
    | none =>
      (Done.lost, match over? s d p.top gid seq with | some o => lateEntry d o sig s | none => s)
    | some (g2, sig2) =>
      match mismatchCode g2 sig2 gen sig with
      | some code => (Done.lost, endEverywhere d p.top gid seq code s)
      | none =>
        match coll? s d p.top gid seq with
        | none => (Done.lost, s)
        | some q =>
          if !q.started then (Done.lost, s)
          else if beyond q mem ent then (Done.lost, failColl d q 0x12 q.desc s)
          else
            let va := (q.rbuf + BitVec.ofNat 64 doff).toNat
            let after (fl : BitVec 8) (held : Option TlbEntry) (s : State) : Done × State :=
              let got := ((q.heard.find? fun h => h.1 == mem && h.2.1 == ent).map (·.2.2)).getD 0 + bs.length
              let keep := if total ≤ got then none else held.bind fun e => stillIn e (va + bs.length)
              let s := modColl d q (hearPart mem ent got keep) s
              ({ fl := fl }, if total ≤ got then countEntry d q step s else s)
            if kind = 1 then
              match reduceRemote d p.top oper (pktOp p) true (bs.length + 1) (inPage q mem ent) va bs 0#8 s with
              | (.done fl, held, s) => after fl held s
              | (.fault code a fl, _, s) => ({ Done.lost with fl := fl }, failColl d q code (BitVec.ofNat 64 a) s)
              | (.halt old new a fl, _, s) =>
                let off := soff + (a - va)
                ({ fl := fl, fail := some (if new then 0x13 else 0, BitVec.ofNat 64 off) }, haltColl d q mem old new a s)
            else
              match putRun none d p.top (pktOp p) (bs.length / 65536 + 2) (inPage q mem ent) va bs s with
              | (_, held, none, s) => after 0#8 held s
              | (_, _, some (code, a), s) => (Done.lost, failColl d q code (BitVec.ofNat 64 a) s)
  | _ => ({}, s)

/-- A handshake or amplitudes from the source of a packet (07 R175). -/
def shakeFrom (p : Pkt) (gid serial b g : Nat) : Shake := { top := p.top, src := p.src, gid := gid, serial := serial, b := b, g := g }

/-- An accepted packet is performed at its destination (11 R271, R279, R280). -/
def performPay (d : Nat) (p : Pkt) (s : State) : Done × State :=
  match p.pay with
  | .put a bs =>
    let (_, held, f, s) := putRun none d p.top (pktOp p) (bs.length / 65536 + 2) (heldPage s d p) a.toNat bs s
    ({ fail := f.map fun e => (e.1, BitVec.ofNat 64 e.2) },
      holdPage d p (held.bind fun e => stillIn e (a.toNat + bs.length)) s)
  | .red op a bs =>
    match reduceRemote d p.top op.toNat (pktOp p) false (bs.length + 1) (heldPage s d p) a.toNat bs 0#8 s with
    | (.done fl, held, s) | (.halt _ _ _ fl, held, s) =>
      ({ fl := fl }, holdPage d p (held.bind fun e => stillIn e (a.toNat + bs.length)) s)
    | (.fault code ad fl, _, s) => ({ fl := fl, fail := some (code, BitVec.ofNat 64 ad) }, holdPage d p none s)
  | .msg total bs => ({}, putMessage d p total bs s)
  | .getReq a len =>
    match readFb d p.top { r := true } a len s with
    | (.error e, s) => ({ fail := some e }, s)
    | (.ok bs, s) => ({ data := bs }, s)
  | .chunk .. => performChunk d p s
  | .group m => ({}, { s with msgs := s.msgs ++ [(d, { m with top := p.top, src := p.src })] })
  | .shake gid serial b g no lost => ({}, hearShake d (shakeFrom p gid serial b g) no lost s)
  | .amps gid serial b g bs => ({}, hearAmps d (shakeFrom p gid serial b g) bs s)
  | .image i => ({}, modDie d (modRegion p.top (takePiece i)) s)
  | .empty => ({}, holdPage d p none (dropPart d p s))

/-! The sender learns -/

/-- The command that a packet belongs to. -/
def cmdOf (s : State) (p : SendPkt) : Option FbCmd := (getCtx s p.ctx).fb.find? fun f => f.ord == p.pkt.cmd && decide (f.kind < 6)

/-- The packet of a die's send queues that a message names. -/
def sentPkt (s : State) (d top dst seq : Nat) : Option SendPkt :=
  (getDie s d).sendq.find? fun p => p.sent && p.pkt.stop == top && p.pkt.dst == dst && p.pkt.seq == seq

def dropPkt (d top dst seq : Nat) (s : State) : State :=
  modDie d (fun x => { x with sendq := x.sendq.filter fun p => !(p.pkt.stop == top && p.pkt.dst == dst && p.pkt.seq == seq) }) s

/-- The acknowledgement of a part of a plan entry arrives; one of a part that was not performed counts for nothing (12
R295, R297, R299). -/
def ackChunk (d top gid seq ent : Nat) (fl : BitVec 8) (fail : Option (Nat × Word)) (s : State) : State :=
  let s := match coll? s d top gid seq with
    | some q => modColl d q (fun r => { r with flags := r.flags ||| fl }) s
    | none => s
  match coll? s d top gid seq, fail with
  | none, _ | some _, some (0, _) => s
  | some q, some (code, off) => collFault d q code (q.sbuf + off) s
  | some q, none =>
    let s := modColl d q (fun r => { r with entries := r.entries.modify ent fun e => { e with unacked := e.unacked - 1 } }) s
    match q.entries[ent]? with
    | some e => if e.unacked ≤ 1 && decide (e.len ≤ e.sent) then advanceColl d q (modColl d q (ackEntry ent) s) else s
    | none => s

/-- An acknowledgement reaches the sender: the tag is set with the last one of its command (11 R272, R278).
DEDUCED, log 40. -/
def ackPacket (d top dst seq : Nat) (fl : BitVec 8) (fail : Option (Nat × Word)) (data : List Byte) (s : State) : State :=
  match sentPkt s d top dst seq with
  | none => s
  | some p =>
    let s := dropPkt d top dst seq s
    match p.pkt.pay with
    | .chunk gid _ q _ ent .. => ackChunk d top gid q ent fl fail s
    | .image _ => ackImage d p.pkt.cmd s
    | _ =>
      match cmdOf s p with
      | none => s
      | some m =>
        if m.ending.isSome then s else
        let s := engineFlags p.ctx m.level fl s
        match fail with
        | some (code, a) => failFb p.ctx m code a s
        | none =>
          if m.kind = 5 then
            let m' := { m with bytes := data, answered := true, unacked := 0 }
            landFb p.ctx m' (modFb p.ctx m.id (fun _ => m') s)
          else
            let m' := { m with unacked := m.unacked - 1 }
            if m'.cut && m'.unacked = 0 then endFb p.ctx m s else modFb p.ctx m.id (fun _ => m') s

/-- A strong packet that cannot be performed keeps its place in the flow, empty; a weak one goes.
DEDUCED, log 41. -/
def blank (p q : SendPkt) : Option SendPkt :=
  if q.pkt.stop == p.pkt.stop && q.pkt.dst == p.pkt.dst && q.pkt.seq == p.pkt.seq then
    (if q.pkt.strong then some { voidPkt q with sent := false, flits := 0, via := none, needVer := none } else none)
  else some q

/-- The command of a packet that cannot be performed ends with a fault that names it (11 R268, R269; 13 R324).
DEDUCED, log 40. -/
def failPkt (d : Nat) (p : SendPkt) (code : Nat) (s : State) : State :=
  let s := modDie d (fun x => { x with sendq := x.sendq.filterMap (blank p) }) s
  match p.pkt.pay with
  | .chunk gid _ q .. =>
    match coll? s d p.pkt.stop gid q with
    | some q => failColl d q code q.desc s
    | none => s
  | .group m => groupFails d m code s
  | .shake .. | .amps .. => exchangeFails d p.pkt.stop code s
  | .image _ =>
    match ckptOf s d p.pkt.cmd with
    | some (n, q) => ckptFails d n q code s
    | none => s
  | _ =>
    match cmdOf s p with
    | some m => if m.ending.isSome then s else failFb p.ctx m code m.rem s
    | none => s

/-- A packet is to be sent again (11 R268; 13 R324). -/
def resendPkt (d top dst seq : Nat) (f : SendPkt → SendPkt) (s : State) : State :=
  let again (q : SendPkt) : SendPkt :=
    if q.sent && q.pkt.stop == top && q.pkt.dst == dst && q.pkt.seq == seq then { f q with sent := false, flits := 0, via := none } else q
  modDie d (fun x => { x with sendq := x.sendq.map again }) s

/-- A stale notice reaches the source: one retransmission under the named version, else 0x11 (11 R268). -/
def staleAt (d top dst seq ver : Nat) (s : State) : State :=
  match sentPkt s d top dst seq with
  | none => s
  | some p =>
    if p.pkt.pay == .empty then resendPkt d top dst seq (fun q => { q with needVer := some ver }) s
    else if p.retry then failPkt d p 0x11 s
    else resendPkt d top dst seq (fun q => { q with retry := true, needVer := some ver }) s

/-- The source is told that a packet's seal failed: one retransmission, else 0x18 (13 R324). -/
def authFailAt (d top dst seq : Nat) (s : State) : State :=
  match sentPkt s d top dst seq with
  | none => s
  | some p =>
    if p.pkt.pay == .empty then resendPkt d top dst seq id s
    else if p.authRetry then failPkt d p 0x18 s
    else resendPkt d top dst seq (fun q => { q with authRetry := true }) s

/-- A notice or an acknowledgement goes back to a packet's source: inside the package at once, else as a message. -/
def toSource (p : Pkt) (here : State → State) (msg : Instr) (s : State) : State :=
  if p.spkg = s.pkg then here s else { s with acksOut := s.acksOut ++ [(p.spkg, msg)] }

/-! Arrival -/

/-- A packet whose command has already failed here does nothing more (11 R278). DEDUCED, log 41. -/
def deadCmd (f : FlowIn) (p : Pkt) : Bool := f.failed.contains p.cmd

/-- The last packet of a command steps its arrival counter (11 R272, R279). -/
def countPacket (d : Nat) (p : Pkt) (s : State) : State :=
  let f := flowIn (getDie s d) p
  let n := ((f.parts.find? fun e => e.1 == p.cmd).map (·.2)).getD 0 + 1
  let rest := f.parts.filter fun e => e.1 != p.cmd
  if n < p.cnt then modFlowIn d p (fun f => { f with parts := (p.cmd, n) :: rest }) s
  else
    let s := holdPage d p none (modFlowIn d p (fun f => { f with parts := rest }) s)
    match p.ctr with
    | some n => stepCounter d p.top n s
    | none => s

/-- Perform a packet whose turn has come and acknowledge it (11 R271, R272). -/
def performPkt (d : Nat) (p : Pkt) (s : State) : State :=
  let dead := deadCmd (flowIn (getDie s d) p) p
  let (r, s) : Done × State := if dead then ({}, s) else performPay d p s
  let chunk := match p.pay with | .chunk .. => true | _ => false
  let s := if dead || chunk || p.pay == .empty then s
    else if r.fail.isSome then modFlowIn d p (fun f => { f with failed := p.cmd :: f.failed }) s
    else countPacket d p s
  toSource p (ackPacket p.sdie p.stop p.dst p.seq r.fl r.fail r.data)
    (.ackArrival p.sdie (.packet p.stop p.src p.dst p.seq r.fl r.fail r.data)) s

/-- The receiver has room for a strong packet whose turn has come. -/
def receives (s : State) (d : Nat) (p : Pkt) : Bool :=
  match p.pay with
  | .msg total _ => fitsQueue (linkq (getDie s d) p.top p.src) p.cmd total
  | _ => true

/-- Perform strong packets of a flow in sequence order as long as the next one is there (11 R271).
DEDUCED, log 41. -/
def performNext (d : Nat) (p : Pkt) : Nat → State → State
  | 0, s => s
  | fuel + 1, s =>
    let f := flowIn (getDie s d) p
    match f.window.find? fun q => q.ord == f.next with
    | none => s
    | some q =>
      if !receives s d q then s else
      let s := modFlowIn d p (fun f => { f with next := f.next + 1, window := f.window.filter fun w => w.ord != q.ord }) s
      performNext d p fuel (performPkt d q s)

/-- A packet is accepted: a duplicate does nothing, a weak one is performed, a strong one waits for its turn (11 R269, R271).
What its source has had acknowledged has been performed, also where the rank stood before it moved here. -/
def acceptPkt (d : Nat) (p : Pkt) (s : State) : State :=
  let f := flowIn (getDie s d) p
  if f.seen.contains p.seq then s else
  let s := modFlowIn d p (fun f => { f with
    seen := p.seq :: f.seen.filter (fun q => decide (seqDist p.seq q < 2 ^ 31))
    next := max f.next p.low
    window := if p.strong then f.window ++ [p] else f.window }) s
  if p.strong then performNext d p (f.window.length + 1) s else performPkt d p s

/-- Source and destination map to the same package and die in two versions (11 R268). -/
def sameMapping (g : Region) (p : Pkt) : Bool :=
  let same (r : Nat) : Bool :=
    let a := g.routes.getD r 0#64
    let b := g.oldRoutes.getD r 0#64
    rtValid a && rtValid b && rtPkg a == rtPkg b && rtDie a == rtDie b
  same p.src && same p.dst

/-- A packet is rejected with a stale notice that names the receiver's version (11 R268). -/
def rejectPkt (p : Pkt) (ver : Nat) (s : State) : State :=
  toSource p (staleAt p.sdie p.stop p.dst p.seq ver) (.staleNotice p.sdie p.stop p.src p.dst p.seq ver) s

/-- A packet's seal verifies here: within the package it does when this die holds the link key under which it left
(13 R324, R325). -/
def sealed (s : State) (d : Nat) (p : Pkt) : Bool :=
  p.good && linkOk s d p.top && (p.spkg != s.pkg || linkId s d p.top == p.key)

/-- A packet reaches its destination die: the seal, then the three cases of R268 (13 R324; 11 R268). -/
def admitPkt (d : Nat) (p : Pkt) (s : State) : State :=
  match region? (getDie s d) p.top with
  | none => toSource p (authFailAt p.sdie p.stop p.dst p.seq) (.authFailNotice p.sdie p.stop p.src p.dst p.seq) s
  | some g =>
    if !sealed s d p then
      toSource p (authFailAt p.sdie p.stop p.dst p.seq) (.authFailNotice p.sdie p.stop p.src p.dst p.seq) s
    else if p.ver = g.ver then acceptPkt d p s
    else if (p.ver + 1) % 65536 = g.ver && g.grace != 0 && sameMapping g p then acceptPkt d p s
    else if p.ver = (g.ver + 1) % 65536 then modDie d (fun x => { x with heldPkts := x.heldPkts ++ [p] }) s
    else rejectPkt p g.ver s

/-- Packets held for a program's newer table are admitted once it is installed (11 R268). -/
def admitHeld (d top : Nat) (s : State) : State :=
  let ps := (getDie s d).heldPkts.filter fun p => p.top == top
  let s := modDie d (fun x => { x with heldPkts := x.heldPkts.filter fun p => p.top != top }) s
  foldS (fun p s =>
    match region? (getDie s d) top with
    | some g =>
      if p.ver ≠ g.ver then admitPkt d p s
      else if sameMapping g p then acceptPkt d p s else rejectPkt p g.ver s
    | none => s) ps s

/-- Packets that wait in a reorder window for room in a receive queue are tried again (11 R280). -/
def retryWindows (d : Nat) (s : State) : State :=
  foldS (fun (f : FlowIn) s =>
    match f.window with
    | p :: _ => performNext d p f.window.length s
    | [] => s) (getDie s d).flowsIn s

/-! The work of a die's fabric -/

/-- The packets that stand at the head of a queue send a wake hint, once, to a port that is in low power or narrower
than they can use (11 R287): any traffic can use all eight wavelengths.
DESIGN CHOICE, log 117. -/
def hintPorts (d : Nat) (s : State) : State :=
  foldS (fun (e : Nat × Nat) s =>
    let dd := getDie s d
    let r := routeOf dd e.1 e.2
    let port := s.ports.getD (rtPlane r) {}
    match (queueHead dd e.1 e.2).bind fun n => dd.sendq[n]?.map fun q => (n, q) with
    | some (n, q) =>
      if q.hinted || !rtValid r || rtLocal r || !(port.lp || decide (port.width < 3)) then s
      else wakePort (rtPlane r) (modSend d n (fun q => { q with hinted := true }) s)
    | none => s) (queuesOfDie (getDie s d)) s

/-- What a die's fabric can do now: answers are written, sources are read into packets, packets go onto the links of the
package, heads of queues wake their ports. The tape may bound how many packets are cut. -/
def pump (d : Nat) (s : State) : State :=
  let s := landAll d s
  let (k, s) := choose 65536 s
  let s := cutAll d (if k = 0 then cutBound s d else k) s
  let s := foldS (fun (q : Coll) s => cutChunks d q.top q.gid q.seq (if k = 0 then chunkBound q else k) s) (getDie s d).colls s
  let s := foldS (fun (e : Nat × Nat) s => drainQueue d e.1 e.2 (getDie s d).sendq.length s) (queuesOfDie (getDie s d)) s
  hintPorts d (retryWindows d s)

/-- The staging part of a die holds 128 MiB of relayed packets (01 R17). -/
def relayBytes (d : Die) : Nat := d.relay.foldl (fun n q => n + 64 * flitsOf q.1) 0

/-- A relayed packet is held in the staging part of the receiving die; a sender sends none that finds no room (01 R17;
11 R273). -/
def stageRelay (d : Nat) (p : Pkt) (s : State) : State :=
  if 2 ^ 27 < relayBytes (getDie s d) + 64 * flitsOf p then s
  else modDie d (fun x => { x with relay := x.relay ++ [(p, 0)] }) s

/-- A packet arrives (11 R268, R273); without one, the die's fabric only does its own work. -/
def arrive (d : Nat) (from_ : PktFrom) (s : State) : State :=
  match from_ with
  | .wire n =>
    match s.wire[n]? with
    | some p => pump p.die (admitPkt (p.die % 4) p { s with wire := s.wire.eraseIdx n })
    | none => pump d s
  | .fibre p => if p.pkg = s.pkg then pump (p.die % 4) (admitPkt (p.die % 4) p s) else stageRelay d p s
  | .image top ps => copyImage d top ps s

/-! Slots -/

/-- Positions of the active planes in ascending order (11 R262). -/
def activePlanes (s : State) : List Nat := (List.range 64).filter fun p => (s.planes.getD p {}).active

/-- Fabric slots of a rotation (11 R262). -/
def slotCount (s : State) : Nat := (s.rotN - 1 + (activePlanes s).length - 1) / max 1 (activePlanes s).length

/-- The package that plane p transmits to in slot t, if any (11 R262). -/
def txPeer (s : State) (p t : Nat) : Option Nat :=
  match (activePlanes s).findIdx? (· == p) with
  | none => none
  | some k =>
    let d := 1 + t * (activePlanes s).length + k
    if d < s.rotN then some ((s.pkg + d) % s.rotN) else none

/-- The package that plane p receives from in slot t (11 R262). -/
def rxPeer (s : State) (p t : Nat) : Option Nat :=
  match (activePlanes s).findIdx? (· == p) with
  | none => none
  | some k =>
    let d := 1 + t * (activePlanes s).length + k
    if d < s.rotN then some ((s.pkg + s.rotN - d) % s.rotN) else none

/-- Flits that a plane's data window carries: its locked wavelengths within the striping width (11 R263, R284, R287). -/
def windowFlits (s : State) (p : Nat) : Nat :=
  let q := s.ports.getD p {}
  if q.lp then 0 else
  let lanes := ((List.range (2 ^ q.width)).filter fun w => q.locked.testBit w).length
  lanes * 8 * (s.slotP - s.guardG) / 64

/-- Flits that a region's share still allows in the slot (11 R274). -/
def shareLeft (s : State) (d p rid : Nat) : Nat :=
  let dd := getDie s d
  let used (r : Nat) : Nat := ((dd.shares.find? fun e => e.1 == r && e.2.1 == p).map (·.2.2)).getD 0
  (ancestry dd rid).foldl (fun n r => min n (effFshare dd r / 64 - used r)) (2 ^ 32)

/-- Charge flits to a region and its ancestors in the slot of a plane (11 R274). -/
def chargeShare (d p rid n : Nat) (s : State) : State :=
  let rs := ancestry (getDie s d) rid
  modDie d (fun x =>
    let used (r : Nat) : Nat := ((x.shares.find? fun e => e.1 == r && e.2.1 == p).map (·.2.2)).getD 0
    { x with shares := rs.map (fun r => (r, p, used r + n)) ++
        x.shares.filter fun e => !(e.2.1 == p && rs.contains e.1) }) s

/-- A packet may take the relay path to a peer: its command allows it, and its own direct slot is neither the current
one of its plane nor the next (11 R273). -/
def relayAllowed (s : State) (p : SendPkt) (e : Word) : Bool :=
  let t := (s.planes.getD (rtPlane e) {}).slot
  !p.direct && rtPhase e != t && rtPhase e != (t + 1) % max 1 (slotCount s)

/-- The head of a queue sends flits on plane p to a peer: at most `cap`; the flits that have left (11 R273 to R275). -/
def sendFlits (p peer cap d top dst : Nat) (s : State) : Nat × State :=
  let dd := getDie s d
  match (queueHead dd top dst).bind fun n => dd.sendq[n]?.map fun q => (n, q) with
  | none => (0, s)
  | some (n, q) =>
    let e := routeOf dd top dst
    let direct := rtPkg e == peer && rtPlane e == p && rtPhase e == (s.planes.getD p {}).slot
    if !rtValid e || rtLocal e || !inWindow dd q.pkt || (q.via.isSome && q.via != some peer) then (0, s) else
    let (relay, s) := if !direct && rtPkg e != peer && relayAllowed s q e then choose 2 s else (0, s)
    if !direct && relay = 0 && q.via != some peer then (0, s) else
    let (room, s) := if q.flits = 0 then hasRoom s q.pkt e else (true, s)
    if !room then (0, s) else
    let total := flitsOf q.pkt
    let k := min (total - q.flits) (min cap (shareLeft s d p q.rid))
    if k = 0 then (0, s) else
    let s := chargeShare d p q.rid k s
    let pkt := stamp s d e q.pkt
    if q.flits + k = total then
      (k, { modSend d n (fun x => { x with sent := true, flits := 0, via := none, pkt := pkt, needVer := none }) s with
            light := s.light ++ [(p, pkt)] })
    else (k, modSend d n (fun x => { x with flits := x.flits + k, via := some peer }) s)

/-- The send queues of every die, each with its die, by region (11 R273). -/
def allQueues (s : State) : List (Nat × Nat × Nat) :=
  (List.range 4).flatMap fun d => (queuesOfDie (getDie s d)).map fun e => (d, e.1, e.2)

/-- Serve the queues round-robin, one packet at a time, until nothing more leaves (11 R273). -/
def serve (p peer : Nat) : Nat → Nat → List (Nat × Nat × Nat) → Bool → List (Nat × Nat × Nat) → State → State
  | 0, _, _, _, _, s => s
  | fuel + 1, cap, [], moved, all, s => if moved then serve p peer fuel cap all false all s else s
  | fuel + 1, cap, (d, top, dst) :: qs, moved, all, s =>
    let (k, s) := sendFlits p peer cap d top dst s
    serve p peer fuel (cap - k) qs (moved || k != 0) all s

/-- Relayed packets of a die for a peer leave, at most `n` of them and `cap` flits; one may leave in part and finish in a
later slot: packets that have left whole, what is kept, flits left (11 R273, R275). -/
def sendRelays (peer : Nat) : Nat → Nat → List (Pkt × Nat) → List Pkt × List (Pkt × Nat) × Nat
  | _, cap, [] => ([], [], cap)
  | n, cap, q :: qs =>
    if q.1.pkg != peer || n = 0 || cap = 0 then
      let r := sendRelays peer n cap qs
      (r.1, q :: r.2.1, r.2.2)
    else
      let k := min (flitsOf q.1 - q.2) cap
      let r := sendRelays peer (n - 1) (cap - k) qs
      if q.2 + k = flitsOf q.1 then (q.1 :: r.1, r.2) else (r.1, (q.1, q.2 + k) :: r.2.1, r.2.2)

/-- Relayed packets for a peer go onward ahead of local traffic; the tape bounds them by the relay allowance (11 R273). -/
def forwardRelay (p peer : Nat) : List Nat → Nat → State → Nat × State
  | [], cap, s => (cap, s)
  | d :: ds, cap, s =>
    let mine := (getDie s d).relay.filter fun q => q.1.pkg == peer
    let (k, s) := choose (mine.length + 1) s
    let (out, kept, cap) := sendRelays peer (mine.length - k) cap (getDie s d).relay
    let s := modDie d (fun x => { x with relay := kept }) s
    forwardRelay p peer ds cap { s with light := s.light ++ out.map fun q => (p, q) }

/-- The data window of a plane opens: relays first, then the dies' queues (11 R263, R273 to R275). -/
def openWindow (p : Nat) (s : State) : State :=
  let pl := s.planes.getD p {}
  if !pl.active || !pl.framed || pl.window then s else
  let s := { s with planes := s.planes.modify p fun x => { x with window := true } }
  let s := foldS (fun d s => pump d s) (List.range 4) s
  match txPeer s p pl.slot with
  | none => s
  | some peer =>
    let s := foldS (fun d s => modDie d (fun x => { x with shares := x.shares.filter fun e => e.2.1 != p }) s) (List.range 4) s
    let (cap, s) := forwardRelay p peer (List.range 4) (windowFlits s p) s
    let qs := allQueues s
    let (k, s) := choose (qs.length + 1) s
    let qs := qs.rotateLeft k
    let n := (List.range 4).foldl (fun n d => n + (getDie s d).sendq.length) 0
    serve p peer (2 * (n + 1) * (qs.length + 1)) cap qs false qs s

/-! Slot boundaries and framing -/

/-- A measurement register is extended (15 R354). DEDUCED, log 46. -/
def extend (m : BitVec 384) (data : List Byte) : BitVec 384 := sha3 (bytesOf 48 m.toNat ++ bytesOf 48 (sha3 data).toNat)

/-- A route table as bytes: its entries, then its version. DEDUCED, log 46. -/
def tableBytes (t : List Word) (v : Nat) : List Byte := t.flatMap (fun w => bytesOf 8 w.toNat) ++ bytesOf 2 v

/-- The rank whose entry names this die and region (01 R18; 11 R273). DEDUCED, log 65. -/
def ownRank (d rid : Nat) (ents : List Word) : Option Nat :=
  ents.findIdx? fun e => rtValid e && rtLocal e && rtDie e == d && rtDrid e == rid

/-- The rank of a program is written while none of its regions runs (01 R18). DEDUCED, log 65. -/
def launchRank (d top : Nat) (s : State) : State :=
  let x := getDie s d
  if x.regions.any fun g => g.runnable && inSubtree x top g.rcb.rid then s
  else modDie d (modRegion top fun g => { g with rank := (ownRank d top g.routes).getD g.rank }) s

/-- A rank stands elsewhere by a newer table: the flows from it begin anew, since each die numbers its own packets
(11 R270). -/
def dropMoved (g : Region) (d : Die) : Die :=
  let moved (r : Nat) : Bool :=
    let a := g.routes.getD r 0#64
    let b := g.oldRoutes.getD r 0#64
    rtValid a && rtValid b && (rtPkg a != rtPkg b || rtDie a != rtDie b)
  { d with flowsIn := d.flowsIn.filter fun f => !(f.top == g.rcb.rid && moved f.src) }

/-- A newly written table is installed; the held packets are admitted (11 R266, R268; 15 R354).
DEDUCED, log 46. DESIGN CHOICE, log 47. -/
def installRoute (d : Nat) (g : Region) (s : State) : State :=
  match g.nextRoutes with
  | none => s
  | some (t, v) =>
    let s := modDie d (modRegion g.rcb.rid fun r =>
      { r with oldRoutes := r.routes, routes := t, ver := v, nextRoutes := none, grace := slotCount s }) s
    let s := modDie d (fun x => ((region? x g.rcb.rid).map fun r => dropMoved r x).getD x) s
    admitHeld d g.rcb.rid (launchRank d g.rcb.rid { s with mr1 := extend s.mr1 (tableBytes t v) })

/-- The tables of every die that were written are installed (11 R266). -/
def installAll (s : State) : State :=
  foldS (fun d s => foldS (fun g s => installRoute d g s) ((getDie s d).regions.filter fun g => g.nextRoutes.isSome) s)
    (List.range 4) s

/-- The plane whose slot boundaries install tables: plane 0, or the lowest active one (11 R266). -/
def routePlane (s : State) : Nat := if (s.planes.getD 0 {}).active then 0 else (activePlanes s).headD 0

/-- Wavelength w of a port in a direction, 0 transmit, 1 receive: its ring's status register (11 R283).
DESIGN CHOICE, log 44. -/
def ringNo (p dir w : Nat) : Nat := 512 * dir + 8 * p + w

/-- The spare ring of a port in a direction (11 R283). DESIGN CHOICE, log 44. -/
def spareNo (p dir : Nat) : Nat := 2 * p + dir

/-- A saturated lane takes the fibre's free spare; a drive below the limit is no longer saturated (11 R283, R284). -/
def unsaturate (s : State) (p dir : Nat) (r : MicroRing) : MicroRing :=
  let taken := s.rings.any fun x => x.spare == spareNo p dir
  if r.sat && decide (r.heat < 4095) then { r with sat := false }
  else if r.sat && r.spare == 255 && !taken then { r with spare := spareNo p dir, sat := false } else r

/-- A wavelength relocks in the guard interval; `fails`: it does not lock, which is a host event. The laser of a wavelength
in use is driven at no more than the fused value, else it stands by (11 R284, R285; 13 R326; 15 R360).
DESIGN CHOICE, log 45. DESIGN CHOICE, log 108. -/
def relockOne (p dir w : Nat) (fails : Bool) (s : State) : State :=
  let i := ringNo p dir w
  let q := s.ports.getD p {}
  let r := unsaturate s p dir (s.rings.getD i {})
  let on := !q.lp && decide (w < 2 ^ q.width)
  let (drive, s) := if on && dir = 0 then choose 65536 s else (0, s)
  let s := { s with rings := s.rings.set i { r with lock := on && !r.sat && !fails, laser := min drive (Config.laserFuse i) } }
  if on && fails then hostEvent 3 s else s

/-- The monitor photodiode of a ring is read in each guard interval of its port: any reading (11 R283).
DESIGN CHOICE, log 118. -/
def readDiode (i : Nat) (s : State) : State :=
  let (v, s) := choose 4096 s
  { s with rings := s.rings.modify i fun r => { r with mpd := v } }

/-- The rings of a port: its wavelengths in both directions, and its spares. -/
def portRings (p : Nat) : List Nat :=
  (List.range 16).map (fun n => ringNo p (n / 8) (n % 8)) ++ (List.range 2).map fun dir => 1024 + spareNo p dir

/-- The wavelengths of a port relock (11 R284, R286); LOCKED follows the transmit rings.
DESIGN CHOICE, log 117. -/
def relock (p : Nat) (s : State) : State :=
  let (k, s) := choose 65536 s
  let s := foldS (fun n s => relockOne p (n / 8) (n % 8) (k.testBit n) s) (List.range 16) s
  let s := foldS readDiode (portRings p) s
  let on (w : Nat) : Bool := (s.rings.getD (ringNo p 0 w) {}).lock
  let locked := (List.range 8).foldl (fun n w => if on w then n + 2 ^ w else n) 0
  { s with ports := s.ports.modify p fun x => { x with locked := locked } }

/-- A slot boundary of the grace of R268 has passed. DESIGN CHOICE, log 47. -/
def passGrace (s : State) : State :=
  foldS (fun d s => modDie d (fun x => { x with regions := x.regions.map fun g => { g with grace := g.grace - 1 } }) s) (List.range 4) s

/-- A plane's fabric slot begins: orders and wakes take effect, rings relock, tables are installed (11 R263 to R266, R284 to R287).
DESIGN CHOICE, log 79. -/
def slotBoundary (p : Nat) (s : State) : State :=
  let pl := s.planes.getD p {}
  if !pl.active then s else
  let s := { s with planes := s.planes.modify p fun x =>
    { x with window := false, slot := if x.slot + 1 < slotCount s then x.slot + 1 else 0 } }
  let s := portWake p (portOrders p (s.ports.getD p {}).orders s)
  let s := relock p s
  if p = routePlane s then finishRoutes (installAll (passGrace s)) else s

/-- Framing is received: the plane may send when it matches R262 (11 R264). -/
def framing (p slot sender : Nat) (s : State) : State :=
  { s with planes := s.planes.modify p fun x =>
      { x with slot := if rxPeer s p slot = some sender then slot else x.slot, framed := rxPeer s p slot == some sender } }

/-- A ring's heater drive is at its limit (11 R283). -/
def saturate (n : Nat) (s : State) : State := { s with rings := s.rings.modify n fun r => { r with sat := true, heat := 4095 } }

/-! Timeouts -/

/-- The command's path waits: its rank is not mapped, its plane is not framed, its port is in low power, or its region has
no share (11 R267, R274, R287). -/
def unreachable (s : State) (d top rid rank : Nat) : Bool :=
  let dd := getDie s d
  let e := routeOf dd top rank
  let pl := s.planes.getD (rtPlane e) {}
  !rtValid e || (!rtLocal e && (!pl.active || !pl.framed || (s.ports.getD (rtPlane e) {}).lp ||
    (ancestry dd rid).any fun r => decide (effFshare dd r < 64)))

/-- A packet of no transfer that has not left: of a collective, a group message, an exchange, a mirror. -/
def otherUnsent (p : SendPkt) : Bool :=
  !p.sent && match p.pkt.pay with
    | .chunk .. | .group _ | .shake .. | .amps .. | .image _ => true
    | _ => false

/-- A transfer, or another packet of the die, has waited too long for its rank: 0x10 (11 R267; 12 R300, R306). -/
def routeTimeout (d n : Nat) (s : State) : State :=
  let cmds := sendOrder s d
  match cmds[n]? with
  | some (c, m) =>
    let top := progOf s c
    let waits := !m.cut || (getDie s d).sendq.any fun p => p.ctx == c && p.pkt.cmd == m.ord && !p.sent
    if waits && m.ending.isNone && unreachable s d top (ridOf s c) m.rank then failFb c m 0x10 m.rem s else s
  | none =>
    match ((getDie s d).sendq.filter otherUnsent)[n - cmds.length]? with
    | some p => if unreachable s d p.pkt.stop p.rid p.pkt.dst then failPkt d p 0x10 s else s
    | none => s

/-- A packet held for a newer table longer than a rotation is rejected (11 R268). -/
def heldTimeout (d n : Nat) (s : State) : State :=
  match (getDie s d).heldPkts[n]? with
  | some p =>
    let s := modDie d (fun x => { x with heldPkts := x.heldPkts.eraseIdx n }) s
    rejectPkt p (verOf (getDie s d) p.top) s
  | none => s

/-- A retransmission that has not left in time ends its command (11 R268). -/
def staleTimeout (d n : Nat) (s : State) : State :=
  match (getDie s d).sendq[n]? with
  | some p => if !p.sent && (p.retry || waitsVersion (getDie s d) p) then failPkt d p 0x11 s else s
  | none => s

/-- An acknowledgement arrives from another package (11 R272; 12 R295). -/
def ackArrives (d : Nat) (a : Ack) (s : State) : State :=
  match a with
  | .packet top _ dst seq fl fail data => pump d (ackPacket d top dst seq fl fail data s)
  | .step top gid seq ent =>
    match coll? s d top gid seq with
    | some q => pump d (advanceColl d q (modColl d q (ackEntry ent) s))
    | none => s

/-- `FRAMING_RECEIVED` (R264) -/
def execFramingReceived (plane slot sender : Nat) (s : State) : Result := .next (framing plane slot sender s)

/-- `FRAMING_LOST` (R264) -/
def execFramingLost (plane : Nat) (s : State) : Result :=
  .next { s with planes := s.planes.modify plane fun x => { x with framed := false } }

/-- `FABRIC_SLOT_BOUNDARY` (R263) -/
def execFabricSlotBoundary (plane : Nat) (s : State) : Result := .next (slotBoundary plane s)

/-- `RING_SATURATION` (R283) -/
def execRingSaturation (ring : Nat) (s : State) : Result := .next (saturate ring s)

/-- `DATA_WINDOW_START` (R263) -/
def execDataWindowStart (plane : Nat) (s : State) : Result := .next (openWindow plane s)

/-- `PACKET_ARRIVAL` (R268) -/
def execPacketArrival (d : Nat) (from_ : PktFrom) (s : State) : Result :=
  .next (onDie d s (arrive d from_ s))

/-- `STALE_NOTICE` (R268) -/
def execStaleNotice (d top src dst seq ver : Nat) (s : State) : Result :=
  .next (onDie d s (staleAt d top dst seq ver s))

/-- `AUTH_FAIL_NOTICE` (R324) -/
def execAuthFailNotice (d top src dst seq : Nat) (s : State) : Result :=
  .next (onDie d s (authFailAt d top dst seq s))

/-- `ACK_ARRIVAL` (R272) -/
def execAckArrival (d : Nat) (a : Ack) (s : State) : Result :=
  .next (onDie d s (ackArrives d a s))

/-- `HELD_PACKET_TIMEOUT` (R268) -/
def execHeldPacketTimeout (d n : Nat) (s : State) : Result :=
  .next (onDie d s (heldTimeout d n s))

/-- `STALE_RETRANSMIT_TIMEOUT` (R268) -/
def execStaleRetransmitTimeout (d n : Nat) (s : State) : Result :=
  .next (onDie d s (staleTimeout d n s))

/-- `ROUTE_WAIT_TIMEOUT` (R267) -/
def execRouteWaitTimeout (d n : Nat) (s : State) : Result :=
  .next (onDie d s (routeTimeout d n s))

end Sys2Proof.Machine
end

