-- ==== Sys2Proof/Machine/Recovery.lean ====
section
/-!
DEFINITION. Checkpoints, soft errors, and the delivery of faults that wait for room
(spec 14 R329, R344 to R349; 13 R325).
-/

namespace Sys2Proof.Machine

open Sys2Proof

/-! Checkpoints -/

/-- The leaves of a table of a level and below with CKPT = 1, by ascending address (14 R348). -/
def markedFrom (d : Die) : Nat → Nat → Nat → List Leaf
  | level, table, va =>
    (List.range (2 ^ levelBits level)).flatMap fun i =>
      let e := wordOf (readRun d.mem (table + 8 * i) 8)
      let at_ := va + i * 2 ^ levelShift level
      if !bit e 0 then [] else
      if bit e 3 then (if leafCkpt e && leafOk e level then [⟨at_, levelSize level, e⟩] else [])
      else if !tableOk e level then []
      else match level with
        | 0 => []
        | n + 1 => markedFrom d n (bitsN e 47 8 * 256) at_

/-- The marked pages of a tenant domain (14 R348). -/
def markedPages (d : Die) (top : Nat) : List Leaf :=
  match (region? d top).bind (·.root) with
  | some root => markedFrom d 3 root 0
  | none => []

/-- The bytes of an image: its pages, 64 for each, and 4,096 (14 R347). DEDUCED, log 57. -/
def imageBytes (ps : List Leaf) : Nat := ps.foldl (fun n p => n + p.size + 64) 4096

/-- The fields of the checkpoint word (14 R348). -/
def ckMode (w : Word) : Nat := bitsN w 61 60
def ckMirror (w : Word) : Bool := bit w 42
def ckPart (w : Word) : Nat := bitsN w 41 32
def ckGen (w : Word) : Nat := bitsN w 31 0

/-- A complete image of a generation and a rank stands on the die; under another link key than the program's none can be
read (14 R347, R348).
DESIGN CHOICE, log 58. -/
def imageOf (g : Region) (key : Option Nat) (gen rank : Nat) : Option Image :=
  g.images.find? fun i => i.complete && i.gen == gen && i.rank == rank && key.all (· == i.key)

/-- The link key that a program holds on a die, if it has one. -/
def linkKey (s : State) (d top : Nat) : Option Nat := (linkSlot s d top).map (·.id)

/-- The checkpoint word is valid for a region (14 R348). -/
def ckptOk (g : Region) (key : Option Nat) (rank : Nat) (w : Word) : Bool :=
  bitsN w 63 62 == 0 && bitsN w 59 43 == 0 && decide (ckMode w ≤ 1) &&
  (if ckMode w = 0 then
    (if ckMirror w then ckPart w != rank else ckPart w == 0) && ckGen w == (g.curGen + 1) % 2 ^ 32
  else !ckMirror w && (imageOf g key (ckGen w) (ckPart w)).isSome)

/-- CKPT: the checks in the order of R348; a second one of the domain on the die blocks. DEDUCED, log 57. -/
def opCkpt (ra tag : BitVec 6) : Op := fun s =>
  let c := s.cur
  let d := dieOf c
  let top := domOf s c
  let w := rdX (archOf s) ra
  let dd := getDie s d
  match region? dd top with
  | none => .trap 0x01 0#64
  | some g =>
    if dd.ckpts.any fun k => k.top == top then .block .watched id
    else if !ckptOk g (linkKey s d top) (progRank dd top) w then .trap 0x01 0#64
    else if g.allotment / 4 < imageBytes (markedPages dd top) then .trap 0x1A 0#64
    else if !linkOk s d top then .trap 0x19 0#64
    else if !tagFree tag s then .trap 0x0A 0#64
    else
      let (n, s) := nextOrd d s
      .ok (modDie d (fun x => { x with ckpts := x.ckpts ++
          [{ ctx := c, top := top, tag := tag.toNat, level := levelOf s, word := w, ord := n }] }) (startTag c tag.toNat s))

/-- The cells of a run of memory. -/
def cellsIn (m : Memory) (a n : Nat) : Memory := m.filter fun e => decide (a ≤ e.1) && decide (e.1 < a + n)

/-- What one access of a save or a restore covers: a DRAM line or an on-die word (14 R349). -/
def saveUnit (pa : Nat) : Nat := if isDram pa then 128 else 4

/-- The lines or words of a page to which the CP path may miss a write (14 R349). -/
def staleUnits (d : Die) (pa size : Nat) : List Nat :=
  let u := saveUnit pa
  ((d.unseen.filter fun r => r.hid.contains .cp && r.meets pa size).flatMap fun r =>
    (List.range ((r.addr + r.old.length - 1) / u - r.addr / u + 1)).map fun i => (r.addr / u + i) * u).eraseDups.filter fun a =>
      decide (pa ≤ a) && decide (a < pa + size)

/-- Each of these lines or words is read once: its old bytes or its new ones (14 R349). -/
def readOnce (d : Nat) (k : Config.KeyTag) : List Nat → State → List (Nat × List Byte) × State
  | [], s => ([], s)
  | a :: rest, s =>
    let u := saveUnit a
    let dd := getDie s d
    let (skip, s) := choose (hiddenCount .cp a u dd.unseen + 1) s
    let cur := if isDram a then lineUnder dd (a / 128) k else readRun dd.mem a u
    let got := seenRun dd.mem .cp k a cur dd.unseen skip
    let (more, s) := readOnce d k rest (modDie d (fun x => { x with unseen := markSeen .cp a u skip x.unseen }) s)
    ((a, got) :: more, s)

/-- The bytes of a page that are not zero, by offset, as the CP path reads them under the page's key (13 R321; 14 R349). -/
def pageCells (d : Nat) (lf : Leaf) (s : State) : List (Nat × Byte) × State :=
  let dd := getDie s d
  let pa := leafPlace lf lf.vbase
  let k := keyTag s (leafOkey lf.entry)
  let foreign := dd.lineKeys.filter fun e => decide (pa ≤ e.1 * 128) && decide (e.1 * 128 < pa + lf.size) && isDram pa && (e.2.1, e.2.2) != k
  let plain := (cellsIn dd.mem pa lf.size).filter fun e => !(foreign.any fun f => f.1 == e.1 / 128)
  let garbled := foreign.flatMap fun f => cellsOf (f.1 * 128) (lineUnder dd f.1 k)
  let (chosen, s) := readOnce d k (staleUnits dd pa lf.size) s
  let kept := (plain ++ garbled).filter fun e => !(chosen.any fun c => decide (c.1 ≤ e.1) && decide (e.1 < c.1 + c.2.length))
  ((kept ++ chosen.flatMap fun c => cellsOf c.1 c.2).map fun e => (e.1 - pa, e.2), s)

/-- The pages of an image, in ascending address (14 R348). -/
def savePages (d : Nat) : List Leaf → State → List ImgPage × State
  | [], s => ([], s)
  | lf :: rest, s =>
    let pa := leafPlace lf lf.vbase
    let (cells, s) := pageCells d lf s
    let page : ImgPage :=
      { va := lf.vbase, size := lf.size
        attr := leafFormat lf.entry * 8 + leafGeom lf.entry * 4 + leafKind lf.entry
        bytes := cells
        poison := ((getDie s d).poison.filter fun g => decide (pa ≤ g) && decide (g < pa + lf.size)).map (· - pa) }
    let (more, s) := savePages d rest s
    (page :: more, s)

/-- Dirty lines of marked pages are written back (14 R348). -/
def writeBack (ps : List Leaf) (d : Die) : Die :=
  let inside (a : Nat) : Bool := ps.any fun p => let pa := leafPlace p p.vbase; decide (pa ≤ a) && decide (a < pa + p.size)
  { d with basin := d.basin.map fun b => if inside (b.line * 128) then { b with stale := none } else b }

/-- The pieces of a mirror image, 4,096 bytes of a page each, the header last (14 R348; 11 R270). DESIGN CHOICE, log 59. -/
def imagePieces (i : Image) : List ImgPiece :=
  let piece (p : ImgPage) (n : Nat) : ImgPiece :=
    let inside (o : Nat) : Bool := o / 4096 == n
    { gen := i.gen, rank := i.rank, mirror := true, key := i.key, va := p.va, size := p.size, attr := p.attr
      bytes := p.bytes.filter fun e => inside e.1, poison := p.poison.filter inside, last := false }
  let all := (i.pages.flatMap fun p => (List.range ((p.size + 4095) / 4096)).map (piece p)) ++
    [{ gen := i.gen, rank := i.rank, mirror := true, key := i.key, va := 0, size := 0, attr := 0, bytes := [], poison := [], last := true }]
  all.modifyHead fun p => { p with first := true }

/-- A save: the pages are read into the own bank; without a mirror that image is then complete and current, with one its
pieces leave for the partner first (14 R348).
DESIGN CHOICE, log 58. DESIGN CHOICE, log 59. -/
def saveImage (d n : Nat) (q : CkptCmd) (s : State) : State :=
  let ps := markedPages (getDie s d) q.top
  let (pages, s) := savePages d ps (modDie d (writeBack ps) s)
  let img : Image :=
    { gen := ckGen q.word, rank := progRank (getDie s d) q.top, mirror := false, key := linkId s d q.top, pages := pages, complete := false }
  let s := modDie d (modRegion q.top (putImage img)) s
  if !ckMirror q.word then endSave d n q s else
  let out := imagePieces img
  let s := foldS (fun i s => enqueuePkt d q.top q.ctx (ridOf s q.ctx) (ckPart q.word) false true q.ord 1 none (.image i) s) out s
  modDie d (fun x => { x with ckpts := x.ckpts.modify n fun k => { k with saved := true, unacked := out.length } }) s

/-- The leaf that a page of an image needs (14 R348): the leaf, or 0x04 for a page that is not mapped and 0x05 for one that
is mapped otherwise; a poisoned table is 0x18. -/
def restoreLeaf (s : State) (d top : Nat) (p : ImgPage) : Except Nat Leaf :=
  match leafNow s d top p.va with
  | .error c => .error (if c = 0x04 || c = 0x18 then c else 0x05)
  | .ok lf =>
    let attr := leafFormat lf.entry * 8 + leafKind lf.entry
    if leafCkpt lf.entry && leafW lf.entry && lf.size == p.size && lf.vbase == p.va && attr == p.attr / 8 * 8 + p.attr % 4 &&
      !leafCow lf.entry && keyOk s d top (leafOkey lf.entry) && frameFault s d top lf == 0 then .ok lf else .error 0x05

/-- The lines or words of a page as they were, where they differ from the image: what other paths may still see (09 R221). -/
def hiddenBy (op pa : Nat) (k : Config.KeyTag) (d : Die) (old new : Memory) : List Unseen :=
  let u := saveUnit pa
  (((old.map fun e => e.1 / u * u) ++ new.map fun e => e.1 / u * u).eraseDups.map fun a =>
    (a, if isDram a then lineUnder d (a / 128) k else readRun d.mem a u)).filterMap fun e =>
      if e.2 == readRun new e.1 u then none
      else some { addr := e.1, old := e.2, hid := allPaths.filter (· != .cp), op := op, key := k }

/-- Write a page of an image back on the CP path under the current key (14 R348, R349).
DESIGN CHOICE, log 58. -/
def restorePage (d op : Nat) (lf : Leaf) (p : ImgPage) (s : State) : State :=
  let pa := leafPlace lf lf.vbase
  let k := keyTag s (leafOkey lf.entry)
  modDie d (fun x =>
    let inside (a : Nat) : Bool := decide (pa ≤ a) && decide (a < pa + p.size)
    let sorted : Memory := p.bytes.foldl (fun (m : Memory) e => writeByte m (pa + e.1) e.2) []
    let old := cellsIn x.mem pa p.size
    let keyed : List Nat := if isDram pa then
        ((sorted.map fun (e : Nat × Byte) => e.1 / 128) ++ (x.lineKeys.filter fun e => inside (e.1 * 128)).map (fun e => e.1)).eraseDups else []
    let x := { x with
      mem := p.bytes.foldl (fun (m : Memory) e => writeByte m (pa + e.1) e.2) (x.mem.filter fun e => !inside e.1)
      empties := x.empties.filter fun a => !inside a
      poison := p.poison.map (· + pa) ++ x.poison.filter fun a => !inside a
      unseen := hiddenBy op pa k x old sorted ++ x.unseen
      basin := x.basin.map fun b => if inside (b.line * 128) then { b with stale := none, okey := k.1, gen := k.2 } else b }
    keyed.foldl (fun y l => setLineKey l k y) x) s

/-- A restore writes each page back until one cannot be mapped (14 R348): the fault and its address, if any. -/
def restorePages (d top op : Nat) : List ImgPage → State → Option (Nat × Nat) × State
  | [], s => (none, s)
  | p :: ps, s =>
    match restoreLeaf s d top p with
    | .error c => (some (c, p.va), s)
    | .ok lf => restorePages d top op ps (restorePage d op lf p s)

/-- CKPT_COMPLETE (14 R348). -/
def ckptDone (d n : Nat) (s : State) : State :=
  match (getDie s d).ckpts[n]? with
  | none => s
  | some q =>
    if q.saved || q.ending.isSome then s
    else if ckMode q.word = 0 then saveImage d n q s
    else
      match (region? (getDie s d) q.top).bind fun g => imageOf g (linkKey s d q.top) (ckGen q.word) (ckPart q.word) with
      | none => endCkpt d n q none s
      | some i =>
        let (f, s) := restorePages d q.top (opNum q.ctx 0) i.pages s
        let s := if f.isNone then modDie d (modRegion q.top fun g => { g with curGen := ckGen q.word }) s else s
        endCkpt d n q (f.map fun e => ⟨codeWord e.1 0 true, BitVec.ofNat 64 e.2⟩) s

/-- `CKPT` (R348) -/
def execCkpt (ra : BitVec 6) (tag : BitVec 6) (s : State) : Result :=
  .next (lone (.ckpt ra tag) (opCkpt ra tag) s)


/-- `CKPT_COMPLETE` (R348) -/
def execCkptComplete (d n : Nat) (s : State) : Result :=
  .next (onDie d s (ckptDone d n s))

/-! Link keys -/

/-- A link key that opens is installed in a slot that has been assigned to the program (13 R325). -/
def installLink (d slot top : Nat) (opened : Option Nat) (s : State) : State :=
  let k := s.keys.getD slot {}
  match opened with
  | some key =>
    if k.state == .assigned && k.die == d && k.top == top then
      { s with keys := s.keys.modify slot fun q => { q with state := .live, link := true, gen := q.gen + 1, id := key } }
    else s
  | none => s

/-- `LINK_KEY_INSTALL` (R325) -/
def execLinkKeyInstall (d slot top : Nat) (opened : Option Nat) (s : State) : Result :=
  .next (onDie d s (installLink d slot top opened s))

/-! Soft errors -/

/-- The die of a place where an error strikes. -/
def siteDie : ErrSite → Nat
  | .memory d _ => d
  | .reg c .. | .tileRow c .. | .queueEntry c .. | .holdEntry c _ => dieOf c
  | .dictEntry k .. => k / 64

/-- The physical register of a site. -/
def siteReg (kind n : Nat) : Dest :=
  match kind with
  | 0 => .x (n % 64)
  | 1 => .v (n % 64)
  | 2 => .p (n % 16)
  | _ => .a (n % 16)

/-- An uncorrectable error poisons its granule (14 R345); x0 and p0 hold nothing. -/
def poisonSite (e : ErrSite) (s : State) : State :=
  match e with
  | .memory d a => modDie d (fun x => { x with poison := granule a :: x.poison.filter (· != granule a) }) s
  | .reg c kind n =>
    let r := siteReg kind n
    if r == .x 0 || r == .p 0 then s else modArch c (fun a => { a with poisoned := r :: a.poisoned.filter (· != r) }) s
  | .tileRow c t row => modCtx c (fun x => { x with mx := { x.mx with tilePoison := (t, row) :: x.mx.tilePoison } }) s
  | .queueEntry c q e => modCtx c (fun x => { x with mx := { x.mx with
      queues := x.mx.queues.modify q fun es => es.modify e fun y => { y with poisoned := true } } }) s
  | .dictEntry k kid i => modCore k (fun q => { q with kernels := q.kernels.map fun n =>
      if n.kid = kid then { n with dictPoison := i :: n.dictPoison } else n }) s
  | .holdEntry c n => modCtx c (fun x => { x with hold := x.hold.modify n fun h => { h with bad := true } }) s

/-- An error is corrected and counted, or poisons (14 R344, R345). -/
def softError (e : ErrSite) (correctable : Bool) (s : State) : State :=
  if correctable then modDie (siteDie e) (fun x => { x with corrections := x.corrections + 1 }) s else poisonSite e s

/-- `SOFT_ERROR` (R345) -/
def execSoftError (site : ErrSite) (correctable : Bool) (s : State) : Result := .next (softError site correctable s)

/-! Faults that wait for room -/

/-- A pending fault of context c at level 0 or 1 is delivered if there is room. DESIGN CHOICE, log 91. -/
def giveFault (c lvl : Nat) (f : PFault) (ok : State → State) (s : State) : State :=
  if canDeliver s c lvl then ok (deliverF c lvl f s) else s

/-- Sources that wait with a fault for room in a context's queue deliver in turn (14 R329).
DEDUCED, log 16. DESIGN CHOICE, log 91. -/
def flushWaiting (c : Nat) (s : State) : State :=
  let d := dieOf c
  let x := getCtx s c
  let s := foldS (fun f s => giveFault c 0 f (modCtx c fun y => { y with mxPends := y.mxPends.drop 1 }) s) x.mxPends s
  let waits (k : Nat) : List Copy := (getCore s k).copies.filter fun m => m.ctx == c && m.ending.isSome
  let s := foldS (fun k s => foldS (fun (m : Copy) s =>
    match m.ending, (getCore s k).copies.findIdx? fun q => q.ctx == c && q.id == m.id with
    | some f, some n =>
      giveFault c m.level f (fun s => if m.suspended then modCopy k n (fun q => { q with ending := none }) s else endCopy k n m s) s
    | _, _ => s) (waits k) s) ((List.range 64).map (· + 64 * d)) s
  let s := foldS (fun (m : FbCmd) s =>
    match m.ending with
    | some f => giveFault c m.level f (fun s => if m.suspended then modFb c m.id (fun q => { q with ending := none }) s else endFb c m s) s
    | none => s) (x.fb.filter fun m => m.ending.isSome) s
  let s := foldS (fun (m : EddyCmd) s =>
    match m.ending, (getDie s d).eddy.findIdx? fun q => q.ctx == c && q.id == m.id with
    | some f, some n =>
      giveFault c m.level f (fun s => if m.suspended then modEddy d n (fun q => { q with ending := none }) s else endEddy d n m true s) s
    | _, _ => s) ((getDie s d).eddy.filter fun m => m.ctx == c && m.ending.isSome) s
  let s := foldS (fun (q : Coll) s =>
    match q.ending, q.tag with
    | some f, some t => giveFault c q.level f (fun s =>
        completeTag c q.level t (modDie d (fun y => { y with colls := y.colls.filter fun r => !sameColl q r }) s)) s
    | _, _ => s) ((getDie s d).colls.filter fun q => q.ctx == c && q.ended) s
  let s := foldS (fun (b : Barrier) s => if b.ending.isSome then endBarrier d b b.ending s else s)
    ((getDie s d).barriers.filter fun b => b.ctx == c) s
  let s := foldS (fun (q : CkptCmd) s =>
    match q.ending, (getDie s d).ckpts.findIdx? fun k => k.ord == q.ord with
    | some f, some n => endCkpt d n q (some f) s
    | _, _ => s) ((getDie s d).ckpts.filter fun q => q.ctx == c) s
  let s := foldS (fun _ s =>
    giveFault c 0 ⟨codeWord 0x18 0 true, BitVec.allOnes 64⟩ (modCtx c fun y => { y with owed := y.owed - 1 }) s)
    (List.range (getCtx s c).owed) s
  let s := flushHeld d (feedPops c s)
  let top := domOf s c
  foldS (fun n s =>
    let t := counterOf s d top n
    match t.armed with
    | some (y, _, lvl) =>
      if y == c && t.owed != 0 then
        giveFault c lvl ⟨codeWord 0x0C 0 true, 0#64⟩ (modCounter d top n fun t => { t with owed := t.owed - 1 }) s
      else s
    | none => s) (List.range (((region? (getDie s d) top).map fun g => g.counters.length).getD 0)) s

end Sys2Proof.Machine
end

