-- ==== Sys2Proof/Machine/Bundle.lean ====
section
/-!
DEFINITION. BUNDLE_ISSUE: the pick of a context, its boundary, fetch, the breakpoint, the decode of a bundle and its
issue; the quantum (spec 02 R38 to R46; 09 R236; 10 R255, R256; 12 R311; 14 R329, R343).
-/

namespace Sys2Proof.Machine

open Sys2Proof

/-- The operation that an instruction of a syllable is; the events are none. -/
def opOf : Instr → Option Op
  | .add rd ra rb => some (opAdd rd ra rb)
  | .sub rd ra rb => some (opSub rd ra rb)
  | .mul rd ra rb => some (opMul rd ra rb)
  | .mulh rd ra rb => some (opMulh rd ra rb)
  | .mulhu rd ra rb => some (opMulhu rd ra rb)
  | .div rd ra rb => some (opDiv rd ra rb)
  | .divu rd ra rb => some (opDivu rd ra rb)
  | .rem rd ra rb => some (opRem rd ra rb)
  | .remu rd ra rb => some (opRemu rd ra rb)
  | .and rd ra rb => some (opAnd rd ra rb)
  | .or rd ra rb => some (opOr rd ra rb)
  | .xor rd ra rb => some (opXor rd ra rb)
  | .andn rd ra rb => some (opAndn rd ra rb)
  | .shl rd ra rb => some (opShl rd ra rb)
  | .shr rd ra rb => some (opShr rd ra rb)
  | .sra rd ra rb => some (opSra rd ra rb)
  | .min rd ra rb => some (opMin rd ra rb)
  | .max rd ra rb => some (opMax rd ra rb)
  | .minu rd ra rb => some (opMinu rd ra rb)
  | .maxu rd ra rb => some (opMaxu rd ra rb)
  | .cmp cc pd ra rb => some (opCmp cc pd ra rb)
  | .sel rd ra rb pc => some (opSel rd ra rb pc)
  | .clz rd ra => some (opClz rd ra)
  | .ctz rd ra => some (opCtz rd ra)
  | .popc rd ra => some (opPopc rd ra)
  | .lea rd ra rb sh => some (opLea rd ra rb sh)
  | .sext rd ra ew => some (opSext rd ra ew)
  | .zext rd ra ew => some (opZext rd ra ew)
  | .addi rd ra imm => some (opAddi rd ra imm)
  | .andi rd ra imm => some (opAndi rd ra imm)
  | .ori rd ra imm => some (opOri rd ra imm)
  | .xori rd ra imm => some (opXori rd ra imm)
  | .shli rd ra sh => some (opShli rd ra sh)
  | .shri rd ra sh => some (opShri rd ra sh)
  | .srai rd ra sh => some (opSrai rd ra sh)
  | .movi rd imm => some (opMovi rd imm)
  | .movhi rd hw imm => some (opMovhi rd hw imm)
  | .br off => some (opBr off)
  | .brc pc neg off => some (opBrc pc neg off)
  | .call rd off => some (opCall rd off)
  | .ret ra => some (opRet ra)
  | .bktj tbl ra => some (opBktj tbl ra)
  | .bktset tbl ra => some (opBktset tbl ra)
  | .waitt ra => some (opWaitt ra)
  | .waitany ra => some (opWaitany ra)
  | .ffrdy rd ra => some (opFfrdy rd ra)
  | .rbwait ring => some (opRbwait ring)
  | .yield => some (opYield)
  | .spawn ra => some (opSpawn ra)
  | .join ra => some (opJoin ra)
  | .joinW ra => some (opJoinW ra)
  | .done => some (opDone)
  | .trap imm => some (opTrap imm)
  | .rfe => some (opRfe)
  | .mfs rd n => some (opMfs rd n)
  | .mts n ra => some (opMts n ra)
  | .tagsWrite ra => some (opTagsWrite ra)
  | .fstatusWrite ra => some (opFstatusWrite ra)
  | .fctlWrite ra => some (opFctlWrite ra)
  | .rowprogWrite ra => some (opRowprogWrite ra)
  | .keyselGen ra => some (opKeyselGen ra)
  | .keyselKill ra => some (opKeyselKill ra)
  | .halt ra => some (opHalt ra)
  | .ckwait => some (opCkwait)
  | .vadd fmt rm vd va vb => some (opVadd fmt rm vd va vb)
  | .vsub fmt rm vd va vb => some (opVsub fmt rm vd va vb)
  | .vmul fmt rm vd va vb => some (opVmul fmt rm vd va vb)
  | .vfma fmt rm vd va vb => some (opVfma fmt rm vd va vb)
  | .vfms fmt rm vd va vb => some (opVfms fmt rm vd va vb)
  | .vfnma fmt rm vd va vb => some (opVfnma fmt rm vd va vb)
  | .vmin fmt vd va vb => some (opVmin fmt vd va vb)
  | .vmax fmt vd va vb => some (opVmax fmt vd va vb)
  | .vabs fmt vd va => some (opVabs fmt vd va)
  | .vneg fmt vd va => some (opVneg fmt vd va)
  | .vand vd va vb => some (opVand vd va vb)
  | .vor vd va vb => some (opVor vd va vb)
  | .vxor vd va vb => some (opVxor vd va vb)
  | .vshl fmt vd va vb => some (opVshl fmt vd va vb)
  | .vshr fmt vd va vb => some (opVshr fmt vd va vb)
  | .vsra fmt vd va vb => some (opVsra fmt vd va vb)
  | .vadds fmt vd va vb => some (opVadds fmt vd va vb)
  | .vsubs fmt vd va vb => some (opVsubs fmt vd va vb)
  | .vcmp cc fmt pd va vb => some (opVcmp cc fmt pd va vb)
  | .vsel vd va vb pc => some (opVsel vd va vb pc)
  | .vmov vd va => some (opVmov vd va)
  | .vbcst vd ra => some (opVbcst vd ra)
  | .vext rd va rb => some (opVext rd va rb)
  | .vins vd ra rb => some (opVins vd ra rb)
  | .viota vd => some (opViota vd)
  | .vcvt fmt rm sfmt vd va => some (opVcvt fmt rm sfmt vd va)
  | .vcmpr vd va pb => some (opVcmpr vd va pb)
  | .vexpd vd va pb => some (opVexpd vd va pb)
  | .vrsum fmt rm rd va pb => some (opVrsum fmt rm rd va pb)
  | .vrmax fmt rd va pb => some (opVrmax fmt rd va pb)
  | .vrmin fmt rd va pb => some (opVrmin fmt rd va pb)
  | .xcopy vd va rb => some (opXcopy vd va rb)
  | .pand pd pa pb => some (opPand pd pa pb)
  | .por pd pa pb => some (opPor pd pa pb)
  | .pxor pd pa pb => some (opPxor pd pa pb)
  | .pandn pd pa pb => some (opPandn pd pa pb)
  | .pnot pd pa => some (opPnot pd pa)
  | .pcnt rd pa => some (opPcnt rd pa)
  | .pfirst rd pa => some (opPfirst rd pa)
  | .exp2 fmt rm vd va => some (opExp2 fmt rm vd va)
  | .log2 fmt rm vd va => some (opLog2 fmt rm vd va)
  | .rcp fmt rm vd va => some (opRcp fmt rm vd va)
  | .rsq fmt rm vd va => some (opRsq fmt rm vd va)
  | .sin fmt rm vd va => some (opSin fmt rm vd va)
  | .cos fmt rm vd va => some (opCos fmt rm vd va)
  | .tanh fmt rm vd va => some (opTanh fmt rm vd va)
  | .erf fmt rm vd va => some (opErf fmt rm vd va)
  | .rnd fmt vd => some (opRnd fmt vd)
  | .seed ra => some (opSeed ra)
  | .cxs kf desc vd va j db => some (opCxs kf desc vd va j db)
  | .cxsi kf desc vd va j db => some (opCxsi kf desc vd va j db)
  | .vmaxi kf rd va pb => some (opVmaxi kf rd va pb)
  | .vmini kf rd va pb => some (opVmini kf rd va pb)
  | .vnormsel kf vd va pb j => some (opVnormsel kf vd va pb j)
  | .ld sz ep na rd ra off => some (opLd sz ep na rd ra off)
  | .ldS sz ep na rd ra off => some (opLdS sz ep na rd ra off)
  | .st sz ep na rd ra off => some (opSt sz ep na rd ra off)
  | .stS sz ep na rd ra off => some (opStS sz ep na rd ra off)
  | .vld fmt ep na vd ra off => some (opVld fmt ep na vd ra off)
  | .vldS fmt ep na vd ra off => some (opVldS fmt ep na vd ra off)
  | .vst fmt ep na vd ra off => some (opVst fmt ep na vd ra off)
  | .vstS fmt ep na vd ra off => some (opVstS fmt ep na vd ra off)
  | .ldf rd ra off => some (opLdf rd ra off)
  | .ste rd ra off => some (opSte rd ra off)
  | .preft tag ra off ep => some (opPreft tag ra off ep)
  | .pin win ra rb => some (opPin win ra rb)
  | .unpin win => some (opUnpin win)
  | .phase ra rb => some (opPhase ra rb)
  | .qalign => some (opQalign)
  | .fence sc => some (opFence sc)
  | .xfence pf pt => some (opXfence pf pt)
  | .qpop vd q => some (opQpop vd q)
  | .rbrel ring => some (opRbrel ring)
  | .aadd sz rd ra rb => some (opAadd sz rd ra rb)
  | .aand sz rd ra rb => some (opAand sz rd ra rb)
  | .aor sz rd ra rb => some (opAor sz rd ra rb)
  | .axor sz rd ra rb => some (opAxor sz rd ra rb)
  | .amin sz rd ra rb => some (opAmin sz rd ra rb)
  | .amax sz rd ra rb => some (opAmax sz rd ra rb)
  | .aswp sz rd ra rb => some (opAswp sz rd ra rb)
  | .cas sz rd ra rb => some (opCas sz rd ra rb)
  | .afadd rd ra rb => some (opAfadd rd ra rb)
  | .ared op ra rb rv => some (opAred op ra rb rv)
  | .loop ra imm => some (opLoop ra imm)
  | .replay s ra imm => some (opReplay s ra imm)
  | .aset ad ra imm => some (opAset ad ra imm)
  | .ainc rd ad imm => some (opAinc rd ad imm)
  | .astr ad ra lvl => some (opAstr ad ra lvl)
  | .scl e ra c => some (opScl e ra c)
  | .mma mf td ra rb n => some (opMma mf td ra rb n)
  | .mmr mf mode td ra rb => some (opMmr mf mode td ra rb)
  | .mload td ra => some (opMload td ra)
  | .mdrain of_ clr q td => some (opMdrain of_ clr q td)
  | .mzero td n => some (opMzero td n)
  | .mxsave ra => some (opMxsave ra)
  | .mxrest ra => some (opMxrest ra)
  | .mtalloc n m => some (opMtalloc n m)
  | .mtfree => some (opMtfree)
  | .cpy dr sr ra rb tag => some (opCpy dr sr ra rb tag)
  | .cpym ra rb rc tag => some (opCpym ra rb rc tag)
  | .cpyr op ra rb tag => some (opCpyr op ra rb tag)
  | .rbinit ring ra rb => some (opRbinit ring ra rb)
  | .svinit ra rb tag => some (opSvinit ra rb tag)
  | .svapply ra rb tag => some (opSvapply ra rb tag)
  | .svdiag ra rb tag => some (opSvdiag ra rb tag)
  | .svprob ra rb rc tag => some (opSvprob ra rb rc tag)
  | .svnorm ra rb tag => some (opSvnorm ra rb tag)
  | .svmap ra rb tag => some (opSvmap ra rb tag)
  | .fsend ra rb tag => some (opFsend ra rb tag)
  | .frecv ra rb tag => some (opFrecv ra rb tag)
  | .fput ra rb tag => some (opFput ra rb tag)
  | .fputS ra rb tag => some (opFputS ra rb tag)
  | .fputR op ra rb tag => some (opFputR op ra rb tag)
  | .fget ra rb tag => some (opFget ra rb tag)
  | .fexpect clr ra rb tag => some (opFexpect clr ra rb tag)
  | .fport ra rb tag => some (opFport ra rb tag)
  | .froute rd rb port => some (opFroute rd rb port)
  | .coll ra tag => some (opColl ra tag)
  | .collw ra => some (opCollw ra)
  | .agb pc rb => some (opAgb pc rb)
  | .agbx ra rb => some (opAgbx ra rb)
  | .agwait => some (opAgwait)
  | .barr rb tag => some (opBarr rb tag)
  | .tlbi ra rb tag => some (opTlbi ra rb tag)
  | .ckpt ra tag => some (opCkpt ra tag)
  | .aaddH sz rd ra rb => some (opAaddH sz rd ra rb)
  | .aandH sz rd ra rb => some (opAandH sz rd ra rb)
  | .aorH sz rd ra rb => some (opAorH sz rd ra rb)
  | .axorH sz rd ra rb => some (opAxorH sz rd ra rb)
  | .aminH sz rd ra rb => some (opAminH sz rd ra rb)
  | .amaxH sz rd ra rb => some (opAmaxH sz rd ra rb)
  | .aswpH sz rd ra rb => some (opAswpH sz rd ra rb)
  | .casH sz rd ra rb => some (opCasH sz rd ra rb)
  | .afaddH rd ra rb => some (opAfaddH rd ra rb)
  | .aredH op ra rb rv => some (opAredH op ra rb rv)
  | .bundleIssue _ => none
  | .lsAccessPerformed _ _ _ => none
  | .bankAtomicPerformed _ _ => none
  | .bktsetDataArrival _ => none
  | .preemption _ => none
  | .frecvCopyComplete _ _ => none
  | .watchdogExpiry _ => none
  | .prefetchComplete _ _ => none
  | .ringSlotClaim _ _ => none
  | .copyPageReach _ _ _ => none
  | .cpymLanding _ _ => none
  | .copyComplete _ _ => none
  | .matrixAllocGrant _ => none
  | .matrixCommandComplete _ => none
  | .matrixLineFetch _ => none
  | .matrixCommandStart _ => none
  | .recordPop _ => none
  | .eddyCommandComplete _ => none
  | .exchangeData _ _ => none
  | .eddyCommandStart _ => none
  | .collectiveStart _ _ => none
  | .barrArrivalSend _ _ => none
  | .ckptComplete _ _ => none
  | .phaseDrainEnd _ => none
  | .budgetPeriod _ _ => none
  | .serviceRingPoll _ _ => none
  | .packetArrival _ _ => none
  | .tlbiComplete _ _ => none
  | .openNoticeArrival _ _ => none
  | .planStepArrival _ _ => none
  | .abortNoticeArrival _ _ => none
  | .barrArrivalReceive _ _ => none
  | .huddleContributionArrival _ _ => none
  | .huddleOutcomeArrival _ _ => none
  | .voidRequestArrival _ _ => none
  | .fabricSlotBoundary _ => none
  | .ackArrival _ _ => none
  | .staleNotice _ _ _ _ _ _ => none
  | .authFailNotice _ _ _ _ _ => none
  | .exchangeHandshake _ _ _ _ _ => none
  | .registerWriteback _ => none
  | .loadDataReturn _ _ => none
  | .quantumExpiry _ => none
  | .budgetExhausted _ _ => none
  | .trapEntry _ => none
  | .pinLineFetch _ _ _ => none
  | .framingReceived _ _ _ => none
  | .ringSaturation _ => none
  | .dataWindowStart _ => none
  | .heldPacketTimeout _ _ => none
  | .staleRetransmitTimeout _ _ => none
  | .routeWaitTimeout _ _ => none
  | .frecvTimeout _ => none
  | .wakeHint _ => none
  | .collectiveTimeout _ _ => none
  | .memberLostReport _ _ _ => none
  | .huddleTimeout _ => none
  | .outcomeResend _ _ _ => none
  | .linkKeyInstall _ _ _ _ => none
  | .powerOn _ => none
  | .bootRetry _ => none
  | .pkgreset => none
  | .hqprod _ => none
  | .bar0RegisterWrite _ _ => none
  | .functionLevelReset => none
  | .currentLimit _ => none
  | .thermalThrottle _ _ => none
  | .thermalTrip _ => none
  | .ringHeatWrite _ _ => none
  | .createRegion _ _ => none
  | .changeRegion _ _ => none
  | .makeRunnable _ => none
  | .makeNotRunnable _ => none
  | .destroyRegion _ => none
  | .bindKernel _ _ _ _ _ => none
  | .pushRecords _ _ => none
  | .handlerVector _ _ _ => none
  | .breakpoint _ _ _ _ _ => none
  | .routeTable _ _ _ => none
  | .groupEntry _ _ _ _ => none
  | .assignKeySlot _ _ => none
  | .reclaimKeySlot _ _ => none
  | .pageTableRoot _ _ => none
  | .frameOwner _ _ _ _ => none
  | .cisternAllotment _ _ => none
  | .attest _ _ => none
  | .readRingStatus _ _ => none
  | .registerServiceRing _ _ => none
  | .withdrawServiceRing _ => none
  | .framingLost _ => none
  | .softError _ _ => none
  | .exchangePartnerTimeout _ _ => none

/-! Fetch -/

/-- What a fetched halfword may be: the value in memory, the one fetched before, and those of stores not yet visible
to every path (09 R236).
DEDUCED, log 18. -/
def halfChoices (d : Die) (k : Core) (tag : Config.KeyTag) (key pa : Nat) : List Nat :=
  let now := natOf (readRun d.mem pa 2)
  let older := (d.unseen.filter fun r => decide (r.addr < pa + 2) && decide (pa < r.addr + r.old.length)).map fun r =>
    natOf ((List.range 2).map fun i =>
      if r.addr ≤ pa + i && pa + i < r.addr + r.old.length then oldByte d.mem tag r (pa + i) else readByte d.mem (pa + i))
  let before := (k.fetched.filter fun e => e.1 == key).map (·.2)
  (now :: before ++ older).eraseDups

/-- CodeHalf(i) of the running kernel (02 R38): the halfword, or the fault with the address that could not be read. Its line
of DRAM is used in the basin (08 R197).
DEDUCED, log 17. DEDUCED, log 18. DESIGN CHOICE, log 102. -/
def codeHalf (c : Nat) (n : Kernel) (i : Nat) (s : State) : Except (Nat × Word) Nat × State :=
  let va := n.base + BitVec.ofNat 64 (2 * i)
  match checkAccess c { x := true } va 2 s with
  | (.error (code, a), s) => (.error (code, BitVec.ofNat 64 a), s)
  | (.ok segs, s) =>
    let pa := (segs.head?.map (·.pa)).getD 0
    let okey := (segs.head?.map (·.okey)).getD 0
    let d := dieOf c
    match poisonIn (getDie s d) pa 2 with
    | some g => (.error (0x18, BitVec.ofNat 64 (vaOf segs g)), s)
    | none =>
      let key := n.kid * 2 ^ 25 + i
      let line := pa / 128
      let under := isDram pa && (match lineKey (getDie s d) line with | some w => w != keyTag s okey | none => false)
      let all := if under then
          [natOf (((lineUnder (getDie s d) line (keyTag s okey)).drop (pa % 128)).take 2)]
        else halfChoices (getDie s d) (getCore s (coreOf c)) (keyTag s okey) key pa
      let (j, s) := choose all.length (if isDram pa then touchOwn d line s else s)
      let h := all.getD j 0
      (.ok h, modCore (coreOf c) (fun q => { q with fetched := (key, h) :: q.fetched.filter fun e => e.1 != key }) s)

/-- The 24 halfwords of a literal bundle (02 R38): its 12 syllables. -/
def literalHalves (c : Nat) (n : Kernel) : Nat → Nat → State → Except (Nat × Word) (List Nat) × State
  | _, 0, s => (.ok [], s)
  | i, m + 1, s =>
    match codeHalf c n i s with
    | (.error e, s) => (.error e, s)
    | (.ok h, s) =>
      match literalHalves c n (i + 1) m s with
      | (.error e, s) => (.error e, s)
      | (.ok hs, s) => (.ok (h :: hs), s)

/-- Halfwords paired, the lower first. -/
def pairHalves : List Nat → List (BitVec 32)
  | a :: b :: hs => BitVec.ofNat 32 (a + 65536 * b) :: pairHalves hs
  | _ => []

/-- Fetch of the bundle at the PC (02 R38): its syllables and the next PC, or the fault. DEDUCED, log 17. -/
def fetch (c : Nat) (s : State) : Except (Nat × Word) (List (BitVec 32) × Nat) × State :=
  let a := getArch s c
  match kernel? (getCore s (coreOf c)) a.kid with
  | none => (.error (0x02, 0#64), s)
  | some n =>
    if n.codelen ≤ a.pc then (.error (0x02, 0#64), s) else
    match codeHalf c n a.pc s with
    | (.error e, s) => (.error e, s)
    | (.ok h, s) =>
      if h = 0xFFFF then
        if n.codelen ≤ a.pc + 24 then (.error (0x02, 0#64), s) else
        match literalHalves c n (a.pc + 1) 24 s with
        | (.error e, s) => (.error e, s)
        | (.ok hs, s) => (.ok (pairHalves hs, a.pc + 25), s)
      else match n.dict[h]? with
        | none => (.error (0x02, 0#64), s)
        | some b => if n.dictPoison.contains h then (.error (0x18, BitVec.allOnes 64), s) else (.ok (b, a.pc + 1), s)

/-- The lowest breakpoint of the record's region that matches the bundle about to issue (14 R343). -/
def breakpointAt (s : State) (c : Nat) : Option Nat :=
  let x := getCtx s c
  if x.level = 1 || x.noBreak then none else
  ((region? (getDie s (dieOf c)) (ridOf s c)).map (·.breaks)).bind fun bs =>
    bs.findIdx? fun b => b == some (x.arch.kid, x.arch.pc)

/-! Decode of a bundle -/

/-- The slots in the order of the syllables (02 R41). -/
def slots : List Slot := [.s0, .s1, .v0, .v1, .v2, .f, .k, .m0, .m1, .a, .e]

/-- The syllables of a bundle against its occupancy mask (02 R42, R44 step 3), from bit n on. -/
def decodeSyls (occ : Nat) : Nat → List Slot → List (BitVec 32) → Option (List Instr)
  | _, [], _ => some []
  | n, sl :: sls, ws =>
    let w := ws.headD 0#32
    if occ.testBit n then
      (okOf (decodeSyl sl w)).bind fun i => (decodeSyls occ (n + 1) sls ws.tail).map (i :: ·)
    else if w = 0#32 then decodeSyls occ (n + 1) sls ws.tail else none

/-- The header of a bundle (02 R40). -/
def hdrOf (w : BitVec 32) : Hdr :=
  { guard := BitVec.ofNat 4 (bitsN w 19 16), gsense := bit w 20, stage := bitsN w 15 12, fin := bit w 11 }

/-- A bundle decoded (02 R44 steps 2 and 3): its header and operations in the order of the slots; none: 0x01. -/
def decodeBundle (ws : List (BitVec 32)) : Option (Hdr × List Instr) :=
  let h := ws.headD 0#32
  if bitsN h 31 21 ≠ 0 then none
  else (decodeSyls (bitsN h 10 0) 0 slots ws.tail).map fun is => (hdrOf h, is)

/-- The operations of decoded instructions. -/
def opsOf (is : List Instr) : List (Instr × Op) := is.filterMap fun i => (opOf i).map fun f => (i, f)

/-- The bundle at a context's PC is tried: whether it went, and the state. -/
def tryBundle (c : Nat) (s : State) : Bool × State :=
  match fetch c s with
  | (.error (code, a), s) => (true, preciseFault c code 0 a s)
  | (.ok (ws, next), s) =>
    match breakpointAt s c with
    | some n => (true, preciseFault c 0x21 n 0#64 s)
    | none =>
      match decodeBundle ws with
      | none => (true, preciseFault c 0x01 0 0#64 s)
      | some (h, is) =>
        match issueOps next (opsOf is) { s with cur := c, hdr := h } with
        | .went s => (true, s)
        | .waits k s => (false, blockStill c k s)

/-- A restored context waits for its tiles and queues before it issues (06 R160, R161). -/
def waitsTiles (x : Ctx) : Bool := x.mxHeld.isSome && x.block.isNone

/-- A fault is taken ahead of a restore of the checkpoint, which waits for the return (12 R311; 14 R340). -/
def putOff (x : Ctx) : Ctx :=
  match x.restore with
  | some v => { x with restore := none, round := x.round.map fun r => { r with decided := some v } }
  | none => x

/-- A context at its bundle boundary: an outcome, a fault, a restore or a pre-emption acts there, or else its bundle
is tried (10 R258; 12 R309 to R311; 14 R329, R331, R340). A context that waits for restored tiles does not act.
DEDUCED, log 16. -/
def attempt (c : Nat) (s : State) : Bool × State :=
  let x := getCtx s c
  if x.status != .active || waitsTiles x then (false, s) else
  let s := flushWaiting c (applyDecided c s)
  let x := getCtx s c
  match x.faults1, (if x.level = 0 then x.faults else []) with
  | f :: _, _ => (true, unhandled c f.code f.addr (modCtx c (fun y => { y with faults1 := y.faults1.drop 1 }) s))
  | [], f :: rest => (true, trapEntry c f.code f.addr (modCtx c (fun y => { putOff y with faults := rest }) s))
  | [], [] =>
    match x.restore with
    | some v => (true, restoreCheckpoint c v s)
    | none => if x.marked then (true, preempt c s) else tryBundle c s

/-! The pick -/

/-- The contexts of a core after number n, and n itself last (10 R256). -/
def rotation (n : Nat) : List Nat := [(n + 1) % 4, (n + 2) % 4, (n + 3) % 4, n % 4]

/-- Another context of the core than number n is ready. -/
def othersReady (k n : Nat) (s : State) : Bool := ((rotation n).take 3).any fun m => (attempt (4 * k + m) s).1

/-- The core begins to issue from context m, after the padded results of the one that stopped (02 R37; 10 R256).
DESIGN CHOICE, log 12. -/
def beginIssue (k m : Nat) (s : State) : State :=
  let last := (getCore s k).last
  let c := 4 * k + last
  let s := if m = last && (getCtx s c).block.isNone then s else waitPadded c s
  modCtx (4 * k + m) (fun x => { x with quantum := 0 }) (modCore k (fun q => { q with issuing := some m }) s)

/-- The first ready context in an order begins to issue; none: a cycle passes (10 R256). -/
def pick (k : Nat) : List Nat → State → State
  | [], s => tick k 1 s
  | m :: ms, s =>
    match attempt (4 * k + m) s with
    | (false, s) => pick k ms s
    | (true, _) => (attempt (4 * k + m) (beginIssue k m s)).2

/-- The issuing context n stops; another is picked. -/
def switchFrom (k n : Nat) (s : State) : State :=
  pick k (rotation n) (modCore k (fun q => { q with issuing := none, last := n }) s)

/-- The quantum of the issuing context is used up and another context is ready (10 R256). -/
def quantumOver (k n : Nat) (s : State) : Bool := decide (65536 ≤ (getCtx s (4 * k + n)).quantum) && othersReady k n s

/-- A blocked context whose condition holds is ready: should it block again, its time counts anew; one whose bundle waits in
another way is blocked in that way (10 R256). -/
def noteReady (k : Nat) (s : State) : State :=
  foldS (fun m s =>
    let c := 4 * k + m
    match (getCtx s c).block with
    | none => s
    | some b =>
      match attempt c s with
      | (true, _) => modCtx c (fun x => { x with block := some (b.1, nowOf s c), waited := 0 }) s
      | (false, t) => modCtx c (fun x => { x with block := (getCtx t c).block }) s) (List.range 4) s

/-- BUNDLE_ISSUE: one act of a core (02 R44; 10 R256). -/
def bundleIssue (k : Nat) (s : State) : State :=
  let s := noteReady k s
  match (getCore s k).issuing with
  | some n =>
    if quantumOver k n s then switchFrom k n s else
    match attempt (4 * k + n) s with
    | (true, s) => s
    | (false, s) => switchFrom k n s
  | none => pick k (rotation (getCore s k).last) s

/-- `BUNDLE_ISSUE` (R44) -/
def execBundleIssue (k : Nat) (s : State) : Result := .next (onDie (k / 64) s (bundleIssue k s))

/-- `QUANTUM_EXPIRY` (R256) -/
def execQuantumExpiry (c : Nat) (s : State) : Result :=
  let k := coreOf c
  .next (onDie (dieOf c) s
    (if (getCore s k).issuing = some (c % 4) && quantumOver k (c % 4) s then switchFrom k (c % 4) s else s))

end Sys2Proof.Machine
end

