-- ==== Sys2Proof/Machine/Events.lean ====
section
/-!
DEFINITION. The events of the contexts: landings and accesses performed, the pop, the resumption and the pre-emption of
records, budgets and the watchdog, trap entry (spec 02 R35; 09 R221; 10 R246 to R261; 14 R330 to R342).
-/

namespace Sys2Proof.Machine

open Sys2Proof

/-! Results and accesses -/

/-- `REGISTER_WRITEBACK` (R35) -/
def execRegisterWriteback (c : Nat) (s : State) : Result := .next (onDie (dieOf c) s (landNow c s))

def isLoad : LsKind → Bool | .load | .vload .. | .bktset .. => true | _ => false

/-- The data of load n of a context's queues arrives and lands when it is due (08 R187). -/
def loadReturn (c n : Nat) (s : State) : State :=
  match (getCtx s c).lsq[n]? with
  | some e => if isLoad e.kind then landNow c (lsPerform c n .whole s) else s
  | none => s

/-- `LOAD_DATA_RETURN` (R187) -/
def execLoadDataReturn (c n : Nat) (s : State) : Result := .next (onDie (dieOf c) s (loadReturn c n s))

/-- `LS_ACCESS_PERFORMED` (R221) -/
def execLsAccessPerformed (c n : Nat) (act : LsAct) (s : State) : Result :=
  .next (onDie (dieOf c) s (lsPerform c n act s))

/-- A bank performs the oldest `.H` operation, or the first shipped one (08 R213). -/
def bankPerform (c : Nat) (home : Bool) (s : State) : State :=
  if home then bkPerform c s else
  match (getCtx s c).lsq.findIdx? fun e => isAtomic e.kind with
  | some n => lsPerform c n .whole s
  | none => s

/-- `BANK_ATOMIC_PERFORMED` (R213) -/
def execBankAtomicPerformed (c : Nat) (home : Bool) (s : State) : Result := .next (onDie (dieOf c) s (bankPerform c home s))

/-- `BKTSET_DATA_ARRIVAL` (R134) -/
def execBktsetDataArrival (c : Nat) (s : State) : Result := .next (onDie (dieOf c) s (bktArrive c s))

/-! Popping a record -/

/-- The level of a queued record now (10 R259). -/
def levelNow (d : Die) (q : QRec) : Nat :=
  max q.floor (min 15 (q.level + (d.clock - q.enq) / max 1 (effAgelim d q.rid)))

/-- A region is exhausted: its pool or an ancestor's is zero (10 R257). -/
def exhausted (d : Die) (r : Nat) : Bool := (ancestry d r).any fun a => ((region? d a).bind (·.pool)) == some 0

/-- A region and every ancestor is runnable (10 R260). -/
def runnableUp (d : Die) (r : Nat) : Bool :=
  !(ancestry d r).isEmpty && (ancestry d r).all fun a => ((region? d a).map (·.runnable)).getD false

/-- Contexts of a die that hold records of a region's subtree (10 R246). -/
def heldCount (s : State) (d r : Nat) : Nat :=
  ((List.range 256).filter fun n => match (getCtx s (256 * d + n)).record with
    | some q => inSubtree (getDie s d) r q.rid
    | none => false).length

/-- An idle context serves a region (10 R260). -/
def serves (s : State) (c r : Nat) : Bool :=
  let dd := getDie s (dieOf c)
  runnableUp dd r && !exhausted dd r && bit (effCores dd r) (coreInDie c)
    && (ancestry dd r).all fun a => decide (heldCount s (dieOf c) a < effMaxctx dd a)

/-- Record p is popped before record q (10 R260). -/
def popsBefore (d : Die) (p q : QRec) : Bool :=
  let lp := levelNow d p
  let lq := levelNow d q
  decide (lq < lp) || (lp == lq && (decide (p.enq < q.enq) || (p.enq == q.enq &&
    (decide (p.order.1 < q.order.1) || (p.order.1 == q.order.1 && decide (p.order.2 < q.order.2))))))

/-- The place of the record that an idle context pops (10 R260). -/
def choosePop (s : State) (c : Nat) : Option Nat :=
  let dd := getDie s (dieOf c)
  (dd.queue.zipIdx.foldl (fun (best : Option (QRec × Nat)) e =>
    if !serves s c e.1.rid then best else
    match best with
    | some b => if popsBefore dd e.1 b.1 then some e else best
    | none => some e) none).map (·.2)

def idle (s : State) (c : Nat) : Bool := (getCtx s c).status == .idle

/-- A lower context of the die reaches for a record too (01 R25). -/
def lowerReaches (s : State) (c : Nat) : Bool :=
  (List.range (c % 256)).any fun n => idle s (c / 256 * 256 + n) && (choosePop s (c / 256 * 256 + n)).isSome

/-- The fields of a popped record (10 R248). -/
def recInfo (q : QRec) (qpri : Nat) : RecInfo :=
  { rid := q.rid, prio := q.level, qpri := qpri, frame := BitVec.ofNat 64 (bitsN q.bits 127 64)
    joinptr := BitVec.ofNat 64 (bitsN q.bits 191 128), kid := bitsN q.bits 63 60, entry := bitsN q.bits 23 0 }

/-- REGIONID of a popped record (10 R247). -/
def regionWord (d : Die) (r : RecInfo) : Word :=
  let depth := ((region? d r.rid).map (·.rcb.depth)).getD 0
  BitVec.ofNat 64 (depth * 2 ^ 36 + effPrio d r.rid * 2 ^ 24 + r.qpri * 2 ^ 16 + r.rid)

/-- SAVEAREA at the start of a record (14 R334). DEDUCED, log 75. -/
def firstArea (r : RecInfo) : Word := r.frame + 1118208#64

/-- The rank of the program on a die. -/
def rankOn (d : Die) (rid : Nat) : Nat := ((region? d (topOf d rid)).map (·.rank)).getD 0

/-- The start of a record (10 R249). -/
def startRecord (c : Nat) (r : RecInfo) (s : State) : State :=
  let dd := getDie s (dieOf c)
  modCtx c (fun x => { Ctx.init with
    status := .active, nextId := x.nextId, arch := startArch r.kid r.entry r.frame r.joinptr 0#64
    savearea := firstArea r, regionid := regionWord dd r, rank := rankOn dd r.rid, record := some r }) s

/-- The checkpoint and the held stores read back (14 R335, R342, R345). -/
def readAhead (c : Nat) (base : Word) (s : State) : Except (Nat × Word) (Arch × List Held) × State :=
  match readRuns c .ls base [(946176, 90112), (1036288, 81920)] s with
  | (.error e, s) => (.error e, s)
  | (.ok rs, s) =>
    let d := getDie s (dieOf c)
    let rd := runReader rs
    let ck : Rd := fun o m => rd (946176 + o) m
    let segs := (rs.headD (0, [], [])).2.1
    if specialBad d segs ck then (.error (0x18, 0#64), s)
    else if !areaOk ck false then (.error (0x01, 0#64), s) else
    let held := (rdHold rd).zipIdx.map fun h => { h.1 with bad := badIn d rs (1036288 + 80 * h.2) 80 }
    (.ok (withPoison d segs (rdArch ck (nbits (rdN ck 8 8) 16 8)), held), s)

/-- Where a pre-empted record's context was kept: what its frame does not hold. DESIGN CHOICE, log 76. -/
def savedOf (s : State) (d : Nat) (r : RecInfo) : Option (Nat × Ctx) :=
  s.saved.find? fun e => dieOf e.1 == d && e.2.status == .active && (match e.2.record with
    | some q => q.frame == r.frame && q.rid == r.rid
    | none => false)

/-- The registers and the other state of a resumed record (14 R335, R340, R342). -/
def putBack (c : Nat) (r : RecInfo) (rd : Rd) (segs : List Seg) (s : State) : State :=
  let sw := rdN rd 8 8
  let one := nbits sw 2 1 == 1
  let arch := withPoison (getDie s (dieOf c)) segs (rdArch rd (nbits sw 16 8))
  modCtx c (fun x => { x with
    level := nbits sw 2 1
    arch := { arch with fstatus := arch.fstatus ||| (if one then x.heldFlags1 else x.heldFlags) }
    tags := rdW rd 16 ||| (if one then x.heldTags1 else x.heldTags)
    heldTags := if one then x.heldTags else 0#64, heldFlags := if one then x.heldFlags else 0#8
    heldTags1 := 0#64, heldFlags1 := 0#8
    agstate := rdW rd 40
    trapcode := if one then rdW rd 48 else x.trapcode
    trappc := if one then rdW rd 56 else x.trappc
    trapaddr := if one then rdW rd 64 else x.trapaddr
    savearea := if one then rdW rd 72 else firstArea r
    round := match rdRound rd (nbits sw 2 1) x.round with
      | some r => some r
      | none => x.round.filter fun r => decide (r.level < nbits sw 2 1)
    pins := rdPins rd fun i => (x.pins.getD i {}).age
    faults := rdFaults rd (nbits sw 12 4) (nbits sw 5 7) ++ x.faults
    rebase := true }) s

/-- An outcome of the interrupted state's round that reached a handler's saved record takes effect when the record resumes
(12 R311). -/
def resumeOutcome (c : Nat) (s : State) : State :=
  let x := getCtx s c
  match x.round with
  | some { decided := some v, level := 0, .. } =>
    if x.level = 0 then s
    else resolveRound c v (modCtx c (fun y => { y with round := y.round.map fun r => { r with decided := none } }) s)
  | _ => s

/-- The resumption of a pre-empted record (10 R258; 14 R342; 06 R161; 12 R311). A fault of the read is unhandled.
DEDUCED, log 75. DESIGN CHOICE, log 76. -/
def resumeRecord (c : Nat) (r : RecInfo) (s : State) : State :=
  let d := dieOf c
  let e := savedOf s d r
  let base := (e.map (·.2)).getD Ctx.init
  let s := modCtx c (fun x => { base with
    status := .active, record := some r, regionid := regionWord (getDie s d) r, rank := rankOn (getDie s d) r.rid
    nextId := max x.nextId base.nextId, marked := false, quantum := 0, mx := {}, ckpt := none }) s
  let s := match e with
    | some (n, _) => rehome n c { s with saved := s.saved.filter fun q => q.1 != n }
    | none => s
  let fail (code : Nat) (a : Word) (s : State) : State := unhandled c (codeWord code 0 false) a s
  match readRuns c .ls r.frame [(0, 90112)] (seeOrs c r.frame s) with
  | (.error (code, a), s) => fail code a s
  | (.ok runs, s) =>
    let rd := runReader runs
    let segs := runs.flatMap (·.2.1)
    if specialBad (getDie s d) segs rd then fail 0x18 0#64 s
    else if !areaOk rd true then fail 0x01 0#64 s
    else
      let sw := rdN rd 8 8
      let (ah, s) : Except (Nat × Word) (Option (Arch × List Held)) × State :=
        if nbits sw 4 1 = 1 then let (q, s) := readAhead c r.frame s; (q.map some, s) else (.ok none, s)
      match ah with
      | .error (code, a) => fail code a s
      | .ok ah =>
        let s := putBack c r rd segs s
        let s := match ah with
          | some (a, hs) => modCtx c (fun x => { x with ckpt := some a, hold := hs }) s
          | none => s
        let s := resumeOutcome c s
        if nbits sw 3 1 = 0 then s else
        match readMx c .ls (r.frame + 90112#64) s with
        | (.error (code, a), t) => fail code a t
        | (.ok m, t) =>
          let m := fixPops (getArch t c) (if base.mx.run.isSome then dropAbandoned m else m)
          let run := m.run.map fun q => match base.mx.run with
            | some b => { q with suspended := b.suspended, flags := b.flags }
            | none => { q with suspended := false }
          feedPops c (regainMx c { m with run := run } t)

/-- The pop of a record by an idle context (01 R25; 10 R249, R258, R260; 14 R330). -/
def popRecord (c : Nat) (s : State) : State :=
  if !idle s c || decide (1024 ≤ c) || lowerReaches s c then s else
  match choosePop s c with
  | none => s
  | some n =>
    let d := dieOf c
    match (getDie s d).queue[n]? with
    | none => s
    | some q =>
      let r := recInfo q (levelNow (getDie s d) q)
      let s := modDie d (fun x => { x with queue := x.queue.eraseIdx n }) s
      flushHeld d (if bit q.bits 224 then resumeRecord c r s else startRecord c r s)

/-- `RECORD_POP` (R25) -/
def execRecordPop (c : Nat) (s : State) : Result := .next (onDie (dieOf c) s (popRecord c s))

/-! Budgets, pre-emption, the watchdog, trap entry -/

/-- A multiple of its period, counted from when it was made runnable, has come since a region's pool was set (10 R257). -/
def poolDue (d : Die) (g : Region) : Bool :=
  let per := max 1 (effPeriod d g.rcb.rid)
  g.runnable && decide ((max g.poolSince g.poolAt - g.poolSince) / per < (d.clock - g.poolSince) / per)

/-- A region's pool is set (10 R257). -/
def setPool (d : Die) (g : Region) : Region :=
  let w := effCcyc d g.rcb.rid
  { g with pool := if w = 2 ^ 64 - 1 then none else some w, poolAt := d.clock }

/-- A region's pool is set again at a multiple of its period (10 R257). -/
def budgetPeriod (d r : Nat) (s : State) : State :=
  let dd := getDie s d
  match region? dd r with
  | none => s
  | some g =>
    if !poolDue dd g then s else
    let s := modDie d (modRegion r (setPool dd)) s
    if effCcyc dd r = 0 then exhaust d r s else s

/-- `BUDGET_PERIOD` (R257) -/
def execBudgetPeriod (d r : Nat) (s : State) : Result := .next (onDie d s (budgetPeriod d r s))

/-- `BUDGET_EXHAUSTED` (R258) -/
def execBudgetExhausted (d r : Nat) (s : State) : Result :=
  .next (onDie d s (if ((region? (getDie s d) r).bind (·.pool)) = some 0 then exhaust d r s else s))

/-- `PREEMPTION` (R258) -/
def execPreemption (c : Nat) (s : State) : Result :=
  .next (onDie (dieOf c) s (if (getCtx s c).marked && (getCtx s c).status == .active then preempt c s else s))

/-- A context is still blocked on its bundle when that is tried now: how, and the state of the try (10 R256). -/
def stillBlocked (c : Nat) (s : State) : Option (BlockKind × State) :=
  if (getCtx s c).block.isNone then none else
  match attempt c s with
  | (false, t) => (getCtx t c).block.map fun b => (b.1, t)
  | (true, _) => none

/-- The watchdog of a blocked bundle; a context whose condition holds is ready and no longer blocked (10 R242, R256). -/
def watchdog (c : Nat) (s : State) : State :=
  let w := effWdog (getDie s (dieOf c)) (ridOf s c)
  match stillBlocked c s with
  | some (.watched, t) => if w ≠ 0 && decide (w * 1024 < blockedFor t c) then preciseFault c 0x0B 0 0#64 s else s
  | _ => s

/-- `WATCHDOG_EXPIRY` (R256) -/
def execWatchdogExpiry (c : Nat) (s : State) : Result := .next (onDie (dieOf c) s (watchdog c s))

/-- FRECV_TIMEOUT: an FRECV that is still blocked raises 0x10 at its bundle and takes no message (10 R242; 11 R280).
DESIGN CHOICE, log 79. -/
def recvTimeout (c : Nat) (s : State) : State :=
  match stillBlocked c s with
  | some (.frecv, _) => preciseFault c 0x10 0 0#64 s
  | _ => s

/-- `FRECV_TIMEOUT` (R280) -/
def execFrecvTimeout (c : Nat) (s : State) : Result := .next (onDie (dieOf c) s (recvTimeout c s))

/-- A delivered fault is taken at the boundary before the bundle at the PC (14 R329, R331, R332). -/
def takeFault (c : Nat) (s : State) : State :=
  let x := getCtx s c
  if x.status != .active || waitsTiles x then s else
  match x.faults1 with
  | f :: fs => unhandled c f.code f.addr (modCtx c (fun y => { y with faults1 := fs }) s)
  | [] =>
    if x.level = 1 then s else
    match x.faults with
    | f :: fs => trapEntry c f.code f.addr (modCtx c (fun y => { putOff y with faults := fs }) s)
    | [] => s

/-- `TRAP_ENTRY` (R332) -/
def execTrapEntry (c : Nat) (s : State) : Result := .next (onDie (dieOf c) s (takeFault c s))

end Sys2Proof.Machine
end

