-- ==== Sys2Proof/Machine/Firmware.lean ====
section
/-!
DEFINITION. The requests to firmware: regions, kernels, records, vectors, tables, keys, frames, attestation and the
service rings (spec 10 R243 to R246; 02 R28 to R33, R383; 13 R314, R319, R322; 11 R265, R266, R283; 12 R288; 14 R331,
R343, R347; 15 R354 to R359).
-/

namespace Sys2Proof.Machine

open Sys2Proof

/-- What firmware answers to a request (15 R357): STATUS, result, what it writes at PTR, and the state after it. -/
structure Answer where
  status : Nat
  result : Word := 0#64
  report : List Byte := []
  state  : State
  /-- its effect comes later: a route table that waits for its slot boundary (11 R266; 15 R358) -/
  later  : Bool := false

def doneWith (s : State) : Answer := { status := 0, state := s }
def refuse (n : Nat) (s : State) : Answer := { status := n, state := s }

/-- Where a supervisor may make a request: in its own domain, or only for strict descendants of its top region (15 R357). -/
inductive Permit | domain | below
  deriving DecidableEq, Repr

/-- A supervisor's request is permitted (15 R357): `at_` is the region that must lie in its tree.
DEDUCED, log 68. -/
def permitted (d : Die) (t : Nat) (p : Permit) (rid at_ : Nat) : Bool :=
  match p with
  | .domain => inSubtree d t at_
  | .below => inSubtree d t at_ && rid != t

/-- The region named exists, or STATUS 3. -/
def withRegion (q : Req) (k : Region → State → Answer) (s : State) : Answer :=
  match region? (getDie s q.die) q.rid with
  | some g => k g s
  | none => refuse 3 s

def isTop (g : Region) : Bool := g.rcb.parent == 0

/-- The region named is a top region, or STATUS 3. -/
def withTop (q : Req) (k : Region → State → Answer) (s : State) : Answer :=
  withRegion q (fun g s => if isTop g then k g s else refuse 3 s) s

/-- Change the region named. -/
def onRegion (q : Req) (f : Region → Region) (s : State) : State := modDie q.die (modRegion q.rid f) s

/-! Regions -/

/-- A region control block as fields (10 R244). -/
def rcbOf (b : BitVec 2048) : Rcb :=
  { rid := bitsN b 11 0, fdom := bitsN b 27 16, parent := bitsN b 43 32, prio := bitsN b 55 52, depth := bitsN b 59 56
    cores := BitVec.ofNat 64 (bitsN b 127 64), ccyc := bitsN b 191 128, agelim := bitsN b 223 192
    period := bitsN b 255 224, rtmo := bitsN b 287 256, wdog := bitsN b 319 288, pinb := bitsN b 351 320
    fshare := bitsN b 383 352, maxctx := bitsN b 399 384, qlog := bitsN b 404 400, agrp := bitsN b 431 416
    ovr := bitsN b 447 432 }

/-- The reserved bits of a control block are zero (10 R244). -/
def rcbReservedOk (b : BitVec 2048) : Bool :=
  bitsN b 2047 448 == 0 && bitsN b 447 444 == 0 && bitsN b 415 405 == 0 && bitsN b 63 60 == 0 && bitsN b 51 44 == 0
    && bitsN b 31 28 == 0 && bitsN b 15 12 == 0

/-- Every field is in its range (10 R243, R244). -/
def rcbRangesOk (r : Rcb) : Bool :=
  r.rid != 0 && decide (1 ≤ r.depth) && decide (r.depth ≤ 7) && decide (r.maxctx ≤ 256) && decide (r.pinb ≤ 2097152)
    && decide (65536 ≤ r.period) && decide (1 ≤ r.agelim) && decide (6 ≤ r.qlog) && decide (r.qlog ≤ 20)
    && decide (r.agrp ≤ 1024)

/-- An override does not exceed the parent's effective value (10 R245). -/
def within (r : Rcb) (b own parent : Nat) : Bool := !r.ovr.testBit b || decide (own ≤ parent)

/-- The control block suits its place in the tree (10 R245). -/
def rcbPlaceOk (d : Die) (r : Rcb) : Bool :=
  if r.parent = 0 then r.ovr % 4096 == 4095 && r.depth == 1 && r.fdom == r.rid
  else match region? d r.parent with
    | none => false
    | some p =>
      r.depth == p.rcb.depth + 1 && (r.fdom == r.rid || (r.fdom != 0 && (ancestry d r.parent).contains r.fdom))
        && within r 0 r.prio (effPrio d r.parent) && within r 10 r.maxctx (effMaxctx d r.parent)
        && within r 8 r.pinb (effPinb d r.parent) && within r 7 r.fshare (effFshare d r.parent)
        && within r 9 r.agrp (effAgrp d r.parent) && within r 3 r.ccyc (effCcyc d r.parent)
        && (r.cores &&& ~~~(effCores d r.parent)) == 0#64

def rcbOk (d : Die) (b : BitVec 2048) : Bool := rcbReservedOk b && rcbRangesOk (rcbOf b) && rcbPlaceOk d (rcbOf b)

/-- A region as firmware creates it: a top region has its measurement register and its arrival counters
(11 R281; 15 R354). -/
def newRegion (b : BitVec 2048) : Region :=
  let r := rcbOf b
  let g : Region := { rcb := r }
  if r.parent = 0 then { g with rm := extend 0#384 (bytesOf 256 b.toNat), counters := List.replicate 256 {} } else g

/-- Create a region (10 R243, R245). DEDUCED, log 60. DESIGN CHOICE, log 73. -/
def createRegion (q : Req) (b : BitVec 2048) (s : State) : Answer :=
  let d := getDie s q.die
  if (rcbOf b).rid != q.rid || (region? d q.rid).isSome || !rcbOk d b then refuse 3 s
  else doneWith (modDie q.die (fun x => { x with regions := x.regions ++ [newRegion b] }) s)

/-- Before control blocks of a die change: the levels that its queued records have reached are kept, and pools that are due are
set (10 R257, R259). -/
def keepLevels (d : Die) : Die :=
  { d with
    queue := d.queue.map fun q => { q with floor := levelNow d q }
    regions := d.regions.map fun g => if poolDue d g then setPool d g else { g with poolAt := d.clock } }

/-- Change a region; its place in the tree stays (10 R245). DEDUCED, log 60. -/
def changeRegion (q : Req) (b : BitVec 2048) (s : State) : Answer :=
  withRegion q (fun g s =>
    let r := rcbOf b
    if r.rid != q.rid || r.parent != g.rcb.parent || !rcbOk (getDie s q.die) b then refuse 3 s
    else doneWith (onRegion q (fun g => { g with rcb := r }) (modDie q.die keepLevels s))) s

/-- Make a region runnable: its pool is set, and the rank of a program of which nothing runs yet (10 R257; 01 R18). -/
def makeRunnable (q : Req) (s : State) : Answer :=
  withRegion q (fun _ s =>
    let d := getDie s q.die
    let w := effCcyc d q.rid
    doneWith (onRegion q (fun g => { g with
      runnable := true
      pool := if w = 2 ^ 64 - 1 then none else some w
      poolSince := d.clock }) (launchRank q.die (topOf d q.rid) s))) s

/-! Destroying a region -/

/-- What a context or a saved context of a destroyed region has under way goes. DESIGN CHOICE, log 61. -/
def dropCommands (d c : Nat) (s : State) : State :=
  let s := { s with
    cores := s.cores.map fun k => { k with copies := k.copies.filter fun m => m.ctx != c }
    ports := s.ports.map fun p => { p with orders := p.orders.filter fun o => o.2.2.1 != c } }
  modDie d (fun x => { x with
    eddy := x.eddy.filter fun e => e.ctx != c
    colls := x.colls.filter fun e => e.ctx != c
    barriers := x.barriers.filter fun e => e.ctx != c
    ckpts := x.ckpts.filter fun e => e.ctx != c
    sendq := x.sendq.filter fun e => e.ctx != c
    regions := x.regions.map fun g => { g with counters := g.counters.map fun t =>
      match t.armed with
      | some a => if a.1 = c then { t with armed := none, owed := 0 } else t
      | none => t } }) s

/-- A context of a destroyed region loses its record and is idle. DESIGN CHOICE, log 61. -/
def dropContext (d c : Nat) (s : State) : State :=
  let s := foldS (fun w s => closePin c w s) (List.range 8) s
  let s := dropCommands d c (releaseMx c (unwait c s))
  stopIssuing c (modCtx c (fun x => { Ctx.init with nextId := x.nextId }) s)

/-- A slice's direct part charged to a destroyed region reads zero and is given up. -/
def freeSlice (gone : Nat → Bool) (n : Nat) (d : Die) : Die :=
  let sl := d.slices.getD n {}
  if directSteps sl = 0 || !gone sl.owner then d else
  let inside (a : Nat) : Bool := decide (directBase + n * 2097152 ≤ a) && decide (a < directBase + (n + 1) * 2097152)
  { d with
    slices := d.slices.set n {}
    mem := d.mem.filter fun e => !inside e.1
    poison := d.poison.filter fun a => !inside a
    unseen := dropUnseen (directBase + n * 2097152) (directBase + (n + 1) * 2097152) d.unseen }

/-- The LIVE slots of a domain are killed (13 R319). -/
def killDomain (d top : Nat) (s : State) : State :=
  foldS (fun n s =>
    let k := s.keys.getD n {}
    if k.state == .live && k.die == d && k.top == top then killKey d n s else s) (List.range s.keys.length) s

/-- Destroy a region with its subtree (10 R243; 02 R383; 13 R319; 15 R359). DESIGN CHOICE, log 61. -/
def destroyRegion (q : Req) (s : State) : Answer :=
  withRegion q (fun g s =>
    let d := q.die
    let dd := getDie s d
    let gone (r : Nat) : Bool := inSubtree dd q.rid r
    let mine (x : Ctx) : Bool := match x.record with | some r => gone r.rid | none => false
    let cs := ((List.range 256).map (· + 256 * d)).filter fun c => mine (getCtx s c)
    let shadows := (s.saved.filter fun e => e.1 % 4 == d && mine e.2).map (·.1)
    let s := foldS (fun c s => dropContext d c s) cs s
    let s := foldS (fun c s => dropCommands d c s) shadows s
    let s := { s with
      saved := s.saved.filter fun e => !shadows.contains e.1
      cores := s.cores.zipIdx.map fun k =>
        if k.2 / 64 = d then { k.1 with kernels := k.1.kernels.filter fun n => !gone n.rid } else k.1 }
    let s := if isTop g then killDomain d q.rid s else s
    let s := dropTlb d (fun e => gone e.top) s
    doneWith (modDie d (fun x =>
      let x := (List.range 64).foldl (fun y n => freeSlice gone n y) x
      { x with
        regions := x.regions.filter fun r => !gone r.rcb.rid
        queue := x.queue.filter fun r => !gone r.rid
        occ := x.occ.filter fun e => !gone e.1
        upper := x.upper.filter fun e => !gone e.top
        killing := x.killing.filter fun e => !cs.contains e.2
        waiters := x.waiters.filter fun b => !gone b.top && !cs.contains b.ctx && !shadows.contains b.ctx
        shakes := x.shakes.filter fun k => !gone k.top
        halves := x.halves.filter fun k => !gone k.1.top
        svPeers := x.svPeers.filter fun k => !gone k.top
        past := x.past.filter fun k => !gone k.top
        sendq := x.sendq.filter fun p => !gone p.rid
        decisions := x.decisions.filter fun e => !gone e.top
        dropped := x.dropped.filter fun e => !gone e.1 && !gone e.2.1
        early := x.early.filter fun m => !gone m.top
        flowsIn := x.flowsIn.filter fun f => !gone f.top
        heldPkts := x.heldPkts.filter fun p => !gone p.top
        linkqs := x.linkqs.filter fun l => !gone l.top
        flowSeq := x.flowSeq.filter fun f => !gone f.1
        shares := x.shares.filter fun e => !gone e.1 }) s)) s

/-! Kernels -/

/-- A number of a byte string. -/
def field (image : List Byte) (o n : Nat) : Nat := natOf ((image.drop o).take n)

/-- Dictionary entries of an image (02 R29): 12 syllables each. -/
def dictOf (image : List Byte) (off : Nat) : Nat → List (List (BitVec 32))
  | 0 => []
  | n + 1 => ((List.range 12).map fun i => BitVec.ofNat 32 (field image (off + 4 * i) 4)) :: dictOf image (off + 48) n

/-- The kernel that an image gives (02 R28, R32). -/
def kernelOf (image : List Byte) (kid rid : Nat) (vbase : Word) : Kernel :=
  { kid := kid, rid := rid
    dict := dictOf image (field image 16 8) (field image 8 4)
    base := vbase + BitVec.ofNat 64 (field image 24 8), codelen := field image 12 4
    lat := (List.range 16).map fun i => field image (48 + i) 1
    scale := (image.drop 32).take 16 }

/-- The cores of a die that a mask names, numbered through the package. -/
def coresOf (d : Nat) (mask : Word) : List Nat := ((List.range 64).filter (bit mask)).map (· + 64 * d)

/-- The SCALE table of the kernels bound to a core (02 R31). -/
def boundScale (k : Core) : Option (List Byte) := k.kernels.head?.map (·.scale)

/-- A range of an image holds the bytes of a table. -/
def inImage (image : List Byte) (off len : Nat) : Bool := off % 64 == 0 && decide (off + len ≤ image.length)

/-- The status of a bind request (02 R30): the lowest of the failing conditions. DEDUCED, log 62. -/
def bindStatus (s : State) (d : Nat) (image : List Byte) (kid : Nat) (mask vbase : Word) : Nat :=
  let cores := (coresOf d mask).map (getCore s)
  let dl := field image 8 4
  let cl := field image 12 4
  if field image 0 4 != 0x77340B1E || field image 4 2 != 1 then 1
  else if dl == 0 || decide (8192 < dl) || cl == 0 || decide (16777216 < cl) || !inImage image (field image 16 8) (48 * dl)
    || !inImage image (field image 24 8) (2 * cl) || vbase.toNat % 64 != 0
    || cores.any (fun k => decide (8192 < dl + (k.kernels.map (·.dict.length)).foldl (· + ·) 0)) then 2
  else if (List.range 16).any (fun i => field image (48 + i) 1 == 0) || field image 56 1 != 2 then 3
  else if field image 6 2 != 0 || ((image.drop 64).take 64).any (· != 0#8) then 4
  else if cores.any (fun k => match boundScale k with | some t => t != (image.drop 32).take 16 | none => false) then 5
  else if cores.any (fun k => decide (16 ≤ k.kernels.length)) then 6
  else if cores.any (fun k => (kernel? k kid).isSome) then 7 else 0

/-- Load a kernel on a core (02 R31, R383). -/
def loadKernel (n : Kernel) (k : Core) : Core :=
  { k with
    scale := if k.kernels.isEmpty then n.scale else k.scale
    kernels := k.kernels ++ [n]
    fetched := k.fetched.filter fun e => e.1 / 2 ^ 25 != n.kid }

/-- Bind a kernel on every core of a mask or on none; a bind that fails leaves the region not runnable (02 R30, R383; 15 R354). DEDUCED, log 62. -/
def bindKernel (q : Req) (image : List Byte) (kid : Nat) (mask vbase : Word) (s : State) : Answer :=
  withRegion q (fun _ s =>
    if 16 ≤ kid then refuse 3 (stopRegion q.die q.rid s) else
    match bindStatus s q.die image kid mask vbase with
    | 0 =>
      let n := kernelOf image kid q.rid vbase
      let s := foldS (fun k s => modCore k (loadKernel n) s) (coresOf q.die mask) s
      { status := 0x10
        state := modDie q.die (fun d => modRegion (topOf d q.rid) (fun g => { g with rm := extend g.rm image }) d) s }
    | f => refuse (0x10 + f) (stopRegion q.die q.rid s)) s

/-! Records -/

/-- Push records until one finds no place (10 R248, R250, R260): the STATUS and the die. DEDUCED, log 63. -/
def pushAll (top : Nat) : List (BitVec 256) → Die → Nat × Die
  | [], d => (0, d)
  | r :: rs, d =>
    let rid := bitsN r 251 240
    let lvl := min (bitsN r 239 236) (effPrio d rid)
    if !recordReservedOk r || bitsN r 127 64 % 64 ≠ 0 || bitsN r 191 128 % 4 ≠ 0 || !inSubtree d top rid then (3, d)
    else if 2 ^ effQlog d rid ≤ occOf d rid lvl then (4, d)
    else pushAll top rs (occAdd rid lvl true { d with queue := d.queue ++
      [{ bits := r, rid := rid, level := lvl, enq := d.clock, order := (1, 0) }] })

/-- Push the records of a request, all or none. DEDUCED, log 63. -/
def pushRecords (q : Req) (recs : List (BitVec 256)) (s : State) : Answer :=
  withRegion q (fun _ s =>
    match pushAll q.rid recs (getDie s q.die) with
    | (0, d) => doneWith (modDie q.die (fun _ => d) s)
    | (n, _) => refuse n s) s

/-! Vectors, breakpoints, tables -/

/-- The handler vector of a region (14 R331). -/
def setVector (q : Req) (kid entry : Nat) (s : State) : Answer :=
  withRegion q (fun _ s =>
    if 16 ≤ kid || 2 ^ 24 ≤ entry then refuse 3 s
    else doneWith (onRegion q (fun g => { g with vector := some (kid, entry) }) s)) s

/-- A breakpoint of a region (14 R343). -/
def setBreak (q : Req) (num kid pc : Nat) (en : Bool) (s : State) : Answer :=
  withRegion q (fun _ s =>
    if 4 ≤ num || 16 ≤ kid || 2 ^ 24 ≤ pc then refuse 3 s
    else doneWith (onRegion q (fun g => { g with breaks := g.breaks.set num (if en then some (kid, pc) else none) }) s)) s

/-- A route table is written and waits for its installation (11 R265, R266). A table is refused while another waits.
DEDUCED, log 65. -/
def writeRoutes (q : Req) (ents : List Word) (ver : Nat) (s : State) : Answer :=
  withTop q (fun g s =>
    let first := g.routes.isEmpty
    if ents.length ≠ 1024 || 65536 ≤ ver || g.nextRoutes.isSome || (!first && ver != (g.ver + 1) % 65536) then refuse 3 s
    else { status := 0, later := true
           state := onRegion q (fun g => { g with nextRoutes := some (ents.map cleanRoute, ver) }) s }) s

/-- An entry of the group table is defined anew: GEN rises and the sequence number is zero; what was decided under the old
GEN is no round of the new one (12 R288, R289, R306).
DEDUCED, log 66. -/
def writeGroup (q : Req) (gid : Nat) (ent : Word) (ranks : List Nat) (s : State) : Answer :=
  withRegion q (fun _ s =>
    let top := topOf (getDie s q.die) q.rid
    let n := bitsN ent 10 0
    let valid := bit ent 47
    if 1024 ≤ gid || bitsN ent 46 42 ≠ 0 || bitsN ent 31 11 ≠ 0 then refuse 3 s
    else if valid && (n == 0 || decide (1024 < n) || ranks.length != n || decide (n ≤ bitsN ent 41 32)
      || ranks.any fun r => decide (1024 ≤ r)) then refuse 3 s
    else
      let put (g : Region) : Region :=
        let old := g.groups.find? fun e => e.gid == gid
        let gen := (old.map (·.gen)).getD 0
        let e : Group := if valid then
            { gid := gid, gen := (gen + 1) % 65536, valid := true, self := bitsN ent 41 32, ranks := ranks }
          else { gid := gid, gen := gen, valid := false, self := 0, ranks := [] }
        { g with groups := e :: g.groups.filter fun e => e.gid != gid }
      doneWith (modDie q.die (fun x => { modRegion top put x with
        decisions := x.decisions.filter fun e => !(e.top == top && e.gid == gid)
        past := x.past.filter fun e => !(e.top == top && e.gid == gid) }) s)) s

/-! Keys, page tables, frames -/

/-- Assign a FREE slot to a tenant domain (13 R319). -/
def assignSlot (q : Req) (slot : Nat) (s : State) : Answer :=
  withTop q (fun _ s =>
    if s.keys.length ≤ slot || (s.keys.getD slot {}).state != .free then refuse 3 s
    else doneWith { s with keys := s.keys.modify slot fun k =>
      { k with state := .assigned, link := false, die := q.die, top := q.rid } }) s

/-- Reclaim an ASSIGNED slot (13 R319). -/
def reclaimSlot (slot : Nat) (s : State) : Answer :=
  if s.keys.length ≤ slot || (s.keys.getD slot {}).state != .assigned then refuse 3 s
  else doneWith { s with keys := s.keys.modify slot fun k => { k with state := .free, die := 0, top := 0 } }

/-- The root of a domain's page table (13 R314): a level-3 table is aligned to 4 KiB. -/
def setRoot (q : Req) (root : Word) (s : State) : Answer :=
  withTop q (fun _ s =>
    if root.toNat % 4096 ≠ 0 || 48 * 2 ^ 30 ≤ root.toNat then refuse 3 s
    else doneWith (onRegion q (fun g => { g with root := some root.toNat }) s)) s

/-- A new owner of a frame is allowed (13 R322). -/
def ownerOk (s : State) (d : Nat) (kind : FrameKind) (frame : Nat) (new : Owner) : Bool :=
  let dd := getDie s d
  let old := frameOwnerOf dd kind frame
  match kind, new with
  | .dram, .free => decide (frame < 786432) && (match old with
    | .region0 => true
    | .top t => (region? dd t).isNone
    | _ => false)
  | .dram, .region0 => decide (frame < 786432) && old == .free
  | .dram, .top t => decide (frame < 786432) && old == .free && ((region? dd t).map isTop).getD false
  | .scratch, .slot n => decide (frame < 2048) && old == .free && decide (n < s.keys.length)
  | _, _ => false

/-- Give a frame an owner (13 R322). -/
def setOwner (q : Req) (kind : FrameKind) (frame : Nat) (owner : Owner) (s : State) : Answer :=
  if !ownerOk s q.die kind frame owner then refuse 3 s
  else doneWith (modDie q.die (fun d =>
    let d := leaveBank (fun b => kind == .scratch && (b.seg.pa - scratchBase) / 65536 == frame) d
    let others := d.frames.filter fun e => !(e.1 == kind && e.2.1 == frame)
    { d with frames := if owner == .free then others else (kind, frame, owner) :: others }) s)

/-- A new allotment holds no image (14 R347). -/
def setAllotment (q : Req) (size : Nat) (s : State) : Answer :=
  withTop q (fun g s =>
    let total := ((getDie s q.die).regions.map (·.allotment)).foldl (· + ·) 0 - g.allotment
    if size % 262144 ≠ 0 || 15 * 2 ^ 30 < size then refuse 3 s
    else if 15 * 2 ^ 30 < total + size then refuse 4 s
    else doneWith (onRegion q (fun g => { g with allotment := size, curGen := 0, images := [] }) s)) s

/-! Reports -/

/-- Bytes 0 to 2,143 of an attestation report (15 R355). DEDUCED, log 67. -/
def reportBody (s : State) (d rid : Nat) (rm : BitVec 384) (nonce : BitVec 256) : List Byte :=
  bytesOf 4 1 ++ bytesOf 4 0 ++ bytesOf 32 nonce.toNat ++ bytesOf 48 s.mr0.toNat ++ bytesOf 48 s.mr1.toNat ++
  bytesOf 48 rm.toNat ++ bytesOf 8 (d + rid * 4096) ++ (List.range 1952).map Config.identityKey

/-- The attestation of a region (15 R355): RM is that of its top region. DEDUCED, log 67. -/
def attestOf (q : Req) (nonce : BitVec 256) (s : State) : Answer :=
  withRegion q (fun _ s =>
    let d := getDie s q.die
    let rm := ((region? d (topOf d q.rid)).map (·.rm)).getD 0#384
    let body := reportBody s q.die q.rid rm nonce
    { status := 0, report := body ++ (List.range 3309).map (Config.signature body), state := s }) s

/-- A ring's status register (11 R283). -/
def ringWord (r : MicroRing) : Word :=
  BitVec.ofNat 64 (r.spare % 256 * 2 ^ 40 + (if r.sat then 2 ^ 39 else 0) + (if r.lock then 2 ^ 38 else 0) +
    r.mpd % 4096 * 2 ^ 24 + r.heat % 4096)

/-- The status of a ring goes to PTR (15 R357). DESIGN CHOICE, log 44. -/
def readRing (ring : Nat) (s : State) : Answer :=
  match s.rings[ring]? with
  | some r => { status := 0, report := bytesOf 8 (ringWord r).toNat, state := s }
  | none => refuse 3 s

/-! Service rings -/

/-- The page of a service ring: a 64 KiB DRAM leaf with R and W (15 R359). -/
def ringPageOk (d top : Nat) (va : Word) (s : State) : Bool :=
  match (walk d top va.toNat s).1 with
  | .ok lf => lf.size == 65536 && lf.vbase == va.toNat && leafKind lf.entry == 0 && leafR lf.entry && leafW lf.entry
  | .error _ => false

/-- Register a service ring (15 R359). -/
def registerRing (q : Req) (va : Word) (s : State) : Answer :=
  withTop q (fun g s =>
    if g.serviceRing.isSome then refuse 4 s
    else if !ringPageOk q.die q.rid va s then refuse 3 s
    else doneWith (onRegion q (fun g => { g with serviceRing := some va }) s)) s

/-- Withdraw a service ring (15 R359). -/
def withdrawRing (q : Req) (s : State) : Answer :=
  withTop q (fun g s =>
    if g.serviceRing.isNone then refuse 3 s
    else doneWith (onRegion q (fun g => { g with serviceRing := none }) s)) s

/-- Read bytes of a domain on the BK path as strong reads do, none where a page faults or a byte is poisoned (15 R359). -/
def readVa (d top : Nat) (va : Word) (n : Nat) (s : State) : Option (List Byte) × State :=
  match checkRun d top { r := true } va n s with
  | (.error _, s) => (none, s)
  | (.ok segs, s) =>
    match readSegsBy 8 d .bk 0 false segs s with
    | (bs, none, s) => (some bs, s)
    | (_, some _, s) => (none, s)

/-- Write bytes of a domain on the BK path where its pages allow it. -/
def writeVa (d top : Nat) (va : Word) (bs : List Byte) (s : State) : State :=
  match checkRun d top { w := true } va bs.length s with
  | (.ok segs, s) => writeSegs d .bk 0 0 false segs bs s
  | (.error _, s) => s

/-- A request whose argument block lies at PTR in the domain's memory. -/
def withBlock (d top : Nat) (q : Req) (n : Nat) (k : List Byte → State → Answer) (s : State) : Answer :=
  match readVa d top q.ptr n s with
  | (some bs, s) => k bs s
  | (none, s) => refuse 3 s

/-- A request of a supervisor that is permitted for a region. -/
def asSup (d : Nat) (t : Nat) (p : Permit) (q : Req) (at_ : Nat) (body : State → Answer) (s : State) : Answer :=
  if permitted (getDie s d) t p q.rid at_ then body s else refuse 2 s

/-- The ranks of a list of 16-bit words. DEDUCED, log 66. -/
def ranksOf : Nat → List Byte → List Nat
  | 0, _ => []
  | n + 1, bs => natOf (bs.take 2) :: ranksOf n (bs.drop 2)

/-- The request of a ring entry (15 R357): the answer to it. An unknown OPC or a nonzero reserved field comes first, then
the permission, then the arguments. Inline arguments are words from byte 16 on.
DEDUCED, log 68. -/
def ringRequest (d top : Nat) (e : List Byte) (s : State) : Answer :=
  let h := field e 0 8
  let arg (n : Nat) : Nat := field e (16 + 8 * n) 8
  let q : Req := { die := d, rid := nbits h 48 12, tag := nbits h 16 16, sup := some top, rsv := false
                   ptr := BitVec.ofNat 64 (field e 8 8) }
  let opc := nbits h 0 8
  if nbits h 60 4 ≠ 0 || nbits h 34 14 ≠ 0 || nbits h 8 8 ≠ 0 || opc = 0 || decide (0x11 < opc) then refuse 1 s
  else if nbits h 32 2 ≠ d then refuse 2 s
  else match opc with
    | 0x01 =>
      if q.rid = top then refuse 2 s else
      withBlock d top q 256 (fun b s =>
        let r := BitVec.ofNat 2048 (natOf b)
        asSup d top .below q (rcbOf r).parent (createRegion q r) s) s
    | 0x02 => asSup d top .below q q.rid (withBlock d top q 256 fun b s => changeRegion q (BitVec.ofNat 2048 (natOf b)) s) s
    | 0x03 => asSup d top .domain q q.rid (makeRunnable q) s
    | 0x04 => asSup d top .domain q q.rid (withRegion q fun _ s => doneWith (stopRegion d q.rid s)) s
    | 0x05 => asSup d top .below q q.rid (destroyRegion q) s
    | 0x08 => asSup d top .domain q q.rid (setVector q (arg 0) (arg 1)) s
    | 0x09 => asSup d top .domain q q.rid (setBreak q (arg 0) (arg 1) (arg 2) (arg 3 % 2 == 1)) s
    | 0x0B => asSup d top .domain q q.rid (withBlock d top q 8 fun b s =>
        let w := wordOf b
        let n := min (bitsN w 10 0) 1024
        withBlock d top q (8 + 2 * n) (fun b s => writeGroup q (arg 0) w (ranksOf n (b.drop 8)) s) s) s
    | 0x0F => asSup d top .domain q q.rid (attestOf q (BitVec.ofNat 256 (field e 16 32))) s
    | _ => refuse 2 s

/-! The request engine -/

/-- The entry of a service ring that the engine takes next: its address, its bytes, the consumer word (15 R359). -/
def ringEntry (d top : Nat) (s : State) : Option (Word × List Byte × Nat) × State :=
  match (region? (getDie s d) top).bind (·.serviceRing) with
  | none => (none, s)
  | some va =>
    match readVa d top va 16 s with
    | (none, s) => (none, s)
    | (some w, s) =>
      let cons := field w 8 8
      if field w 0 8 = cons then (none, s) else
      let at_ := va + BitVec.ofNat 64 (64 + 64 * (cons % 1023))
      match readVa d top at_ 64 s with
      | (none, s) => (none, s)
      | (some e, s) => (some (at_, e, cons), s)

/-- The rings that the engine serves, each by its die and top region: those of the dies that run. -/
def ringsOf (s : State) : List (Nat × Nat) :=
  ((List.range 4).filter fun d => !(getDie s d).inReset && !(getDie s d).tripped).flatMap fun d => ((getDie s d).regions.filter fun g => g.serviceRing.isSome).map fun g => (d, g.rcb.rid)

/-- A source has a request that the engine can take. -/
def sourceWaits (s : State) : Option (Nat × Nat) → Bool
  | none => hostWaits s
  | some r => (ringEntry r.1 r.2 s).1.isSome

/-- The sources in the order of their turns, the one after the last served first (15 R358). -/
def turns (s : State) : List (Option (Nat × Nat)) :=
  let all := none :: (ringsOf s).map some
  let n := ((all.findIdx? (· == s.served)).map (· + 1)).getD 0
  all.drop n ++ all.take n

/-- The engine serves a source: it has completed the request before, and no other source with a request comes before it
round-robin (15 R358). -/
def mayServe (s : State) (src : Option (Nat × Nat)) : Bool :=
  fwUp s && s.openReq.isNone && (turns s).find? (sourceWaits s) == some src

/-- The engine takes the next entry of a service ring, if there is one and it is the ring's turn: the completion goes to
bytes 48 to 63 of the entry, and the consumer word steps (15 R358, R359). DEDUCED, log 68. -/
def pollRing (d top : Nat) (s : State) : State :=
  if !mayServe s (some (d, top)) then s else
  match ringEntry d top s with
  | (none, s) => s
  | (some (at_, e, cons), s) =>
    let va := ((region? (getDie s d) top).bind (·.serviceRing)).getD 0#64
    let a := ringRequest d top e s
    let tag := nbits (field e 0 8) 16 16
    let s := if a.report.isEmpty then a.state else writeVa d top (BitVec.ofNat 64 (field e 8 8)) a.report a.state
    let s := writeVa d top (at_ + 48#64) (completionBytes tag a.status a.result) s
    let s := writeVa d top (va + 8#64) (bytesOf 8 (cons + 1)) s
    { s with
      served := some (d, top)
      completions := s.completions ++ [{ sup := some top, tag := tag, status := a.status, result := a.result, report := a.report }] }

/-- The engine's answer to a request of the host: its completion, or the request stays under way (15 R357, R358). -/
def complete (q : Req) (a : Answer) : State :=
  let s := { a.state with served := none }
  if a.later then { s with openReq := some q } else writeCompletion q a.status a.result a.report s

/-- The ring's next entry is the request named, by its OPC, RID and TAG. -/
def entryIs (opc : Nat) (q : Req) (t : Nat) (s : State) : Bool :=
  match (ringEntry q.die t s).1 with
  | some (_, e, _) =>
    let h := field e 0 8
    nbits h 0 8 == opc && nbits h 48 12 == q.rid && nbits h 16 16 == q.tag
  | none => false

/-- The engine takes one request (15 R357, R358): from the host queue when that is the host's turn; the request of a
supervisor is the next entry of its ring, which says all of it. DEDUCED, log 68. -/
def serveReq (opc : Nat) (q : Req) (body : State → Answer) (s : State) : State :=
  match q.sup with
  | none => if !mayServe s none then s else if q.rsv then complete q (refuse 1 s) else complete q (body s)
  | some t => if entryIs opc q t s then pollRing q.die t s else s

/-! The requests -/

/-- `CREATE_REGION` (R245) -/
def execCreateRegion (q : Req) (rcb : BitVec 2048) (s : State) : Result :=
  .next (serveReq 0x01 q (createRegion q rcb) s)

/-- `CHANGE_REGION` (R245) -/
def execChangeRegion (q : Req) (rcb : BitVec 2048) (s : State) : Result :=
  .next (serveReq 0x02 q (changeRegion q rcb) s)

/-- `MAKE_RUNNABLE` (R357) -/
def execMakeRunnable (q : Req) (s : State) : Result := .next (serveReq 0x03 q (makeRunnable q) s)

/-- `MAKE_NOT_RUNNABLE` (R258) -/
def execMakeNotRunnable (q : Req) (s : State) : Result :=
  .next (serveReq 0x04 q (withRegion q fun _ s => doneWith (stopRegion q.die q.rid s)) s)

/-- `DESTROY_REGION` (R357) -/
def execDestroyRegion (q : Req) (s : State) : Result := .next (serveReq 0x05 q (destroyRegion q) s)

/-- `BIND_KERNEL` (R30) -/
def execBindKernel (q : Req) (image : List Byte) (kid : Nat) (mask vbase : Word) (s : State) : Result :=
  .next (serveReq 0x06 q (bindKernel q image kid mask vbase) s)

/-- `PUSH_RECORDS` (R357) -/
def execPushRecords (q : Req) (recs : List (BitVec 256)) (s : State) : Result :=
  .next (serveReq 0x07 q (pushRecords q recs) s)

/-- `HANDLER_VECTOR` (R331) -/
def execHandlerVector (q : Req) (kid entry : Nat) (s : State) : Result :=
  .next (serveReq 0x08 q (setVector q kid entry) s)

/-- `BREAKPOINT` (R343) -/
def execBreakpoint (q : Req) (num kid pc : Nat) (en : Bool) (s : State) : Result :=
  .next (serveReq 0x09 q (setBreak q num kid pc en) s)

/-- `ROUTE_TABLE` (R266) -/
def execRouteTable (q : Req) (ents : List Word) (ver : Nat) (s : State) : Result :=
  .next (serveReq 0x0A q (writeRoutes q ents ver) s)

/-- `GROUP_ENTRY` (R288) -/
def execGroupEntry (q : Req) (gid : Nat) (ent : Word) (ranks : List Nat) (s : State) : Result :=
  .next (serveReq 0x0B q (writeGroup q gid ent ranks) s)

/-- `ASSIGN_KEY_SLOT` (R319) -/
def execAssignKeySlot (q : Req) (slot : Nat) (s : State) : Result := .next (serveReq 0x0C q (assignSlot q slot) s)

/-- `RECLAIM_KEY_SLOT` (R319) -/
def execReclaimKeySlot (q : Req) (slot : Nat) (s : State) : Result := .next (serveReq 0x0C q (reclaimSlot slot) s)

/-- `PAGE_TABLE_ROOT` (R314) -/
def execPageTableRoot (q : Req) (root : Word) (s : State) : Result := .next (serveReq 0x0D q (setRoot q root) s)

/-- `FRAME_OWNER` (R322) -/
def execFrameOwner (q : Req) (kind : FrameKind) (frame : Nat) (owner : Owner) (s : State) : Result :=
  .next (serveReq 0x0D q (setOwner q kind frame owner) s)

/-- `CISTERN_ALLOTMENT` (R347) -/
def execCisternAllotment (q : Req) (size : Nat) (s : State) : Result := .next (serveReq 0x0E q (setAllotment q size) s)

/-- `ATTEST` (R355) -/
def execAttest (q : Req) (nonce : BitVec 256) (s : State) : Result := .next (serveReq 0x0F q (attestOf q nonce) s)

/-- `READ_RING_STATUS` (R283) -/
def execReadRingStatus (q : Req) (ring : Nat) (s : State) : Result := .next (serveReq 0x10 q (readRing ring) s)

/-- `REGISTER_SERVICE_RING` (R359) -/
def execRegisterServiceRing (q : Req) (va : Word) (s : State) : Result := .next (serveReq 0x11 q (registerRing q va) s)

/-- `WITHDRAW_SERVICE_RING` (R359) -/
def execWithdrawServiceRing (q : Req) (s : State) : Result := .next (serveReq 0x11 q (withdrawRing q) s)

/-- `SERVICE_RING_POLL` (R359) -/
def execServiceRingPoll (d top : Nat) (s : State) : Result := .next (onDie d s (pollRing d top s))

end Sys2Proof.Machine
end

