-- ==== Sys2Proof/Machine/Boot.lean ====
section
/-!
DEFINITION. Boot, measurement, the host link, reset, power and heat (spec 15 R352 to R356, R360; 13 R326; 11 R283).
-/

namespace Sys2Proof.Machine

open Sys2Proof

/-! Boot -/

/-- The cause of a failed attempt of the boot ROM, 0 for none (15 R352, R356). DEDUCED, log 70. -/
def bootCause (t : BootTry) : Nat :=
  if !t.addrOk then 1 else if !t.fetchOk then 2 else if !t.signatureOk then 3 else if !t.versionOk then 4
  else if !t.lengthOk || decide (67108864 < t.image.length) then 5 else 0

/-- The state in which a die leaves reset (15 R353): DRAM keeps its bytes under the keys that wrote them. -/
def releasedDie (d : Die) : Die :=
  { Die.init with
    inReset := false
    mem := d.mem.filter fun e => isDram e.1
    poison := d.poison.filter isDram
    lineKeys := d.lineKeys }

/-- One attempt of the boot ROM while the dies are held in reset: a failure is recorded, a success measures the
image, runs firmware and releases the dies (15 R352, R354); firmware serves the rotation domain that the fabric manager
fixes (11 R262, R263).
DEDUCED, log 70. DESIGN CHOICE, log 7. -/
def bootTry (t : BootTry) (s : State) : State :=
  match bootCause t with
  | 0 =>
    { s with
      mr0 := extend s.mr0 t.image
      bootstat := BitVec.ofNat 64 (bitsN s.bootstat 15 8 * 256 + 3)
      dies := s.dies.map releasedDie
      pkg := t.pkg, rotN := t.rotN, slotP := t.slotP, guardG := t.guardG
      planes := s.planes.zipIdx.map fun p => { p.1 with active := t.planes.contains p.2 } }
  | c => { s with bootstat := BitVec.ofNat 64 (c * 256) }

/-- The dies are held in reset, the on-die storage is zero, and the rest of the package is as at reset; what the
fabric manager fixes stays, and no key that a slot will hold is one that it has held (13 R319; 15 R352, R353).
DEDUCED, log 69. DEDUCED, log 70. -/
def holdReset (s : State) : State :=
  { State.reset with
    dies := s.dies.map fun d => { releasedDie d with inReset := true }
    keys := s.keys.zipIdx.map fun k =>
      { state := if k.2 = 0 then .live else .free, gen := k.1.gen + 1 }
    pkg := s.pkg, rotN := s.rotN, slotP := s.slotP, guardG := s.guardG
    planes := s.planes.map fun p => { active := p.active }
    light := s.light, acksOut := s.acksOut
    completions := s.completions, dma := s.dma, msix := s.msix, hostEvents := s.hostEvents, reports := s.reports
    cur := s.cur, agenda := s.agenda, tape := s.tape, fresh := s.fresh }

/-- `POWER_ON` (R352) -/
def execPowerOn (t : BootTry) (s : State) : Result := .next (bootTry t (holdReset s))

/-- `BOOT_RETRY` (R352) -/
def execBootRetry (t : BootTry) (s : State) : Result := .next (if fwUp s then s else bootTry t s)

/-! Reset -/

/-- Every LIVE slot is killed (13 R320; 15 R360). DEDUCED, log 69. -/
def killAll (s : State) : State :=
  foldS (fun n s =>
    let k := s.keys.getD n {}
    if k.state == .live then killKey k.die n s else s) (List.range s.keys.length) s

/-- Lines of the basin that no kill has discarded leave in DRAM what the stack held. -/
def dropBasin (d : Die) : Die := { d.basin.foldl dropUnwritten d with basin := [] }

/-- PKGRESET (15 R360). DEDUCED, log 69. -/
def packageReset (s : State) : State :=
  let s := killAll s
  holdReset { s with dies := s.dies.map dropBasin }

/-- `PKGRESET` (R360) -/
def execPkgreset (s : State) : Result := .next (packageReset s)

/-! The host link -/

/-- `HQPROD` (R356) -/
def execHqprod (w : Word) (s : State) : Result := .next { s with hqprod := w }

/-- A write of a BAR0 register (15 R356): BOOTSTAT and HQCONS are read only. -/
def writeBar0 (off : Nat) (w : Word) (s : State) : State :=
  match off with
  | 0x0010 => { s with hqbase := w }
  | 0x0018 => { s with hqsize := w }
  | 0x0020 => { s with hqprod := w }
  | 0x0030 => { s with cqbase := w }
  | 0x0038 => { s with cqsize := w }
  | 0x0100 => if w = 0x7734#64 then packageReset s else s
  | _ => s

/-- `BAR0_REGISTER_WRITE` (R356) -/
def execBar0RegisterWrite (off : Nat) (w : Word) (s : State) : Result := .next (writeBar0 off w s)

/-- `FUNCTION_LEVEL_RESET` (R360): only the host interface. DEDUCED, log 71. -/
def execFunctionLevelReset (s : State) : Result :=
  .next { s with
    hqbase := 0#64, hqsize := 0#64, hqprod := 0#64, hqcons := 0#64, cqbase := 0#64, cqsize := 0#64, cqprod := 0#64 }

/-! Power and heat -/

/-- `CURRENT_LIMIT` (R326) -/
def execCurrentLimit (on : Bool) (s : State) : Result :=
  .next (if on then hostEvent 1 { s with currentLimited := true } else { s with currentLimited := false })

/-- `THERMAL_THROTTLE` (R326) -/
def execThermalThrottle (d : Nat) (on : Bool) (s : State) : Result :=
  .next (onDie d s (if on then hostEvent 1 { s with throttled := true } else { s with throttled := false }))

/-- Ranks of a program that a die stands for in another die's route table. DEDUCED, log 72. -/
def ranksAt (s : State) (d : Nat) (g : Region) : List Nat :=
  (List.range g.routes.length).filter fun r =>
    let e := g.routes.getD r 0#64
    rtValid e && rtPkg e == s.pkg && rtDie e == d

/-- A die stops at its trip point: its peers in the package see its ranks lost (13 R326).
DESIGN CHOICE, log 45. DEDUCED, log 72. -/
def tripDie (d : Nat) (s : State) : State :=
  let s := hostEvent 2 (modDie d (fun x => { x with tripped := true }) s)
  foldS (fun e s =>
    if e = d || (getDie s e).inReset || (getDie s e).tripped then s else
    foldS (fun (g : Region) s => foldS (fun r s => memberLost e g.rcb.rid r s) (ranksAt s d g) s)
      ((getDie s e).regions.filter isTop) s) (List.range 4) s

/-- `THERMAL_TRIP` (R326) -/
def execThermalTrip (d : Nat) (s : State) : Result := .next (onDie d s (tripDie d s))

/-- A heater drive is written, clamped at full scale, where the ring sets SAT (11 R283; 13 R326). -/
def writeHeat (ring heat : Nat) (s : State) : State :=
  { s with rings := s.rings.modify ring fun r =>
      if heat < 4096 then { r with heat := heat } else { r with heat := 4095, sat := true } }

/-- `RING_HEAT_WRITE` (R326) -/
def execRingHeatWrite (ring heat : Nat) (s : State) : Result := .next (writeHeat ring heat s)

end Sys2Proof.Machine
end

