-- ==== Sys2Proof/Machine/Dispatch.lean ====
section
/-!
DEFINITION. exec: one arm for each constructor of Instr, each a direct call of its meaning.
-/

namespace Sys2Proof.Machine

open Sys2Proof

/-- The meaning of one instruction (spec/opcode_table.json). -/
def exec (i : Instr) (s : State) : Host.Outcome State Fault Refusal :=
  match i with
  | .add rd ra rb => Sys2Proof.Machine.execAdd rd ra rb s
  | .sub rd ra rb => Sys2Proof.Machine.execSub rd ra rb s
  | .mul rd ra rb => Sys2Proof.Machine.execMul rd ra rb s
  | .mulh rd ra rb => Sys2Proof.Machine.execMulh rd ra rb s
  | .mulhu rd ra rb => Sys2Proof.Machine.execMulhu rd ra rb s
  | .div rd ra rb => Sys2Proof.Machine.execDiv rd ra rb s
  | .divu rd ra rb => Sys2Proof.Machine.execDivu rd ra rb s
  | .rem rd ra rb => Sys2Proof.Machine.execRem rd ra rb s
  | .remu rd ra rb => Sys2Proof.Machine.execRemu rd ra rb s
  | .and rd ra rb => Sys2Proof.Machine.execAnd rd ra rb s
  | .or rd ra rb => Sys2Proof.Machine.execOr rd ra rb s
  | .xor rd ra rb => Sys2Proof.Machine.execXor rd ra rb s
  | .andn rd ra rb => Sys2Proof.Machine.execAndn rd ra rb s
  | .shl rd ra rb => Sys2Proof.Machine.execShl rd ra rb s
  | .shr rd ra rb => Sys2Proof.Machine.execShr rd ra rb s
  | .sra rd ra rb => Sys2Proof.Machine.execSra rd ra rb s
  | .min rd ra rb => Sys2Proof.Machine.execMin rd ra rb s
  | .max rd ra rb => Sys2Proof.Machine.execMax rd ra rb s
  | .minu rd ra rb => Sys2Proof.Machine.execMinu rd ra rb s
  | .maxu rd ra rb => Sys2Proof.Machine.execMaxu rd ra rb s
  | .cmp cc pd ra rb => Sys2Proof.Machine.execCmp cc pd ra rb s
  | .sel rd ra rb pc => Sys2Proof.Machine.execSel rd ra rb pc s
  | .clz rd ra => Sys2Proof.Machine.execClz rd ra s
  | .ctz rd ra => Sys2Proof.Machine.execCtz rd ra s
  | .popc rd ra => Sys2Proof.Machine.execPopc rd ra s
  | .lea rd ra rb sh => Sys2Proof.Machine.execLea rd ra rb sh s
  | .sext rd ra ew => Sys2Proof.Machine.execSext rd ra ew s
  | .zext rd ra ew => Sys2Proof.Machine.execZext rd ra ew s
  | .addi rd ra imm => Sys2Proof.Machine.execAddi rd ra imm s
  | .andi rd ra imm => Sys2Proof.Machine.execAndi rd ra imm s
  | .ori rd ra imm => Sys2Proof.Machine.execOri rd ra imm s
  | .xori rd ra imm => Sys2Proof.Machine.execXori rd ra imm s
  | .shli rd ra sh => Sys2Proof.Machine.execShli rd ra sh s
  | .shri rd ra sh => Sys2Proof.Machine.execShri rd ra sh s
  | .srai rd ra sh => Sys2Proof.Machine.execSrai rd ra sh s
  | .movi rd imm => Sys2Proof.Machine.execMovi rd imm s
  | .movhi rd hw imm => Sys2Proof.Machine.execMovhi rd hw imm s
  | .br off => Sys2Proof.Machine.execBr off s
  | .brc pc neg off => Sys2Proof.Machine.execBrc pc neg off s
  | .call rd off => Sys2Proof.Machine.execCall rd off s
  | .ret ra => Sys2Proof.Machine.execRet ra s
  | .bktj tbl ra => Sys2Proof.Machine.execBktj tbl ra s
  | .bktset tbl ra => Sys2Proof.Machine.execBktset tbl ra s
  | .waitt ra => Sys2Proof.Machine.execWaitt ra s
  | .waitany ra => Sys2Proof.Machine.execWaitany ra s
  | .ffrdy rd ra => Sys2Proof.Machine.execFfrdy rd ra s
  | .rbwait ring => Sys2Proof.Machine.execRbwait ring s
  | .yield => Sys2Proof.Machine.execYield s
  | .spawn ra => Sys2Proof.Machine.execSpawn ra s
  | .join ra => Sys2Proof.Machine.execJoin ra s
  | .joinW ra => Sys2Proof.Machine.execJoinW ra s
  | .done => Sys2Proof.Machine.execDone s
  | .trap imm => Sys2Proof.Machine.execTrap imm s
  | .rfe => Sys2Proof.Machine.execRfe s
  | .mfs rd n => Sys2Proof.Machine.execMfs rd n s
  | .mts n ra => Sys2Proof.Machine.execMts n ra s
  | .tagsWrite ra => Sys2Proof.Machine.execTagsWrite ra s
  | .fstatusWrite ra => Sys2Proof.Machine.execFstatusWrite ra s
  | .fctlWrite ra => Sys2Proof.Machine.execFctlWrite ra s
  | .rowprogWrite ra => Sys2Proof.Machine.execRowprogWrite ra s
  | .keyselGen ra => Sys2Proof.Machine.execKeyselGen ra s
  | .keyselKill ra => Sys2Proof.Machine.execKeyselKill ra s
  | .halt ra => Sys2Proof.Machine.execHalt ra s
  | .ckwait => Sys2Proof.Machine.execCkwait s
  | .vadd fmt rm vd va vb => Sys2Proof.Machine.execVadd fmt rm vd va vb s
  | .vsub fmt rm vd va vb => Sys2Proof.Machine.execVsub fmt rm vd va vb s
  | .vmul fmt rm vd va vb => Sys2Proof.Machine.execVmul fmt rm vd va vb s
  | .vfma fmt rm vd va vb => Sys2Proof.Machine.execVfma fmt rm vd va vb s
  | .vfms fmt rm vd va vb => Sys2Proof.Machine.execVfms fmt rm vd va vb s
  | .vfnma fmt rm vd va vb => Sys2Proof.Machine.execVfnma fmt rm vd va vb s
  | .vmin fmt vd va vb => Sys2Proof.Machine.execVmin fmt vd va vb s
  | .vmax fmt vd va vb => Sys2Proof.Machine.execVmax fmt vd va vb s
  | .vabs fmt vd va => Sys2Proof.Machine.execVabs fmt vd va s
  | .vneg fmt vd va => Sys2Proof.Machine.execVneg fmt vd va s
  | .vand vd va vb => Sys2Proof.Machine.execVand vd va vb s
  | .vor vd va vb => Sys2Proof.Machine.execVor vd va vb s
  | .vxor vd va vb => Sys2Proof.Machine.execVxor vd va vb s
  | .vshl fmt vd va vb => Sys2Proof.Machine.execVshl fmt vd va vb s
  | .vshr fmt vd va vb => Sys2Proof.Machine.execVshr fmt vd va vb s
  | .vsra fmt vd va vb => Sys2Proof.Machine.execVsra fmt vd va vb s
  | .vadds fmt vd va vb => Sys2Proof.Machine.execVadds fmt vd va vb s
  | .vsubs fmt vd va vb => Sys2Proof.Machine.execVsubs fmt vd va vb s
  | .vcmp cc fmt pd va vb => Sys2Proof.Machine.execVcmp cc fmt pd va vb s
  | .vsel vd va vb pc => Sys2Proof.Machine.execVsel vd va vb pc s
  | .vmov vd va => Sys2Proof.Machine.execVmov vd va s
  | .vbcst vd ra => Sys2Proof.Machine.execVbcst vd ra s
  | .vext rd va rb => Sys2Proof.Machine.execVext rd va rb s
  | .vins vd ra rb => Sys2Proof.Machine.execVins vd ra rb s
  | .viota vd => Sys2Proof.Machine.execViota vd s
  | .vcvt fmt rm sfmt vd va => Sys2Proof.Machine.execVcvt fmt rm sfmt vd va s
  | .vcmpr vd va pb => Sys2Proof.Machine.execVcmpr vd va pb s
  | .vexpd vd va pb => Sys2Proof.Machine.execVexpd vd va pb s
  | .vrsum fmt rm rd va pb => Sys2Proof.Machine.execVrsum fmt rm rd va pb s
  | .vrmax fmt rd va pb => Sys2Proof.Machine.execVrmax fmt rd va pb s
  | .vrmin fmt rd va pb => Sys2Proof.Machine.execVrmin fmt rd va pb s
  | .xcopy vd va rb => Sys2Proof.Machine.execXcopy vd va rb s
  | .pand pd pa pb => Sys2Proof.Machine.execPand pd pa pb s
  | .por pd pa pb => Sys2Proof.Machine.execPor pd pa pb s
  | .pxor pd pa pb => Sys2Proof.Machine.execPxor pd pa pb s
  | .pandn pd pa pb => Sys2Proof.Machine.execPandn pd pa pb s
  | .pnot pd pa => Sys2Proof.Machine.execPnot pd pa s
  | .pcnt rd pa => Sys2Proof.Machine.execPcnt rd pa s
  | .pfirst rd pa => Sys2Proof.Machine.execPfirst rd pa s
  | .exp2 fmt rm vd va => Sys2Proof.Machine.execExp2 fmt rm vd va s
  | .log2 fmt rm vd va => Sys2Proof.Machine.execLog2 fmt rm vd va s
  | .rcp fmt rm vd va => Sys2Proof.Machine.execRcp fmt rm vd va s
  | .rsq fmt rm vd va => Sys2Proof.Machine.execRsq fmt rm vd va s
  | .sin fmt rm vd va => Sys2Proof.Machine.execSin fmt rm vd va s
  | .cos fmt rm vd va => Sys2Proof.Machine.execCos fmt rm vd va s
  | .tanh fmt rm vd va => Sys2Proof.Machine.execTanh fmt rm vd va s
  | .erf fmt rm vd va => Sys2Proof.Machine.execErf fmt rm vd va s
  | .rnd fmt vd => Sys2Proof.Machine.execRnd fmt vd s
  | .seed ra => Sys2Proof.Machine.execSeed ra s
  | .cxs kf desc vd va j db => Sys2Proof.Machine.execCxs kf desc vd va j db s
  | .cxsi kf desc vd va j db => Sys2Proof.Machine.execCxsi kf desc vd va j db s
  | .vmaxi kf rd va pb => Sys2Proof.Machine.execVmaxi kf rd va pb s
  | .vmini kf rd va pb => Sys2Proof.Machine.execVmini kf rd va pb s
  | .vnormsel kf vd va pb j => Sys2Proof.Machine.execVnormsel kf vd va pb j s
  | .ld sz ep na rd ra off => Sys2Proof.Machine.execLd sz ep na rd ra off s
  | .ldS sz ep na rd ra off => Sys2Proof.Machine.execLdS sz ep na rd ra off s
  | .st sz ep na rd ra off => Sys2Proof.Machine.execSt sz ep na rd ra off s
  | .stS sz ep na rd ra off => Sys2Proof.Machine.execStS sz ep na rd ra off s
  | .vld fmt ep na vd ra off => Sys2Proof.Machine.execVld fmt ep na vd ra off s
  | .vldS fmt ep na vd ra off => Sys2Proof.Machine.execVldS fmt ep na vd ra off s
  | .vst fmt ep na vd ra off => Sys2Proof.Machine.execVst fmt ep na vd ra off s
  | .vstS fmt ep na vd ra off => Sys2Proof.Machine.execVstS fmt ep na vd ra off s
  | .ldf rd ra off => Sys2Proof.Machine.execLdf rd ra off s
  | .ste rd ra off => Sys2Proof.Machine.execSte rd ra off s
  | .preft tag ra off ep => Sys2Proof.Machine.execPreft tag ra off ep s
  | .pin win ra rb => Sys2Proof.Machine.execPin win ra rb s
  | .unpin win => Sys2Proof.Machine.execUnpin win s
  | .phase ra rb => Sys2Proof.Machine.execPhase ra rb s
  | .qalign => Sys2Proof.Machine.execQalign s
  | .fence sc => Sys2Proof.Machine.execFence sc s
  | .xfence pf pt => Sys2Proof.Machine.execXfence pf pt s
  | .qpop vd q => Sys2Proof.Machine.execQpop vd q s
  | .rbrel ring => Sys2Proof.Machine.execRbrel ring s
  | .aadd sz rd ra rb => Sys2Proof.Machine.execAadd sz rd ra rb s
  | .aand sz rd ra rb => Sys2Proof.Machine.execAand sz rd ra rb s
  | .aor sz rd ra rb => Sys2Proof.Machine.execAor sz rd ra rb s
  | .axor sz rd ra rb => Sys2Proof.Machine.execAxor sz rd ra rb s
  | .amin sz rd ra rb => Sys2Proof.Machine.execAmin sz rd ra rb s
  | .amax sz rd ra rb => Sys2Proof.Machine.execAmax sz rd ra rb s
  | .aswp sz rd ra rb => Sys2Proof.Machine.execAswp sz rd ra rb s
  | .cas sz rd ra rb => Sys2Proof.Machine.execCas sz rd ra rb s
  | .afadd rd ra rb => Sys2Proof.Machine.execAfadd rd ra rb s
  | .ared op ra rb rv => Sys2Proof.Machine.execAred op ra rb rv s
  | .loop ra imm => Sys2Proof.Machine.execLoop ra imm s
  | .replay sg ra imm => Sys2Proof.Machine.execReplay sg ra imm s
  | .aset ad ra imm => Sys2Proof.Machine.execAset ad ra imm s
  | .ainc rd ad imm => Sys2Proof.Machine.execAinc rd ad imm s
  | .astr ad ra lvl => Sys2Proof.Machine.execAstr ad ra lvl s
  | .scl e ra c => Sys2Proof.Machine.execScl e ra c s
  | .mma mf td ra rb n => Sys2Proof.Machine.execMma mf td ra rb n s
  | .mmr mf mode td ra rb => Sys2Proof.Machine.execMmr mf mode td ra rb s
  | .mload td ra => Sys2Proof.Machine.execMload td ra s
  | .mdrain of_ clr q td => Sys2Proof.Machine.execMdrain of_ clr q td s
  | .mzero td n => Sys2Proof.Machine.execMzero td n s
  | .mxsave ra => Sys2Proof.Machine.execMxsave ra s
  | .mxrest ra => Sys2Proof.Machine.execMxrest ra s
  | .mtalloc n m => Sys2Proof.Machine.execMtalloc n m s
  | .mtfree => Sys2Proof.Machine.execMtfree s
  | .cpy dr sr ra rb tag => Sys2Proof.Machine.execCpy dr sr ra rb tag s
  | .cpym ra rb rc tag => Sys2Proof.Machine.execCpym ra rb rc tag s
  | .cpyr op ra rb tag => Sys2Proof.Machine.execCpyr op ra rb tag s
  | .rbinit ring ra rb => Sys2Proof.Machine.execRbinit ring ra rb s
  | .svinit ra rb tag => Sys2Proof.Machine.execSvinit ra rb tag s
  | .svapply ra rb tag => Sys2Proof.Machine.execSvapply ra rb tag s
  | .svdiag ra rb tag => Sys2Proof.Machine.execSvdiag ra rb tag s
  | .svprob ra rb rc tag => Sys2Proof.Machine.execSvprob ra rb rc tag s
  | .svnorm ra rb tag => Sys2Proof.Machine.execSvnorm ra rb tag s
  | .svmap ra rb tag => Sys2Proof.Machine.execSvmap ra rb tag s
  | .fsend ra rb tag => Sys2Proof.Machine.execFsend ra rb tag s
  | .frecv ra rb tag => Sys2Proof.Machine.execFrecv ra rb tag s
  | .fput ra rb tag => Sys2Proof.Machine.execFput ra rb tag s
  | .fputS ra rb tag => Sys2Proof.Machine.execFputS ra rb tag s
  | .fputR op ra rb tag => Sys2Proof.Machine.execFputR op ra rb tag s
  | .fget ra rb tag => Sys2Proof.Machine.execFget ra rb tag s
  | .fexpect clr ra rb tag => Sys2Proof.Machine.execFexpect clr ra rb tag s
  | .fport ra rb tag => Sys2Proof.Machine.execFport ra rb tag s
  | .froute rd rb port => Sys2Proof.Machine.execFroute rd rb port s
  | .coll ra tag => Sys2Proof.Machine.execColl ra tag s
  | .collw ra => Sys2Proof.Machine.execCollw ra s
  | .agb pc rb => Sys2Proof.Machine.execAgb pc rb s
  | .agbx ra rb => Sys2Proof.Machine.execAgbx ra rb s
  | .agwait => Sys2Proof.Machine.execAgwait s
  | .barr rb tag => Sys2Proof.Machine.execBarr rb tag s
  | .tlbi ra rb tag => Sys2Proof.Machine.execTlbi ra rb tag s
  | .ckpt ra tag => Sys2Proof.Machine.execCkpt ra tag s
  | .aaddH sz rd ra rb => Sys2Proof.Machine.execAaddH sz rd ra rb s
  | .aandH sz rd ra rb => Sys2Proof.Machine.execAandH sz rd ra rb s
  | .aorH sz rd ra rb => Sys2Proof.Machine.execAorH sz rd ra rb s
  | .axorH sz rd ra rb => Sys2Proof.Machine.execAxorH sz rd ra rb s
  | .aminH sz rd ra rb => Sys2Proof.Machine.execAminH sz rd ra rb s
  | .amaxH sz rd ra rb => Sys2Proof.Machine.execAmaxH sz rd ra rb s
  | .aswpH sz rd ra rb => Sys2Proof.Machine.execAswpH sz rd ra rb s
  | .casH sz rd ra rb => Sys2Proof.Machine.execCasH sz rd ra rb s
  | .afaddH rd ra rb => Sys2Proof.Machine.execAfaddH rd ra rb s
  | .aredH op ra rb rv => Sys2Proof.Machine.execAredH op ra rb rv s
  | .bundleIssue k => Sys2Proof.Machine.execBundleIssue k s
  | .lsAccessPerformed c n act => Sys2Proof.Machine.execLsAccessPerformed c n act s
  | .bankAtomicPerformed c home => Sys2Proof.Machine.execBankAtomicPerformed c home s
  | .bktsetDataArrival c => Sys2Proof.Machine.execBktsetDataArrival c s
  | .preemption c => Sys2Proof.Machine.execPreemption c s
  | .frecvCopyComplete c n => Sys2Proof.Machine.execFrecvCopyComplete c n s
  | .watchdogExpiry c => Sys2Proof.Machine.execWatchdogExpiry c s
  | .prefetchComplete k n => Sys2Proof.Machine.execPrefetchComplete k n s
  | .ringSlotClaim k n => Sys2Proof.Machine.execRingSlotClaim k n s
  | .copyPageReach k n len => Sys2Proof.Machine.execCopyPageReach k n len s
  | .cpymLanding k n => Sys2Proof.Machine.execCpymLanding k n s
  | .copyComplete k n => Sys2Proof.Machine.execCopyComplete k n s
  | .matrixAllocGrant k => Sys2Proof.Machine.execMatrixAllocGrant k s
  | .matrixCommandComplete k => Sys2Proof.Machine.execMatrixCommandComplete k s
  | .matrixLineFetch k => Sys2Proof.Machine.execMatrixLineFetch k s
  | .matrixCommandStart k => Sys2Proof.Machine.execMatrixCommandStart k s
  | .recordPop c => Sys2Proof.Machine.execRecordPop c s
  | .eddyCommandComplete d => Sys2Proof.Machine.execEddyCommandComplete d s
  | .exchangeData d data => Sys2Proof.Machine.execExchangeData d data s
  | .eddyCommandStart d => Sys2Proof.Machine.execEddyCommandStart d s
  | .collectiveStart d n => Sys2Proof.Machine.execCollectiveStart d n s
  | .barrArrivalSend d n => Sys2Proof.Machine.execBarrArrivalSend d n s
  | .ckptComplete d n => Sys2Proof.Machine.execCkptComplete d n s
  | .phaseDrainEnd d => Sys2Proof.Machine.execPhaseDrainEnd d s
  | .budgetPeriod d r => Sys2Proof.Machine.execBudgetPeriod d r s
  | .serviceRingPoll d top => Sys2Proof.Machine.execServiceRingPoll d top s
  | .packetArrival d pf => Sys2Proof.Machine.execPacketArrival d pf s
  | .tlbiComplete d n => Sys2Proof.Machine.execTlbiComplete d n s
  | .openNoticeArrival d m => Sys2Proof.Machine.execOpenNoticeArrival d m s
  | .planStepArrival d m => Sys2Proof.Machine.execPlanStepArrival d m s
  | .abortNoticeArrival d m => Sys2Proof.Machine.execAbortNoticeArrival d m s
  | .barrArrivalReceive d m => Sys2Proof.Machine.execBarrArrivalReceive d m s
  | .huddleContributionArrival d m => Sys2Proof.Machine.execHuddleContributionArrival d m s
  | .huddleOutcomeArrival d m => Sys2Proof.Machine.execHuddleOutcomeArrival d m s
  | .voidRequestArrival d m => Sys2Proof.Machine.execVoidRequestArrival d m s
  | .fabricSlotBoundary plane => Sys2Proof.Machine.execFabricSlotBoundary plane s
  | .ackArrival d a => Sys2Proof.Machine.execAckArrival d a s
  | .staleNotice d top src dst seq ver => Sys2Proof.Machine.execStaleNotice d top src dst seq ver s
  | .authFailNotice d top src dst seq => Sys2Proof.Machine.execAuthFailNotice d top src dst seq s
  | .exchangeHandshake d gid serial b g => Sys2Proof.Machine.execExchangeHandshake d gid serial b g s
  | .registerWriteback c => Sys2Proof.Machine.execRegisterWriteback c s
  | .loadDataReturn c n => Sys2Proof.Machine.execLoadDataReturn c n s
  | .quantumExpiry c => Sys2Proof.Machine.execQuantumExpiry c s
  | .budgetExhausted d r => Sys2Proof.Machine.execBudgetExhausted d r s
  | .trapEntry c => Sys2Proof.Machine.execTrapEntry c s
  | .pinLineFetch c w n => Sys2Proof.Machine.execPinLineFetch c w n s
  | .framingReceived plane slot sender => Sys2Proof.Machine.execFramingReceived plane slot sender s
  | .ringSaturation ring => Sys2Proof.Machine.execRingSaturation ring s
  | .dataWindowStart plane => Sys2Proof.Machine.execDataWindowStart plane s
  | .heldPacketTimeout d n => Sys2Proof.Machine.execHeldPacketTimeout d n s
  | .staleRetransmitTimeout d n => Sys2Proof.Machine.execStaleRetransmitTimeout d n s
  | .routeWaitTimeout d n => Sys2Proof.Machine.execRouteWaitTimeout d n s
  | .frecvTimeout c => Sys2Proof.Machine.execFrecvTimeout c s
  | .wakeHint port => Sys2Proof.Machine.execWakeHint port s
  | .collectiveTimeout d n => Sys2Proof.Machine.execCollectiveTimeout d n s
  | .memberLostReport d top rank => Sys2Proof.Machine.execMemberLostReport d top rank s
  | .huddleTimeout c => Sys2Proof.Machine.execHuddleTimeout c s
  | .outcomeResend d n mem => Sys2Proof.Machine.execOutcomeResend d n mem s
  | .linkKeyInstall d slot top opened => Sys2Proof.Machine.execLinkKeyInstall d slot top opened s
  | .powerOn t => Sys2Proof.Machine.execPowerOn t s
  | .bootRetry t => Sys2Proof.Machine.execBootRetry t s
  | .pkgreset => Sys2Proof.Machine.execPkgreset s
  | .hqprod w => Sys2Proof.Machine.execHqprod w s
  | .bar0RegisterWrite off w => Sys2Proof.Machine.execBar0RegisterWrite off w s
  | .functionLevelReset => Sys2Proof.Machine.execFunctionLevelReset s
  | .currentLimit on => Sys2Proof.Machine.execCurrentLimit on s
  | .thermalThrottle d on => Sys2Proof.Machine.execThermalThrottle d on s
  | .thermalTrip d => Sys2Proof.Machine.execThermalTrip d s
  | .ringHeatWrite ring heat => Sys2Proof.Machine.execRingHeatWrite ring heat s
  | .createRegion q rcb => Sys2Proof.Machine.execCreateRegion q rcb s
  | .changeRegion q rcb => Sys2Proof.Machine.execChangeRegion q rcb s
  | .makeRunnable q => Sys2Proof.Machine.execMakeRunnable q s
  | .makeNotRunnable q => Sys2Proof.Machine.execMakeNotRunnable q s
  | .destroyRegion q => Sys2Proof.Machine.execDestroyRegion q s
  | .bindKernel q image kid mask vbase => Sys2Proof.Machine.execBindKernel q image kid mask vbase s
  | .pushRecords q recs => Sys2Proof.Machine.execPushRecords q recs s
  | .handlerVector q kid entry => Sys2Proof.Machine.execHandlerVector q kid entry s
  | .breakpoint q num kid pc en => Sys2Proof.Machine.execBreakpoint q num kid pc en s
  | .routeTable q ents ver => Sys2Proof.Machine.execRouteTable q ents ver s
  | .groupEntry q gid ent ranks => Sys2Proof.Machine.execGroupEntry q gid ent ranks s
  | .assignKeySlot q slot => Sys2Proof.Machine.execAssignKeySlot q slot s
  | .reclaimKeySlot q slot => Sys2Proof.Machine.execReclaimKeySlot q slot s
  | .pageTableRoot q root => Sys2Proof.Machine.execPageTableRoot q root s
  | .frameOwner q kind frame owner => Sys2Proof.Machine.execFrameOwner q kind frame owner s
  | .cisternAllotment q size => Sys2Proof.Machine.execCisternAllotment q size s
  | .attest q nonce => Sys2Proof.Machine.execAttest q nonce s
  | .readRingStatus q ring => Sys2Proof.Machine.execReadRingStatus q ring s
  | .registerServiceRing q va => Sys2Proof.Machine.execRegisterServiceRing q va s
  | .withdrawServiceRing q => Sys2Proof.Machine.execWithdrawServiceRing q s
  | .framingLost plane => Sys2Proof.Machine.execFramingLost plane s
  | .softError site correctable => Sys2Proof.Machine.execSoftError site correctable s
  | .exchangePartnerTimeout d lost => Sys2Proof.Machine.execExchangePartnerTimeout d lost s

end Sys2Proof.Machine
end

