-- ==== Sys2Proof/Machine/Schedule.lean ====
section
/-!
DEFINITION. The model's default order of the agents, used while the agenda is empty, and the state in which a word is
fetched next. The manual fixes no order among agents; an agenda can give any order.
-/

namespace Sys2Proof.Machine

open Sys2Proof

/-! The default order -/

/-- What context c may have to do besides issuing. -/
def ctxWork (s : State) (c : Nat) (x : Ctx) : List Instr :=
  (if x.lsq.isEmpty then [] else [.lsAccessPerformed c 0 .whole]) ++
  (if x.bk.isEmpty then [] else [.bankAtomicPerformed c true]) ++
  (if x.bkt.isEmpty then [] else [.bktsetDataArrival c]) ++
  ((x.pins.zipIdx.filter fun w => w.1.isOpen && decide (128 * w.1.next < w.1.len.toNat)).map fun w => .pinLineFetch c w.2 w.1.next) ++
  (if x.marked && x.status == .active then [.preemption c] else []) ++
  (if x.fb.any (fun f => f.kind == 1) then [.frecvCopyComplete c 0] else []) ++
  (match x.block with
    | some (.watched, _) =>
      let w := effWdog (getDie s (dieOf c)) (ridOf s c)
      if w ≠ 0 && decide (w * 1024 < blockedFor s c) then [.watchdogExpiry c] else []
    | _ => [])

/-- What the copy command n of core k may do next. -/
def copyWork (k n : Nat) (m : Copy) : List Instr :=
  if m.suspended || m.ending.isSome then []
  else if m.kind = 3 then [.prefetchComplete k n]
  else if m.dst.rb && m.slots.isEmpty then [.ringSlotClaim k n]
  else if decide (m.pos < descLen m.src) then [.copyPageReach k n (descLen m.src)]
  else if m.kind = 1 && !m.landed then [.cpymLanding k n] else [.copyComplete k n]

/-- What the engines of core k may do next; `runs` are the contexts whose matrix commands may start. -/
def coreWork (s : State) (runs : List Nat) (k : Nat) (q : Core) : List Instr :=
  (q.copies.zipIdx.flatMap fun m => copyWork k m.2 m.1) ++
  (if q.mxWait.isEmpty then [] else [.matrixAllocGrant k]) ++
  (match q.mxBusy with
    | some c => match (getCtx s c).mx.run with
      | some r => if r.finished then [.matrixCommandComplete k] else [.matrixLineFetch k]
      | none => []
    | none => if runs.any fun c => c / 4 == k then [.matrixCommandStart k] else [])

/-- The lowest idle context of a die that a record awaits. -/
def popWork (s : State) (d : Nat) : List Instr :=
  if (getDie s d).queue.isEmpty then [] else
  match (List.range 256).find? fun n => idle s (256 * d + n) && (choosePop s (256 * d + n)).isSome with
  | some n => [.recordPop (256 * d + n)]
  | none => []

/-- What the Eddy engine of a die may do next: an exchange goes on when the partner's handshake, then its half, is there. -/
def eddyWorkOf (s : State) (d : Nat) (x : Die) : List Instr :=
  match eddyRunning x with
  | none => if (eddyNext x).isSome then [.eddyCommandStart d] else []
  | some n =>
    if ((x.eddy[n]?).map (·.finished)).getD false then [.eddyCommandComplete d] else
    match exchanging s d with
    | none => []
    | some (_, m, p, g) =>
      if m.shaken then (halfOf x m p g).toList.map (.exchangeData d)
      else (heardShake x (shakeOf x m p g)).toList.map fun h => .exchangeHandshake d h.gid h.serial h.b h.g

/-- What the agents of die d may do next. -/
def dieWork (s : State) (d : Nat) (x : Die) : List Instr :=
  (if x.inReset || x.tripped then [] else
  popWork s d ++
  eddyWorkOf s d x ++
  ((x.colls.zipIdx.filter fun q => !q.1.started && !q.1.ended).map fun q => .collectiveStart d q.2) ++
  ((x.barriers.zipIdx.filter fun b => !b.1.sent).map fun b => .barrArrivalSend d b.2) ++
  ((x.ckpts.zipIdx.filter fun q => !q.1.saved && q.1.ending.isNone).map fun q => .ckptComplete d q.2) ++
  (if x.slices.any (fun sl => sl.drain.isSome) then [.phaseDrainEnd d] else []) ++
  ((x.regions.filter fun g => poolDue x g && (g.pool.isSome || effCcyc x g.rcb.rid != 2 ^ 64 - 1)).map fun g =>
    .budgetPeriod d g.rcb.rid) ++
  ((x.regions.filter fun g => g.serviceRing.isSome).map fun g => .serviceRingPoll d g.rcb.rid))

/-- The fabric of die d has work of its own. -/
def fabricWork (s : State) (d : Nat) (x : Die) (cs : List Ctx) : List Instr :=
  if x.inReset || x.tripped then [] else
  (if x.sendq.isEmpty && x.colls.isEmpty && cs.all (fun c => c.fb.isEmpty) then []
    else [.packetArrival d (.wire s.wire.length)]) ++
  (if cs.any fun c => c.fb.any fun f => f.kind == 7 then [.tlbiComplete d 0] else [])

/-- The arrival of a group message. -/
def msgWork (d : Nat) (m : GMsg) : Instr :=
  match m.body with
  | .openNotice _ => .openNoticeArrival d m
  | .step .. => .planStepArrival d m
  | .abort .. => .abortNoticeArrival d m
  | .barr => .barrArrivalReceive d m
  | .contrib _ => .huddleContributionArrival d m
  | .outcome _ => .huddleOutcomeArrival d m
  | .voidReq => .voidRequestArrival d m

/-- A slot boundary that a written table or an order waits for. -/
def slotWork (s : State) : List Instr :=
  (if s.dies.any fun d => d.regions.any fun g => g.nextRoutes.isSome then [.fabricSlotBoundary (routePlane s)] else []) ++
  ((s.ports.zipIdx.filter fun p => !p.1.orders.isEmpty || p.1.wake).map fun p => .fabricSlotBoundary p.2)

/-- Everything that agents other than issue may do next. DESIGN CHOICE, log 3. -/
def work (s : State) : List Instr :=
  let runs := (s.ctxs.zipIdx.filter fun x => mxRunning x.1).map (·.2)
  (s.wire.take 1).map (fun p => .packetArrival (p.die % 4) (.wire 0)) ++
  (s.msgs.take 1).map (fun m => msgWork m.1 m.2) ++
  (s.ctxs.zipIdx.flatMap fun x => ctxWork s x.2 x.1) ++
  (s.cores.zipIdx.flatMap fun k => coreWork s runs k.2 k.1) ++
  (s.dies.zipIdx.flatMap fun d => dieWork s d.2 d.1) ++
  (s.dies.zipIdx.flatMap fun d => fabricWork s d.2 d.1 ((s.ctxs.drop (256 * d.2)).take 256)) ++
  slotWork s

/-- Cores that have a context with a record. -/
def busyCores (s : State) : List Nat :=
  ((s.ctxs.zipIdx.filter fun x => x.1.status == .active).map fun x => x.2 / 4).eraseDups

/-- One of a list by turns. -/
def byTurn {α : Type} (n : Nat) (xs : List α) : Option α := xs[n % max 1 xs.length]?

/-- The next act of the default order: issue and the other agents by turns; issue begins on the core of `cur`.
DESIGN CHOICE, log 3. -/
def nextEvent (s : State) : Instr :=
  let here := Instr.bundleIssue (coreOf s.cur)
  if s.turn = 0 then here
  else if s.turn % 2 = 0 then ((byTurn (s.turn / 2) (busyCores s)).map Instr.bundleIssue).getD here
  else (byTurn (s.turn / 2) (work s)).getD here

/-! The state in which a word is fetched next -/

/-- The program that a placed word belongs to: one top region of die 0 that context 0 runs. -/
def hostRcb : Rcb :=
  { rid := 1, fdom := 1, parent := 0, prio := 0, depth := 1, cores := BitVec.allOnes 64, ccyc := 2 ^ 64 - 1, agelim := 1
    period := 65536, rtmo := 0, wdog := 0, pinb := 2097152, fshare := 0, maxctx := 256, qlog := 6, agrp := 1024
    ovr := 4095 }

/-- A leaf at die offset 0 with X, R and W under key slot 1: the page of the placed code. -/
def codeLeaf : Word := 0x0010000000000079#64

/-- A bundle whose one syllable stands in a slot. -/
def bundleOf (sl : Slot) (w : BitVec 32) : List (BitVec 32) :=
  let n := (slots.findIdx? (· == sl)).getD 0
  BitVec.ofNat 32 (2 ^ n) :: (List.replicate n 0#32 ++ [w] ++ List.replicate (10 - n) 0#32)

/-- The kernel that holds a placed word. DEDUCED, log 4. -/
def placedKernel (sl : Slot) (w : BitVec 32) : Kernel :=
  { kid := 0, rid := 1, dict := [bundleOf sl w], base := 0#64, codelen := 1
    lat := (List.range 16).map nativeLat, scale := List.replicate 16 0#8 }

/-- Context 0 runs a record of the placed program at PC 0. -/
def placedCtx (x : Ctx) : Ctx :=
  { x with
    status := .active, arch := { x.arch with pc := 0, kid := 0 }, block := none, marked := false, faults := [], faults1 := []
    restore := none, wantMx := none, mxHeld := none, granted := false, noBreak := true, quantum := 0
    record := some { rid := 1, prio := 0, qpri := 0, frame := 0#64, joinptr := 0#64, kid := 0, entry := 0 } }

/-- Die 0 runs, holds the program's region, and its TLB maps the page of the placed code, whose frame is the region's. -/
def placedDie (x : Die) : Die :=
  { x with
    inReset := false, tripped := false
    regions := { rcb := hostRcb, runnable := true } :: x.regions.filter fun g => g.rcb.rid != 1
    tlb := { top := 1, vbase := 0, size := 65536, leaf := codeLeaf } :: x.tlb.filter fun e => e.top != 1
    frames := (.dram, 0, .top 1) :: x.frames.filter fun e => !(e.1 == .dram && e.2.1 == 0)
    killing := x.killing.filter fun e => e.1 != 1
    mem := writeRun x.mem 0 [0#8, 0#8]
    lineKeys := x.lineKeys.filter fun e => e.1 != 0
    poison := x.poison.filter fun a => a != 0
    unseen := x.unseen.filter fun u => decide (2 ≤ u.addr) }

/-- The state with a word placed where the next step fetches it: the load of a program from outside.
DEDUCED, log 4. -/
def placeWord (s : State) (sl : Slot) (w : BitVec 32) : State :=
  let s := modDie 0 placedDie s
  let s := modCtx 0 placedCtx s
  let s := modCore 0 (fun k => { k with
    kernels := placedKernel sl w :: k.kernels.filter fun n => n.kid != 0
    tlb := k.tlb.filter fun e => e.top != 1
    fetched := [], issuing := some 0 }) s
  { s with
    keys := s.keys.modify 1 fun k => { k with state := .live, link := false, die := 0, top := 1 }
    cur := 0, agenda := [], tape := List.replicate 64 0, turn := 0 }

end Sys2Proof.Machine
end

