-- ==== Sys2Proof/Machine/Step.lean ====
section
/-!
DEFINITION. One step of the package: the next act of the agenda, or of the default order.
-/

namespace Sys2Proof.Machine

open Sys2Proof

/-- One step: the head of the agenda; an entry that is no well-formed instruction names no act of the machine and is passed
over; an empty agenda leaves the order to the model.
DESIGN CHOICE, log 3. -/
def step (s : State) : Host.Outcome State Fault Refusal :=
  match s.agenda with
  | i :: rest => if i.wf then exec i { s with agenda := rest } else .next { s with agenda := rest }
  | [] => exec (nextEvent s) { s with turn := s.turn + 1 }

/-- The state whose next step fetches and runs the word w of nbits bits.
DEDUCED, log 4. DESIGN CHOICE, log 83. -/
def State.withFetchWord (s : State) (nbits w : Nat) : State :=
  let v := BitVec.ofNat 32 (w % 2 ^ nbits)
  placeWord s ((slotFor v).getD .s0) v

end Sys2Proof.Machine
end

