-- ==== Sys2Proof/Safety.lean ====
section
/-!
DEFINITION. The terms in which claims are made: when a lone operation issues, what its bundle leaves, the machine at
rest but for what issuing always moves, the invariant of every step.
-/

namespace Sys2Proof.Machine

open Sys2Proof

/-- A die that runs: released from reset and not stopped by a trip (15 R352; 13 R326). -/
def DieUp (s : State) (d : Nat) : Prop := (getDie s d).inReset = false ∧ (getDie s d).tripped = false

/-- The package has its dies, cores, contexts and key slots (01 R13, R14; 13 R319). -/
structure Sized (s : State) : Prop where
  dies  : s.dies.length = 4
  cores : s.cores.length = 256
  ctxs  : s.ctxs.length = 1024
  keys  : s.keys.length = 4096

/-- The memory of every die is in canonical form: equal memories are equal data. -/
def MemOk (s : State) : Prop := ∀ d ∈ s.dies, Memory.wf d.mem = true

/-- What every step keeps. -/
def Inv (s : State) : Prop := MemOk s ∧ s.dies.length = 4

/-! The issue of a lone operation -/

/-- The machine when the context's results that are due have landed: the state that an issuing bundle reads. -/
def atIssue (s : State) : State := landNow s.cur (rebaseNow s.cur s)

/-- The state on which the operations of a lone bundle act. -/
def started (s : State) : State :=
  { atIssue s with flow :=
    { nextPc := (getArch s s.cur).pc + 1, tags0 := (getCtx (atIssue s) s.cur).tags, preds0 := (getArch (atIssue s) s.cur).p
      id0 := (getCtx (atIssue s) s.cur).nextId } }

/-- A lone operation issues and takes effect: the checks of R44 and R45 pass, no named register is interlocked, its
stage is active, it waits for no table, it is not held back by run-ahead, its guard lets it, nothing that it reads is
poisoned, and its results find room (02 R35, R43 to R45; 04 R118; 05 R134; 12 R307; 14 R337, R345). The bundle has no END. -/
structure Ready (i : Instr) (s : State) : Prop where
  sized : Sized s
  cur   : s.cur < 1024
  noEnd : s.hdr.fin = false
  legal : decodeFault (getCtx (atIssue s) s.cur) s.hdr [i] = none
  free  : interlocked (getArch (atIssue s) s.cur) (namedRegs (getArch (atIssue s) s.cur) s.hdr [i]) = false
  tables : bktStalls (getCtx (atIssue s) s.cur) [i] = false
  stage : stageState (getArch (atIssue s) s.cur) s.hdr = (false, true)
  ahead : (runsAhead (getCtx (atIssue s) s.cur) && heldBack i) = false
  guard : takesEffect (guardOf (getArch (atIssue s) s.cur) s.hdr) i = true
  clean : (getArch (atIssue s) s.cur).poisoned.any (fun d =>
    (implicitReads (getArch (atIssue s) s.cur) s.hdr true ++ (srcs i).map (destOf (getArch (atIssue s) s.cur))).contains d) = false
  room  : noRoom (getCtx (atIssue s) s.cur) s.hdr [i] = false

/-! What issuing always moves -/

/-- A region but for what the charge of cycles moves (10 R257). -/
def Region.calm (g : Region) : Region := { g with pool := none }

/-- A die but for its clock and the pools. -/
def Die.calm (d : Die) : Die := { d with clock := 0, regions := d.regions.map Region.calm }

/-- A core but for its cycle count. -/
def Core.calm (k : Core) : Core := { k with cycles := 0 }

/-- The issuing context but for its architectural state, which claims give in full, and the model's own counters. -/
def Ctx.calm (x : Ctx) : Ctx :=
  { x with arch := {}, nextId := 0, quantum := 0, noBreak := false, block := none, waited := 0, waitColl := none, marked := false
           landed := (0, 0#8), rebase := false }

/-- Another context but for its mark, which an exhausted pool sets (10 R258). -/
def Ctx.other (x : Ctx) : Ctx := { x with marked := false }

/-- The machine but for what the issue of a bundle of context c always moves: its architectural state, cycle counts,
the charge of context-cycles, the model's own flow and choices. Two states with equal calm parts agree in everything
else: memory, full/empty bits, poison, translations, keys, queues, engines, fabric, special registers, accumulators,
every other context. -/
def State.calm (c : Nat) (s : State) : State :=
  { s with
    dies := s.dies.map Die.calm
    cores := s.cores.map Core.calm
    ctxs := s.ctxs.mapIdx fun k x => if k = c then x.calm else x.other
    saved := s.saved.map fun e => (e.1, e.2.other)
    flow := {}, tape := [], fresh := 0 }

/-- Memory reads the same at every address of every die. -/
def SameMem (s t : State) : Prop := ∀ d a, readByte (getDie t d).mem a = readByte (getDie s d).mem a

/-- A lone bundle has left t after its operations left u: the PC is `pc`, and only what issuing always moves has
moved besides; every byte of memory reads as in u. -/
def Ends (pc : Nat) (u t : State) : Prop :=
  State.calm u.cur t = State.calm u.cur u ∧ getArch t u.cur = { getArch u u.cur with pc := pc } ∧ SameMem u t

/-- The instruction answers a next state, that of its own effect u. -/
def Completes (i : Instr) (s u : State) : Prop :=
  ∃ t, exec i s = .next t ∧ Ends ((getArch s s.cur).pc + 1) u t

/-- A result of a fixed class joined the results in flight of the acting context: it is due in the stated number of
cycles and ready after the native latency (02 R34 to R36). -/
def queued (dst : Dest) (v : Val) (fl : BitVec 8) (cls : Nat) (s : State) : State :=
  modCtx s.cur (fun x => { x with arch := { x.arch with inflight := x.arch.inflight ++
    [{ id := x.nextId, dest := dst, due := nowOf s s.cur + latOf s s.cur cls
       late := decide (latOf s s.cur cls < nativeLat cls), ready := nowOf s s.cur + nativeLat cls
       val := v, flags := fl }] } }) s

/-- The scalar register n as an operation reads it: x0 reads zero (02 R45). -/
def xAt (a : Arch) (r : BitVec 6) : Word := if r = 0#6 then 0#64 else a.x.getD r.toNat 0#64

end Sys2Proof.Machine
end

