-- ==== Sys2Proof/Certificates/Slice0/Obligations.lean ====
section
/-!
DEFINITION. The statements for the provers: what reset leaves, the encoding, one step, every instruction's completion
with what it leaves unchanged, every event, the invariant of every step.
-/

namespace Sys2Proof.Claims

open Sys2Proof Sys2Proof.Machine

/-! Scalar values, written from the tables of 04 R92 to R96 -/

/-- Destination, class, value and flags of a scalar instruction (04 R92 to R96; the classes 02 R34). -/
def scalarResult : Instr → Arch → Option (BitVec 6 × Nat × Word × BitVec 8)
  | .add rd ra rb, a => some (rd, 0, xAt a ra + xAt a rb, 0#8)
  | .sub rd ra rb, a => some (rd, 0, xAt a ra - xAt a rb, 0#8)
  | .mul rd ra rb, a => some (rd, 1, xAt a ra * xAt a rb, 0#8)
  | .mulh rd ra rb, a => some (rd, 1, BitVec.ofInt 64 ((xAt a ra).toInt * (xAt a rb).toInt / 2 ^ 64), 0#8)
  | .mulhu rd ra rb, a => some (rd, 1, BitVec.ofNat 64 ((xAt a ra).toNat * (xAt a rb).toNat / 2 ^ 64), 0#8)
  | .div rd ra rb, a =>
    if xAt a rb = 0#64 then some (rd, 2, BitVec.allOnes 64, fDZ)
    else some (rd, 2, BitVec.ofInt 64 ((xAt a ra).toInt.tdiv (xAt a rb).toInt), 0#8)
  | .divu rd ra rb, a =>
    if xAt a rb = 0#64 then some (rd, 2, BitVec.allOnes 64, fDZ)
    else some (rd, 2, BitVec.ofNat 64 ((xAt a ra).toNat / (xAt a rb).toNat), 0#8)
  | .rem rd ra rb, a =>
    if xAt a rb = 0#64 then some (rd, 2, xAt a ra, fDZ)
    else some (rd, 2, BitVec.ofInt 64 ((xAt a ra).toInt.tmod (xAt a rb).toInt), 0#8)
  | .remu rd ra rb, a =>
    if xAt a rb = 0#64 then some (rd, 2, xAt a ra, fDZ)
    else some (rd, 2, BitVec.ofNat 64 ((xAt a ra).toNat % (xAt a rb).toNat), 0#8)
  | .and rd ra rb, a => some (rd, 0, xAt a ra &&& xAt a rb, 0#8)
  | .or rd ra rb, a => some (rd, 0, xAt a ra ||| xAt a rb, 0#8)
  | .xor rd ra rb, a => some (rd, 0, xAt a ra ^^^ xAt a rb, 0#8)
  | .andn rd ra rb, a => some (rd, 0, xAt a ra &&& ~~~(xAt a rb), 0#8)
  | .shl rd ra rb, a => some (rd, 0, xAt a ra <<< ((xAt a rb).toNat % 64), 0#8)
  | .shr rd ra rb, a => some (rd, 0, xAt a ra >>> ((xAt a rb).toNat % 64), 0#8)
  | .sra rd ra rb, a => some (rd, 0, (xAt a ra).sshiftRight ((xAt a rb).toNat % 64), 0#8)
  | .min rd ra rb, a => some (rd, 0, if (xAt a ra).toInt ≤ (xAt a rb).toInt then xAt a ra else xAt a rb, 0#8)
  | .max rd ra rb, a => some (rd, 0, if (xAt a rb).toInt < (xAt a ra).toInt then xAt a ra else xAt a rb, 0#8)
  | .minu rd ra rb, a => some (rd, 0, if (xAt a ra).toNat ≤ (xAt a rb).toNat then xAt a ra else xAt a rb, 0#8)
  | .maxu rd ra rb, a => some (rd, 0, if (xAt a rb).toNat < (xAt a ra).toNat then xAt a ra else xAt a rb, 0#8)
  | .sel rd ra rb pc, a => some (rd, 0, if pc = 0#4 ∨ (a.p.getD pc.toNat 0#128).getLsbD 0 then xAt a ra else xAt a rb, 0#8)
  | .clz rd ra, a => some (rd, 0, BitVec.ofNat 64 (((List.range 64).find? fun n => (xAt a ra).getLsbD (63 - n)).getD 64), 0#8)
  | .ctz rd ra, a => some (rd, 0, BitVec.ofNat 64 (((List.range 64).find? fun n => (xAt a ra).getLsbD n).getD 64), 0#8)
  | .popc rd ra, a => some (rd, 0, BitVec.ofNat 64 ((List.range 64).countP fun n => (xAt a ra).getLsbD n), 0#8)
  | .lea rd ra rb sh, a => some (rd, 0, xAt a ra + xAt a rb <<< sh.toNat, 0#8)
  | .sext rd ra ew, a => some (rd, 0, match ew with
      | .w8 => ((xAt a ra).setWidth 8).signExtend 64
      | .w16 => ((xAt a ra).setWidth 16).signExtend 64
      | .w32 => ((xAt a ra).setWidth 32).signExtend 64, 0#8)
  | .zext rd ra ew, a => some (rd, 0, match ew with
      | .w8 => ((xAt a ra).setWidth 8).setWidth 64
      | .w16 => ((xAt a ra).setWidth 16).setWidth 64
      | .w32 => ((xAt a ra).setWidth 32).setWidth 64, 0#8)
  | .addi rd ra imm, a => some (rd, 0, xAt a ra + imm.signExtend 64, 0#8)
  | .andi rd ra imm, a => some (rd, 0, xAt a ra &&& imm.signExtend 64, 0#8)
  | .ori rd ra imm, a => some (rd, 0, xAt a ra ||| imm.signExtend 64, 0#8)
  | .xori rd ra imm, a => some (rd, 0, xAt a ra ^^^ imm.signExtend 64, 0#8)
  | .shli rd ra sh, a => some (rd, 0, xAt a ra <<< sh.toNat, 0#8)
  | .shri rd ra sh, a => some (rd, 0, xAt a ra >>> sh.toNat, 0#8)
  | .srai rd ra sh, a => some (rd, 0, (xAt a ra).sshiftRight sh.toNat, 0#8)
  | .movi rd imm, _ => some (rd, 0, imm.signExtend 64, 0#8)
  | .movhi rd hw imm, a =>
    some (rd, 0, (xAt a rd &&& ~~~(0xFFFF#64 <<< (16 * hw.toNat))) ||| (imm.setWidth 64 <<< (16 * hw.toNat)), 0#8)
  | _, _ => none

end Sys2Proof.Claims


open Sys2Proof Sys2Proof.Machine Sys2Proof.Claims

/-- Every scalar instruction queues its value for its destination and changes nothing else: registers, flags,
memory, special registers stay (04 R92 to R96; 02 R34 to R36). -/
def Obligations.ScalarResults : Prop :=
  ∀ (i : Instr) (s : State) (rd : BitVec 6) (cls : Nat) (w : Word) (fl : BitVec 8),
    scalarResult i (getArch (atIssue s) s.cur) = some (rd, cls, w, fl) → Ready i s →
    Completes i s (queued (.x rd.toNat) (.word w) fl cls (started s))

namespace Sys2Proof.Claims

open Sys2Proof Sys2Proof.Machine

/-! Predicates (04 R93, R100, R107) -/

/-- The condition of CMP on two words (02 R49; 04 R93). -/
def holdsX (cc : Cond) (a b : Word) : Bool :=
  match cc with
  | .eq => a == b | .ne => a != b | .lt => a.slt b | .le => a.sle b | .gt => b.slt a | .ge => b.sle a
  | .ltu => a.ult b | .leu => a.ule b | .gtu => b.ult a | .geu => b.ule a

/-- The condition of VCMP on two elements: floating elements by value, where a NaN makes every condition false but NE
and the zeros are equal; integers as signed numbers (03 R83; 04 R100). -/
def holdsV (fmt : Fmt) (cc : VCond) (a b : Lane) : Bool :=
  let x := elemFx fmt a
  let y := elemFx fmt b
  let m := signedN (widthOf fmt) a.toNat
  let n := signedN (widthOf fmt) b.toNat
  let nan := isNanFx x || isNanFx y
  if fmt.isFloat then
    match cc with
    | .eq => !nan && eqFx x y | .ne => nan || !eqFx x y | .lt => !nan && cmpLt x y | .le => !nan && (cmpLt x y || eqFx x y)
    | .gt => !nan && cmpLt y x | .ge => !nan && (cmpLt y x || eqFx x y)
  else
    match cc with
    | .eq => decide (m = n) | .ne => decide (m ≠ n) | .lt => decide (m < n) | .le => decide (m ≤ n)
    | .gt => decide (n < m) | .ge => decide (n ≤ m)

/-- Destination and truth value of every lane of an instruction that writes a predicate. -/
def predicateResult : Instr → Arch → Option (BitVec 4 × (Nat → Bool))
  | .cmp cc pd ra rb, a => some (pd, fun _ => holdsX cc (xAt a ra) (xAt a rb))
  | .vcmp cc fmt pd va vb, a => some (pd, fun l => holdsV fmt cc (lane (rdV a va) l) (lane (rdV a vb) l))
  | .pand pd pa pb, a => some (pd, fun l => bit (rdP a pa) l && bit (rdP a pb) l)
  | .por pd pa pb, a => some (pd, fun l => bit (rdP a pa) l || bit (rdP a pb) l)
  | .pxor pd pa pb, a => some (pd, fun l => (bit (rdP a pa) l).xor (bit (rdP a pb) l))
  | .pandn pd pa pb, a => some (pd, fun l => bit (rdP a pa) l && !bit (rdP a pb) l)
  | .pnot pd pa, a => some (pd, fun l => !bit (rdP a pa) l)
  | _, _ => none

/-! Vectors without rounding (04 R97 to R106) -/

/-- An integer operation on the low bits of three lanes, as wide as the element, zero above (03 R69; 04 R90). -/
def onInts (fmt : Fmt) (f : (k : Nat) → BitVec k → BitVec k → BitVec k → BitVec k) (x y z : Lane) : Lane :=
  match fmt with
  | .i8 => (f 8 (x.setWidth 8) (y.setWidth 8) (z.setWidth 8)).setWidth 32
  | _ => f 32 x y z

/-- The element format of a shift or a saturating sum. -/
def fmtOfI : IFmt → Fmt | .i32 => .i32 | .i8 => .i8

/-- A sum limited to the range of k bits (03 R79; 04 R99). -/
def clamp (k : Nat) (n : Int) : BitVec k := BitVec.ofInt k (max (-(2 ^ (k - 1))) (min (2 ^ (k - 1) - 1) n))

/-- The integer instructions of R98 and R99, element by element. -/
def integerLane : Instr → Option (Fmt × BitVec 6 × BitVec 6 × BitVec 6 × ((k : Nat) → BitVec k → BitVec k → BitVec k → BitVec k))
  | .vadd fmt _ vd va vb => some (fmt, vd, va, vb, fun _ x y _ => x + y)
  | .vsub fmt _ vd va vb => some (fmt, vd, va, vb, fun _ x y _ => x - y)
  | .vmul fmt _ vd va vb => some (fmt, vd, va, vb, fun _ x y _ => x * y)
  | .vfma fmt _ vd va vb => some (fmt, vd, va, vb, fun _ x y z => x * y + z)
  | .vfms fmt _ vd va vb => some (fmt, vd, va, vb, fun _ x y z => x * y - z)
  | .vfnma fmt _ vd va vb => some (fmt, vd, va, vb, fun _ x y z => z - x * y)
  | .vmin fmt vd va vb => some (fmt, vd, va, vb, fun _ x y _ => if x.sle y then x else y)
  | .vmax fmt vd va vb => some (fmt, vd, va, vb, fun _ x y _ => if x.sle y then y else x)
  | .vabs fmt vd va => some (fmt, vd, va, va, fun _ x _ _ => if x.msb then -x else x)
  | .vneg fmt vd va => some (fmt, vd, va, va, fun _ x _ _ => -x)
  | .vshl fmt vd va vb => some (fmtOfI fmt, vd, va, vb, fun k x y _ => x <<< (y.toNat % k))
  | .vshr fmt vd va vb => some (fmtOfI fmt, vd, va, vb, fun k x y _ => x >>> (y.toNat % k))
  | .vsra fmt vd va vb => some (fmtOfI fmt, vd, va, vb, fun k x y _ => x.sshiftRight (y.toNat % k))
  | .vadds fmt vd va vb => some (fmtOfI fmt, vd, va, vb, fun k x y _ => clamp k (x.toInt + y.toInt))
  | .vsubs fmt vd va vb => some (fmtOfI fmt, vd, va, vb, fun k x y _ => clamp k (x.toInt - y.toInt))
  | .vand vd va vb => some (.i32, vd, va, vb, fun _ x y _ => x &&& y)
  | .vor vd va vb => some (.i32, vd, va, vb, fun _ x y _ => x ||| y)
  | .vxor vd va vb => some (.i32, vd, va, vb, fun _ x y _ => x ^^^ y)
  | _ => none

/-- The number of set bits of a predicate below a lane. -/
def setBelow (p : Pred) (l : Nat) : Nat := (List.range l).countP (bit p)

/-- Destination, lanes that are written under guard g, and class of an instruction that moves lanes, or that takes the
lesser, the greater, the magnitude or the negative of floating elements (03 R83; 04 R98, R101 to R106). -/
def movedLane : Instr → Pred → Arch → Option (BitVec 6 × Pred × (Nat → Lane) × Nat)
  | .vmov vd va, g, a => some (vd, g, lane (rdV a va), 3)
  | .vsel vd va vb pc, g, a => some (vd, g, fun l => if bit (rdP a pc) l then lane (rdV a va) l else lane (rdV a vb) l, 3)
  | .vbcst vd ra, g, a => some (vd, g, fun _ => (xAt a ra).setWidth 32, 3)
  | .vins vd ra rb, g, a => some (vd, if (xAt a rb).toNat < 128 then g &&& (1#128 <<< (xAt a rb).toNat) else 0#128,
      fun _ => (xAt a ra).setWidth 32, 3)
  | .viota vd, g, _ => some (vd, g, fun l => BitVec.ofNat 32 l, 3)
  | .vcmpr vd va pb, g, a =>
    some (vd, g, fun l => (((List.range 128).filter (bit (rdP a pb))).map (lane (rdV a va))).getD l 0#32, 5)
  | .vexpd vd va pb, g, a => some (vd, g, fun l => if bit (rdP a pb) l then lane (rdV a va) (setBelow (rdP a pb) l) else 0#32, 5)
  | .xcopy vd va rb, g, a =>
    some (vd, g, fun l => lane (rdV a va) (16 * ((xAt a rb).toNat / 8 ^ (l / 16) % 8) + l % 16), 6)
  | .vmin fmt vd va vb, g, a => if fmt.isFloat then
      some (vd, g, fun l => BitVec.ofNat 32 (minmaxBits (ffOf fmt) false (elemBits fmt (lane (rdV a va) l)) (elemBits fmt (lane (rdV a vb) l))), 4)
    else none
  | .vmax fmt vd va vb, g, a => if fmt.isFloat then
      some (vd, g, fun l => BitVec.ofNat 32 (minmaxBits (ffOf fmt) true (elemBits fmt (lane (rdV a va) l)) (elemBits fmt (lane (rdV a vb) l))), 4)
    else none
  | .vabs fmt vd va, g, a => if fmt.isFloat then
      some (vd, g, fun l => BitVec.ofNat 32 (if isNanFx (elemFx fmt (lane (rdV a va) l)) then nanBits (ffOf fmt)
        else elemBits fmt (lane (rdV a va) l) % signBit (ffOf fmt)), 4)
    else none
  | .vneg fmt vd va, g, a => if fmt.isFloat then
      some (vd, g, fun l => BitVec.ofNat 32 (if isNanFx (elemFx fmt (lane (rdV a va) l)) then nanBits (ffOf fmt)
        else (elemBits fmt (lane (rdV a va) l)).xor (signBit (ffOf fmt))), 4)
    else none
  | _, _, _ => none

/-- A vector of 128 lanes. -/
def lanes (f : Nat → Lane) : VReg := (List.range 128).map f

/-- The guard value of every lane of the bundle that issues (02 R43). -/
def guardIn (s : State) : Pred := guardOf (getArch (atIssue s) s.cur) s.hdr

/-- The vector register that a name denotes when the bundle issues (04 R119). -/
def vReg (s : State) (n : Nat) : Dest := .v (physV (getArch (atIssue s) s.cur) n)

end Sys2Proof.Claims

/-- A comparison or a predicate operation queues the truth values of its lanes, for the lanes under the guard, and
changes nothing else (04 R93, R100, R107; 02 R43, R49). -/
def Obligations.PredicateResults : Prop :=
  ∀ (i : Instr) (s : State) (pd : BitVec 4) (f : Nat → Bool),
    predicateResult i (getArch (atIssue s) s.cur) = some (pd, f) → Ready i s →
    ∃ p : Pred, (∀ l < 128, bit p l = f l) ∧
      Completes i s (queued (.p pd.toNat) (.bits (guardIn s) p) 0#8 15 (started s))

/-- An integer or bitwise vector instruction queues its elements, computed modulo 2^32 or 2^8 or limited to that range,
for the lanes under the guard, and changes nothing else (03 R69, R79; 04 R97 to R99). -/
def Obligations.IntegerVectorResults : Prop :=
  ∀ (i : Instr) (s : State) (fmt : Fmt) (vd va vb : BitVec 6) (f : (k : Nat) → BitVec k → BitVec k → BitVec k → BitVec k),
    integerLane i = some (fmt, vd, va, vb, f) → fmt.isFloat = false → Ready i s →
    Completes i s (queued (vReg s vd.toNat) (.lanes (guardIn s) (lanes fun l =>
      let a := getArch (atIssue s) s.cur
      onInts fmt f (lane (rdV a va) l) (lane (rdV a vb) l) (lane (rdV a vd) l))) 0#8 3 (started s))

/-- A move, selection, compression, expansion or lane copy, and MIN, MAX, ABS and NEG of floating elements, queue
their lanes under the guard and change nothing else (03 R83; 04 R98, R101 to R106). -/
def Obligations.VectorMoves : Prop :=
  ∀ (i : Instr) (s : State) (vd : BitVec 6) (m : Pred) (f : Nat → Lane) (cls : Nat),
    movedLane i (guardIn s) (getArch (atIssue s) s.cur) = some (vd, m, f, cls) → Ready i s →
    Completes i s (queued (vReg s vd.toNat) (.lanes m (lanes f)) 0#8 cls (started s))

namespace Sys2Proof.Claims

open Sys2Proof Sys2Proof.Machine

/-! Rounded results (03 R76 to R82; 04 R98, R102; 05 R122 to R125) -/

/-- A lane-wise operation that rounds: destination, class, mode in force, and the bits and flags of lane l with the
random word w. -/
structure Rounded where
  vd   : BitVec 6
  cls  : Nat
  mode : Mode
  f    : Nat → Nat → Nat × BitVec 8

/-- An arithmetic operation on the floating elements of three registers. -/
def arith (fmt : Fmt) (rm : RM) (vd va vb : BitVec 6) (a : Arch)
    (f : FF → Fx → Fx → Fx → Mode → Nat → Nat × BitVec 8) : Option Rounded :=
  if fmt.isFloat then
    let x (r : BitVec 6) (l : Nat) : Fx := elemFx fmt (lane (rdV a r) l)
    some ⟨vd, 4, modeOf rm a.fctl, fun l w => f (ffOf fmt) (x va l) (x vb l) (x vd l) (modeOf rm a.fctl) w⟩
  else none

/-- A function of slot F. -/
def special (fn : SFn) (fmt : Fmt) (rm : RM) (vd va : BitVec 6) (a : Arch) : Option Rounded :=
  some ⟨vd, 7, modeOf rm a.fctl, fun l w => fnElem fn (ffOf fmt) (modeOf rm a.fctl) (elemBits fmt (lane (rdV a va) l)) w⟩

/-- The conversions whose result may need rounding (04 R102): all from F32, a narrowing of a 16-bit format or its
conversion to an integer, and an integer of 32 bits into a floating format. -/
def converts (fmt sfmt : Fmt) : Bool :=
  (sfmt == .f32) || ((sfmt == .bf16 || sfmt == .f16) && fmt != .f32) || (sfmt == .i32 && fmt.isFloat)

/-- One converted element (03 R77, R79; 04 R102). -/
def converted (fmt sfmt : Fmt) (mode : Mode) (x : Lane) (w : Nat) : Nat × BitVec 8 :=
  let n := signedN (widthOf sfmt) x.toNat
  match sfmt.isFloat, fmt.isFloat with
  | true, true => roundTo (ffOf fmt) (elemFx sfmt x) mode w
  | true, false => (wrapN (widthOf fmt) (toIntR (widthOf fmt) (elemFx sfmt x) mode w).1, (toIntR (widthOf fmt) (elemFx sfmt x) mode w).2)
  | false, true => roundTo (ffOf fmt) (fxOfInt n) mode w
  | false, false => (wrapN (widthOf fmt) (satInt (widthOf fmt) n), 0#8)

/-- The lane-wise instructions that round. -/
def rounded : Instr → Arch → Option Rounded
  | .vadd fmt rm vd va vb, a => arith fmt rm vd va vb a fun f x y _ m w => addR f x y m w
  | .vsub fmt rm vd va vb, a => arith fmt rm vd va vb a fun f x y _ m w => addR f x (negFx y) m w
  | .vmul fmt rm vd va vb, a => arith fmt rm vd va vb a fun f x y _ m w => mulR f x y m w
  | .vfma fmt rm vd va vb, a => arith fmt rm vd va vb a fun f x y z m w => fmaR f x y z false false m w
  | .vfms fmt rm vd va vb, a => arith fmt rm vd va vb a fun f x y z m w => fmaR f x y z false true m w
  | .vfnma fmt rm vd va vb, a => arith fmt rm vd va vb a fun f x y z m w => fmaR f x y z true false m w
  | .exp2 fmt rm vd va, a => special .exp2 fmt rm vd va a
  | .log2 fmt rm vd va, a => special .log2 fmt rm vd va a
  | .rcp fmt rm vd va, a => special .rcp fmt rm vd va a
  | .rsq fmt rm vd va, a => special .rsq fmt rm vd va a
  | .sin fmt rm vd va, a => special .sin fmt rm vd va a
  | .cos fmt rm vd va, a => special .cos fmt rm vd va a
  | .tanh fmt rm vd va, a => special .tanh fmt rm vd va a
  | .erf fmt rm vd va, a => special .erf fmt rm vd va a
  | .vcvt fmt rm sfmt vd va, a =>
    let mode := if converts fmt sfmt then modeOf rm a.fctl else .rne
    some ⟨vd, 5, mode, fun l w => converted fmt sfmt mode (lane (rdV a va) l) w⟩
  | _, _ => none

/-- The generator of a lane (03 R82). -/
def gen (a : Arch) (l : Nat) : Word := a.rng.getD l 0#64

/-- The random word of a lane: under RS the top 16 bits of the generator's next output (03 R80, R82). -/
def wordFor (m : Mode) (a : Arch) (l : Nat) : Nat := if m = .rs then (nextRand (gen a l)).2.toNat / 2 ^ 48 else 0

/-- The generators after a rounding instruction: under RS every guarded lane has taken one step (03 R81, R82). -/
def stepped (m : Mode) (g : Pred) (a : Arch) : Arch :=
  if m = .rs then { a with rng := (List.range 128).map fun l => if bit g l then (nextRand (gen a l)).1 else gen a l } else a

/-- The flags of the guarded lanes together (03 R84). -/
def flagsOf (g : Pred) (f : Nat → BitVec 8) : BitVec 8 :=
  (List.range 128).foldl (fun fl l => if bit g l then fl ||| f l else fl) 0#8

/-! Reductions to a scalar register (03 R85, R86; 04 R101, R105, R107; 05 R130) -/

/-- The lanes that take part: guarded and set in the predicate (04 R105). -/
def taking (g p : Pred) : List Nat := (List.range 128).filter fun l => bit g l && bit p l

/-- The greatest or least of a list of integers, from the end of the range. -/
def extremum (isMax : Bool) (ns : List Int) : Int :=
  ns.foldl (fun a b => if isMax then max a b else min a b) (if isMax then -(2 ^ 63) else 2 ^ 63 - 1)

/-- Destination, class and value of an instruction that reduces lanes to a word without rounding. -/
def reducedWord : Instr → Pred → Arch → Option (BitVec 6 × Nat × Word)
  | .vext rd va rb, _, a =>
    some (rd, 3, if (xAt a rb).toNat < 128 then (lane (rdV a va) (xAt a rb).toNat).setWidth 64 else 0#64)
  | .pcnt rd pa, _, a => some (rd, 3, BitVec.ofNat 64 (setBelow (rdP a pa) 128))
  | .pfirst rd pa, _, a => some (rd, 3, BitVec.ofNat 64 (((List.range 128).find? fun l => bit (rdP a pa) l).getD 128))
  | .vrsum fmt _ rd va pb, g, a =>
    if fmt.isFloat then none
    else some (rd, 6, BitVec.ofInt 64 ((taking g (rdP a pb)).map fun l => signedN (widthOf fmt) (lane (rdV a va) l).toNat).sum)
  | .vrmax fmt rd va pb, g, a =>
    let ls := taking g (rdP a pb)
    some (rd, 6, if fmt.isFloat then
        BitVec.ofNat 64 ((ls.map fun l => elemBits fmt (lane (rdV a va) l)).foldl (minmaxBits (ffOf fmt) true)
          (signBit (ffOf fmt) + infBits (ffOf fmt)))
      else BitVec.ofInt 64 (extremum true (ls.map fun l => signedN (widthOf fmt) (lane (rdV a va) l).toNat)))
  | .vrmin fmt rd va pb, g, a =>
    let ls := taking g (rdP a pb)
    some (rd, 6, if fmt.isFloat then
        BitVec.ofNat 64 ((ls.map fun l => elemBits fmt (lane (rdV a va) l)).foldl (minmaxBits (ffOf fmt) false) (infBits (ffOf fmt)))
      else BitVec.ofInt 64 (extremum false (ls.map fun l => signedN (widthOf fmt) (lane (rdV a va) l).toNat)))
  | _, _, _ => none

/-- Key x displaces key y as the greatest or the least: a NaN never does, and always gives way (05 R130). -/
def outranks (k : KF) (isMax : Bool) (x y : Lane) : Bool :=
  !keyNan k x && (keyNan k y || if isMax then keyBelow k y x else keyBelow k x y)

/-- The word of VMAXI and VMINI for the lanes that take part: 128 when there is none; else the key and the number of
the lowest lane that no lane displaces (05 R130). -/
def IndexedWord (k : KF) (isMax : Bool) (ls : List Nat) (v : VReg) (w : Word) : Prop :=
  (ls = [] ∧ w = 128#64) ∨
  ∃ b ∈ ls, (∀ l ∈ ls, outranks k isMax (lane v l) (lane v b) = false) ∧
    (∀ l ∈ ls, l < b → outranks k isMax (lane v b) (lane v l) = true) ∧
    w = BitVec.ofNat 64 ((if keyNan k (lane v b) then nanBits (ffOf (kfFmt k)) else elemBits (kfFmt k) (lane v b)) * 2 ^ 32 + b)

/-- The instruction, its direction, format, destination, vector and predicate. -/
def indexedForm : Instr → Option (Bool × KF × BitVec 6 × BitVec 6 × BitVec 4)
  | .vmaxi kf rd va pb => some (true, kf, rd, va, pb)
  | .vmini kf rd va pb => some (false, kf, rd, va, pb)
  | _ => none

/-! Sorting (05 R129, R131) -/

/-- Lane m ranks before lane n: by key in the direction, then by index (05 R128, R129). -/
def laneBefore (k : KF) (desc : Bool) (keys : VReg) (idx : Option VReg) (m n : Nat) : Bool :=
  let x := lane keys m
  let y := lane keys n
  let below (p q : Lane) : Bool := if desc then keyBelow k q p else keyBelow k p q
  below x y || (!below y x && match idx with | some i => (lane i m).ult (lane i n) | none => false)

/-- The lane whose key a stage of the network moves to lane l (05 R129). -/
def stageFrom (k : KF) (desc : Bool) (j db : Nat) (keys : VReg) (idx : Option VReg) (l : Nat) : Nat :=
  let lo := if l.testBit j then l - 2 ^ j else l
  let hi := lo + 2 ^ j
  let d := if db = 7 then desc else desc.xor (lo.testBit db)
  if laneBefore k d keys idx hi lo then (if l = lo then hi else lo) else l

end Sys2Proof.Claims

/-- A lane-wise operation that rounds queues the rounded bits of every guarded lane with their flags; under RS each
guarded lane takes one word from its own generator, and no other generator moves; nothing else changes
(03 R76 to R84; 04 R98, R102; 05 R122 to R125). -/
def Obligations.RoundedResults : Prop :=
  ∀ (i : Instr) (s : State) (r : Rounded),
    rounded i (getArch (atIssue s) s.cur) = some r → Ready i s →
    let a := getArch (atIssue s) s.cur
    let g := guardIn s
    Completes i s (queued (vReg s r.vd.toNat)
      (.lanes g (lanes fun l => if bit g l then BitVec.ofNat 32 (r.f l (wordFor r.mode a l)).1 else 0#32))
      (flagsOf g fun l => (r.f l (wordFor r.mode a l)).2) r.cls (modArch s.cur (stepped r.mode g) (started s)))

/-- An extraction, a count, a search and a reduction without rounding queue their word; the sum of floating lanes is that
of the fixed tree over 128 leaves, where a lane that does not take part counts as minus zero, and its additions take their
random words from the lowest guarded lane below them; VMAXI and VMINI queue the key and the number of the lowest lane that
no lane displaces; nothing else changes (03 R85, R86; 04 R101, R105, R107; 05 R130). -/
def Obligations.Reductions : Prop :=
  (∀ (i : Instr) (s : State) (rd : BitVec 6) (cls : Nat) (w : Word),
     reducedWord i (guardIn s) (getArch (atIssue s) s.cur) = some (rd, cls, w) → Ready i s →
     Completes i s (queued (.x rd.toNat) (.word w) 0#8 cls (started s))) ∧
  (∀ (s : State) (fmt : Fmt) (rm : RM) (rd va : BitVec 6) (pb : BitVec 4),
     fmt.isFloat = true → Ready (.vrsum fmt rm rd va pb) s →
     let a := getArch (atIssue s) s.cur
     let leaf (l : Nat) : Node :=
       (if l ∈ taking (guardIn s) (rdP a pb) then elemBits fmt (lane (rdV a va) l) else signBit (ffOf fmt),
        if bit (guardIn s) l then some l else none)
     ∃ y fl rng, addTree (ffOf fmt) (modeOf rm a.fctl) 7 ((List.range 128).map leaf) a.rng = (y, fl, rng) ∧
       Completes (.vrsum fmt rm rd va pb) s (queued (.x rd.toNat) (.word (BitVec.ofNat 64 y)) fl 6
         (modArch s.cur (fun b => { b with rng := rng }) (started s)))) ∧
  (∀ (i : Instr) (s : State) (isMax : Bool) (kf : KF) (rd va : BitVec 6) (pb : BitVec 4),
     indexedForm i = some (isMax, kf, rd, va, pb) → Ready i s →
     let a := getArch (atIssue s) s.cur
     ∃ w, IndexedWord kf isMax (taking (guardIn s) (rdP a pb)) (rdV a va) w ∧
       Completes i s (queued (.x rd.toNat) (.word w) 0#8 8 (started s)))

/-- A compare-exchange moves each lane's key, and with CXSI its index, from the lane that the stage of the sorting
network names; VNORMSEL queues the renormalised weights of its blocks; nothing else changes (05 R129, R131). -/
def Obligations.SortResults : Prop :=
  (∀ (s : State) (kf : KF) (desc : Bool) (vd va : BitVec 6) (j db : BitVec 3), Ready (.cxs kf desc vd va j db) s →
    let x := rdV (getArch (atIssue s) s.cur) va
    Completes (.cxs kf desc vd va j db) s (queued (vReg s vd.toNat)
      (.lanes (guardIn s) (lanes fun l => lane x (stageFrom kf desc j.toNat db.toNat x none l))) 0#8 8 (started s))) ∧
  (∀ (s : State) (kf : KF) (desc : Bool) (vd va : BitVec 6) (j db : BitVec 3), Ready (.cxsi kf desc vd va j db) s →
    let a := getArch (atIssue s) s.cur
    let x := rdV a va
    let n := rdVN a (va.toNat + 1)
    let moved (v : VReg) : Val := .lanes (guardIn s) (lanes fun l => lane v (stageFrom kf desc j.toNat db.toNat x (some n) l))
    ∃ u, u = modCtx s.cur (fun y => { y with nextId := y.nextId + 1 }) (queued (vReg s vd.toNat) (moved x) 0#8 8 (started s)) ∧
      Completes (.cxsi kf desc vd va j db) s (queued (vReg s (vd.toNat + 1)) (moved n) 0#8 8 u)) ∧
  (∀ (s : State) (kf : KF) (vd va : BitVec 6) (pb : BitVec 4) (j : BitVec 3), Ready (.vnormsel kf vd va pb j) s →
    let a := getArch (atIssue s) s.cur
    let n := 2 ^ (j.toNat + 1)
    let takes (l : Nat) : Bool := bit (guardIn s) l && bit (rdP a pb) l
    let blocks := (List.range (128 / n)).map fun b => normBlock kf (j.toNat + 1) (b * n) takes (rdV a va)
    Completes (.vnormsel kf vd va pb j) s (queued (vReg s vd.toNat)
      (.lanes (guardIn s) (blocks.flatMap fun b => b.1.map fun e => BitVec.ofNat 32 e.1))
      ((blocks.flatMap (·.1)).foldl (fun f e => f ||| e.2) (blocks.foldl (fun f b => f ||| b.2) 0#8)) 8 (started s)))

/-- RND queues one value of each guarded lane's generator, which takes one step; SEED sets the generators of the guarded
lanes from the word and the lane number; no other generator and nothing else changes (03 R82; 05 R126, R127). -/
def Obligations.RandomNumbers : Prop :=
  (∀ (s : State) (fmt : Fmt) (vd : BitVec 6), Ready (.rnd fmt vd) s →
    let a := getArch (atIssue s) s.cur
    let g := guardIn s
    Completes (.rnd fmt vd) s (queued (vReg s vd.toNat)
      (.lanes g (lanes fun l => BitVec.ofNat 32 (rndBits fmt (if bit g l then (nextRand (gen a l)).2 else 0#64)))) 0#8 7
      (modArch s.cur (stepped .rs g) (started s)))) ∧
  (∀ (s : State) (ra : BitVec 6), Ready (.seed ra) s →
    let a := getArch (atIssue s) s.cur
    let seeded := (List.range 128).map fun l => if bit (guardIn s) l then mix (xAt a ra) l else gen a l
    Completes (.seed ra) s (modArch s.cur (fun b => { b with rng := seeded }) (started s)))

namespace Sys2Proof.Claims

open Sys2Proof Sys2Proof.Machine

/-! Branches (02 R39; 04 R108, R109, R114; 05 R135) -/

/-- The target of a branch at a signed distance in halfwords. -/
def target (pc : Nat) (off : Int) : Nat := (((pc : Int) + off) % 2 ^ 64).toNat

/-- Where a branch that is taken goes on: BR, BRC whose predicate bit differs from N, BKTJ with the first entry whose
capacity the count does not exceed. -/
def takenTo : Instr → Arch → Option Nat
  | .br off, a => some (target a.pc off.toInt)
  | .brc pc neg off, a => if bit (rdP a pc) 0 ≠ neg then some (target a.pc off.toInt) else none
  | .bktj tbl ra, a =>
    ((a.disp.getD tbl.toNat []).find? fun b => b.cap != 0 && decide ((xAt a ra).toNat ≤ b.cap)).map (·.pc)
  | _, _ => none

/-- A taken branch pops the first level whose range its target leaves, and every level inside it (04 R114). -/
def leftLevels (t : Nat) (a : Arch) : Arch :=
  let kept := a.loops.takeWhile fun l => decide (l.start ≤ t ∧ t < l.exit)
  { a with loops := kept, rotBase := if kept.length < a.loops.length then 0 else a.rotBase }

/-! Waits (06; 08 R206, R208; 12 R304; 14 R350) -/

/-- The condition under which a waiting instruction goes on at once. -/
def waitOver : Instr → State → Prop
  | .waitt ra, s => (getCtx s s.cur).tags &&& xAt (getArch s s.cur) ra = xAt (getArch s s.cur) ra
  | .waitany ra, s => (getCtx s s.cur).tags &&& xAt (getArch s s.cur) ra ≠ 0#64
  | .rbwait ring, s => ((getCore s (coreOf s.cur)).rings.getD ring.toNat {}).wptr ≠ ((getCore s (coreOf s.cur)).rings.getD ring.toNat {}).rptr
  | .agwait, s => ∀ r, (getCtx s s.cur).round = some r → r.decided ≠ none ∧ r.level ≠ (getCtx s s.cur).level
  | .ckwait, s => ∀ k ∈ (getDie s (dieOf s.cur)).ckpts, k.top ≠ domOf s s.cur
  | _, _ => False

/-- What a waiting instruction is blocked on while its condition does not hold (10 R256). -/
def waitKind : Instr → Option BlockKind
  | .waitt _ | .waitany _ | .rbwait _ | .ckwait => some .watched
  | .agwait => some .huddle
  | _ => none

/-- A WAITANY names a tag (08 R206). -/
def waitNames : Instr → State → Prop
  | .waitany ra, s => xAt (getArch s s.cur) ra ≠ 0#64
  | _, _ => True

/-- The core of the acting context issues from it no more (10 R255, R256). -/
def stops (s : State) : State :=
  modCore (coreOf s.cur) (fun k => if k.issuing = some (s.cur % 4) then { k with issuing := none, last := s.cur % 4 } else k) s

/-- Contexts of a core are tried one after another and none is ready: the state after that. -/
def Passed (k : Nat) : List Nat → State → State → Prop
  | [], s, w => w = s
  | m :: ms, s, w => (attempt (4 * k + m) s).1 = false ∧ Passed k ms (attempt (4 * k + m) s).2 w

/-! Special registers and status reads (01 R18; 02 R58 to R61; 06 R151; 08 R205, R206; 11 R282; 14 R334) -/

/-- A live link key of the program stands on the die (13 R325). -/
def linked (s : State) : Prop :=
  ∃ k ∈ s.keys, k.state = .live ∧ k.link = true ∧ k.die = dieOf s.cur ∧ k.top = domOf s s.cur

/-- The special registers as MFS reads them. -/
def special? (s : State) (n : Nat) : Word :=
  let c := s.cur
  let x := getCtx s c
  match n with
  | 0x000 => BitVec.ofNat 64 (x.rank * 2 ^ 32 + s.pkg * 2 ^ 24 + c / 256 * 2 ^ 16 + c / 4 % 64 / 8 * 2 ^ 13 + c / 4 % 8 * 2 ^ 10 + c % 4 * 2 ^ 8)
  | 0x001 => x.tags
  | 0x002 => x.arch.fstatus.setWidth 64
  | 0x003 => x.arch.fctl.setWidth 64
  | 0x004 => BitVec.ofNat 64 (getCore s (c / 4)).cycles
  | 0x008 => rowprogOf x.mx
  | 0x010 => x.agstate
  | 0x011 => BitVec.ofNat 64 (x.hold.length + (x.lsq.filter fun e => match e.kind with | .commit _ => true | _ => false).length)
  | 0x020 => x.trapcode
  | 0x021 => x.trappc
  | 0x022 => x.trapaddr
  | 0x023 => x.savearea
  | 0x030 => x.regionid
  | _ => 0#64

/-- Destination and value of a status read. -/
def statusRead : Instr → State → Option (BitVec 6 × Word)
  | .mfs rd n, s => some (rd, special? s n.toNat)
  | .ffrdy rd ra, s => some (rd, BitVec.ofNat 64 (((List.range 64).find? fun t =>
      bit (getCtx s s.cur).tags t && bit (xAt (getArch s s.cur) ra) t).getD 64))
  | .froute rd rb port, s => some (rd, routeWord s port (xAt (getArch s s.cur) rb))
  | _, _ => none

/-- A result of a variable class that is ready k cycles after the least latency (02 R34, R35). -/
def queuedLate (dst : Dest) (v : Val) (cls k : Nat) (s : State) : State :=
  modCtx s.cur (fun x => { x with arch := { x.arch with inflight := x.arch.inflight ++
    [{ id := x.nextId, dest := dst, due := nowOf s s.cur + latOf s s.cur cls
       late := decide (latOf s s.cur cls < nativeLat cls + k), ready := nowOf s s.cur + nativeLat cls + k, val := v }] } }) s

/-- The context after a write of a special register. -/
def specialWritten (now : Nat) : Instr → Ctx → Option Ctx
  | .mts n ra, x =>
    match n.toNat with
    | 0x021 => some { x with trappc := xAt x.arch ra &&& 0xF000000000FFFFFF#64 }
    | 0x023 => some { x with savearea := xAt x.arch ra &&& 0xFFFFFFFFFFFFFFC0#64 }
    | _ => none
  | .tagsWrite ra, x => some { x with tags := xAt x.arch ra &&& ~~~x.busy }
  | .fstatusWrite ra, x => some { x with arch := { x.arch with
      fstatus := (xAt x.arch ra).setWidth 8 ||| (if x.landed.1 = now then x.landed.2 else 0#8) } }
  | .fctlWrite ra, x => some { x with arch := { x.arch with
      fctl := if (xAt x.arch ra).toNat % 8 ≤ 4 then (xAt x.arch ra).setWidth 3 else 0#3 } }
  | .rowprogWrite ra, x =>
    if bit (xAt x.arch ra) 63 then some x else
    match x.mx.run with
    | some r => some (if r.suspended then { x with mx := { x.mx with run := none, cmds := x.mx.cmds.drop 1 } } else x)
    | none => some x
  | _, _ => none

end Sys2Proof.Claims

/-- A taken branch goes on at its target and pops the loop levels that the target leaves; a BRC that is not taken goes on
at the next PC; CALL goes on at its target and queues the next PC for its link; RET goes on at its register and pops
nothing (04 R108, R109, R114; 05 R135). -/
def Obligations.Branches : Prop :=
  (∀ (i : Instr) (s : State) (t : Nat), takenTo i (getArch (atIssue s) s.cur) = some t → Ready i s →
    ∃ v, exec i s = .next v ∧ Ends t (modArch s.cur (leftLevels t) (started s)) v) ∧
  (∀ (s : State) (pc : BitVec 4) (neg : Bool) (off : BitVec 19), bit (rdP (getArch (atIssue s) s.cur) pc) 0 = neg →
    Ready (.brc pc neg off) s → Completes (.brc pc neg off) s (started s)) ∧
  (∀ (s : State) (rd : BitVec 6) (off : BitVec 18), Ready (.call rd off) s →
    ∃ v, exec (.call rd off) s = .next v ∧ Ends (target (getArch (atIssue s) s.cur).pc off.toInt)
      (queued (.x rd.toNat) (.word (BitVec.ofNat 64 ((getArch s s.cur).pc + 1))) 0#8 0 (started s)) v) ∧
  (∀ (s : State) (ra : BitVec 6), Ready (.ret ra) s →
    ∃ v, exec (.ret ra) s = .next v ∧ Ends (xAt (getArch (atIssue s) s.cur) ra).toNat (started s) v)

/-- A wait (WAITT, WAITANY, RBWAIT, AGWAIT, CKWAIT) whose condition holds goes on at the next PC and changes nothing; one
whose condition does not hold blocks its context on the bundle, which stays at its PC, the core stops issuing from it, and
nothing else changes; a WAITANY that names no tag takes the fault 0x0A. YIELD goes on at the next PC and makes the core stop
issuing from its context: the core then issues from the first ready context after it, and where no other is ready it goes on
with the same one, whose quantum begins anew, and with no other effect (08 R206, R208; 10 R255, R256; 12 R304; 14 R350). -/
def Obligations.Waits : Prop :=
  ((∀ (i : Instr) (s : State), waitOver i (started s) → Ready i s → Completes i s (started s)) ∧
   (∀ s : State, Ready .yield s → Completes .yield s (stops (started s)))) ∧
  ((∀ (i : Instr) (s : State) (k : BlockKind), waitKind i = some k → ¬waitOver i (started s) → waitNames i (started s) → Ready i s →
      ∃ v, exec i s = .next v ∧ (getCtx v s.cur).block.map (·.1) = some k ∧ getArch v s.cur = getArch (atIssue s) s.cur ∧
        (getCore v (coreOf s.cur)).issuing ≠ some (s.cur % 4) ∧
        State.calm s.cur v = State.calm s.cur (stops (started s)) ∧ SameMem (started s) v) ∧
   (∀ (s : State) (ra : BitVec 6), xAt (getArch (atIssue s) s.cur) ra = 0#64 → Ready (.waitany ra) s →
      exec (.waitany ra) s = .next (trapEntry s.cur 0x0A#64 0#64 (atIssue s)))) ∧
  (∀ (s w : State) (k n m : Nat) (before after : List Nat), DieUp s (k / 64) → k < 256 → (getCore s k).issuing = none →
     (getCore s k).last = n → n < 4 → [(n + 1) % 4, (n + 2) % 4, (n + 3) % 4, n] = before ++ m :: after →
     Passed k before (noteReady k s) w → (attempt (4 * k + m) w).1 = true →
     exec (.bundleIssue k) s = .next (attempt (4 * k + m) (beginIssue k m w)).2 ∧
     ((getCore w k).last = m → (getCtx w (4 * k + m)).block = none →
       beginIssue k m w = modCtx (4 * k + m) (fun x => { x with quantum := 0 }) (modCore k (fun q => { q with issuing := some m }) w)))

/-- MFS, FFRDY and, where the program has a live link key, FROUTE queue the status word as it stands when they issue, due
after the stated latency and ready after at least two cycles, and change nothing else (02 R58, R60; 08 R206; 11 R282; 13 R325).
It rests on the model's choice of log 2. -/
def Obligations.StatusReads : Prop :=
  ∀ (i : Instr) (s : State) (rd : BitVec 6) (w : Word), statusRead i (started s) = some (rd, w) → Ready i s →
    ((∃ rb port, i = .froute rd rb port) → linked (started s)) →
    ∃ k, Completes i s (queuedLate (.x rd.toNat) (.word w) 14 k (started s))

/-- A write of a special register that its level may write changes that register alone: TAGS only where nothing is in
flight, FSTATUS with the flags that land in its cycle, FCTL with the modes that exist, ROWPROG only by abandoning a
suspended command (02 R61; 03 R76; 06 R151; 08 R205; 14 R334). -/
def Obligations.SpecialWrites : Prop :=
  ∀ (i : Instr) (s : State) (y : Ctx), Ready i s →
    specialWritten (nowOf (started s) s.cur) i (getCtx (started s) s.cur) = some y →
    Completes i s (modCtx s.cur (fun _ => y) (started s))

/-- KEYSEL.GEN makes an assigned slot of the issuer's domain live with a new key and changes nothing else; KEYSEL.KILL of
a live slot that no access holds any more leaves it assigned, drops its translations in every TLB of the die and its lines, and
gives its scratchpad frames back zeroed; while an access holds one, the context blocks and no new translation is formed
(13 R319, R320).
It rests on the model's choice of log 14. -/
def Obligations.Keys : Prop :=
  (∀ (s : State) (ra : BitVec 6), Ready (.keyselGen ra) s →
    let n := (xAt (getArch (atIssue s) s.cur) ra).toNat
    let k := (started s).keys.getD n {}
    n < 4096 → k.state = .assigned → k.die = dieOf s.cur → k.top = domOf (started s) s.cur → k.top ≠ 0 →
    Completes (.keyselGen ra) s { started s with
      keys := (started s).keys.modify n fun q => { q with state := .live, link := false, gen := q.gen + 1 } }) ∧
  (∀ (s : State) (ra : BitVec 6), Ready (.keyselKill ra) s →
    let n := (xAt (getArch (atIssue s) s.cur) ra).toNat
    let d := dieOf s.cur
    let k := (started s).keys.getD n {}
    n < 4096 → k.state ≠ .free → k.die = d → k.top = domOf (started s) s.cur → k.top ≠ 0 →
    (k.state = .live → keyHeld (started s) d n = true →
      ∃ v, exec (.keyselKill ra) s = .next v ∧ (getCtx v s.cur).block.map (·.1) = some .watched ∧
        v.keys = (started s).keys ∧ (∀ top, keyOk v d top n = false) ∧
        getArch v s.cur = getArch (atIssue s) s.cur ∧ SameMem (started s) v) ∧
    ((k.state = .live → keyHeld (started s) d n = false) →
    ∃ v, exec (.keyselKill ra) s = .next v ∧ (v.keys.getD n {}).state = .assigned ∧
      (k.state = .live → (∀ e ∈ tlbsOf v d, leafOkey e.leaf ≠ n) ∧
        (∀ f ∈ (getDie v d).frames, ¬(f.1 = .scratch ∧ f.2.2 = .slot n)) ∧
        (∀ b ∈ (getDie v d).basin, ¬(b.okey = n ∧ b.gen = k.gen)) ∧
        (∀ f a, (.scratch, f, .slot n) ∈ (getDie (started s) d).frames → scratchBase + f * 65536 ≤ a → a < scratchBase + (f + 1) * 65536 →
          readByte (getDie v d).mem a = 0#8))))

namespace Sys2Proof.Claims

open Sys2Proof Sys2Proof.Machine

/-! Accesses (08 R186 to R193, R213 to R217; 09 R225, R240) -/

/-- A scalar or vector access as its operands give it: bytes `runs` from an aligned base. -/
structure Access where
  strong : Bool
  kind   : LsKind
  align  : Nat
  need   : Need
  base   : Word
  runs   : List (Nat × Nat)
  ep     : Nat := 0
  na     : Bool := false
  dst    : Dest := .none
  data   : List Byte := []

/-- Base plus a signed offset counted in units of the access (08 R187, R188). -/
def at_ (base : Word) (off : BitVec 6) (unit : Nat) : Word := base + off.signExtend 64 * BitVec.ofNat 64 unit

/-- Bytes of a scalar access. -/
def bytesX : Size → Nat | .d64 => 8 | .d32 => 4 | .d16 => 2 | .d8 => 1

/-- Bytes of an element. -/
def bytesV : Fmt → Nat | .f32 | .i32 => 4 | .bf16 | .f16 => 2 | .i8 => 1

/-- The bytes of the active lanes of a vector, lane 0 at the lowest address (04 R90; 08 R188). -/
def laneBytes (fmt : Fmt) (g : Pred) (v : VReg) : List Byte :=
  ((List.range 128).filter (bit g)).flatMap fun l => bytesOf (bytesV fmt) (lane v l).toNat

def loadX? (strong : Bool) (sz : Size) (ep : BitVec 2) (na : Bool) (rd ra off : BitVec 6) (a : Arch) : Access :=
  { strong := strong, kind := .load, align := bytesX sz, need := { r := true }, base := at_ (xAt a ra) off (bytesX sz)
    runs := [(0, bytesX sz)], ep := ep.toNat, na := na, dst := .x rd.toNat }

def loadV? (strong : Bool) (fmt : Fmt) (ep : BitVec 2) (na : Bool) (vd ra off : BitVec 6) (g : Pred) (a : Arch) : Access :=
  { strong := strong, kind := .vload fmt g, align := bytesV fmt, need := { r := true, fmt := fmtVec fmt }
    base := at_ (xAt a ra) off (128 * bytesV fmt), runs := vecRuns g (bytesV fmt), ep := ep.toNat, na := na
    dst := .v (physV a vd.toNat) }

/-- The four loads. -/
def loadOf : Instr → Pred → Arch → Option Access
  | .ld sz ep na rd ra off, _, a => some (loadX? false sz ep na rd ra off a)
  | .ldS sz ep na rd ra off, _, a => some (loadX? true sz ep na rd ra off a)
  | .vld fmt ep na vd ra off, g, a => some (loadV? false fmt ep na vd ra off g a)
  | .vldS fmt ep na vd ra off, g, a => some (loadV? true fmt ep na vd ra off g a)
  | _, _, _ => none

def storeX? (strong : Bool) (sz : Size) (ep : BitVec 2) (na : Bool) (rs ra off : BitVec 6) (a : Arch) : Access :=
  { strong := strong, kind := .store, align := bytesX sz, need := { w := true }, base := at_ (xAt a ra) off (bytesX sz)
    runs := [(0, bytesX sz)], ep := ep.toNat, na := na, data := bytesOf (bytesX sz) (xAt a rs).toNat }

def storeV? (strong : Bool) (fmt : Fmt) (ep : BitVec 2) (na : Bool) (vs ra off : BitVec 6) (g : Pred) (a : Arch) : Access :=
  { strong := strong, kind := .vstore (bytesV fmt) g, align := bytesV fmt, need := { w := true, fmt := fmtVec fmt }
    base := at_ (xAt a ra) off (128 * bytesV fmt), runs := vecRuns g (bytesV fmt), ep := ep.toNat, na := na
    data := laneBytes fmt g (rdV a vs) }

/-- The four stores. -/
def storeOf : Instr → Pred → Arch → Option Access
  | .st sz ep na rs ra off, _, a => some (storeX? false sz ep na rs ra off a)
  | .stS sz ep na rs ra off, _, a => some (storeX? true sz ep na rs ra off a)
  | .vst fmt ep na vs ra off, g, a => some (storeV? false fmt ep na vs ra off g a)
  | .vstS fmt ep na vs ra off, g, a => some (storeV? true fmt ep na vs ra off g a)
  | _, _, _ => none

/-- The places of an access after the checks of R186, and the state with the translations that they cached. -/
def Places (f : Access) (s : State) (segs : List Seg) (t : State) : Prop :=
  accessSegs s.cur f.align f.need f.base f.runs (started s) = (.ok segs, t)

/-- An entry of the acting context's LS queues, of the present stretch; a strong one ends it (09 R223, R225). -/
def enter (e : Nat → LsEntry) (s : State) : State :=
  modCtx s.cur (fun x => { x with
    lsq := x.lsq ++ [{ e x.nextId with stretch := x.stretch }]
    stretch := if (e x.nextId).strong then x.stretch + 1 else x.stretch }) s

/-- A result whose value comes with the access: due after the stated latency; whether it is late is open (02 R35). -/
def pendingFor (dst : Dest) (cls : Nat) (late : Bool) (s : State) : State :=
  modCtx s.cur (fun x => { x with arch := { x.arch with inflight := x.arch.inflight ++
    [{ id := x.nextId, dest := dst, due := nowOf s s.cur + latOf s s.cur cls
       late := decide (latOf s s.cur cls < nativeLat cls) || late, ready := nowOf s s.cur + nativeLat cls, val := .pending }] } }) s

/-- The queue entry of a load at its places. -/
def loadEntry (f : Access) (segs : List Seg) (x : Ctx) (n : Nat) : LsEntry :=
  { id := n, inL := true, inS := false, strong := f.strong, kind := f.kind, segs := segs
    got := List.replicate (totalLen segs) none, ovl := heldOver x segs, ep := f.ep, na := f.na, level := x.level, res := some n }

/-- The queue entry of a store at its places. -/
def storeEntry (f : Access) (segs : List Seg) (x : Ctx) (n : Nat) : LsEntry :=
  { id := n, inL := false, inS := true, strong := f.strong, kind := f.kind, segs := segs, data := f.data
    ep := f.ep, na := f.na, level := x.level }

/-- The atomics: at home in the M slots or at the home slice, operation and size (08 R213 to R215). -/
def atomicOf : Instr → Option (Bool × Nat × Nat × BitVec 6 × BitVec 6 × BitVec 6)
  | .aadd sz rd ra rb => some (false, 0, ASize.bytes sz, rd, ra, rb)
  | .aand sz rd ra rb => some (false, 1, ASize.bytes sz, rd, ra, rb)
  | .aor sz rd ra rb => some (false, 2, ASize.bytes sz, rd, ra, rb)
  | .axor sz rd ra rb => some (false, 3, ASize.bytes sz, rd, ra, rb)
  | .amin sz rd ra rb => some (false, 4, ASize.bytes sz, rd, ra, rb)
  | .amax sz rd ra rb => some (false, 5, ASize.bytes sz, rd, ra, rb)
  | .aswp sz rd ra rb => some (false, 6, ASize.bytes sz, rd, ra, rb)
  | .cas sz rd ra rb => some (false, 7, ASize.bytes sz, rd, ra, rb)
  | .afadd rd ra rb => some (false, 8, 4, rd, ra, rb)
  | .aaddH sz rd ra rb => some (true, 0, ASize.bytes sz, rd, ra, rb)
  | .aandH sz rd ra rb => some (true, 1, ASize.bytes sz, rd, ra, rb)
  | .aorH sz rd ra rb => some (true, 2, ASize.bytes sz, rd, ra, rb)
  | .axorH sz rd ra rb => some (true, 3, ASize.bytes sz, rd, ra, rb)
  | .aminH sz rd ra rb => some (true, 4, ASize.bytes sz, rd, ra, rb)
  | .amaxH sz rd ra rb => some (true, 5, ASize.bytes sz, rd, ra, rb)
  | .aswpH sz rd ra rb => some (true, 6, ASize.bytes sz, rd, ra, rb)
  | .casH sz rd ra rb => some (true, 7, ASize.bytes sz, rd, ra, rb)
  | .afaddH rd ra rb => some (true, 8, 4, rd, ra, rb)
  | _ => none

/-- The reductions without result. -/
def reduceOf : Instr → Option (Bool × BitVec 6 × BitVec 6 × BitVec 6 × BitVec 6)
  | .ared op ra rb rv => some (false, op, ra, rb, rv)
  | .aredH op ra rb rv => some (true, op, ra, rb, rv)
  | _ => none

/-- An atomic enters both LS queues, or, at the home slice, the path of its context there. -/
def ship (home : Bool) (e : Nat → LsEntry) (s : State) : State :=
  if home then modCtx s.cur (fun x => { x with bk := x.bk ++ [e x.nextId] }) s else enter e s

/-- The page needs of an atomic: scratchpad in the M slots, basin or DRAM at the home slice (03 R75; 08 R213). -/
def atomicNeed (home : Bool) (fmt : Nat → Bool) : Need :=
  { r := true, w := true, fmt := fmt, kind := if home then noScratch else onlyScratch }

/-- A place in the scratchpad whose word is read or written at the head of both LS queues: the queues are drained, the
context's turn has come, and nothing there is poisoned or unseen. -/
structure AtHead (f : Access) (s : State) (g : Seg) (w : State) : Prop where
  places : ∃ t, Places f s [g] t ∧ w = drainLs s.cur t
  alone  : (getDie w (dieOf s.cur)).waiters = []
  clean  : (getDie w (dieOf s.cur)).poison = []
  seen   : (getDie w (dieOf s.cur)).unseen = []
  word   : isScratch g.pa = true ∧ g.pa % 4 = 0 ∧ g.len = 4
  mem    : MemOk w

/-- LDF, STE, JOIN.W, JOIN of a register: one aligned word of the scratchpad. -/
def wordAccess (base : Word) (need : Need) : Access :=
  { strong := true, kind := .join, align := 4, need := { need with kind := onlyScratch }, base := base, runs := [(0, 4)] }

end Sys2Proof.Claims

/-- A load whose places pass the checks enters the load queue, its result is in flight, and nothing else changes: its
class is 9 where every byte lies in a scratchpad and 10 elsewhere (02 R34, R35; 08 R186 to R188; 09 R225, R240).
It rests on the model's choice of log 2. -/
def Obligations.Loads : Prop :=
  ∀ (i : Instr) (s t : State) (f : Access) (segs : List Seg),
    loadOf i (guardIn s) (getArch (atIssue s) s.cur) = some f → Ready i s → Places f s segs t →
    ∃ late, Completes i s (enter (loadEntry f segs (getCtx t s.cur))
      (pendingFor f.dst (if ∀ g ∈ segs, isScratch g.pa then 9 else 10) late t))

/-- A store whose places pass the checks enters the store queue with the bytes of its register; while the context runs
ahead it enters the hold buffer; memory and everything else stay (08 R186 to R188; 09 R225, R240; 12 R307). -/
def Obligations.Stores : Prop :=
  ∀ (i : Instr) (s t : State) (f : Access) (segs : List Seg),
    storeOf i (guardIn s) (getArch (atIssue s) s.cur) = some f → Ready i s → Places f s segs t →
    (runsAhead (getCtx t s.cur) = false → Completes i s (enter (storeEntry f segs (getCtx t s.cur)) t)) ∧
    (let hs := heldOf f.strong segs f.data f.ep f.na
     runsAhead (getCtx t s.cur) = true → holdCount (getCtx t s.cur) + hs.length ≤ 1024 →
      Completes i s (modCtx s.cur (fun x => { x with hold := x.hold ++ hs }) t))

/-- A misaligned scalar or vector access takes the fault 0x07 with its address at its bundle (08 R186 to R188; 14 R328). -/
def Obligations.MisalignedAccess : Prop :=
  ∀ (i : Instr) (s : State) (f : Access),
    (loadOf i (guardIn s) (getArch (atIssue s) s.cur) = some f ∨ storeOf i (guardIn s) (getArch (atIssue s) s.cur) = some f) →
    Ready i s → f.base.toNat % f.align ≠ 0 → exec i s = .next (trapEntry s.cur 0x07#64 f.base (atIssue s))

/-- A returning atomic whose word passes the checks is shipped to its bank with its operand and its compare value, and
its result of class 11 is in flight; nothing else changes (08 R213 to R215; 09 R225, R231).
It rests on the model's choice of log 2. -/
def Obligations.Atomics : Prop :=
  ∀ (i : Instr) (s t : State) (home : Bool) (op n : Nat) (rd ra rb : BitVec 6) (segs : List Seg),
    atomicOf i = some (home, op, n, rd, ra, rb) → Ready i s →
    let a := getArch (atIssue s) s.cur
    accessSegs s.cur n (atomicNeed home (fmtAtomic op n)) (xAt a ra) [(0, n)] (started s) = (.ok segs, t) →
    let e (k : Nat) : LsEntry :=
      { id := k, inL := true, inS := true, strong := true, kind := .atomic op (xAt a rd), segs := segs
        data := bytesOf n (xAt a rb).toNat, level := (getCtx t s.cur).level, res := some k }
    ∃ late, Completes i s (ship home e (pendingFor (.x rd.toNat) 11 late t))

/-- A reduction whose word and whose directed address pass the checks is shipped to its bank; nothing else changes
(08 R210, R216; 09 R225). -/
def Obligations.ReductionsShipped : Prop :=
  ∀ (i : Instr) (s t u : State) (home : Bool) (op ra rb rv : BitVec 6) (segs : List Seg) (dir : Option (Seg × Nat)),
    reduceOf i = some (home, op, ra, rb, rv) → Ready i s →
    let a := getArch (atIssue s) s.cur
    let n := opSize op.toNat
    accessSegs s.cur n (atomicNeed home (fmtOp op.toNat)) (xAt a ra) [(0, n)] (started s) = (.ok segs, t) →
    directedSeg s.cur n (fmtOp op.toNat) (xAt a rv) t = (.ok dir, u) →
    let e (k : Nat) : LsEntry :=
      { id := k, inL := true, inS := true, strong := true, kind := .ared op (dir.map (·.1)) (dir.map (·.2)), segs := segs
        data := bytesOf n (xAt a rb).toNat, level := (getCtx u s.cur).level }
    Completes i s (ship home e u)

/-- LDF of a full word empties it and has its bytes in flight for its register; STE of an empty word fills it with the
low half of its register; both act behind the context's earlier accesses, and no other byte and no other full/empty bit
changes; a word that an LDF empties admits the STE that waits for it (08 R190 to R192; 09 R233).
It rests on the model's choice of log 13. -/
def Obligations.FullEmptyWords : Prop :=
  (∀ (s w : State) (g : Seg) (rd ra off : BitVec 6), Ready (.ldf rd ra off) s →
    AtHead (wordAccess (at_ (xAt (getArch (atIssue s) s.cur) ra) off 4) { r := true }) s g w →
    isFull (getDie w (dieOf s.cur)) g.pa = true →
    ∃ v, exec (.ldf rd ra off) s = .next v ∧ SameMem w v ∧ (getArch v s.cur).pc = (getArch s s.cur).pc + 1 ∧
      (∀ b, isFull (getDie v (dieOf s.cur)) b = (isFull (getDie w (dieOf s.cur)) b && decide (b / 4 ≠ g.pa / 4))) ∧
      ∃ r ∈ (getArch v s.cur).inflight, r.dest = .x rd.toNat ∧ r.poisoned = false ∧
        r.val = .word (wordOf (readRun (getDie w (dieOf s.cur)).mem g.pa 4))) ∧
  (∀ (s w : State) (g : Seg) (rs ra off : BitVec 6), Ready (.ste rs ra off) s →
    AtHead (wordAccess (at_ (xAt (getArch (atIssue s) s.cur) ra) off 4) { w := true }) s g w →
    isFull (getDie w (dieOf s.cur)) g.pa = false →
    ∃ v, exec (.ste rs ra off) s = .next v ∧ getArch v s.cur = { getArch w s.cur with pc := (getArch s s.cur).pc + 1 } ∧
      (∀ b, isFull (getDie v (dieOf s.cur)) b = (isFull (getDie w (dieOf s.cur)) b || decide (b / 4 = g.pa / 4))) ∧
      readRun (getDie v (dieOf s.cur)).mem g.pa 4 = bytesOf 4 (xAt (getArch (atIssue s) s.cur) rs).toNat ∧
      ∀ d b, ¬(d = dieOf s.cur ∧ g.pa ≤ b ∧ b < g.pa + 4) → readByte (getDie v d).mem b = readByte (getDie w d).mem b) ∧
  (∀ (s w : State) (g : Seg) (b : BankWait) (rd ra off : BitVec 6), Ready (.ldf rd ra off) s →
    (∃ t, Places (wordAccess (at_ (xAt (getArch (atIssue s) s.cur) ra) off 4) { r := true }) s [g] t ∧ w = drainLs s.cur t) →
    let d := getDie w (dieOf s.cur)
    isScratch g.pa = true ∧ g.pa % 4 = 0 ∧ g.len = 4 → MemOk w → d.poison = [] → d.unseen = [] → isFull d g.pa = true →
    d.waiters = [b] → b.seg.pa = g.pa → b.kind = .ste → b.done = none →
    ∃ v, exec (.ldf rd ra off) s = .next v ∧ isFull (getDie v (dieOf s.cur)) g.pa = true ∧
      readRun (getDie v (dieOf s.cur)).mem g.pa 4 = bytesOf 4 b.val ∧ (getDie v (dieOf s.cur)).waiters = [{ b with done := some (0#64, false) }] ∧
      ∃ r ∈ (getArch v s.cur).inflight, r.dest = .x rd.toNat ∧ r.poisoned = false ∧ r.val = .word (wordOf (readRun d.mem g.pa 4)))

/-- An instruction that names a dispatch descriptor, a record or a join counter queues its access: BKTSET its read of 64
bytes; SPAWN its record, with its place in the queue of its region and level taken at once; JOIN its arrival, or nothing
without a join counter; JOIN.W goes on behind the earlier accesses when its counter is zero (05 R134; 10 R250 to R252).
It rests on the model's choice of log 90. -/
def Obligations.RecordAccesses : Prop :=
  (∀ (s t : State) (tbl : BitVec 2) (ra : BitVec 6) (segs : List Seg), Ready (.bktset tbl ra) s →
    let va := xAt (getArch (atIssue s) s.cur) ra
    va.toNat % 64 = 0 → checkAccess s.cur { r := true } va 64 (started s) = (.ok segs, t) →
    Completes (.bktset tbl ra) s (enter (fun n =>
      { id := n, inL := true, inS := false, strong := true, kind := .bktset tbl.toNat va, segs := segs
        got := List.replicate 64 none, ovl := heldOver (getCtx t s.cur) segs, level := (getCtx t s.cur).level }) t)) ∧
  (∀ (s : State) (ra : BitVec 6) (r : BitVec 256) (rid lvl : Nat), Ready (.spawn ra) s →
    let d := getDie (started s) (dieOf s.cur)
    (∀ k < 4, (r.toNat / 2 ^ (64 * k)) % 2 ^ 64 = (xAt (getArch (atIssue s) s.cur) (BitVec.ofNat 6 (ra.toNat + k))).toNat) →
    rid = bitsN r 251 240 → lvl = min (bitsN r 239 236) (effPrio d rid) → ra.toNat + 3 < 64 →
    bitsN r 255 252 = 0 → bitsN r 235 192 = 0 → bitsN r 59 24 = 0 → bitsN r 127 64 % 64 = 0 → bitsN r 191 128 % 4 = 0 →
    rid = issuingRegion (started s) s.cur → (region? d rid).isSome → occOf d rid lvl < 2 ^ effQlog d rid →
    Completes (.spawn ra) s (enter (fun n =>
      { id := n, inL := false, inS := true, strong := true, kind := .spawn r lvl, segs := [], level := (getCtx (started s) s.cur).level })
      (modDie (dieOf s.cur) (occAdd rid lvl true) (started s)))) ∧
  (∀ (s : State), Ready (.join 0#6) s → ((getCtx (started s) s.cur).record.map (·.joinptr)).getD 0#64 = 0#64 →
    Completes (.join 0#6) s (started s)) ∧
  (∀ (s t : State) (ra : BitVec 6) (segs : List Seg), Ready (.join ra) s →
    let va := if ra = 0#6 then ((getCtx (started s) s.cur).record.map (·.joinptr)).getD 0#64 else xAt (getArch (atIssue s) s.cur) ra
    ¬(ra = 0#6 ∧ va = 0#64) → Places (wordAccess va { r := true, w := true, fmt := fmtInt 4 }) s segs t →
    Completes (.join ra) s (enter (fun n =>
      { id := n, inL := true, inS := true, strong := true, kind := .join, segs := segs, level := (getCtx t s.cur).level }) t)) ∧
  (∀ (s w : State) (g : Seg) (ra : BitVec 6), Ready (.joinW ra) s →
    AtHead (wordAccess (xAt (getArch (atIssue s) s.cur) ra) { r := true, w := true, fmt := fmtInt 4 }) s g w →
    readRun (getDie w (dieOf s.cur)).mem g.pa 4 = [0#8, 0#8, 0#8, 0#8] →
    ∃ v, exec (.joinW ra) s = .next v ∧ Ends ((getArch s s.cur).pc + 1) w v)

namespace Sys2Proof.Claims

open Sys2Proof Sys2Proof.Machine

/-- A result of class 12 for parts of an address register (04 R115). -/
def aPart (ad : BitVec 4) (addr stride : Option Word) (lvl : Option (BitVec 3)) (s : State) : State :=
  queued (.a ad.toNat) (.areg addr stride lvl) 0#8 12 s

/-- An operation that names a tag has issued: its bit is cleared and it is in flight (08 R205). -/
def tagTaken (t : BitVec 6) (s : State) : State :=
  modCtx s.cur (fun x => { x with tags := x.tags &&& ~~~(1#64 <<< t.toNat), busy := x.busy ||| (1#64 <<< t.toNat) }) s

/-- A tag is free: nothing is in flight under it when the bundle issues (08 R205). -/
def freeTag (t : BitVec 6) (s : State) : Prop := bit (getCtx (atIssue s) s.cur).tags t.toNat = true

/-- The bundle blocks its context and nothing else changes (10 R256). -/
def Blocks (i : Instr) (s : State) : Prop :=
  ∃ v, exec i s = .next v ∧ (getCtx v s.cur).block.map (·.1) = some .watched ∧ getArch v s.cur = getArch (atIssue s) s.cur ∧
    State.calm s.cur v = State.calm s.cur (stops (started s)) ∧ SameMem (started s) v

/-- Nothing that a context has issued on a path is left to be performed: engine commands of either level, and on CP the lines
of its windows and its checkpoint commands too (09 R220, R230; 14 R348). -/
def pathIdle (s : State) (p : Path) : Prop :=
  let c := s.cur
  let x := getCtx s c
  match p with
  | .ls => x.lsq = []
  | .bk => x.bk = []
  | .cp => (∀ m ∈ (getCore s (coreOf c)).copies, m.ctx ≠ c) ∧ (∀ w ∈ x.pins, w.isOpen = true → w.len.toNat ≤ 128 * w.next) ∧
      ∀ q ∈ (getDie s (dieOf c)).ckpts, q.ctx ≠ c
  | .mx => x.mx.cmds = []
  | .sv => ∀ e ∈ (getDie s (dieOf c)).eddy, e.ctx ≠ c
  | .fb => (∀ f ∈ x.fb, 6 ≤ f.kind) ∧ ∀ q ∈ (getDie s (dieOf c)).colls, q.ctx = c → q.ended = true

/-- An order point of the context: a new stretch begins, and a marker stands behind the queued accesses if there are any
(09 R223, R228, R229). -/
def marked (k : LsKind) (s : State) : State :=
  modCtx s.cur (fun x => { x with
    stretch := x.stretch + 1
    lsq := if x.lsq = [] then [] else x.lsq ++
      [{ id := x.nextId, inL := false, inS := false, strong := true, kind := k, segs := [], stretch := x.stretch + 1 }] }) s

/-- A fabric command or collective of the acting context that a FENCE orders before the later fabric accesses: with `all`
every one; else those to ranks of the package, and a collective in what it does there (09 R229). -/
def orders (s : State) (all : Bool) (n : Nat × Bool) : Prop :=
  (∃ f ∈ (getCtx s s.cur).fb, f.kind < 6 ∧ f.kind ≠ 1 ∧ n = (f.id, false) ∧
    (all = true ∨ rtLocal (routeOf (getDie s (dieOf s.cur)) (domOf s s.cur) f.rank) = true)) ∨
  ∃ q ∈ (getDie s (dieOf s.cur)).colls, q.ctx = s.cur ∧ q.ended = false ∧ n = (q.id, !all)

/-- The accesses of two entries touch no common byte. -/
def apart (b e : LsEntry) : Prop := ∀ g ∈ b.segs, ∀ h ∈ e.segs, ¬(g.pa < h.pa + h.len ∧ h.pa < g.pa + g.len)

/-- What the rules ask of an entry behind the entries `before` of its context's queues (09 R225, R228, R229, R240): behind a
QALIGN no load passes an earlier store and no store an earlier load; behind a FENCE nothing passes an earlier access; behind a
resolution nothing passes a held store; held stores keep their order; an entry of both queues stands at the head of both; a
strong access passes nothing of its own queue and nothing passes it; two weak accesses of one queue to common bytes keep
their order. -/
def inOrder (before : List LsEntry) (e : LsEntry) : Prop :=
  let isAccess (b : LsEntry) : Prop := b.kind ≠ .qalign ∧ b.kind ≠ .fence ∧ b.kind ≠ .resolved
  let isHeld (b : LsEntry) : Prop := ∃ bad, b.kind = .commit bad
  (∀ pre m post, before = pre ++ m :: post → ∀ b ∈ pre, isAccess b →
     (m.kind = .qalign → ¬(e.inL = true ∧ b.inS = true) ∧ ¬(e.inS = true ∧ b.inL = true)) ∧
     m.kind ≠ .fence ∧ (m.kind = .resolved → ¬isHeld b)) ∧
  ∀ b ∈ before, isAccess b →
    (isHeld e → ¬isHeld b) ∧ (e.inL && e.inS) = false ∧
    ((b.inL && e.inL) || (b.inS && e.inS) → e.strong = false ∧ b.strong = false ∧ apart b e)

end Sys2Proof.Claims

/-- An entry of the LS queues may be performed exactly when the rules of order let it, and an act on one that may not leaves
the machine as it is. QALIGN and FENCE place their marker behind the accesses of the context, or begin a new stretch where
there is none; FENCE of PKG and GRP also orders the later fabric accesses behind the present ones. XFENCE from an idle path
makes every write which that path sees visible to the other path, and blocks its context while an engine command on that path
is not complete. RBREL gives back the slot at the read pointer. None of
them changes anything else: memory, registers and tags stay (08 R207, R208; 09 R223, R225, R227 to R230, R240).
It rests on the model's choice of log 24. -/
def Obligations.OrderingInstructions : Prop :=
  ((∀ (before : List LsEntry) (e : LsEntry), mayPerform before e = true ↔ inOrder before e) ∧
   (∀ (s : State) (c n : Nat) (act : LsAct) (e : LsEntry), (getCtx s c).lsq[n]? = some e →
      ¬inOrder ((getCtx s c).lsq.take n) e → exec (.lsAccessPerformed c n act) s = .next s)) ∧
  ((∀ s : State, Ready .qalign s → Completes .qalign s (marked .qalign (started s))) ∧
   (∀ (s : State) (sc : Scope), Ready (.fence sc) s → ∃ l : List (Nat × Bool),
      (∀ n, n ∈ l ↔ n ∈ (getCtx (started s) s.cur).fbFence ∨
        (sc = .pkg ∧ orders (started s) false n) ∨ (sc = .grp ∧ orders (started s) true n)) ∧
      (sc ≠ .pkg → sc ≠ .grp → l = (getCtx (started s) s.cur).fbFence) ∧
      Completes (.fence sc) s (modCtx s.cur (fun x => { x with fbFence := l }) (marked .fence (started s))))) ∧
  ((∀ (s : State) (p q : Path), Ready (.xfence p q) s → pathIdle (started s) p →
      Completes (.xfence p q) s (modDie (dieOf s.cur) (fun d => { d with
          unseen := forgetSeen (d.unseen.map fun r => if p ∈ r.hid then r else { r with hid := r.hid.filter (· != q) }) })
        (modCtx s.cur (fun x => { x with
          stretch := x.stretch + if p = .ls then 2 else 1
          recent := if p = .ls then [] else x.recent }) (started s)))) ∧
   (∀ (p q : Path) (d : Die), ∀ r ∈ (exposeTo p q d).unseen, p ∉ r.hid → q ∉ r.hid) ∧
   (∀ (s : State) (p q : Path), Ready (.xfence p q) s → p ≠ .ls → p ≠ .bk → ¬pathIdle (started s) p → Blocks (.xfence p q) s)) ∧
  (∀ (s : State) (ring : BitVec 5), Ready (.rbrel ring) s →
    let r := (getCore (started s) (coreOf s.cur)).rings.getD ring.toNat {}
    r.wptr ≠ r.rptr → Completes (.rbrel ring) s (modCore (coreOf s.cur) (fun k =>
      { k with rings := k.rings.modify ring.toNat fun r => { r with rptr := (r.rptr + 1) % 2 ^ 32 } }) (started s)))

/-- LOOP and REPLAY with a count push their level, REPLAY with the rotation base 0, p8 set and p9 to p15 clear and free of poison, and with
a count of zero go on at their exit; nothing else changes (04 R111, R112, R117). -/
def Obligations.LoopInstructions : Prop :=
  (∀ (s : State) (ra : BitVec 6) (imm : BitVec 14), Ready (.loop ra imm) s →
    let a := getArch (atIssue s) s.cur
    (xAt a ra = 0#64 → ∃ v, exec (.loop ra imm) s = .next v ∧ Ends (a.pc + imm.toNat) (started s) v) ∧
    (xAt a ra ≠ 0#64 → a.loops.length < 4 → inReplay a = false → Completes (.loop ra imm) s (modArch s.cur (fun b =>
      { b with loops := b.loops ++ [{ kind := .loop, count := (xAt a ra).toNat, start := (getArch s s.cur).pc + 1, exit := a.pc + imm.toNat }] })
      (started s)))) ∧
  (∀ (s : State) (st : BitVec 4) (ra : BitVec 6) (imm : BitVec 14), Ready (.replay st ra imm) s →
    let a := getArch (atIssue s) s.cur
    (xAt a ra = 0#64 → ∃ v, exec (.replay st ra imm) s = .next v ∧ Ends (a.pc + imm.toNat) (started s) v) ∧
    (xAt a ra ≠ 0#64 → a.loops.length < 4 → inReplay a = false →
      Completes (.replay st ra imm) s (modArch s.cur (fun b => { b with
        rotBase := 0
        poisoned := b.poisoned.filter fun d => match d with | .p n => decide (n < 8) | _ => true
        p := b.p.take 8 ++ pall :: List.replicate 7 0#128
        loops := b.loops ++ [{ kind := .replay, count := (xAt a ra).toNat, start := (getArch s s.cur).pc + 1
                               exit := a.pc + imm.toNat, stages := st.toNat + 1, pass := 0 }] }) (started s))))

/-- ASET, ASTR and AINC queue the parts of their address register, AINC also the old ADDR for its scalar register, as
class-12 results; SCL sets entries of the core's scale table; nothing else changes (04 R115; 06 R143). -/
def Obligations.AddressRegisters : Prop :=
  (∀ (s : State) (ad : BitVec 4) (ra : BitVec 6) (imm : BitVec 14), Ready (.aset ad ra imm) s →
    Completes (.aset ad ra imm) s (aPart ad (some (xAt (getArch (atIssue s) s.cur) ra + imm.signExtend 64)) none none (started s))) ∧
  (∀ (s : State) (ad : BitVec 4) (ra : BitVec 6) (lvl : BitVec 3), Ready (.astr ad ra lvl) s →
    Completes (.astr ad ra lvl) s (aPart ad none (some (xAt (getArch (atIssue s) s.cur) ra)) (some lvl) (started s))) ∧
  (∀ (s : State) (rd : BitVec 6) (ad : BitVec 4) (imm : BitVec 14), Ready (.ainc rd ad imm) s →
    let r := (getArch (atIssue s) s.cur).a.getD ad.toNat {}
    Completes (.ainc rd ad imm) s (queued (.x rd.toNat) (.word r.addr) 0#8 12
      (modCtx s.cur (fun x => { x with nextId := x.nextId + 1 })
        (aPart ad (some (r.addr + r.stride * imm.signExtend 64)) none none (started s))))) ∧
  (∀ (s : State) (e : BitVec 4) (ra : BitVec 6) (c : BitVec 3), Ready (.scl e ra c) s →
    ∃ f : List Byte → List Byte,
      (∀ t n, t.length = 16 → (f t).getD n 0#8 = if e.toNat ≤ n ∧ n ≤ e.toNat + c.toNat ∧ n < 16 then
        BitVec.ofNat 8 ((xAt (getArch (atIssue s) s.cur) ra).toNat / 256 ^ (n - e.toNat)) else t.getD n 0#8) ∧
      Completes (.scl e ra c) s (modCore (coreOf s.cur) (fun k => { k with scale := f k.scale }) (started s)))

/-- PIN opens its window where it is free, named slices hold it and the budgets allow it; UNPIN closes its window; PHASE
begins the drain of the named slices to their new direct size; PREFT enters the copy unit with its tag in flight; memory
does not change (08 R194 to R200).
It rests on the model's choice of log 25. -/
def Obligations.BasinInstructions : Prop :=
  (∀ (s : State) (win : BitVec 3) (ra rb : BitVec 6), Ready (.pin win ra rb) s →
    let a := getArch (atIssue s) s.cur
    let len := xAt a (ra + 1#6)
    ra.toNat % 2 = 0 → (xAt a ra).toNat % 128 = 0 → len.toNat % 128 = 0 → len ≠ 0#64 → xAt a rb ≠ 0#64 →
    ((getCtx (started s) s.cur).pins.getD win.toNat {}).isOpen = false →
    let w : PinWin := { isOpen := true, start := xAt a ra, len := len, mask := xAt a rb, age := (getDie (started s) (dieOf s.cur)).pinSeq + 1 }
    (∀ sl < 64, bit (xAt a rb) sl = true → pinFits (started s) (dieOf s.cur) (ridOf (started s) s.cur) w sl = true) →
    Completes (.pin win ra rb) s (modDie (dieOf s.cur) (fun d => { d with pinSeq := d.pinSeq + 1 })
      (modCtx s.cur (fun x => { x with pins := x.pins.set win.toNat w }) (started s)))) ∧
  (∀ (s : State) (win : BitVec 3), Ready (.unpin win) s → (getCtx (started s) s.cur).pins.length = 8 →
    ∃ v, exec (.unpin win) s = .next v ∧ ((getCtx v s.cur).pins.getD win.toNat {}).isOpen = false ∧ SameMem (started s) v ∧
      getArch v s.cur = { getArch (started s) s.cur with pc := (getArch s s.cur).pc + 1 }) ∧
  (∀ (s : State) (ra rb : BitVec 6), Ready (.phase ra rb) s →
    let a := getArch (atIssue s) s.cur
    let d := getDie (started s) (dieOf s.cur)
    let n := (xAt a rb).toNat
    n ≤ 8 → xAt a ra ≠ 0#64 → d.slices.length = 64 → (∀ i < 64, bit (xAt a ra) i = true →
      let sl := d.slices.getD i {}
      sl.drain = none ∧ (sl.direct ≠ n → sl.direct = 0 ∨ sl.owner = ridOf (started s) s.cur) ∧
        phaseFits (started s) (dieOf s.cur) (ridOf (started s) s.cur) n i = true) →
    ∃ v, exec (.phase ra rb) s = .next v ∧ SameMem (started s) v ∧
      getArch v s.cur = { getArch (started s) s.cur with pc := (getArch s s.cur).pc + 1 } ∧
      ∀ i < 64, bit (xAt a ra) i = true → (((getDie v (dieOf s.cur)).slices.getD i {}).drain.map (·.1)) = some n) ∧
  (∀ (s : State) (tag ra off : BitVec 6) (ep : BitVec 2) (segs : List Seg) (t w : State) (n : Nat), Ready (.preft tag ra off ep) s →
    descSegs 64 (at_ (xAt (getArch (atIssue s) s.cur) ra) off 64) (started s) = (.ok segs, t) → descRead segs t = (.ok n, w) →
    ((getCore (started s) (coreOf s.cur)).copies.length < 64) → descOk false n = true → freeTag tag s →
    Completes (.preft tag ra off ep) s (modCore (coreOf s.cur) (fun k => { k with copies := k.copies ++
      [{ id := (getCtx w s.cur).nextId, ctx := s.cur, kind := 3, tag := tag.toNat, level := (getCtx w s.cur).level
         dst := descOf n, src := descOf n, ep := ep.toNat }] }) (tagTaken tag w)))

namespace Sys2Proof.Claims

open Sys2Proof Sys2Proof.Machine

/-! Copies, Eddy commands, fabric commands -/

/-- The descriptor of a copy as its operand names it: eight registers, or 64 bytes of the scratchpad read behind the
context's earlier accesses (08 R203; 09 R226). `s` has the pages of the operand translated. -/
def descriptor (inRegs : Bool) (r : BitVec 6) (a : Arch) (segs : List Seg) (s : State) : Except Nat Nat × State :=
  if inRegs then (.ok ((List.range 8).foldl (fun n k => n + (xAt a (BitVec.ofNat 6 (r.toNat + k))).toNat * 2 ^ (64 * k)) 0), s)
  else descRead segs s

/-- The pages of a descriptor operand (08 R204). -/
def descriptorPages (inRegs : Bool) (r : BitVec 6) (a : Arch) (s : State) : Except (Nat × Word) (List Seg) × State :=
  if inRegs then (.ok [], s) else descSegs 64 (xAt a r) s

/-- A copy whose descriptors are x and y may enter the copy unit of the acting context (08 R203, R204): w is the state
after the descriptors have been read. -/
structure CopyReady (s : State) (dr sr : Bool) (ra rb tag : BitVec 6) (x y : Nat) (w : State) : Prop where
  room  : (getCore (started s) (coreOf s.cur)).copies.length < 64
  align : (dr = true ∨ (xAt (getArch (atIssue s) s.cur) ra).toNat % 64 = 0) ∧ (sr = true ∨ (xAt (getArch (atIssue s) s.cur) rb).toNat % 64 = 0)
  block : (dr = true → ra.toNat % 8 = 0 ∧ ra ≠ 0#6) ∧ (sr = true → rb.toNat % 8 = 0 ∧ rb ≠ 0#6)
  read  : ∃ gd t gs u v,
    descriptorPages dr ra (getArch (atIssue s) s.cur) (started s) = (.ok gd, t) ∧
    descriptorPages sr rb (getArch (atIssue s) s.cur) t = (.ok gs, u) ∧
    descriptor dr ra (getArch (atIssue s) s.cur) gd u = (.ok x, v) ∧ descriptor sr rb (getArch (atIssue s) s.cur) gs v = (.ok y, w)
  free  : freeTag tag s
  size  : descLen (descOf x) = descLen (descOf y)
  src   : descOk false y = true

/-- A command of the copy unit with its tag in flight. -/
def copying (tag : BitVec 6) (m : Copy) (w : State) : State :=
  modCore (coreOf w.cur) (fun k => { k with copies := k.copies ++
    [{ m with id := (getCtx w w.cur).nextId, num := 2 * ((getCtx w w.cur).nextId * 65536 + w.cur)
              ctx := w.cur, tag := tag.toNat, level := (getCtx w w.cur).level }] }) (tagTaken tag w)

/-- A new command between two streams. -/
def newCopy (kind x y : Nat) : Copy := { id := 0, ctx := 0, kind := kind, tag := 0, level := 0, dst := descOf x, src := descOf y }

/-- The Eddy commands with the registers of their operands and the alignment of the second (07 R181). -/
def eddyOf : Instr → Option (BitVec 6 × BitVec 6 × BitVec 6 × BitVec 6 × Nat)
  | .svinit ra rb tag => some (ra, rb, 0#6, tag, 1)
  | .svapply ra rb tag => some (ra, rb, 0#6, tag, 64)
  | .svdiag ra rb tag => some (ra, rb, 0#6, tag, 64)
  | .svprob ra rb rc tag => some (ra, rb, rc, tag, 8)
  | .svnorm ra rb tag => some (ra, rb, 0#6, tag, 1)
  | .svmap ra rb tag => some (ra, rb, 0#6, tag, 64)
  | _ => none

/-- The transfers: kind, operator, local and remote address, fabric word, tag, element bytes (11 R276 to R278). -/
def transferOf : Instr → Arch → Option (Nat × BitVec 6 × Word × Option Word × Word × BitVec 6 × Nat)
  | .fsend ra rb tag, a => some (0, 0#6, xAt a ra, none, xAt a rb, tag, 4)
  | .fput ra rb tag, a => some (2, 0#6, xAt a ra, some (xAt a (ra ||| 1#6)), xAt a rb, tag, 4)
  | .fputS ra rb tag, a => some (3, 0#6, xAt a ra, some (xAt a (ra ||| 1#6)), xAt a rb, tag, 4)
  | .fputR op ra rb tag, a => some (4, op, xAt a ra, some (xAt a (ra ||| 1#6)), xAt a rb, tag, max 4 (opSize op.toNat))
  | .fget ra rb tag, a => some (5, 0#6, xAt a ra, some (xAt a (ra ||| 1#6)), xAt a rb, tag, 4)
  | _, _ => none

/-- The fabric word of a transfer is valid (11 R276, R278). -/
def wordValid (kind : Nat) (w : Word) : Prop :=
  bitsN w 63 62 = 0 ∧ bitsN w 59 58 = 0 ∧ bitsN w 49 42 = 0 ∧ fwLen w ≠ 0 ∧ fwLen w % 4 = 0 ∧ fwLen w ≤ 16777216 ∧
  (fwCen w = true → kind = 2 ∨ kind = 3 ∨ kind = 4) ∧ (fwCen w = false → fwCtr w = 0) ∧ (kind < 2 → fwLen w ≤ 65536)

/-- Everything that a FENCE of the acting context orders before its later fabric accesses has been performed (09 R229). -/
def fencesOver (s : State) : Prop := ∀ n ∈ (getCtx s s.cur).fbFence, stillOwed s s.cur n = false

/-- A command enters the engine queue of its context, with its number on the die and its tag in flight; what a fence ordered
and has been performed is forgotten (08 R205; 09 R229; 11 R278). -/
def inEngine (m : FbCmd) (tag : BitVec 6) (s : State) : State :=
  modCtx s.cur (fun x => { x with
    fbFence := x.fbFence.filter (stillOwed s s.cur)
    fb := x.fb ++ [{ m with id := x.nextId, ord := (getDie s (dieOf s.cur)).fbSeq, tag := tag.toNat, level := x.level }] })
    (modDie (dieOf s.cur) (fun d => { d with fbSeq := d.fbSeq + 1 }) (tagTaken tag s))

/-- A command that is no transfer. -/
def plainCmd (kind : Nat) : FbCmd :=
  { id := 0, kind := kind, tag := 0, loc := 0#64, rem := 0#64, len := 0, rank := 0, direct := false, ctr := none }

end Sys2Proof.Claims

/-- CPY, CPYM and CPYR with valid descriptors of one length enter the copy unit with their tag in flight; RBINIT sets its
ring up, empty; memory and everything else stay (08 R201 to R211). -/
def Obligations.CopyInstructions : Prop :=
  (∀ (s w : State) (dr sr : Bool) (ra rb tag : BitVec 6) (x y : Nat), Ready (.cpy dr sr ra rb tag) s →
    CopyReady s dr sr ra rb tag x y w → descOk true x = true →
    ((descOf x).rb = true → descLen (descOf x) ≤ ((getCore w (coreOf s.cur)).rings.getD (descOf x).ring {}).size) →
    Completes (.cpy dr sr ra rb tag) s (copying tag (newCopy 0 x y) w)) ∧
  (∀ (s w : State) (ra rb rc tag : BitVec 6) (x y : Nat), Ready (.cpym ra rb rc tag) s →
    CopyReady s false false ra rb tag x y w → descOk true x = true →
    let m := xAt (getArch (atIssue s) s.cur) rc
    m ≠ 0#64 → ((descOf x).rb = true → ∀ i < 64, bit m i = true →
      descLen (descOf x) ≤ ((getCore w (i + 64 * dieOf s.cur)).rings.getD (descOf x).ring {}).size) →
    Completes (.cpym ra rb rc tag) s (copying tag { newCopy 1 x y with mask := m } w)) ∧
  (∀ (s w : State) (op ra rb tag : BitVec 6) (x y : Nat), Ready (.cpyr op ra rb tag) s →
    CopyReady s false false ra rb tag x y w → descOk false x = true → descLen (descOf x) % opSize op.toNat = 0 →
    Completes (.cpyr op ra rb tag) s (copying tag { newCopy 2 x y with op := op } w)) ∧
  (∀ (s t : State) (ring : BitVec 5) (ra rb : BitVec 6) (segs : List Seg), Ready (.rbinit ring ra rb) s →
    let a := getArch (atIssue s) s.cur
    let size := bitsN (xAt a rb) 15 0
    let n := bitsN (xAt a rb) 23 16
    (xAt a ra).toNat % 64 = 0 → checkAccess s.cur { kind := onlyScratch } (xAt a ra) 64 (started s) = (.ok segs, t) →
    (∀ g ∈ segs, (g.pa - scratchBase) / 2097152 = coreInDie s.cur) → bitsN (xAt a rb) 63 24 = 0 → size ≠ 0 → size % 64 = 0 → n ≠ 0 →
    n * size ≤ 2097152 →
    let r := (getCore (started s) (coreOf s.cur)).rings.getD ring.toNat {}
    let fresh : Ring := { base := xAt a ra, size := size, n := n, claim := 0, wptr := 0, rptr := 0 }
    r.claim = r.wptr →
    Completes (.rbinit ring ra rb) s (modCore (coreOf s.cur) (fun k => { k with rings := k.rings.set ring.toNat fresh }) t))

/-- An Eddy command with aligned operands and a free tag enters the queue of its die's engine, 32 at most, with its
operands as they stand; a fabric transfer whose word and addresses are valid, whose tag is free and whose program has a live
link key enters its context's engine queue, 32 at most, when what a fence orders before it has been performed; the tag is in
flight and nothing else changes. A command that finds its queue full, or a transfer that a fence holds back, blocks its context
(07 R181; 08 R205; 09 R229; 11 R276 to R278; 13 R325).
It rests on the model's choices of log 15 and 23. -/
def Obligations.EngineCommands : Prop :=
  (∀ (i : Instr) (s : State) (ra rb rc tag : BitVec 6) (al : Nat), eddyOf i = some (ra, rb, rc, tag, al) → Ready i s →
     let a := getArch (atIssue s) s.cur
     let x := getCtx (started s) s.cur
     (getDie (started s) (dieOf s.cur)).eddy.length < 32 → (xAt a ra).toNat % 64 = 0 → (xAt a rb).toNat % al = 0 → freeTag tag s →
     Completes i s (modDie (dieOf s.cur) (fun d => { d with eddy := d.eddy ++
       [{ id := x.nextId, ctx := s.cur, top := domOf (started s) s.cur, tag := tag.toNat, level := x.level, instr := i
          xa := xAt a ra, xb := xAt a rb, xc := xAt a rc }] }) (tagTaken tag (started s)))) ∧
  (∀ (i : Instr) (s : State) (kind al : Nat) (op : BitVec 6) (loc w : Word) (rem : Option Word) (tag : BitVec 6),
     transferOf i (getArch (atIssue s) s.cur) = some (kind, op, loc, rem, w, tag, al) → Ready i s →
     (getCtx (started s) s.cur).fb.length < 32 → fencesOver (started s) → wordValid kind w → loc.toNat % al = 0 →
     (∀ r, rem = some r → r.toNat % al = 0) → fwLen w % al = 0 → freeTag tag s → linked (started s) →
     Completes i s (inEngine { plainCmd kind with
       loc := loc, rem := rem.getD 0#64, len := fwLen w, rank := fwRank w, direct := fwDirect w
       ctr := if fwCen w then some (fwCtr w) else none, op := op } tag (started s))) ∧
  (∀ (i : Instr) (s : State), Ready i s →
     ((eddyOf i).isSome ∧ 32 ≤ (getDie (started s) (dieOf s.cur)).eddy.length) ∨
     ((transferOf i (getArch (atIssue s) s.cur)).isSome ∧ (32 ≤ (getCtx (started s) s.cur).fb.length ∨ ¬fencesOver (started s))) →
     Blocks i s)

/-- FRECV takes the message at the head of its queue and leaves it to be copied; FEXPECT of a counter that has arrived
sets its mark and leaves its tag set, of one that has not arms it with its tag in flight; FPORT leaves its order with the
port; TLBI removes the translations that it names
from both levels of the TLB and from the entries that walks keep (11 R280, R281, R285; 13 R318).
It rests on the model's choice of log 39. -/
def Obligations.FabricWaits : Prop :=
  (∀ (s : State) (ra rb tag : BitVec 6) (m : List Byte) (rest : List (List Byte)), Ready (.frecv ra rb tag) s →
    let a := getArch (atIssue s) s.cur
    let w := xAt a rb
    let top := domOf (started s) s.cur
    let q := linkq (getDie (started s) (dieOf s.cur)) top (fwRank w)
    (getCtx (started s) s.cur).fb.length < 32 → fencesOver (started s) → wordValid 1 w → (xAt a ra).toNat % 4 = 0 → freeTag tag s → linked (started s) →
    q.msgs = m :: rest → m.length ≤ fwLen w →
    Completes (.frecv ra rb tag) s (inEngine { plainCmd 1 with
      loc := xAt a ra, len := fwLen w, rank := fwRank w, direct := fwDirect w, bytes := m } tag
      (modDie (dieOf s.cur) (setLinkq { q with msgs := rest }) (started s)))) ∧
  (∀ (s : State) (clr : Bool) (ra rb tag : BitVec 6), Ready (.fexpect clr ra rb tag) s →
    let a := getArch (atIssue s) s.cur
    let n := (xAt a ra).toNat
    let top := domOf (started s) s.cur
    let k := counterOf (started s) (dieOf s.cur) top n
    let mark := (if clr then 0 else k.mark) + (xAt a rb).toNat
    let cnt := if clr then (k.cnt + 16777216 - k.mark) % 16777216 else k.cnt
    n < 256 → k.armed = none → mark ≤ 16777215 → freeTag tag s → linked (started s) →
    Completes (.fexpect clr ra rb tag) s (if mark ≤ cnt then
        modCounter (dieOf s.cur) top n (fun x => { x with cnt := cnt, mark := mark, armed := none }) (started s)
      else modCounter (dieOf s.cur) top n (fun x => { x with cnt := cnt, mark := mark, armed := some (s.cur, tag.toNat, (getCtx (started s) s.cur).level) })
        (tagTaken tag (started s)))) ∧
  (∀ (s : State) (ra rb tag : BitVec 6), Ready (.fport ra rb tag) s →
    let a := getArch (atIssue s) s.cur
    let n := (xAt a ra).toNat
    let o := (xAt a rb).toNat
    (getCtx (started s) s.cur).fb.length < 32 → n < 64 → o < 8 → freeTag tag s → linked (started s) →
    let w := inEngine (plainCmd 6) tag (started s)
    Completes (.fport ra rb tag) s { w with ports := w.ports.modify n fun p =>
      { p with drop := false, orders := p.orders ++ [(decide (4 ≤ o), o % 4, s.cur, (getCtx (started s) s.cur).nextId)] } }) ∧
  (∀ (s : State) (ra rb tag : BitVec 6), Ready (.tlbi ra rb tag) s →
    let a := getArch (atIssue s) s.cur
    let va := (xAt a ra).toNat
    let top := domOf (started s) s.cur
    let hit (e : TlbEntry) : Prop := e.top = top ∧ (xAt a rb = 1#64 ∨ (e.vbase ≤ va ∧ va < e.vbase + e.size))
    (getCtx (started s) s.cur).fb.length < 32 → (xAt a rb = 1#64 ∨ (xAt a rb = 0#64 ∧ va < 2 ^ 48)) → freeTag tag s →
    ∃ v, exec (.tlbi ra rb tag) s = .next v ∧ SameMem (drainLs s.cur (started s)) v ∧
      (∀ e ∈ tlbsOf v (dieOf s.cur) ++ (getDie v (dieOf s.cur)).upper, ¬hit e) ∧ bit (getCtx v s.cur).tags tag.toNat = false ∧
      ∃ m ∈ (getCtx v s.cur).fb, m.kind = 7 ∧ m.tag = tag.toNat)

namespace Sys2Proof.Claims

open Sys2Proof Sys2Proof.Machine

/-! Matrix commands (06 R137 to R160) -/

/-- A matrix command with the registers that it captures when it issues (06 R140). -/
def matrixCmd : Instr → Arch → Option MxCmd
  | .mma mf td ra rb n, a => some { instr := .mma mf td ra rb n, xa0 := xAt a ra, xa1 := xAt a (ra + 1#6), xb0 := xAt a rb, xb1 := xAt a (rb + 1#6) }
  | .mmr mf mode td ra rb, a => some { instr := .mmr mf mode td ra rb, xa0 := xAt a ra, xa1 := xAt a (ra + 1#6), xb0 := xAt a rb, xb1 := xAt a (rb + 1#6) }
  | .mload td ra, a => some { instr := .mload td ra, xa0 := xAt a ra, xa1 := xAt a (ra + 1#6) }
  | .mzero td n, _ => some { instr := .mzero td n }
  | .mdrain of_ clr q td, _ => some { instr := .mdrain of_ clr q td }
  | _, _ => none

/-- Tiles that an allocation must hold for a command (06 R139). -/
def tilesFor : Instr → Nat
  | .mma _ td _ _ _ | .mload td _ | .mdrain _ _ _ td => td.toNat + 1
  | .mmr _ _ td _ _ => td.toNat + 4
  | .mzero td n => td.toNat + n.toNat + 1
  | _ => 0

/-- Rows of an operand that is never more than n lines long (06 R144). -/
def rowsOf (x1 : Word) (n : Nat) : Nat := min (x1.toNat / 2 ^ 48) n

/-- Address and stride of dense data are multiples of the element size (06 R145). -/
def denseOk (sz : Nat) (x0 x1 : Word) : Prop := x0.toNat % sz = 0 ∧ x1.toNat % 2 ^ 48 % sz = 0

/-- Every line of an operand of blocks begins a frame of its page (06 R146). -/
def framesOk (s : State) (m : MxCmd) (opnd : Bool) (n : Nat) : Prop := ∀ l < n, frameStart s s.cur (lineAddr m opnd 0 l) = true

/-- The alignment that a command asks of its operands, and the form that blocks do not have (06 R145, R146, R162). -/
def operandsOk (s : State) (m : MxCmd) : Prop :=
  match m.instr with
  | .mma .sb .. => framesOk s m false (rowsOf m.xa1 64) ∧ framesOk s m true 64
  | .mmr .sb mode .. => mode = .classical ∧ framesOk s m false (rowsOf m.xa1 128) ∧ framesOk s m true 128
  | .mma .. | .mmr .. => denseOk 2 m.xa0 m.xa1 ∧ denseOk 2 m.xb0 m.xb1
  | .mload .. => denseOk 4 m.xa0 m.xa1
  | _ => True

/-- What waits for tiles and queues on a core finds too few among so many free ones (06 R137). -/
def noneFits (s : State) (k : Nat) (free : Nat × Nat) : Prop :=
  ∀ c ∈ (getCore s k).mxWait, ∀ n m, (getCtx s c).wantMx = some (n, m) →
    (getCtx s c).granted = true ∨ free.1 + (ownMx (getCtx s c)).1 < n ∨ free.2 + (ownMx (getCtx s c)).2 < m

/-- The acting context holds a matrix state, and its core has so many tiles and queues free (06 R137, R159). -/
def gets (m : MxState) (free : Nat × Nat) (s : State) : State :=
  modCtx s.cur (fun x => { x with mx := m, wantMx := none, mxHeld := none, granted := false })
    (modCore (coreOf s.cur) (fun q => { q with freeTiles := free.1, freeQueues := free.2 }) s)

/-- No automatic save stands before the instruction: the context is no handler, or has saved already (06 R160). -/
def ownMatrix (x : Ctx) : Prop := x.level = 1 → x.mxTouched = true

/-- The command stands last in its context's queue with the scale table of its core (06 R140, R143). -/
def mxQueued (m : MxCmd) (s : State) : State :=
  modCtx s.cur (fun x => { x with mx := { x.mx with cmds := x.mx.cmds ++ [{ m with scale := (getCore s (coreOf s.cur)).scale }] } }) s

end Sys2Proof.Claims

/-- MMA, MMR, MLOAD and MZERO whose tiles are allocated and whose operands are aligned enter their context's queue, eight
at most, with their registers and the scale table as they stand; MDRAIN also counts its entry, four at most, in its drain
queue; nothing else changes (06 R139, R140, R143 to R146, R157). -/
def Obligations.MatrixQueue : Prop :=
  (∀ (i : Instr) (s : State) (m : MxCmd), matrixCmd i (getArch (atIssue s) s.cur) = some m → (∀ f b q td, i ≠ .mdrain f b q td) →
    Ready i s → ownMatrix (getCtx (started s) s.cur) → (getCtx (started s) s.cur).mx.cmds.length < 8 →
    tilesFor i ≤ (getCtx (started s) s.cur).mx.tiles.length → operandsOk (started s) m → Completes i s (mxQueued m (started s))) ∧
  (∀ (s : State) (f : OFmt) (clr : Bool) (q : BitVec 3) (td : BitVec 4) (m : MxCmd), Ready (.mdrain f clr q td) s →
    let x := getCtx (started s) s.cur
    let es := x.mx.queues.getD q.toNat []
    ownMatrix x → x.mx.cmds.length < 8 → td.toNat < x.mx.tiles.length → q.toNat < x.mx.queues.length → es.length < 4 →
    matrixCmd (.mdrain f clr q td) (getArch (atIssue s) s.cur) = some m →
    Completes (.mdrain f clr q td) s (mxQueued m (modCtx s.cur (fun x => { x with mx := { x.mx with
      queues := x.mx.queues.set q.toNat (es ++ [{ fmt := f, elems := [], ready := false }]) } }) (started s))))

/-- MTALLOC takes free tiles, of +0.0, and empty drain queues from its core; MTFREE of a context without commands gives
them back; QPOP of an entry that is ready queues its next two rows in the lanes of the guard and counts the pop; MXSAVE
writes the matrix area; MXREST gives its context's own tiles and queues back and takes those of the area that it reads, none where
the area holds no allocation, or waits for them (06 R137, R138, R158, R159).
It rests on the model's choices of log 95 and 98. -/
def Obligations.MatrixAllocation : Prop :=
  (∀ (s : State) (n m : BitVec 4), Ready (.mtalloc n m) s →
    let x := getCtx (started s) s.cur
    let k := getCore (started s) (coreOf s.cur)
    let free := (k.freeTiles - (n.toNat + 1), k.freeQueues - m.toNat)
    ownMatrix x → x.granted = false → x.wantMx = none → x.mx.alloc = false → n.toNat + 1 ≤ k.freeTiles → m.toNat ≤ k.freeQueues →
    noneFits (started s) (coreOf s.cur) free →
    Completes (.mtalloc n m) s (gets {
      alloc := true, tiles := List.replicate (n.toNat + 1) (List.replicate 4096 0#32)
      queues := List.replicate m.toNat [], pops := List.replicate m.toNat 0 } free (started s))) ∧
  (∀ s : State, Ready .mtfree s → ownMatrix (getCtx (started s) s.cur) → (getCtx (started s) s.cur).mx.cmds = [] →
    let x := getCtx (started s) s.cur
    Completes .mtfree s (releaseMx s.cur (started s)) ∧
    ((getCore (started s) (coreOf s.cur)).mxWait = [] → x.granted = false → x.mx.alloc = true →
      getCtx (releaseMx s.cur (started s)) s.cur = { x with mx := {}, wantMx := none, mxHeld := none, granted := false } ∧
      (getCore (releaseMx s.cur (started s)) (coreOf s.cur)).freeTiles = (getCore (started s) (coreOf s.cur)).freeTiles + x.mx.tiles.length ∧
      (getCore (releaseMx s.cur (started s)) (coreOf s.cur)).freeQueues = (getCore (started s) (coreOf s.cur)).freeQueues + x.mx.queues.length)) ∧
  (∀ (s : State) (vd : BitVec 6) (q : BitVec 3) (e : QEntry), Ready (.qpop vd q) s →
    let x := getCtx (started s) s.cur
    let n := x.mx.pops.getD q.toNat 0
    ownMatrix x → q.toNat < x.mx.queues.length → (x.mx.queues.getD q.toNat [])[n / 32]? = some e → e.ready = true → e.poisoned = false →
    Completes (.qpop vd q) s (feedPops s.cur (addResult s.cur (vReg s vd.toNat)
      (.lanes (guardIn s) ((e.elems.drop (128 * (n % 32))).take 128)) 0#8 13
      (modCtx s.cur (fun x => { x with mx := { x.mx with pops := x.mx.pops.set q.toNat (n + 1) } }) (started s))))) ∧
  (∀ (s w : State) (ra : BitVec 6), Ready (.mxsave ra) s →
    let x := getCtx (started s) s.cur
    let a := xAt (getArch (atIssue s) s.cur) ra
    a.toNat % 4096 = 0 → (x.mx.cmds = [] ∨ ∃ r, x.mx.run = some r ∧ r.suspended = true) → mxBad x.mx = [] →
    writeParts s.cur .mx { w := true } a (mxParts x.mx) (started s) = .ok w →
    Completes (.mxsave ra) s (modCtx s.cur (fun y => { y with
      mxTouched := y.mxTouched || y.level == 1, mxFlags := (y.mx.run.map (·.flags)).getD 0#8 }) w)) ∧
  (∀ (s u : State) (ra : BitVec 6) (m : MxState), Ready (.mxrest ra) s →
    let x := getCtx (started s) s.cur
    let a := xAt (getArch (atIssue s) s.cur) ra
    ownMatrix x → x.granted = false → x.wantMx = none → a.toNat % 4096 = 0 →
    (x.mx.cmds = [] ∨ ∃ r, x.mx.run = some r ∧ r.suspended = true) → readMx s.cur .mx a (started s) = (.ok m, u) →
    let m' := withFlags x.mxFlags (fixPops (getArch u s.cur) (dropAbandoned m))
    let t := releaseMx s.cur u
    let k := getCore t (coreOf s.cur)
    let free := (k.freeTiles - m'.tiles.length, k.freeQueues - m'.queues.length)
    (m'.alloc = false → Completes (.mxrest ra) s t) ∧
    (m'.alloc = true → m'.tiles.length ≤ k.freeTiles → m'.queues.length ≤ k.freeQueues →
      noneFits t (coreOf s.cur) free → Completes (.mxrest ra) s (feedPops s.cur (gets m' free t))) ∧
    (m'.alloc = true → k.freeTiles < m'.tiles.length ∨ k.freeQueues < m'.queues.length →
      ∃ v, exec (.mxrest ra) s = .next v ∧ (getCtx v s.cur).block.map (·.1) = some .watched ∧ SameMem (started s) v ∧
        (getCtx v s.cur).wantMx = some (m'.tiles.length, m'.queues.length) ∧ (getCtx v s.cur).mx = {}))

namespace Sys2Proof.Claims

open Sys2Proof Sys2Proof.Machine

/-! Group operations (12 R288 to R306; 14 R348) -/

/-- The fields of an agreement word are valid (12 R303). -/
def agreementValid (w : Word) : Prop :=
  w.toNat / 2 ^ 48 = 0 ∧ bitsN w 31 30 = 0 ∧ bitsN w 27 26 = 0 ∧ bitsN w 23 10 = 0 ∧ (bit w 24 = true → bit w 25 = true)

/-- The agreement instructions: is it AGBX, its word, its contribution (12 R304). -/
def agreement : Instr → Arch → Option (Bool × Word × Nat)
  | .agb pc rb, a => some (false, xAt a rb, if bit (rdP a pc) 0 then 1 else 0)
  | .agbx ra rb, a => if bit (xAt a rb) 25 || decide (65536 ≤ (xAt a ra).toNat) then none else some (true, xAt a rb, (xAt a ra).toNat)
  | _, _ => none

/-- The next number of a group on a rank is taken (12 R289). -/
def counted (d top gid : Nat) (s t : State) : Prop := seqOf t d top gid = (seqOf s d top gid + 1) % 2 ^ 32

end Sys2Proof.Claims

/-- COLL of a valid descriptor opens its collective: it takes the next number of its group, its tag is in flight, and
the plan has not begun; COLLW opens one and blocks, and once that one has ended without a fault it goes on; BARR opens
its barrier with the accesses that it waits for; CKPT of a program with a valid word, room for its image and a live link key
begins its checkpoint when none of the domain is in progress on the die (12 R289 to R292, R300, R302; 14 R347, R348).
It rests on the model's choices of log 23, 53 and 57. -/
def Obligations.GroupOperations : Prop :=
  (∀ (s t w : State) (ra tag : BitVec 6) (segs : List Seg) (n : Nat), Ready (.coll ra tag) s →
    let va := xAt (getArch (atIssue s) s.cur) ra
    let d := dieOf s.cur
    collFull (started s) = false → descSegs 64 va (started s) = (.ok segs, t) → descRead segs t = (.ok n, w) →
    collOk w s.cur n = true → freeTag tag s → linked w →
    let u := openColl (some tag.toNat) va n w
    Completes (.coll ra tag) s u ∧ counted d (domOf w s.cur) (nbits n 64 10) w u ∧ bit (getCtx u s.cur).tags tag.toNat = false ∧
    ∃ q ∈ (getDie u d).colls, q.ctx = s.cur ∧ q.tag = some tag.toNat ∧ q.desc = va ∧ q.gid = nbits n 64 10 ∧ q.started = false ∧
      q.seq = seqOf w d (domOf w s.cur) q.gid) ∧
  (∀ (s t w : State) (ra : BitVec 6) (segs : List Seg) (n : Nat), Ready (.collw ra) s → (getCtx (started s) s.cur).waitColl = none →
    let va := xAt (getArch (atIssue s) s.cur) ra
    collFull (started s) = false → descSegs 64 va (started s) = (.ok segs, t) → descRead segs t = (.ok n, w) →
    collOk w s.cur n = true → linked w →
    ∃ v, exec (.collw ra) s = .next v ∧ ((getCtx v s.cur).block.map (·.1)) = some .huddle ∧ (getArch v s.cur).pc = (getArch s s.cur).pc) ∧
  (∀ (s : State) (ra : BitVec 6) (id : Nat) (q : Coll), Ready (.collw ra) s →
    (getCtx (started s) s.cur).waitColl = some (id, (getArch s s.cur).pc) →
    (getDie (started s) (dieOf s.cur)).colls.find? (fun q => q.ctx == s.cur && q.id == id) = some q → q.ended = true → q.ending = none →
    Completes (.collw ra) s (modDie (dieOf s.cur) (fun x => { x with colls := x.colls.filter fun r => !sameColl q r }) (started s))) ∧
  (∀ (s : State) (rb tag : BitVec 6) (g : Group), Ready (.barr rb tag) s →
    let w := xAt (getArch (atIssue s) s.cur) rb
    let d := dieOf s.cur
    let top := domOf (started s) s.cur
    w.toNat < 1024 → nameable (started s) s.cur w.toNat = some g → freeTag tag s → linked (started s) →
    let b : Barrier := { ctx := s.cur, top := top, tag := tag.toNat, level := (getCtx (started s) s.cur).level, gid := w.toNat, gen := g.gen
                         seq := g.seq, ls := lsPending (started s) s.cur, fb := fbPending (started s) s.cur, self := g.self }
    let u := modDie d (fun x => { x with barriers := x.barriers ++ [b] }) (takeSeq d top w.toNat (tagTaken tag (started s)))
    counted d top w.toNat (started s) u ∧ Completes (.barr rb tag) s (takeEarly d top w.toNat g.seq u)) ∧
  (∀ (s : State) (ra tag : BitVec 6) (g : Region), Ready (.ckpt ra tag) s →
     let w := xAt (getArch (atIssue s) s.cur) ra
     let d := getDie (started s) (dieOf s.cur)
     let top := domOf (started s) s.cur
     region? d top = some g → (∀ k ∈ d.ckpts, k.top ≠ top) → ckptOk g (linkKey (started s) (dieOf s.cur) top) g.rank w = true →
     imageBytes (markedPages d top) ≤ g.allotment / 4 → linked (started s) → freeTag tag s →
     Completes (.ckpt ra tag) s (modDie (dieOf s.cur) (fun x => { x with
       fbSeq := x.fbSeq + 1
       ckpts := x.ckpts ++ [{ ctx := s.cur, top := top, tag := tag.toNat, level := (getCtx (started s) s.cur).level, word := w
                              ord := x.fbSeq }] }) (tagTaken tag (started s))))

/-- AGB and AGBX with a valid word, of a context without a pending round and of a program with a live link key, open a
round: it takes the next number of its group and AGSTATE says that it is pending; AGB with RA also takes the checkpoint at the
boundary after it, in which a result of known value lands at its due cycle (12 R303 to R307, R311; 13 R325). -/
def Obligations.AgreedBranches : Prop :=
  ∀ (i : Instr) (s : State) (x : Bool) (w : Word) (n : Nat) (g : Group), agreement i (getArch (atIssue s) s.cur) = some (x, w, n) →
    Ready i s → (∀ r, (getCtx (started s) s.cur).round = some r → r.decided ≠ none ∧ r.level ≠ (getCtx (started s) s.cur).level) →
    agreementValid w → nameable (started s) s.cur (bitsN w 9 0) = some g → linked (started s) →
    (bit w 25 = false → Completes i s (openRound x w n g (started s))) ∧
    ∃ v, exec i s = .next v ∧ (getArch v s.cur).pc = (getArch s s.cur).pc + 1 ∧
      (getCtx v s.cur).round = some { word := w, contribution := n, gid := g.gid, seq := g.seq, gen := g.gen, agbx := x, level := (getCtx (started s) s.cur).level } ∧
      (getCtx v s.cur).agstate = BitVec.ofNat 64 (bitsN w 47 32 * 2 ^ 48 + bitsN w 9 0 * 2 ^ 32 +
        (if bit w 25 then bitsN w 24 24 * 16 + 4 else 0) + 2) ∧
      counted (dieOf s.cur) (domOf (started s) s.cur) g.gid (started s) v ∧
      (bit w 25 = true → ∃ k, (getCtx v s.cur).ckpt = some { getArch v s.cur with
        inflight := (getArch v s.cur).inflight.map fun r =>
          if r.val = .pending then { r with due := r.due - k, ready := r.ready - k }
          else { r with due := r.due - k, ready := r.due - k, late := false } })

namespace Sys2Proof.Claims

open Sys2Proof Sys2Proof.Machine

/-- The TRAPCODE of a precise fault (14 R334). -/
def preciseCode (code arg : Nat) : Word := BitVec.ofNat 64 (code + arg * 2 ^ 24)

/-- A record has nothing pending (10 R254): its tags and those of its interrupted state are set, its matrix commands have
completed, its LS and bank accesses and its table reads have been performed. -/
def nothingPending (x : Ctx) : Prop :=
  x.tags = BitVec.allOnes 64 ∧ x.busy0 = 0#64 ∧ x.mx.cmds = [] ∧ x.lsq = [] ∧ x.bk = [] ∧ x.bkt = []

/-- The context of a lone instruction has left its record: it is idle, nothing is issued from it (10 R254). -/
def idleNow (c : Nat) (v : State) : Prop :=
  (getCtx v c).status = .idle ∧ (getCtx v c).record = none ∧ (getCtx v c).level = 0 ∧ (getCore v (coreOf c)).issuing ≠ some (c % 4)

/-- The instructions marked S, and the reads and writes of special registers whose level is S (02 R52, R57, R58). -/
def supervisorOnly (i : Instr) : Prop :=
  match i with
  | .rfe | .halt _ | .keyselGen _ | .keyselKill _ | .ckwait | .fport .. | .tlbi .. | .ckpt .. => True
  | .mfs _ n => n.toNat = 0x020 ∨ n.toNat = 0x021 ∨ n.toNat = 0x022 ∨ n.toNat = 0x023
  | .mts n _ => n.toNat = 0x021 ∨ n.toNat = 0x023
  | .tagsWrite _ | .rowprogWrite _ => True
  | _ => False

/-- A write of a special register that no level writes (02 R58, R61); TAGS, FSTATUS, FCTL and ROWPROG have forms of their own. -/
def unwritable (i : Instr) : Prop :=
  match i with
  | .mts n _ => n.toNat ∉ [0x001, 0x002, 0x003, 0x008, 0x021, 0x023]
  | _ => False

/-- A lone operation that its guard turns off, or whose replay stage is not active (02 R43; 04 R118): the checks of R44
pass, nothing that the bundle names is interlocked, it waits for no table, and a guard that is read is not poisoned. -/
structure TurnedOff (i : Instr) (s : State) : Prop where
  sized : Sized s
  cur   : s.cur < 1024
  noEnd : s.hdr.fin = false
  legal : decodeFault (getCtx (atIssue s) s.cur) s.hdr [i] = none
  free  : interlocked (getArch (atIssue s) s.cur) (namedRegs (getArch (atIssue s) s.cur) s.hdr [i]) = false
  tables : bktStalls (getCtx (atIssue s) s.cur) [i] = false
  stage : (stageState (getArch (atIssue s) s.cur) s.hdr).1 = false
  off   : (stageState (getArch (atIssue s) s.cur) s.hdr).2 = false ∨ takesEffect (guardOf (getArch (atIssue s) s.cur) s.hdr) i = false
  ahead : (runsAhead (getCtx (atIssue s) s.cur) && heldBack i) = false
  clean : (getArch (atIssue s) s.cur).poisoned.any (fun d => (implicitReads (getArch (atIssue s) s.cur) s.hdr
    (stageState (getArch (atIssue s) s.cur) s.hdr).2).contains d) = false
  room  : (getArch (atIssue s) s.cur).inflight.length ≤ 96

end Sys2Proof.Claims

/-- TRAP takes exception 0x20, with its immediate in ARG, at the boundary behind its bundle. Taking an exception at level 0
with a handler bound, where the save is written without a fault: level 1, TRAPCODE, TRAPPC and TRAPADDR are set, the handler
begins at its entry in the state of a new record with x1 = SAVEAREA, x2 = TRAPCODE and x3 = TRAPADDR; SAVEAREA, the PIN windows,
the hold buffer and the run-ahead checkpoint stay; memory is as the save leaves it. One that no handler takes, or that is raised
at level 1, stops its context without changing its registers or memory, makes the top region not runnable and reports code, PC
and address (14 R327, R331 to R334). -/
def Obligations.Exceptions : Prop :=
  (∀ (s : State) (imm : BitVec 18), Ready (.trap imm) s →
     ∃ t, Ends ((getArch s s.cur).pc + 1) (started s) t ∧
       exec (.trap imm) s = .next (trapEntry s.cur (preciseCode 0x20 imm.toNat) 0#64 t)) ∧
  (∀ (s v : State) (c kid entry : Nat) (code addr : Word), Sized s → c < 1024 → (getCtx s c).level = 0 →
     handlerOf s c = some (kid, entry) →
     let w := landNow c (settle c (unwait c s))
     let x := getCtx w c
     writeParts c .ls { r := true, w := true } x.savearea (trapParts (boundary w c) x) w = .ok v →
     let t := trapEntry c code addr s
     let y := getCtx t c
     y.level = 1 ∧ y.trapcode = code ∧ y.trapaddr = addr ∧
     y.trappc = BitVec.ofNat 64 (x.arch.kid * 2 ^ 60 + x.arch.pc % 2 ^ 24) ∧ y.savearea = x.savearea ∧
     y.arch.pc = entry ∧ y.arch.kid = kid ∧ y.arch.x = [0#64, x.savearea, code, addr] ++ List.replicate 60 0#64 ∧
     y.arch.v = List.replicate 64 (List.replicate 128 0#32) ∧ y.arch.fstatus = 0#8 ∧ y.arch.fctl = 0#3 ∧
     y.arch.loops = [] ∧ y.arch.inflight = [] ∧ y.tags = BitVec.allOnes 64 ∧ y.agstate = 0#64 ∧
     y.pins = (getCtx v c).pins ∧ y.hold = (getCtx v c).hold ∧ y.ckpt = (getCtx v c).ckpt ∧ SameMem v t) ∧
  (∀ (s : State) (c : Nat) (code addr : Word), Sized s → c < 1024 → (getCtx s c).level = 1 ∨ handlerOf s c = none →
     let t := trapEntry c code addr s
     let top := topOf (getDie s (dieOf c)) (ridOf s c)
     (getCtx t c).status = .stopped ∧ getArch t c = getArch s c ∧ SameMem s t ∧
     (∀ g, region? (getDie t (dieOf c)) top = some g → g.runnable = false) ∧
     ∃ r ∈ t.reports, r.die = dieOf c ∧ r.rid = ridOf s c ∧ r.code = code ∧ r.addr = addr ∧
       r.pc = BitVec.ofNat 64 ((getArch s c).kid * 2 ^ 60 + (getArch s c).pc % 2 ^ 24))

/-- A bundle that breaks the header, syllable or in-bundle rules takes the exception 0x01 and has no effect; so with 0x03 an
instruction marked S at level 0, a read or write at level 0 of a special register whose level is S, and a write of a special
register that no level writes; nothing else is refused at decode (02 R44, R58; 13 R313). -/
def Obligations.DecodeExceptions : Prop :=
  ∀ (i : Instr) (s : State) (f : Op), opOf i = some f → s.cur < 1024 →
    let x := getCtx (atIssue s) s.cur
    let valid := headerOk x.arch s.hdr = true ∧ i.wf = true ∧ groupOk [i] = true
    (¬valid → exec i s = .next (trapEntry s.cur (preciseCode 0x01 0) 0#64 (atIssue s)) ∧ decodeFault x s.hdr [i] = some 0x01) ∧
    (valid → unwritable i ∨ (supervisorOnly i ∧ x.level = 0) →
      exec i s = .next (trapEntry s.cur (preciseCode 0x03 0) 0#64 (atIssue s)) ∧ decodeFault x s.hdr [i] = some 0x03) ∧
    (valid → ¬unwritable i → (supervisorOnly i → 1 ≤ x.level) → decodeFault x s.hdr [i] = none)

/-- An operation that its guard turns off, or whose replay stage is not active, has no effect: the bundle ends at the
next PC and nothing else moves (02 R43; 04 R118). -/
def Obligations.TurnedOffOperations : Prop :=
  ∀ (i : Instr) (s : State) (f : Op), opOf i = some f → TurnedOff i s → Completes i s (started s)

namespace Sys2Proof.Claims

open Sys2Proof Sys2Proof.Machine

/-! The state that a save area holds (14 R334 to R337) -/

/-- Flags of loop level i + 1 in an area: active, REPLAY, S - 1, rotation base. -/
def levelFlags (rd : Rd) (i : Nat) : Nat := natOf (rd (1560 + 32 * i) 8)

/-- Loop level i + 1, when it is active. -/
def levelAt (rd : Rd) (i : Nat) : Option LoopLevel :=
  if natOf (rd (1560 + 32 * i) 1) % 2 = 0 then none else some
    { kind := if nbits (levelFlags rd i) 1 1 = 1 then .replay else .loop
      start := natOf (rd (1536 + 32 * i) 8), exit := natOf (rd (1544 + 32 * i) 8), count := natOf (rd (1552 + 32 * i) 8)
      stages := nbits (levelFlags rd i) 2 4 + 1, pass := natOf (rd (2240 + 16 * i) 16) }

/-- Register and value of a snapshot entry at an offset. -/
def snapshotAt (rd : Rd) (o : Nat) : Dest × Val :=
  let n := nbits (natOf (rd o 8)) 0 6
  let mask := natOf (rd (o + 16) 16)
  match nbits (natOf (rd o 8)) 8 2 with
  | 0 => (.x n, .word (wordOf (rd (o + 32) 8)))
  | 1 => (.v n, .lanes (BitVec.ofNat 128 mask) (rdLanes rd (o + 32) 128))
  | 2 => (.p n, .bits (BitVec.ofNat 128 mask) (BitVec.ofNat 128 (natOf (rd (o + 32) 16))))
  | _ => (.a n, .areg (if nbits mask 0 1 = 1 then some (wordOf (rd (o + 32) 8)) else none)
      (if nbits mask 1 1 = 1 then some (wordOf (rd (o + 40) 8)) else none)
      (if nbits mask 2 1 = 1 then some (BitVec.ofNat 3 (natOf (rd (o + 48) 1))) else none))

/-- The registers, FCTL, the generators, the loop levels with the rotation base and the dispatch tables are those of an area. -/
structure HoldsArea (rd : Rd) (b : Arch) : Prop where
  x      : ∀ r : BitVec 6, r ≠ 0#6 → xAt b r = wordOf (rd (256 + 8 * r.toNat) 8)
  v      : b.v = (List.range 64).map fun i => rdLanes rd (4096 + 512 * i) 128
  p      : ∀ n < 16, 0 < n → b.p.getD n 0#128 = BitVec.ofNat 128 (natOf (rd (1280 + 16 * n) 16))
  a      : ∀ n < 16, b.a.getD n {} =
    { addr := wordOf (rd (768 + 32 * n) 8), stride := wordOf (rd (776 + 32 * n) 8), lvl := BitVec.ofNat 3 (natOf (rd (784 + 32 * n) 1)) }
  fctl   : b.fctl = if natOf (rd 32 1) ≤ 4 then BitVec.ofNat 3 (natOf (rd 32 1)) else 0#3
  rng    : b.rng = (rdMany rd 8 36864 128).map (BitVec.ofNat 64)
  levels : b.loops = (List.range 4).filterMap (levelAt rd)
  rot    : ∀ i < 4, nbits (levelFlags rd i) 0 2 = 3 → (∀ j < 4, j ≠ i → nbits (levelFlags rd j) 0 2 ≠ 3) → b.rotBase = nbits (levelFlags rd i) 8 5
  disp   : ∀ t < 4, ∀ e < 8, (b.disp.getD t []).getD e {} =
    { cap := natOf (rd (1664 + 64 * t + 8 * e) 3), pc := natOf (rd (1668 + 64 * t + 8 * e) 3) }

/-- The results in flight are those of the snapshot buffer, their cycles counted from the first in which the context issues; a
pop whose entry was not ready names its queue (09 R239; 14 R337). -/
structure HoldsSnapshot (rd : Rd) (y : Ctx) : Prop where
  count : y.arch.inflight.length = nbits (natOf (rd 8 8)) 16 8
  base  : y.rebase = true
  each  : ∀ (i : Nat) (r : InFlight), y.arch.inflight[i]? = some r →
    let o := 37888 + 544 * i
    let h := natOf (rd o 8)
    r.dest = (snapshotAt rd o).1 ∧ r.due = nbits h 16 8 ∧ r.flags = BitVec.ofNat 8 (natOf (rd (o + 8) 1)) ∧
      (nbits h 24 1 = 0 → r.val = (snapshotAt rd o).2) ∧ (nbits h 24 1 = 1 → nbits h 8 2 = 1 → r.pop.map (·.1) = some (nbits h 25 3))

/-- The pending faults of an area, head first (14 R335, R336). -/
def areaFaults (rd : Rd) : List PFault :=
  let at_ (o : Nat) : PFault := ⟨wordOf (rd o 8), wordOf (rd (o + 8) 8)⟩
  ((List.range (nbits (natOf (rd 8 8)) 12 4)).map fun i => at_ (128 + 16 * i)) ++
  (List.range (nbits (natOf (rd 8 8)) 5 7)).map fun i => at_ (2304 + 16 * i)

/-- RFE has left v: context c, whose handler left x in w, is back at level 0 in the state that it has read (14 R340). -/
structure Returned (rd : Rd) (c : Nat) (x : Ctx) (w v : State) : Prop where
  mem    : SameMem w v
  level  : (getCtx v c).level = 0
  pc     : (getArch v c).pc = bitsN x.trappc 23 0 ∧ (getArch v c).kid = bitsN x.trappc 63 60
  regs   : HoldsArea rd (getArch v c)
  status : (getArch v c).fstatus = BitVec.ofNat 8 (natOf (rd 24 1)) ||| x.heldFlags
  snap   : HoldsSnapshot rd (getCtx v c)
  tags   : (getCtx v c).tags = wordOf (rd 16 8) ||| x.heldTags ∧ (getCtx v c).agstate = wordOf (rd 40 8)
  faults : ∃ more, (getCtx v c).faults = areaFaults rd ++ x.faults.drop x.faults0 ++ more
  round  : if nbits (natOf (rd 40 8)) 1 1 = 0 then (getCtx v c).round = none
    else ∃ r, (getCtx v c).round = some r ∧ r.word = wordOf (rd 2176 8) ∧ r.seq = natOf (rd 2192 8) ∧ r.gen = natOf (rd 2200 8) ∧ r.level = 0
  others : (getCtx v c).hold = x.hold ∧ (getCtx v c).pins = x.pins ∧ (getCtx v c).savearea = x.savearea

end Sys2Proof.Claims

/-- RFE of a handler whose tags are set returns to level 0: PC and KID from TRAPPC; the registers, the modes, the generators, the
loop levels, the dispatch tables, the results in flight, TAGS, AGSTATE and the pending faults from the save area as it reads, with
the bits held for it; memory stays. Where the matrix state was saved, its matrix commands must have completed, and the saved state
comes back in place of the handler's, or waits for its tiles and queues. It blocks until the handler's tags are set, and while the
handler runs ahead (14 R335, R337, R340).
It rests on the model's choices of log 31 and 34. -/
def Obligations.ExceptionReturn : Prop :=
  (∀ (s u : State) (runs : List (Nat × List Seg × List Byte)), Ready .rfe s →
    let w := settle s.cur (started s)
    let x := getCtx w s.cur
    runsAhead (getCtx (started s) s.cur) = false → (getCtx (started s) s.cur).tags = BitVec.allOnes 64 →
    readRuns s.cur .ls x.savearea [(0, 90112)] (seeOrs s.cur x.savearea w) = (.ok runs, u) →
    specialBad (getDie u (dieOf s.cur)) (runs.flatMap (·.2.1)) (runReader runs) = false → areaOk (runReader runs) false = true →
    ((getCtx (started s) s.cur).mxSaved = false → x.mxSaved = false →
      ∃ v, exec .rfe s = .next v ∧ Returned (runReader runs) s.cur x w v) ∧
    (∀ (m : MxState) (z : State), (getCtx (started s) s.cur).mxSaved = true → x.mxSaved = true → (getCtx (started s) s.cur).mx.cmds = [] →
      readMx s.cur .mx (x.savearea + 90112#64) u = (.ok m, z) →
      let k := getCore z (coreOf s.cur)
      let own := ownMx (getCtx z s.cur)
      let fits := m.tiles.length ≤ k.freeTiles + own.1 ∧ m.queues.length ≤ k.freeQueues + own.2
      ∃ v, exec .rfe s = .next v ∧ Returned (runReader runs) s.cur x w v ∧
        (m.alloc = false → (getCtx v s.cur).mx.alloc = false) ∧
        (m.alloc = true → k.mxWait = [] → (getCtx z s.cur).granted = false →
          (fits → (getCtx v s.cur).mx.tiles = m.tiles ∧ (getCtx v s.cur).mx.cmds = (dropAbandoned m).cmds ∧
            (x.mxPends = [] → ∀ r, (getCtx v s.cur).mx.run = some r → r.suspended = false)) ∧
          (¬fits → waitsTiles (getCtx v s.cur) = true ∧ (getCtx v s.cur).wantMx = some (m.tiles.length, m.queues.length))))) ∧
  (∀ s : State, Ready .rfe s → runsAhead (getCtx (started s) s.cur) = true →
    ∃ v, exec .rfe s = .next v ∧ (getCtx v s.cur).block.map (·.1) = some .huddle ∧ getArch v s.cur = getArch (atIssue s) s.cur ∧
      State.calm s.cur v = State.calm s.cur (stops (started s)) ∧ SameMem (started s) v) ∧
  (∀ s : State, Ready .rfe s → runsAhead (getCtx (started s) s.cur) = false →
    ((getCtx (started s) s.cur).tags ≠ BitVec.allOnes 64 ∨ ((getCtx (started s) s.cur).mxSaved = true ∧ (getCtx (started s) s.cur).mx.cmds ≠ [])) →
    Blocks .rfe s)

/-- DONE of a record with nothing pending leaves its context idle and memory as it was; DONE with a checkpoint, and HALT of a
handler that runs ahead, wait for the outcome; HALT else abandons the interrupted
state, reports its register's low half with TRAPCODE and TRAPPC, and then ends the record as DONE does (10 R254; 14 R341). -/
def Obligations.RecordEnds : Prop :=
  (∀ s : State, Ready .done s → (getCtx (started s) s.cur).ckpt = none → nothingPending (getCtx (started s) s.cur) →
    ∃ v, exec .done s = .next v ∧ idleNow s.cur v ∧ SameMem (started s) v) ∧
  (∀ (i : Instr) (s : State), (i = .done ∧ (getCtx (started s) s.cur).ckpt ≠ none) ∨
      ((∃ ra, i = .halt ra) ∧ runsAhead (getCtx (started s) s.cur) = true) → Ready i s →
    ∃ v, exec i s = .next v ∧ (getCtx v s.cur).block.map (·.1) = some .doneHuddle ∧ getArch v s.cur = getArch (atIssue s) s.cur ∧
      State.calm s.cur v = State.calm s.cur (stops (started s)) ∧ SameMem (started s) v) ∧
  (∀ (s : State) (ra : BitVec 6), Ready (.halt ra) s → runsAhead (getCtx (started s) s.cur) = false →
    let x := getCtx (started s) s.cur
    let t := abandonAll s.cur (started s)
    savedTags s.cur t = BitVec.allOnes 64 → nothingPending (getCtx t s.cur) →
    ∃ v, exec (.halt ra) s = .next v ∧ idleNow s.cur v ∧ SameMem t v ∧
      (∃ r ∈ v.reports, r.die = dieOf s.cur ∧ r.code = x.trapcode ∧ r.pc = x.trappc ∧
        r.addr = (xAt (getArch (atIssue s) s.cur) ra) &&& 0xFFFFFFFF#64) ∧
      (getCtx t s.cur).faults = [] ∧ (getCtx t s.cur).hold = [] ∧ (getCtx t s.cur).ckpt = none ∧ (getCtx t s.cur).round = none)

namespace Sys2Proof.Claims

open Sys2Proof Sys2Proof.Machine

/-- A bundle with END reaches its end without a jump: context c is in loop level l, the next PC is n, and the operations of the
bundle have numbers from id0 on. -/
structure AtEnd (s : State) (c id0 n : Nat) (l : LoopLevel) : Prop where
  sized : Sized s
  ctx   : c < 1024
  flow  : ∃ k tags ps m, s.flow = { nextPc := n, tags0 := tags, preds0 := ps, id0 := k, mxOwn := m }
  fin   : s.hdr.fin = true
  level : (getArch s c).loops.getLast? = some l

/-- An operation of the bundle has queued this result for address register j. -/
def writesA (id0 j : Nat) (f : InFlight) : Prop := f.dest = .a j ∧ id0 ≤ f.id

end Sys2Proof.Claims

/-- The END that a bundle reaches without a jump. A loop level: while the count is above one it is stepped and the bundle at
the level's start comes next, else the level is popped. A replay level: unless the pass is the last, the next one begins at the
start, the rotation base goes down by one modulo 32, p8 to p14 move up by one, with their poison, and p8 is set while stage 0 still
has an iteration; after the last pass the level is popped and the rotation base is 0. An address register linked to the level
advances: its ADDR plus its STRIDE is a result of class 12, or joins the result that the bundle queues for it; no other register
does. Memory and everything else of the architectural state stay (04 R113, R116, R118). -/
def Obligations.LoopEnds : Prop :=
  (∀ (s : State) (c id0 n : Nat) (l : LoopLevel), AtEnd s c id0 n l → l.kind = .loop →
     let a := getArch s c
     let b := getArch (finishBundle c id0 s) c
     b = (if 1 < l.count
       then { a with pc := l.start, loops := a.loops.dropLast ++ [{ l with count := l.count - 1 }], inflight := b.inflight }
       else { a with pc := n, loops := a.loops.dropLast, inflight := b.inflight }) ∧ SameMem s (finishBundle c id0 s)) ∧
  (∀ (s : State) (c id0 n : Nat) (l : LoopLevel), AtEnd s c id0 n l → l.kind = .replay → (getArch s c).p.length = 16 →
     let a := getArch s c
     let b := getArch (finishBundle c id0 s) c
     SameMem s (finishBundle c id0 s) ∧
     (l.pass = l.count + l.stages - 2 → 2 ≤ l.count + l.stages →
       b = { a with pc := n, loops := a.loops.dropLast, rotBase := 0, inflight := b.inflight }) ∧
     (l.pass + 2 < l.count + l.stages →
       b = { a with pc := l.start, loops := a.loops.dropLast ++ [{ l with pass := l.pass + 1 }], rotBase := (a.rotBase + 31) % 32
                    p := b.p, poisoned := b.poisoned, inflight := b.inflight } ∧
       b.p.getD 8 0#128 = (if l.pass + 1 < l.count then BitVec.allOnes 128 else 0#128) ∧
       (∀ k < 8, b.p.getD k 0#128 = a.p.getD k 0#128) ∧ (∀ k < 7, b.p.getD (k + 9) 0#128 = a.p.getD (k + 8) 0#128) ∧
       (∀ k, .p k ∈ b.poisoned ↔ (k < 8 ∧ .p k ∈ a.poisoned) ∨ (9 ≤ k ∧ k < 16 ∧ .p (k - 1) ∈ a.poisoned)) ∧
       (∀ d, (∀ k, d ≠ .p k) → (d ∈ b.poisoned ↔ d ∈ a.poisoned)))) ∧
  (∀ (s : State) (c id0 n j : Nat) (l : LoopLevel), AtEnd s c id0 n l → j < 16 →
     let a := getArch s c
     let b := getArch (finishBundle c id0 s) c
     let r := a.a.getD j {}
     (r.lvl.toNat = a.loops.length → (∀ f ∈ a.inflight, ¬writesA id0 j f) →
       ∃ f, b.inflight.filter (fun q => q.dest == .a j) = a.inflight.filter (fun q => q.dest == .a j) ++ [f] ∧
         f.val = .areg (some (r.addr + r.stride)) none none ∧ f.due = nowOf s c + latOf s c 12) ∧
     (r.lvl.toNat = a.loops.length → ∀ (i : Nat) (f : InFlight) (ad st : Option Word) (lv : Option (BitVec 3)), a.inflight[i]? = some f →
       writesA id0 j f → f.val = .areg ad st lv →
         b.inflight[i]? = some { f with val := .areg (some (ad.getD r.addr + r.stride)) st lv }) ∧
     (r.lvl.toNat ≠ a.loops.length → b.inflight.filter (fun q => q.dest == .a j) = a.inflight.filter fun q => q.dest == .a j)) ∧
  (∀ (s : State) (c id0 n : Nat) (l : LoopLevel), AtEnd s c id0 n l →
     (getArch (finishBundle c id0 s) c).inflight.filter (fun q => (List.range 16).all fun j => q.dest != .a j) =
       (getArch s c).inflight.filter fun q => (List.range 16).all fun j => q.dest != .a j)

namespace Sys2Proof.Claims

open Sys2Proof Sys2Proof.Machine

/-! Landing (02 R35, R36) -/

/-- A register of every kind as a value. -/
def content (d : Dest) (a : Arch) : Val :=
  match d with
  | .x n => .word (a.x.getD n 0#64)
  | .v n => .lanes pall (a.v.getD n vzero)
  | .p n => .bits pall (a.p.getD n 0#128)
  | .a n => .areg (some (a.a.getD n {}).addr) (some (a.a.getD n {}).stride) (some (a.a.getD n {}).lvl)
  | .none => .pending

/-- A value of the kind of a register, for all of it. -/
def fits : Dest → Val → Prop
  | .x _, .word _ => True
  | .v _, .lanes m _ => m = pall
  | .p _, .bits m _ => m = pall
  | .a _, .areg ad st lv => ad.isSome ∧ st.isSome ∧ lv.isSome
  | _, _ => False

/-- A result whose cycle has come. -/
def landsBy (now : Nat) (r : InFlight) : Bool := known r && decide (max r.due r.ready ≤ now)

/-! Bundles (02 R40 to R44) -/

/-- A bundle without an operation passes its checks: nothing of its guard is interlocked or poisoned. -/
structure EmptyReady (s : State) : Prop where
  sized : Sized s
  cur   : s.cur < 1024
  noEnd : s.hdr.fin = false
  legal : headerOk (getArch (atIssue s) s.cur) s.hdr = true
  free  : interlocked (getArch (atIssue s) s.cur) (implicitRegs (getArch (atIssue s) s.cur) s.hdr []) = false
  stage : (stageState (getArch (atIssue s) s.cur) s.hdr).1 = false
  clean : (getArch (atIssue s) s.cur).poisoned.any (fun d => (implicitReads (getArch (atIssue s) s.cur) s.hdr
    (stageState (getArch (atIssue s) s.cur) s.hdr).2).contains d) = false
  room  : (getArch (atIssue s) s.cur).inflight.length ≤ 96

/-- Context n of core k is at a bundle boundary at which nothing but its bundle acts: it is issuing, within its quantum,
and no outcome, fault, restore or pre-emption waits for the boundary (10 R256, R258; 12 R309, R310; 14 R329). -/
structure AtBoundary (k n : Nat) (s : State) : Prop where
  core    : k < 256 ∧ n < 4
  up      : DieUp s (k / 64)
  issuing : (getCore s k).issuing = some n
  active  : (getCtx s (4 * k + n)).status = .active
  quantum : (getCtx s (4 * k + n)).quantum < 65536
  tiles   : waitsTiles (getCtx s (4 * k + n)) = false
  round   : (getCtx s (4 * k + n)).round = none
  restore : (getCtx s (4 * k + n)).restore = none
  held    : flushWaiting (4 * k + n) s = s
  faults  : (getCtx s (4 * k + n)).faults1 = [] ∧ ((getCtx s (4 * k + n)).level = 0 → (getCtx s (4 * k + n)).faults = [])
  mark    : (getCtx s (4 * k + n)).marked = false

end Sys2Proof.Claims

/-- The results whose cycle has come are written and leave, in the order of their cycles and, within a cycle, of their
issue: a register that they write whole holds the value of the last of them, whatever was written in between, and their
flags are ORed into FSTATUS; a register that none of them names stays (02 R36). -/
def Obligations.ResultsLand : Prop :=
  ∀ (a : Arch) (now : Nat),
    (landBy now a).fstatus = (a.inflight.filter (landsBy now)).foldl (fun f r => f ||| r.flags) a.fstatus ∧
    (landBy now a).inflight = a.inflight.filter (fun r => !landsBy now r) ∧
    (∀ (r : InFlight) (pre post : List InFlight), a.inflight = pre ++ r :: post → landsBy now r = true → fits r.dest r.val →
      (∀ q ∈ pre, landsBy now q = true → q.dest = r.dest → landAt q ≤ landAt r) →
      (∀ q ∈ post, landsBy now q = true → q.dest = r.dest → landAt q < landAt r) →
      content r.dest (landBy now a) = content r.dest (putVal r.dest r.val a)) ∧
    (∀ d, (∀ q ∈ a.inflight, landsBy now q = true → q.dest ≠ d) → content d (landBy now a) = content d a) ∧
    (landBy now a).pc = a.pc ∧ (landBy now a).loops = a.loops

/-- Opcode 0x00 is unassigned in every slot; a bundle with OCC = 0 and empty syllables is valid and one with a syllable
that is not empty is not; it issues, takes one cycle and changes nothing but the PC (02 R42). -/
def Obligations.EmptyBundles : Prop :=
  (∀ (sl : Slot) (w : BitVec 32), w.toNat / 2 ^ 24 = 0 → decodeSyl sl w = .error .unassigned) ∧
  (∀ (h : BitVec 32) (ws : List (BitVec 32)), h.toNat % 2 ^ 11 = 0 → h.toNat / 2 ^ 21 = 0 → ws.length = 11 →
    decodeBundle (h :: ws) = if ∀ w ∈ ws, w = 0#32 then some (hdrOf h, []) else none) ∧
  (∀ (h : BitVec 32) (ws : List (BitVec 32)) (k : Nat), ws.length = 11 → k < 11 → h.getLsbD k = false → ws.getD k 0#32 ≠ 0#32 →
    decodeBundle (h :: ws) = none) ∧
  (∀ (s : State) (n : Nat), EmptyReady s → ∃ u, issueOps n [] s = .went u ∧ Ends n (started s) u ∧
    (getCore u (coreOf s.cur)).cycles = (getCore (atIssue s) (coreOf s.cur)).cycles + 1)

/-- A boot attempt that succeeds from power-on releases every die in its state of reset: no slice holds direct steps, every
scratchpad word is zero and full, CYCLES is zero, only region 0 exists, every key slot but slot 0 is FREE, and no entry of
a route or group table is valid (15 R353). -/
def Obligations.DiesLeaveReset : Prop :=
  ∀ (s : State) (b : BootTry), Sized s → bootCause b = 0 → ∃ t, exec (.powerOn b) s = .next t ∧
    (∀ d < 4, DieUp t d ∧ (∀ sl ∈ (getDie t d).slices, sl.direct = 0 ∧ sl.drain = none) ∧
      (∀ a, scratchBase ≤ a → a < directBase → readByte (getDie t d).mem a = 0#8 ∧ isFull (getDie t d) a = true) ∧
      (getDie t d).regions = [] ∧ (∀ top rank, rtValid (routeOf (getDie t d) top rank) = false) ∧
      (∀ top gid, group? (getDie t d) top gid = none)) ∧
    (∀ k < 256, (getCore t k).cycles = 0) ∧ (t.keys.getD 0 {}).state = .live ∧
    (∀ n, 0 < n → n < 4096 → (t.keys.getD n {}).state = .free)

/-- The invariant of every step holds right after reset.
It rests on the model's choice of log 5. -/
def Obligations.InvariantAtReset : Prop := Inv State.reset

/-- Every step keeps memory in its canonical form, on every die of the package. -/
def Obligations.StepKeepsInvariant : Prop :=
  ∀ s t : State, Inv s → step s = .next t → Inv t

/-- Every well-formed instruction of a syllable is read back from its word in its bundle slot, with every operand at every
value that the encoding admits (02 R48 to R57). -/
def Obligations.DecodeOfEncode : Prop :=
  ∀ (i : Instr) (sl : Slot), slotOf i = some sl → i.wf = true → decodeSyl sl (encode i) = .ok i

/-- Words that the manual writes out decode to the instructions that they stand for (02 to 13). -/
def Obligations.DecodeWords : Prop :=
  okOf (decodeSyl .v0 0x040C1080#32) = some (.vfma .f32 .fctl 3#6 1#6 2#6) ∧
  okOf (decodeSyl .s0 0x29267734#32) = some (.movhi 9#6 2#2 0x7734#16) ∧
  okOf (decodeSyl .s0 0x15044142#32) = some (.cmp .lt 1#4 4#6 5#6) ∧
  okOf (decodeSyl .f 0x02289000#32) = some (.log2 .f32 .fctl 10#6 9#6) ∧
  okOf (decodeSyl .s1 0x4400C001#32) = some (.bktj 1#2 12#6) ∧
  okOf (decodeSyl .a 0x06324001#32) = some (.scl 3#4 9#6 1#3) ∧
  okOf (decodeSyl .e 0x0130A304#32) = some (.mma .bf16 3#4 10#6 12#6 1#4) ∧
  okOf (decodeSyl .m0 0x12201000#32) = some (.qpop 8#6 1#3) ∧
  okOf (decodeSyl .m0 0x01147080#32) = some (.ld .d64 0#2 false 5#6 7#6 2#6) ∧
  okOf (decodeSyl .m0 0x11042000#32) = some (.xfence .cp .mx) ∧
  okOf (decodeSyl .s1 0x4D008000#32) = some (.spawn 8#6) ∧
  okOf (decodeSyl .e 0x33516005#32) = some (.fputS 20#6 22#6 5#6) ∧
  okOf (decodeSyl .e 0x420C8000#32) = some (.agb 3#4 8#6) ∧
  okOf (decodeSyl .s1 0x54007001#32) = some (.keyselKill 7#6)

/-- A step runs the next act of the agenda: exec of it on the state without it; an entry that is not well-formed names no act
of the machine and is passed over.
It rests on the model's choice of log 3. -/
def Obligations.StepRunsAgenda : Prop :=
  ∀ (s : State) (i : Instr) (rest : List Instr), s.agenda = i :: rest →
    (i.wf = true → step s = exec i { s with agenda := rest }) ∧ (i.wf = false → step s = .next { s with agenda := rest })

/-- A step of a core whose context is at a boundary fetches the bundle at the PC, decodes it and runs its operations in one
group; a bundle of one operation i from the dictionary does what exec of i does (02 R38 to R45).
It rests on the model's choice of log 8. -/
def Obligations.StepRunsBundle : Prop :=
  ∀ (s t u : State) (k n next : Nat) (rest : List Instr) (ws : List (BitVec 32)) (h : Hdr) (is : List Instr),
    s.agenda = .bundleIssue k :: rest → AtBoundary k n (noteReady k { s with agenda := rest }) →
    fetch (4 * k + n) (noteReady k { s with agenda := rest }) = (.ok (ws, next), t) → breakpointAt t (4 * k + n) = none →
    decodeBundle ws = some (h, is) →
    let v : State := { t with cur := 4 * k + n, hdr := h }
    (issueOps next (opsOf is) v = .went u → exec (.bundleIssue k) { s with agenda := rest } = .next u ∧ step s = .next u) ∧
    (∀ i f, is = [i] → opOf i = some f → next = (getArch s (4 * k + n)).pc + 1 → issueOps next (opsOf is) v = .went u →
      step s = exec i v)

/-- A run of bytes that is written reads back, and every other address reads as before; the same of one byte (08 R184). -/
def Obligations.MemoryReadsBack : Prop :=
  (∀ (m : Memory) (a b : Nat) (v : Byte), Memory.wf m = true → readByte (writeByte m a v) b = if b = a then v else readByte m b) ∧
  (∀ (m : Memory) (a b : Nat) (vs : List Byte), Memory.wf m = true →
    readByte (writeRun m a vs) b = if a ≤ b ∧ b < a + vs.length then vs.getD (b - a) 0#8 else readByte m b) ∧
  (∀ (m : Memory) (a n : Nat), Memory.wf m = true → readRun m a n = (List.range n).map fun i => readByte m (a + i))

/-- Rounding changes no number that its format holds: every mode gives the bits back, with no flag (03 R77 to R81). -/
def Obligations.RoundingIsExact : Prop :=
  ∀ (f : FF) (n w : Nat) (mode : Mode), f = ffF32 ∨ f = ffBF16 ∨ f = ffF16 → n < 2 ^ (f.eb + f.fb + 1) → fxOf f n ≠ .nan →
    roundTo f (fxOf f n) mode w = (n, 0#8)

namespace Sys2Proof.Claims

open Sys2Proof Sys2Proof.Machine

/-! Events of the contexts (02 R35; 08; 09 R221; 10 R246 to R261; 14 R329 to R342) -/

/-- An event acts on a die that runs, in a package of its size. -/
def Acts (s : State) (d : Nat) : Prop := Sized s ∧ d < 4 ∧ DieUp s d

/-- An event of a context of a die. -/
def ActsOn (s : State) (c : Nat) : Prop := Acts s (dieOf c) ∧ c < 1024

/-- Every DRAM line that a place touches stands under the place's key, or nothing has written it (13 R321). -/
def keyed (s : State) (d : Nat) (g : Seg) : Prop :=
  isDram g.pa = true → ∀ l ∈ linesOf g.pa g.len, ∀ w, lineKey (getDie s d) l = some w → w = keyTag s g.okey

/-- A place that is written holds no word for which a context waits at its bank (08 R191, R192; 10 R252). -/
def unawaited (s : State) (d : Nat) (g : Seg) : Prop :=
  ∀ b ∈ (getDie s d).waiters, b.done = none → ¬(g.pa < b.seg.pa + 4 ∧ b.seg.pa < g.pa + g.len)

/-- A place that lies in basin-direct storage belongs to the domain of its key (13 R312, R322). -/
def owned (s : State) (d : Nat) (g : Seg) : Prop := isDirect g.pa = true → bankOk s d g = true

/-- A fault of a command issued at level 0 that its context can take (14 R329). -/
def takesFault (s : State) (c level : Nat) : Prop := level = 0 ∧ (getCtx s c).faults.length < 8

/-- The pending faults of a context after an asynchronous fault (14 R329, R334). -/
def faulted (c code arg : Nat) (addr : Word) (s t : State) : Prop :=
  (getCtx t c).faults = (getCtx s c).faults ++ [⟨BitVec.ofNat 64 (code + 256 + arg * 2 ^ 24), addr⟩]

/-- An address lies in a place. -/
def inSeg (g : Seg) (a : Nat) : Prop := g.pa ≤ a ∧ a < g.pa + g.len

/-- The bytes that memory holds at a place. -/
def bytesAt (s : State) (d : Nat) (g : Seg) : List Byte := (List.range g.len).map fun i => readByte (getDie s d).mem (g.pa + i)

/-- The new word of an atomic of w bits: ADD, AND, OR, XOR, signed MIN and MAX, SWP, CAS (08 R214). -/
def atomicWord (op w old b cmp : Nat) : Nat :=
  match op with
  | 0 => (old + b) % 2 ^ w
  | 1 => old.land b
  | 2 => old.lor b
  | 3 => old.xor b
  | 4 => if signedN w b < signedN w old then b else old
  | 5 => if signedN w old < signedN w b then b else old
  | 6 => b
  | _ => if old = cmp then b else old

/-- The cycle from which a value that comes in a cycle is ready: a padded result lands when it is due, a late one after
that, one that an entry of the pop queue gives with the entry (02 R35, R36; 06 R158). -/
def readyFrom (r : InFlight) (at_ : Nat) : Nat :=
  if r.pop.isSome then max r.ready at_ else if r.late then max r.ready (max at_ (r.due + 1)) else r.ready

/-- A result whose access gives it a value in a cycle (02 R35; 06 R158). -/
def given (v : Val) (at_ : Nat) (r : InFlight) : InFlight :=
  { r with val := v, ready := readyFrom r at_, poisoned := false
           late := if r.pop.isSome then decide (r.due < readyFrom r at_) else r.late }

/-- An atomic, an access of one place that nothing hides or poisons and nothing waits for, under the key of the frame's owner. -/
structure BankReady (s : State) (c op : Nat) (cmp : Word) (e : LsEntry) (g : Seg) : Prop where
  acts   : ActsOn s c
  memory : MemOk s
  kind   : e.kind = .atomic op cmp ∧ op < 8
  place  : e.segs = [g] ∧ 0 < g.len
  key    : keyed s (dieOf c) g
  alone  : unawaited s (dieOf c) g
  owner  : bankOk s (dieOf c) g = true
  clean  : (getDie s (dieOf c)).poison = []

end Sys2Proof.Claims

/-- Results land at a write-back; a quantum that is not used up, or that no other context waits for, changes nothing; the
watchdog takes exception 0x0B where the bundle still waits when it is tried; a fault that waits is taken at the boundary, one of level 1 is unhandled; pre-emption saves the
record with SAVED set and leaves the context idle; an idle context starts the record that no other one precedes; a pool is set
at the multiples of its period since the region became runnable, and one that is empty marks the contexts of its subtree (02 R35; 10 R246 to R260; 14 R329 to R342).
It rests on the model's choices of log 12 and 16. -/
def Obligations.ContextEvents : Prop :=
  (∀ (s : State) (c : Nat), ActsOn s c → (getCtx s c).rebase = false → (∀ r ∈ (getArch s c).inflight, known r = true) →
    ∃ t, exec (.registerWriteback c) s = .next t ∧ getArch t c = landBy (nowOf s c) (getArch s c) ∧ SameMem s t) ∧
  (∀ (s : State) (c : Nat), ActsOn s c →
    (((getCore s (coreOf c)).issuing ≠ some (c % 4) ∨ (getCtx s c).quantum < 65536) → exec (.quantumExpiry c) s = .next s) ∧
    ((getCore s (coreOf c)).issuing = some (c % 4) → quantumOver (coreOf c) (c % 4) s = true →
      exec (.quantumExpiry c) s = .next (switchFrom (coreOf c) (c % 4) s))) ∧
  (∀ (s u : State) (c : Nat), ActsOn s c → (getCtx s c).block.isSome = true →
    let w := effWdog (getDie s (dieOf c)) (ridOf s c)
    (∀ t, attempt c s = (false, u) → (getCtx u c).block = some (.watched, t) → exec (.watchdogExpiry c) s = .next
      (if w ≠ 0 ∧ w * 1024 < (getCtx u c).waited + (nowOf u c - t) then trapEntry c (preciseCode 0x0B 0) 0#64 s else s)) ∧
    ((attempt c s).1 = true ∨ (getCtx (attempt c s).2 c).block.map (·.1) ≠ some .watched → exec (.watchdogExpiry c) s = .next s)) ∧
  (∀ (s : State) (c : Nat) (f : PFault) (fs : List PFault), ActsOn s c → (getCtx s c).status = .active → waitsTiles (getCtx s c) = false →
    ((getCtx s c).faults1 = [] → (getCtx s c).level = 0 → (getCtx s c).faults = f :: fs →
      exec (.trapEntry c) s = .next (trapEntry c f.code f.addr (modCtx c (fun y => { y with
        faults := fs, restore := none
        round := match y.restore with
          | some v => y.round.map fun r => { r with decided := some v }
          | none => y.round }) s))) ∧
    ((getCtx s c).faults1 = f :: fs →
      exec (.trapEntry c) s = .next (unhandled c f.code f.addr (modCtx c (fun y => { y with faults1 := fs }) s)))) ∧
  (∀ (s v : State) (c : Nat) (r : RecInfo), ActsOn s c → (getCtx s c).status = .active → (getCtx s c).marked = true → (getCtx s c).record = some r →
    let w := landNow c (settle c (quietMx c (unwait c s)))
    let x := getCtx w c
    let y := { x with mx := x.mxHeld.getD x.mx }
    let held := { y with mx := { y.mx with run := y.mx.run.map fun q => { q with suspended := true } } }
    writeParts c .ls { r := true, w := true } r.frame (preemptParts (boundary w c) held) w = .ok v →
    ∃ t, exec (.preemption c) s = .next t ∧ (getCtx t c).status = .idle ∧ (getCtx t c).record = none ∧ SameMem v t ∧
      ∃ q ∈ (getDie t (dieOf c)).queue, bit q.bits 224 = true ∧ q.rid = r.rid ∧ q.level = r.prio ∧ bitsN q.bits 127 64 = r.frame.toNat) ∧
  (∀ (s : State) (c n : Nat) (q : QRec), ActsOn s c → (getCtx s c).status = .idle → lowerReaches s c = false → choosePop s c = some n →
    (getDie s (dieOf c)).queue[n]? = some q → bit q.bits 224 = false →
    (∀ (m : Nat) (p : QRec), (getDie s (dieOf c)).queue[m]? = some p → serves s c p.rid = true → popsBefore (getDie s (dieOf c)) p q = false) ∧
    ∃ t, exec (.recordPop c) s = .next t ∧ (getCtx t c).status = .active ∧ (getCtx t c).level = 0 ∧ (getCtx t c).tags = BitVec.allOnes 64 ∧
      (getArch t c).pc = bitsN q.bits 23 0 ∧ (getArch t c).kid = bitsN q.bits 63 60 ∧
      (getArch t c).x = [0#64, BitVec.ofNat 64 (bitsN q.bits 127 64), BitVec.ofNat 64 (bitsN q.bits 191 128), 0#64] ++ List.replicate 60 0#64 ∧
      (getDie t (dieOf c)).queue = (getDie s (dieOf c)).queue.eraseIdx n ∧ SameMem s t) ∧
  (∀ (s : State) (d r : Nat) (g : Region), Acts s d → region? (getDie s d) r = some g → g.runnable = true →
    let per := max 1 (effPeriod (getDie s d) r)
    let due (m : Nat) : Prop := g.poolSince + m * per ≤ (getDie s d).clock ∧ g.poolAt < g.poolSince + m * per
    ((∀ m, 0 < m → ¬due m) → exec (.budgetPeriod d r) s = .next s) ∧
    (∀ m, 0 < m → due m → ∃ t h, exec (.budgetPeriod d r) s = .next t ∧ region? (getDie t d) r = some h ∧ SameMem s t ∧
      h.pool = (if effCcyc (getDie s d) r = 2 ^ 64 - 1 then none else some (effCcyc (getDie s d) r)) ∧
      h.poolSince = g.poolSince ∧ h.poolAt = (getDie s d).clock)) ∧
  (∀ (s : State) (d r : Nat) (g : Region), Acts s d → region? (getDie s d) r = some g → g.pool = some 0 →
    ∃ t, exec (.budgetExhausted d r) s = .next t ∧ (∀ c ∈ holders s d r, (getCtx t c).marked = true) ∧ SameMem s t ∧
      ∀ c, getArch t c = getArch s c)

/-- A store that is performed whole writes its bytes and no other byte of memory, and leaves its queue; one that fills a word for
which an LDF waits releases it, which reads and empties the word; an access to basin-direct storage of another domain is not
performed and is fault 0x05; a load gives the bytes
of its place to its result and changes no byte; LOAD_DATA_RETURN does this and lands what is due; a bank gives the old word of
an atomic to its result and writes the new one; the descriptor of a BKTSET that arrives becomes its table when it is valid, and is
fault 0x01 when it is not (05 R133, R134; 08 R187, R191, R213, R214; 09 R221; 13 R312, R322).
It rests on the model's choices of log 13 and 112. -/
def Obligations.AccessEvents : Prop :=
  (∀ (s : State) (c n : Nat) (act : LsAct) (e : LsEntry), ActsOn s c → MemOk s → (getCtx s c).lsq[n]? = some e →
    mayPerform ((getCtx s c).lsq.take n) e = true → (e.kind = .store ∨ ∃ z m, e.kind = .vstore z m) → (e.strong = true ∨ act = .whole) →
    (∀ g ∈ e.segs, keyed s (dieOf c) g ∧ unawaited s (dieOf c) g ∧ owned s (dieOf c) g ∧
      ∀ h ∈ e.segs, keyTag s h.okey = keyTag s g.okey) → e.data.length = totalLen e.segs →
    ∃ t, exec (.lsAccessPerformed c n act) s = .next t ∧
      (∀ g, e.segs = [g] → bytesAt t (dieOf c) g = e.data) ∧
      (∀ d a, (d = dieOf c → ∀ g ∈ e.segs, ¬inSeg g a) → readByte (getDie t d).mem a = readByte (getDie s d).mem a) ∧
      (getCtx t c).lsq = (dropMarkers { getCtx s c with lsq := (getCtx s c).lsq.eraseIdx n }).lsq ∧ getArch t c = getArch s c) ∧
  (∀ (s : State) (c n : Nat) (act : LsAct) (e : LsEntry) (g : Seg) (b : BankWait), ActsOn s c → MemOk s → (getCtx s c).lsq[n]? = some e →
    mayPerform ((getCtx s c).lsq.take n) e = true → e.kind = .store → (e.strong = true ∨ act = .whole) → e.segs = [g] → e.data.length = 4 →
    g.len = 4 → g.pa % 4 = 0 → isScratch g.pa = true → (getDie s (dieOf c)).poison = [] →
    (getDie s (dieOf c)).waiters = [b] → b.seg.pa = g.pa → b.kind = .ldf → b.done = none →
    ∃ t, exec (.lsAccessPerformed c n act) s = .next t ∧ bytesAt t (dieOf c) g = e.data ∧ isFull (getDie t (dieOf c)) g.pa = false ∧
      (getDie t (dieOf c)).waiters = [{ b with done := some (wordOf e.data, false) }]) ∧
  (∀ (s : State) (c n : Nat) (act : LsAct) (e : LsEntry) (g : Seg) (pre post : List Seg), ActsOn s c → (getCtx s c).lsq[n]? = some e →
    mayPerform ((getCtx s c).lsq.take n) e = true → (e.kind = .load ∨ e.kind = .store ∨ (∃ f m, e.kind = .vload f m) ∨ ∃ z m, e.kind = .vstore z m) →
    e.level = 0 → e.segs = pre ++ g :: post → (∀ h ∈ pre, owned s (dieOf c) h) → isDirect g.pa = true → bankOk s (dieOf c) g = false →
    ∃ t, exec (.lsAccessPerformed c n act) s = .next t ∧ SameMem s t ∧ faulted c 0x05 0 (BitVec.ofNat 64 g.va) s t ∧
      (getCtx t c).lsq = (dropMarkers { getCtx s c with lsq := (getCtx s c).lsq.eraseIdx n }).lsq) ∧
  (∀ (s : State) (c n id : Nat) (act : LsAct) (e : LsEntry) (g : Seg), ActsOn s c → MemOk s → (getCtx s c).lsq[n]? = some e →
    mayPerform ((getCtx s c).lsq.take n) e = true → e.kind = .load → (e.strong = true ∨ act = .whole) → e.segs = [g] →
    keyed s (dieOf c) g → owned s (dieOf c) g → e.got = List.replicate g.len none → e.ovl = [] → e.bad = none → e.res = some id →
    (getDie s (dieOf c)).unseen = [] → (getDie s (dieOf c)).poison = [] →
    ∃ t, exec (.lsAccessPerformed c n act) s = .next t ∧ SameMem s t ∧
      (getArch t c).inflight = (getArch s c).inflight.map (fun r => if r.id = id then
        given (.word (wordOf (bytesAt s (dieOf c) g))) (nowOf s c) r else r) ∧
      (act = .whole → exec (.loadDataReturn c n) s = .next (landNow c t))) ∧
  (∀ (s : State) (c op : Nat) (cmp : Word) (e : LsEntry) (es : List LsEntry) (g : Seg), BankReady s c op cmp e g → (getCtx s c).bk = e :: es →
    ∃ t, exec (.bankAtomicPerformed c true) s = .next t ∧ (getCtx t c).bk = es ∧
      natOf (bytesAt t (dieOf c) g) = atomicWord op (8 * g.len) (natOf (bytesAt s (dieOf c) g)) (natOf e.data) (cmp.toNat % 2 ^ (8 * g.len)) %
        256 ^ g.len ∧
      (∀ d a, (d = dieOf c → ¬inSeg g a) → readByte (getDie t d).mem a = readByte (getDie s d).mem a) ∧
      (∀ id, e.res = some id → (getArch t c).inflight = (getArch s c).inflight.map fun r => if r.id = id then
        given (.word (wordOf (bytesAt s (dieOf c) g))) (nowOf s c) r else r)) ∧
  (∀ (s : State) (c n : Nat), ActsOn s c → (getCtx s c).lsq.findIdx? (fun e => isAtomic e.kind) = some n →
    exec (.bankAtomicPerformed c false) s = exec (.lsAccessPerformed c n .whole) s) ∧
  (∀ (s : State) (c tbl : Nat) (a : Word) (bs : List Byte) (rest : List (Nat × Word × List Byte × Bool)), ActsOn s c →
    (getCtx s c).bkt = (tbl, a, bs, false) :: rest →
    ∃ t, exec (.bktsetDataArrival c) s = .next t ∧ (getCtx t c).bkt = rest ∧ SameMem s t ∧
      (bucketsValid (bucketsOf bs) = true → (getArch t c).disp = (getArch s c).disp.set tbl
        ((bucketsOf bs).map fun e => { cap := e.1, pc := e.2.1 })) ∧
      (bucketsValid (bucketsOf bs) = false → getArch t c = getArch s c ∧ ((getCtx s c).level = 0 →
        (getCtx t c).faults = (getCtx s c).faults ++ [⟨BitVec.ofNat 64 0x101, a⟩])))

namespace Sys2Proof.Claims

open Sys2Proof Sys2Proof.Machine

/-! Events of the copy unit and the basin (08 R196 to R212) -/

/-- Command n of core k is a copy of a context that runs on that core, and its completion goes to the context itself. -/
structure CopyOf (s : State) (k n : Nat) (m : Copy) : Prop where
  acts  : ActsOn s m.ctx
  core  : k = coreOf m.ctx
  at_   : (getCore s k).copies[n]? = some m
  own   : savedArea s m.ctx m.level = none
  tag   : m.tag < 64

/-- Nothing of a die is poisoned and no path misses a write. -/
def calmDie (s : State) (d : Nat) : Prop := (getDie s d).poison = [] ∧ (getDie s d).unseen = []

/-- Where a byte of a multicast without a ring lands at core r: the offset, within a core's scratchpad, of the address on a
destination page (08 R209). -/
def castAt (b : TlbEntry) (va r : Nat) : Nat := scratchBase + r % 64 * 2097152 + (placeOf b va - scratchBase) % 2097152

/-- Command n of core k is a multicast without a ring that runs and holds one destination page. -/
structure Cast (s : State) (k n : Nat) (m : Copy) (b : TlbEntry) : Prop where
  copy   : CopyOf s k n m
  memory : MemOk s
  kind   : m.kind = 1 ∧ m.dst.rb = false
  runs   : m.suspended = false ∧ m.ending = none ∧ m.landed = false
  page   : m.dpages = [b]

/-- A copy has left the copy unit and its tag is set; no byte of memory has changed. -/
def copyEnded (k n : Nat) (m : Copy) (s t : State) : Prop :=
  (getCore t k).copies = (getCore s k).copies.eraseIdx n ∧ bit (getCtx t m.ctx).tags m.tag = true ∧ bit (getCtx t m.ctx).busy m.tag = false ∧
  SameMem s t

/-- Memory of a die after a place was written: its bytes, and every other byte as before, on every die. -/
def written (d : Nat) (g : Seg) (bs : List Byte) (s t : State) : Prop :=
  bytesAt t d g = bs ∧ ∀ e a, (e = d → ¬inSeg g a) → readByte (getDie t e).mem a = readByte (getDie s e).mem a

/-- The part of slice i that a drain to n steps takes from direct use or gives to it (08 R196). -/
def drained (i n : Nat) (sl : Slice) (a : Nat) : Prop :=
  directBase + i * 2097152 + min n sl.direct * 262144 ≤ a ∧ a < directBase + i * 2097152 + max n sl.direct * 262144

end Sys2Proof.Claims

/-- A piece of a copy, of whole words, within one page and one run of each side moves its bytes and no others; a copy whose stream has landed
leaves the copy unit and sets its tag, and WPTR passes its ring slot; a copy to a ring claims the slot at CLAIM, or waits when
none is free; a piece of a multicast lands at every receiver but for the first word, which lands last and makes the multicast
land; one whose first word is full at a receiver lands nothing and ends with fault 0x0D; a prefetch ends with its tag set; a line of a
window is placed in the slice of the window opened first and pinned; a drain whose time has come gives its slice its new size
and the steps that changed read zero (08 R196 to R200, R204, R208, R209, R212; 09 R237).
That a window's lines are fetched in ascending order is the model's choice of log 105; log 29 says how a multicast lands. -/
def Obligations.CopyEvents : Prop :=
  (∀ (s : State) (k n len : Nat) (m : Copy) (a b : TlbEntry), CopyOf s k n m → MemOk s → m.kind = 0 → m.suspended = false → m.ending = none →
    let w := (len + 3) / 4 * 4
    m.landed = false → m.dst.rb = false → m.sleaf = some a → m.dpages = [b] → 0 < len → m.pos + w ≤ descLen m.src →
    w ≤ runLeft m.src m.pos → w ≤ runLeft m.dst m.pos →
    let sa := (streamAddr m.src m.pos).toNat
    let da := (streamAddr m.dst m.pos).toNat
    a.vbase ≤ sa → sa + w ≤ a.vbase + a.size → b.vbase ≤ da → da + w ≤ b.vbase + b.size → calmDie s (k / 64) →
    let src : Seg := ⟨placeOf a sa, w, sa, leafOkey a.leaf⟩
    let dst : Seg := ⟨placeOf b da, w, da, leafOkey b.leaf⟩
    keyed s (k / 64) src → keyed s (k / 64) dst → unawaited s (k / 64) dst →
    ∃ t q, exec (.copyPageReach k n len) s = .next t ∧ written (k / 64) dst (bytesAt s (k / 64) src) s t ∧
      (getCore t k).copies[n]? = some q ∧ q.pos = m.pos + w ∧ q.suspended = false ∧ ∀ c, getCtx t c = getCtx s c) ∧
  (∀ (s : State) (k n : Nat) (m : Copy), CopyOf s k n m → m.kind ≠ 3 → m.suspended = false → m.ending = none → descLen m.src ≤ m.pos →
    (m.kind = 1 → m.landed = true) →
    (m.slots = [] → ∃ t, exec (.copyComplete k n) s = .next t ∧ copyEnded k n m s t) ∧
    (∀ (w : Nat) (r : Ring), m.slots = [(k, w)] → m.dst.rb = true → m.landed = false → (getCore s k).rings[m.dst.ring]? = some r →
      r.wptr = w → w < 2 ^ 32 → r.landed = [] → ∃ t, exec (.copyComplete k n) s = .next t ∧ copyEnded k n m s t ∧
        (getCore t k).rings[m.dst.ring]? = some { r with wptr := (w + 1) % 2 ^ 32 })) ∧
  (∀ (s : State) (k n : Nat) (m : Copy) (r : Ring), CopyOf s k n m → m.kind ≠ 1 → m.dst.rb = true → m.slots = [] → m.suspended = false →
    (getCore s k).rings[m.dst.ring]? = some r →
    (r.n ≤ (r.claim + 2 ^ 32 - r.rptr) % 2 ^ 32 → exec (.ringSlotClaim k n) s = .next s) ∧
    ((r.claim + 2 ^ 32 - r.rptr) % 2 ^ 32 < r.n → ∃ t q, exec (.ringSlotClaim k n) s = .next t ∧ SameMem s t ∧
      (getCore t k).rings[m.dst.ring]? = some { r with claim := (r.claim + 1) % 2 ^ 32 } ∧
      (getCore t k).copies[n]? = some q ∧ q.slots = [(k, r.claim)])) ∧
  (∀ (s : State) (k n len : Nat) (m : Copy) (a b : TlbEntry), Cast s k n m b → m.sleaf = some a → 0 < len →
    let w := (len + 3) / 4 * 4
    m.pos + w ≤ descLen m.src → w ≤ runLeft m.src m.pos → w ≤ runLeft m.dst m.pos →
    let sa := (streamAddr m.src m.pos).toNat
    let da := (streamAddr m.dst m.pos).toNat
    a.vbase ≤ sa → sa + w ≤ a.vbase + a.size → b.vbase ≤ da → da + w ≤ b.vbase + b.size → calmDie s (k / 64) →
    let src : Seg := ⟨placeOf a sa, w, sa, leafOkey a.leaf⟩
    let late := min w (4 - m.pos)
    let at_ (r : Nat) : Seg := ⟨castAt b da r + late, w - late, 0, 0⟩
    keyed s (k / 64) src → castAt b da 0 + w ≤ castAt b da 0 / 2097152 * 2097152 + 2097152 →
    (∀ r ∈ receivers (k / 64) m.mask, unawaited s (k / 64) (at_ r)) →
    ((m.pos ≠ 0 ∨ ∀ r ∈ receivers (k / 64) m.mask, isFull (getDie s (k / 64)) (castAt b da r) = false) →
      ∃ t q, exec (.copyPageReach k n len) s = .next t ∧ (getCore t k).copies[n]? = some q ∧ q.pos = m.pos + w ∧
        q.bytes = m.bytes ++ (bytesAt s (k / 64) src).take (4 - m.pos) ∧
        (∀ r ∈ receivers (k / 64) m.mask, bytesAt t (k / 64) (at_ r) = (bytesAt s (k / 64) src).drop late) ∧
        (∀ d x, (d = k / 64 → ∀ r ∈ receivers (k / 64) m.mask, ¬inSeg (at_ r) x) → readByte (getDie t d).mem x = readByte (getDie s d).mem x) ∧
        ∀ c, getCtx t c = getCtx s c) ∧
    (m.pos = 0 → (∃ r ∈ receivers (k / 64) m.mask, isFull (getDie s (k / 64)) (castAt b da r) = true) → m.level = 0 →
      (getCtx s m.ctx).faults.length < 8 →
      ∃ t, exec (.copyPageReach k n len) s = .next t ∧ copyEnded k n m s t ∧
        (getCtx t m.ctx).faults = (getCtx s m.ctx).faults ++ [⟨BitVec.ofNat 64 0x10D, BitVec.ofNat 64 da⟩])) ∧
  (∀ (s : State) (k n : Nat) (m : Copy) (b : TlbEntry), Cast s k n m b → descLen m.src ≤ m.pos → m.bytes.length = 4 →
    let da := (streamAddr m.dst 0).toNat
    b.vbase ≤ da → da < b.vbase + b.size → castAt b da 0 % 4 = 0 →
    (∀ r ∈ receivers (k / 64) m.mask, unawaited s (k / 64) ⟨castAt b da r, 4, 0, 0⟩) →
    ∃ t q, exec (.cpymLanding k n) s = .next t ∧ (getCore t k).copies[n]? = some q ∧ q.landed = true ∧
      (∀ r ∈ receivers (k / 64) m.mask, bytesAt t (k / 64) ⟨castAt b da r, 4, 0, 0⟩ = m.bytes ∧
        isFull (getDie t (k / 64)) (castAt b da r) = true) ∧
      ∀ d x, (d = k / 64 → ∀ r ∈ receivers (k / 64) m.mask, ¬inSeg ⟨castAt b da r, 4, 0, 0⟩ x) →
        readByte (getDie t d).mem x = readByte (getDie s d).mem x) ∧
  (∀ (s : State) (k n : Nat) (m : Copy), CopyOf s k n m → m.kind = 3 → ∃ t, exec (.prefetchComplete k n) s = .next t ∧ copyEnded k n m s t) ∧
  (∀ (s u : State) (c w : Nat) (p : PinWin) (e : TlbEntry), ActsOn s c → (getCtx s c).pins[w]? = some p → p.isOpen = true →
    128 * p.next < p.len.toNat →
    let v := modCtx c (fun x => { x with pins := x.pins.set w { p with next := p.next + 1 } }) s
    let va := (p.start + BitVec.ofNat 64 (128 * p.next)).toNat
    let ss := slicesOf p.mask
    ss ≠ [] → visit (tlbOf c) (dieOf c) (domOf s c) none {} va v = (.ok e, u) → leafKind e.leaf = 0 →
    let line := placeOf e va / 128
    let seen := windowsOf u (dieOf c) line
    let wins := if seen.any (fun x => x.1 == p.age) then seen else (p.age, ss.getD (p.next % ss.length) 0) :: seen
    (∀ n, n ≠ p.next → exec (.pinLineFetch c w n) s = .next s) ∧
    ∃ t, exec (.pinLineFetch c w p.next) s = .next t ∧ SameMem u t ∧ ((getCtx t c).pins[w]?.map (·.next)) = some (p.next + 1) ∧
      ∀ g ∈ wins, (∀ x ∈ wins, x ≠ g → g.1 < x.1) →
        ((getDie u (dieOf c)).basin.filter fun b => b.slice == g.2).length < cacheLines ((getDie u (dieOf c)).slices.getD g.2 {}) →
        ∃ b ∈ (getDie t (dieOf c)).basin, b.line = line ∧ b.slice = g.2 ∧ b.pins = wins.map (·.1) ∧ p.age ∈ b.pins) ∧
  (∀ (s : State) (d : Nat), Acts s d → MemOk s → (getDie s d).slices.length = 64 →
    let ends (i : Nat) (n : Nat) (sl : Slice) : Prop := i < 64 ∧ (getDie s d).slices[i]? = some sl ∧ ∃ till, sl.drain = some (n, till) ∧ till ≤ (getDie s d).clock
    ∃ t, exec (.phaseDrainEnd d) s = .next t ∧
      (∀ i n sl, ends i n sl → (getDie t d).slices[i]? = some { sl with direct := n, drain := none } ∧
        ∀ a, drained i n sl a → readByte (getDie t d).mem a = 0#8) ∧
      (∀ e a, (e = d → ∀ i n sl, ends i n sl → ¬drained i n sl a) → readByte (getDie t e).mem a = readByte (getDie s e).mem a) ∧
      ∀ c, getCtx t c = getCtx s c)

namespace Sys2Proof.Claims

open Sys2Proof Sys2Proof.Machine

/-! Events of the matrix engine (06 R137 to R160) and of the Eddy engine (07 R174 to R181) -/

/-- Core k's matrix engine runs the command at the head of a context's queue, whose flags go to the context itself. -/
structure MatrixRun (s : State) (k c : Nat) (m : MxCmd) (rest : List MxCmd) (r : MxRun) : Prop where
  acts : ActsOn s c
  core : k = coreOf c
  busy : (getCore s k).mxBusy = some c
  head : (getCtx s c).mx.cmds = m :: rest
  run  : (getCtx s c).mx.run = some r
  own  : savedArea s c (mxLevel (getCtx s c)) = none
  pops : (getArch s c).inflight = [] ∧ ∀ n ∈ (getCtx s c).mx.pops, n = 0
  rows : (getCtx s c).mx.tilePoison = []

/-- A die's Eddy engine runs command n, of a context of the die. -/
structure EddyRuns (s : State) (d n : Nat) (m : EddyCmd) : Prop where
  acts    : Acts s d
  ctx     : m.ctx < 1024 ∧ dieOf m.ctx = d
  at_     : (getDie s d).eddy[n]? = some m
  started : m.started = true ∧ m.suspended = false
  first   : ∀ j < n, ∀ e, (getDie s d).eddy[j]? = some e → (e.started && !e.suspended) = false
  own     : savedArea s m.ctx m.level = none
  tag     : m.tag < 64

/-- The amplitudes of an array that trades its half with a partner's: this rank gives the positions whose bit p is not v and
takes the partner's at the position with that bit changed (07 R174). -/
def tradedAmps (p : Nat) (v : Bool) (mine theirs : List (Nat × Nat)) : List (Nat × Nat) :=
  (List.range mine.length).map fun i => if i.testBit p = v then mine.getD i (0, 0) else theirs.getD (i ^^^ 2 ^ p) (0, 0)

/-- The bytes of the half of an array that has a value at local bit p, in ascending position (07 R174). -/
def halfWith (p : Nat) (v : Bool) (as : List (Nat × Nat)) : List Byte :=
  bytesOfAmps (((List.range as.length).filter fun i => i.testBit p == v).map fun i => as.getD i (0, 0))

/-- The running command n of a die waits for an exchange of local bit p with global bit g. -/
structure Exchanges (s : State) (d n : Nat) (m : EddyCmd) (p g : Nat) (rest : List (Nat × Nat)) : Prop where
  runs  : EddyRuns s d n m
  going : m.finished = false
  swaps : m.swaps = (p, g) :: rest ∧ svLB m.desc ≤ g

/-- A handshake comes from the partner of an exchange on global bit g. -/
def fromMate (s : State) (d : Nat) (m : EddyCmd) (g : Nat) (h : Shake) : Prop := h.top = m.top ∧ h.src = partnerOf (getDie s d) m g

/-- The partner's handshake of an exchange on which both agree: GROUP, SERIAL, b and g (07 R175). -/
def mateShake (s : State) (d : Nat) (m : EddyCmd) (p g : Nat) : Shake :=
  { top := m.top, src := partnerOf (getDie s d) m g, gid := svGroup m.desc, serial := m.serial, b := p, g := g }

/-- The amplitudes of a packet of an exchange. -/
def ampBytes : Pay → List Byte
  | .amps _ _ _ _ bs => bs
  | _ => []

/-- The one place of an array of amplitudes, under its key, with nothing poisoned, unseen or waited for. -/
def arrayAt (s : State) (d : Nat) (m : EddyCmd) (g : Seg) : Prop :=
  m.segs = [g] ∧ g.len = 8 * 2 ^ svLB m.desc ∧ keyed s d g ∧ unawaited s d g ∧ calmDie s d

end Sys2Proof.Claims

/-- A grant gives a waiter its tiles and queues when they are free, kept for its bundle or put in place for a record that goes
on, and nobody anything when they are not; the engine takes the next context in turn whose queue has a head that is not suspended; a line that is fetched is kept; a fetch that fails
suspends the command with its fault and frees the engine; the arithmetic is done when the lines of a K-step are present; a
command that completes leaves its queue with its flags in FSTATUS, MZERO with zeros in its tiles, MDRAIN with its entry ready
in its queue (06 R137, R140 to R142, R149, R150, R153, R156, R157).
It rests on the model's choice of log 95. -/
def Obligations.MatrixEvents : Prop :=
  (∀ (s : State) (c n m : Nat), ActsOn s c → (getCore s (coreOf c)).mxWait = [c] → (getCtx s c).wantMx = some (n, m) → (getCtx s c).granted = false →
    let k := getCore s (coreOf c)
    let own := ownMx (getCtx s c)
    let fits := n ≤ k.freeTiles + own.1 ∧ m ≤ k.freeQueues + own.2
    let taken := modCore (coreOf c) (fun q => { q with freeTiles := q.freeTiles - (n - own.1), freeQueues := q.freeQueues - (m - own.2), mxWait := [] }) s
    (¬fits → exec (.matrixAllocGrant (coreOf c)) s = .next s) ∧
    (fits → (getCtx s c).block.isSome = true → exec (.matrixAllocGrant (coreOf c)) s = .next (modCtx c (fun x => { x with granted := true }) taken)) ∧
    (fits → (getCtx s c).block = none → exec (.matrixAllocGrant (coreOf c)) s = .next (modCtx c (fun x => { x with
      wantMx := none, mxHeld := none
      mx := x.mxHeld.getD { alloc := true, tiles := List.replicate n (List.replicate 4096 0#32), queues := List.replicate m [], pops := List.replicate m 0 } })
      taken))) ∧
  (∀ (s : State) (k i : Nat), Acts s (k / 64) → k < 256 → (getCore s k).mxBusy = none → 1 ≤ i → i ≤ 4 →
    let slot (j : Nat) : Nat := ((getCore s k).mxLast + j) % 4
    let ready (j : Nat) : Prop := ∃ m rest, (getCtx s (4 * k + slot j)).mx.cmds = m :: rest ∧ ∀ r, (getCtx s (4 * k + slot j)).mx.run = some r → r.suspended = false
    ready i → (∀ j, 1 ≤ j → j < i → ¬ready j) →
    ∃ t, exec (.matrixCommandStart k) s = .next t ∧ (getCore t k).mxBusy = some (4 * k + slot i) ∧ (getCore t k).mxLast = slot i ∧
      (getCtx t (4 * k + slot i)).mx.run.isSome = true ∧ SameMem s t) ∧
  (∀ (s u : State) (k c : Nat) (m : MxCmd) (rest : List MxCmd) (r : MxRun), MatrixRun s k c m rest r → r.finished = false → r.suspended = false →
    let na := (lineNeed m).1
    let nb := (lineNeed m).2.1
    let opnd := decide (na ≤ r.aLines.length)
    let l := if opnd then r.bLines.length else r.aLines.length
    let page := if opnd then r.bPage else r.aPage
    (∀ ln last, ¬(na ≤ r.aLines.length ∧ nb ≤ r.bLines.length) → (opnd = false → r.bLines = []) →
      fetchLine c m page opnd r.kstep l s = (.ok (ln, last), u) →
      let as := if opnd then r.aLines else r.aLines ++ [ln]
      let bs := if opnd then r.bLines ++ [ln] else r.bLines
      ¬(na ≤ as.length ∧ nb ≤ bs.length) →
      ∃ t q, exec (.matrixLineFetch k) s = .next t ∧ SameMem s t ∧ (getCtx t c).mx = { (getCtx s c).mx with run := some q } ∧
        q.aLines = as ∧ q.bLines = bs ∧ q.kstep = r.kstep ∧ q.flags = r.flags ∧ q.finished = false ∧ q.suspended = false ∧
        (q.opnd, q.line) = if na ≤ as.length then (true, bs.length) else (false, as.length)) ∧
    (∀ code a, ¬(na ≤ r.aLines.length ∧ nb ≤ r.bLines.length) → fetchLine c m page opnd r.kstep l s = (.error (code, a), u) →
      takesFault s c (mxLevel (getCtx s c)) →
      ∃ t, exec (.matrixLineFetch k) s = .next t ∧ SameMem s t ∧ faulted c code 0 (BitVec.ofNat 64 a) s t ∧ (getCore t k).mxBusy = none ∧
        (getCtx t c).mx = { (getCtx s c).mx with run := some { r with
          opnd := opnd, line := l, suspended := true, aPage := none, bPage := none } }) ∧
    (na ≤ r.aLines.length → nb ≤ r.bLines.length → ∃ t, exec (.matrixLineFetch k) s = .next t ∧ SameMem s t ∧
      (getCtx t c).mx.tiles = (mxCompute m r (getCtx s c).mx.tiles).1 ∧ (getCtx t c).mx.cmds = m :: rest ∧
      ∃ q, (getCtx t c).mx.run = some q ∧ q.kstep = r.kstep + 1 ∧ q.aLines = [] ∧ q.bLines = [] ∧
        q.flags = r.flags ||| (mxCompute m r (getCtx s c).mx.tiles).2 ∧ q.finished = decide ((lineNeed m).2.2 ≤ r.kstep + 1))) ∧
  (∀ (s : State) (k c : Nat) (m : MxCmd) (rest : List MxCmd) (r : MxRun), MatrixRun s k c m rest r → r.finished = true →
    let x := getCtx s c
    ∃ t, exec (.matrixCommandComplete k) s = .next t ∧ SameMem s t ∧ (getCore t k).mxBusy = none ∧ (getCtx t c).mx.cmds = rest ∧
      (getCtx t c).mx.run = none ∧ (getCtx t c).mx.pops = x.mx.pops ∧
      ((∀ f b q td, m.instr ≠ .mdrain f b q td) → (getArch t c).fstatus = x.arch.fstatus ||| r.flags ∧ (getCtx t c).mx.queues = x.mx.queues ∧
        ((∀ td n, m.instr ≠ .mzero td n) → (getCtx t c).mx.tiles = x.mx.tiles)) ∧
      (∀ td n, m.instr = .mzero td n → ∀ i, (getCtx t c).mx.tiles[i]? =
        if td.toNat ≤ i ∧ i ≤ td.toNat + n.toNat then x.mx.tiles[i]?.map (fun _ => List.replicate 4096 0#32) else x.mx.tiles[i]?) ∧
      (∀ f clr q td, m.instr = .mdrain f clr q td → ∀ (tile : List Lane) (before after : List QEntry) (e : QEntry), x.mx.tiles[td.toNat]? = some tile →
        x.mx.queues[q.toNat]? = some (before ++ e :: after) → (∀ p ∈ before, p.ready = true) → e.ready = false →
        let out (l : Lane) : Nat × BitVec 8 := match f with
          | .f32 => (l.toNat, 0#8)
          | .bf16 => roundTo ffBF16 (fxOf ffF32 l.toNat) .rne 0
          | .f16 => roundTo ffF16 (fxOf ffF32 l.toNat) .rne 0
        (getCtx t c).mx.queues[q.toNat]? = some (before ++ { fmt := f, elems := tile.map fun l => BitVec.ofNat 32 (out l).1, ready := true } :: after) ∧
        (getCtx t c).mx.tiles = (if clr then x.mx.tiles.set td.toNat (List.replicate 4096 0#32) else x.mx.tiles) ∧
        (getArch t c).fstatus = x.arch.fstatus ||| (r.flags ||| tile.foldl (fun g l => g ||| (out l).2) 0#8)))

/-- SVINIT writes its amplitudes and finishes at its start; a start that fails waits suspended with the fault of the lowest failing
address and changes nothing; without a handshake of the partner, or without its half, the exchange waits; a handshake that
agrees sends the half of the array whose bit is not this rank's, and one that differs before an exchange is fault 0x12; the half that has
arrived takes the places of the one sent, and MAP and SERIAL step with it; a partner that does not answer or is lost ends the command
without its tag; completion writes SERIAL and MAP into the descriptor, the flags into FSTATUS, and sets the tag
(07 R172, R174, R175, R179, R181).
It rests on the model's choices of log 35, 115 and 116. -/
def Obligations.EddyEvents : Prop :=
  (∀ (s u v : State) (d : Nat) (m : EddyCmd), Acts s d → m.ctx < 1024 ∧ dieOf m.ctx = d → (getDie s d).eddy = [m] → m.started = false →
    m.suspended = false → m.ending = none →
    (∀ code a, svCheck d m s = (.error (code, a), u) → takesFault s m.ctx m.level →
      ∃ t q, exec (.eddyCommandStart d) s = .next t ∧ SameMem s t ∧ faulted m.ctx code 0 (BitVec.ofNat 64 a) s t ∧
        (getDie t d).eddy = [q] ∧ q.suspended = true ∧ q.started = false ∧
        ∀ e w, svRead m.ctx { r := true, w := true } m.xa.toNat 64 (svResult m s).2 = (.error e, w) → a ≤ e.2) ∧
    (∀ ra rb tag bs dsegs (g : Seg) (e : Group), m.instr = .svinit ra rb tag → svRead m.ctx { r := true, w := true } m.xa.toNat 64 s = (.ok (bs, dsegs), u) →
      let q := natOf bs
      descValid (getDie u d) m.top false q = true → m.xb.toNat < 2 ^ svNQ q → group? (getDie v d) m.top (svGroup q) = some e →
      checkAccess m.ctx { w := true, fmt := fun f => f == 0 || f == 7 } (BitVec.ofNat 64 (svBase q)) (8 * 2 ^ svLB q) u = (.ok [g], v) →
      MemOk s → keyed s d g → unawaited s d g → g.len = 8 * 2 ^ svLB q →
      ∃ t r, exec (.eddyCommandStart d) s = .next t ∧ written d g (bytesOfAmps ((List.range (2 ^ svLB q)).map fun i =>
          if m.xb.toNat = e.self * 2 ^ svLB q + i then (0x3F800000, 0) else (0, 0))) s t ∧
        (getDie t d).eddy = [r] ∧ r.finished = true ∧ r.map = List.range (svNQ q) ∧ r.serial = 0 ∧ r.flags = 0#8)) ∧
  (∀ (s : State) (d n p g : Nat) (m : EddyCmd) (rest : List (Nat × Nat)), Exchanges s d n m p g rest →
    (∀ i j k l, (m.shaken = true ∨ ∀ h ∈ (getDie s d).shakes, fromMate s d m g h → (h.gid, h.serial, h.b, h.g) ≠ (i, j, k, l)) →
      exec (.exchangeHandshake d i j k l) s = .next s) ∧
    (∀ bs, (m.shaken = false ∨ ∀ h ∈ (getDie s d).halves, h.1 = mateShake s d m p g → h.2 ≠ bs ∨ h.2.length ≠ 4 * 2 ^ svLB m.desc) →
      exec (.exchangeData d bs) s = .next s)) ∧
  (∀ (s : State) (d n p g : Nat) (m : EddyCmd) (rest : List (Nat × Nat)) (before after : List Shake) (h : Shake), Exchanges s d n m p g rest →
    m.shaken = false → (getDie s d).shakes = before ++ h :: after → (∀ e ∈ before, ¬fromMate s d m g e) → fromMate s d m g h →
    (h ≠ mateShake s d m p g → m.begun = false → takesFault s m.ctx m.level →
      ∃ t x, exec (.exchangeHandshake d h.gid h.serial h.b h.g) s = .next t ∧ SameMem s t ∧ faulted m.ctx 0x12 (svGroup m.desc) m.xa s t ∧
        (getDie t d).eddy[n]? = some x ∧ x.suspended = true ∧ x.started = false ∧ (getDie t d).shakes = before ++ after) ∧
    (∀ (y : Seg) (e : Group), h = mateShake s d m p g → group? (getDie s d) m.top (svGroup m.desc) = some e → arrayAt s d m y →
      ∃ t ps, exec (.exchangeHandshake d h.gid h.serial h.b h.g) s = .next t ∧ SameMem s t ∧ (getDie t d).eddy[n]? = some { m with shaken := true } ∧
        (getDie t d).shakes = before ++ after ∧ (getDie t d).sendq = (getDie s d).sendq ++ ps ∧
        (∀ q ∈ ps, q.pkt.dst = partnerOf (getDie s d) m g ∧ q.pkt.strong = true ∧
          q.pkt.pay = .amps (svGroup m.desc) m.serial p g (ampBytes q.pkt.pay)) ∧
        ps.flatMap (fun q => ampBytes q.pkt.pay) =
          halfWith p (!e.self.testBit (g - svLB m.desc)) (ampsOf (bytesAt s d y)))) ∧
  (∀ (s : State) (d n p g : Nat) (m : EddyCmd) (ra rb tag : BitVec 6) (y : Seg) (e : Group) (theirs : List Byte) (before after : List (Shake × List Byte)),
    Exchanges s d n m p g [] → MemOk s → m.shaken = true → m.instr = .svmap ra rb tag → p < svLB m.desc →
    group? (getDie s d) m.top (svGroup m.desc) = some e → arrayAt s d m y → theirs.length = y.len →
    let v := e.self.testBit (g - svLB m.desc)
    let mate := mateShake s d m p g
    (getDie s d).halves = before ++ (mate, halfWith p v (ampsOf theirs)) :: after → (∀ b ∈ before, b.1 ≠ mate) →
    ∃ t r, exec (.exchangeData d (halfWith p v (ampsOf theirs))) s = .next t ∧ written d y (bytesOfAmps (tradedAmps p v (ampsOf (bytesAt s d y)) (ampsOf theirs))) s t ∧
      (getDie t d).eddy[n]? = some r ∧ r.finished = true ∧ r.serial = (m.serial + 1) % 2 ^ 32 ∧
      r.map = m.map.map (fun i => if i = p then g else if i = g then p else i) ∧ ∀ b ∈ (getDie t d).halves, b.1 ≠ mate) ∧
  (∀ (s : State) (d n p g : Nat) (lost : Bool) (m : EddyCmd) (rest : List (Nat × Nat)), EddyRuns s d n m → m.finished = false → m.swaps = (p, g) :: rest →
    svLB m.desc ≤ g → takesFault s m.ctx m.level → ∃ t, exec (.exchangePartnerTimeout d lost) s = .next t ∧ SameMem s t ∧
      (if lost then faulted m.ctx 0x15 (svGroup m.desc) 0#64 s t else faulted m.ctx 0x10 0 0#64 s t) ∧
      (getDie t d).eddy = (getDie s d).eddy.eraseIdx n ∧ (getCtx t m.ctx).tags = (getCtx s m.ctx).tags) ∧
  (∀ (s : State) (d n : Nat) (m : EddyCmd) (g : Seg), EddyRuns s d n m → MemOk s → m.finished = true → m.dsegs = [g] → g.len = 64 → keyed s d g → unawaited s d g →
    m.map.length ≤ 42 → ∃ t, exec (.eddyCommandComplete d) s = .next t ∧
      written d { g with pa := g.pa + 16, len := 46 } (bytesOf 4 m.serial ++ m.map.map (BitVec.ofNat 8) ++ List.replicate (42 - m.map.length) 0#8) s t ∧
      (getDie t d).eddy = (getDie s d).eddy.eraseIdx n ∧ bit (getCtx t m.ctx).tags m.tag = true ∧
      (getArch t m.ctx).fstatus = (getArch s m.ctx).fstatus ||| m.flags)

namespace Sys2Proof.Claims

open Sys2Proof Sys2Proof.Machine

/-! Events of the group operations (12 R289 to R311) -/

/-- The state when a group message has been taken from the package's own messages. -/
def took (d : Nat) (m : GMsg) (s : State) : State := { s with msgs := s.msgs.erase (d, m) }

/-- Collective n of a die: it has not ended, it alone has its program, group and number, its context is on the die and
takes faults of level 0. -/
structure CollAt (s : State) (d n : Nat) (q : Coll) (tag : Nat) : Prop where
  acts  : Acts s d
  at_   : (getDie s d).colls[n]? = some q
  one   : ∀ (j : Nat) (r : Coll), (getDie s d).colls[j]? = some r → r.top = q.top ∧ r.gid = q.gid ∧ r.seq = q.seq → j = n
  live  : q.ended = false
  ctx   : q.ctx < 1024 ∧ dieOf q.ctx = d
  own   : savedArea s q.ctx q.level = none
  tag   : q.tag = some tag ∧ tag < 64
  room  : takesFault s q.ctx q.level

/-- A collective has left its die with its tag set. -/
def collGone (d n : Nat) (q : Coll) (tag : Nat) (s t : State) : Prop :=
  (getDie t d).colls = (getDie s d).colls.eraseIdx n ∧ bit (getCtx t q.ctx).tags tag = true

/-- A message of this member under the number of a collective. -/
def fromColl (q : Coll) (b : GBody) : GMsg :=
  { dst := 0, src := 0, top := q.top, gid := q.gid, gen := q.gen, seq := q.seq, mem := q.self, sig := q.sig, body := b }

/-- A message meets the operation that has its program, group, number, GEN and signature (12 R289). -/
def meets (m : GMsg) (q : Coll) : Prop := m.top = q.top ∧ m.gid = q.gid ∧ m.seq = q.seq ∧ m.gen = q.gen ∧ m.sig = q.sig

/-- A plan counter steps; it saturates (12 R296). -/
def stepped? (ctr : Option Nat) (l : List Nat) : List Nat := match ctr with | some n => l.modify n fun v => min 65535 (v + 1) | none => l

/-- Barrier n of a die has the number of a message, and nothing else has. -/
structure BarrAt (s : State) (d n : Nat) (b : Barrier) (m : GMsg) : Prop where
  acts  : Acts s d
  at_   : (getDie s d).barriers[n]? = some b
  one   : ∀ (j : Nat) (r : Barrier), (getDie s d).barriers[j]? = some r → r.top = b.top ∧ r.gid = b.gid ∧ r.seq = b.seq → j = n
  free  : ∀ q ∈ (getDie s d).colls, ¬(q.top = b.top ∧ q.gid = b.gid ∧ q.seq = b.seq)
  msg   : m.top = b.top ∧ m.gid = b.gid ∧ m.seq = b.seq ∧ m.gen = b.gen ∧ m.sig = .barr ∧ m.body = .barr ∧ (d, m) ∈ s.msgs
  going : b.ending = none
  ctx   : b.ctx < 1024 ∧ dieOf b.ctx = d
  own   : savedArea s b.ctx b.level = none
  tag   : b.tag < 64

/-- The decision point of a group holds one round, and no other operation there has its number. -/
structure DecidesAt (s : State) (d : Nat) (q : Decision) (g : Group) : Prop where
  acts  : Acts s d
  only  : (getDie s d).decisions = [q]
  group : group? (getDie s d) q.top q.gid = some g
  free  : (∀ r ∈ (getDie s d).colls, ¬(r.top = q.top ∧ r.gid = q.gid ∧ r.seq = q.seq)) ∧
          ∀ r ∈ (getDie s d).barriers, ¬(r.top = q.top ∧ r.gid = q.gid ∧ r.seq = q.seq)

/-- An outcome as the decision point sends it, under the signature of the round (12 R306). -/
def outcomeMsg (q : Decision) (g : Group) (sig : GSig) (v : Verdict) : GMsg :=
  { dst := 0, src := 0, top := q.top, gid := q.gid, gen := q.gen, seq := q.seq, mem := g.self, sig := sig, body := .outcome v }

/-- The state when the decision point holds this one round. -/
def decides (d : Nat) (q : Decision) (s : State) : State := modDie d (fun x => { x with decisions := [q] }) s

/-- The agreed value of contributions: AND, OR, least, greatest (12 R303). -/
def agreedValue (oper : Nat) (v : Nat) (vs : List Nat) : Nat :=
  match oper with
  | 0 => vs.foldr Nat.land v
  | 1 => vs.foldr Nat.lor v
  | 2 => vs.foldr min v
  | _ => vs.foldr max v

/-- Context c has the round that an outcome decides; it is at level 0 as the round is, and no other is set aside. -/
structure RoundAt (s : State) (d c : Nat) (m : GMsg) (r : Round) : Prop where
  acts  : ActsOn s c
  die   : d = dieOf c
  found : roundCtx s d m.top m.gid m.seq = some (c, r)
  held  : (getCtx s c).round = some r
  gen   : r.gen = m.gen ∧ (d, m) ∈ s.msgs
  level : (getCtx s c).level = 0 ∧ r.level = 0 ∧ (getCtx s c).ckptAt1 = false ∧ (getCtx s c).round0 = none ∧ (getCtx s c).ckpt0 = none

/-- AGSTATE of a resolved round: VALUE and MISS, PEND and RA clear, the rest as it was (12 R305). -/
def agAfter (ag : Word) (v : Nat) : Word := BitVec.ofNat 64 (ag.toNat / 2 ^ 20 * 2 ^ 20 + v * 16)

end Sys2Proof.Claims

/-- A group message that has not reached its die does nothing; one to this rank reaches it at once, and one to another rank leaves as
a weak packet; a collective starts when what its context's fences hold has been performed: its plan is read, and its open notices leave;
an open notice is kept, and so is one for an operation still to come; a step counts and is acknowledged; an abort notice ends the
collective with its code, and one of another GEN or signature, which tells of no mismatch, with 0x12 on every member; a timeout of what
it still awaits ends it, a lost member ends it with fault 0x15; a barrier's arrival leaves once the accesses before it have
been performed, and the last arrival sets the tag (12 R289, R293 to R302).
It rests on the model's choices of log 23, 48, 50, 51, 55 and 79. -/
def Obligations.CollectiveEvents : Prop :=
  (∀ (s : State) (d : Nat) (m : GMsg), (d, m) ∉ s.msgs →
    ∀ i ∈ [Instr.openNoticeArrival d m, .planStepArrival d m, .abortNoticeArrival d m, .barrArrivalReceive d m, .huddleContributionArrival d m,
      .huddleOutcomeArrival d m, .voidRequestArrival d m], exec i s = .next s) ∧
  (∀ (s : State) (d top i : Nat) (g : Group) (members : List Nat) (m : GMsg), d < s.dies.length → i ∈ members →
    let self := progRank (getDie s d) top
    let sent : GMsg := { m with dst := g.ranks.getD i 0, src := self, top := top }
    let t := tellMembers d top g members m s
    (sent.dst = self → (d, sent) ∈ t.msgs) ∧
    (sent.dst ≠ self → ∃ p ∈ (getDie t d).sendq, p.pkt.dst = sent.dst ∧ p.pkt.strong = false ∧ p.pkt.pay = .group sent)) ∧
  (∀ (s : State) (d n tag : Nat) (q : Coll), CollAt s d n q tag →
    ((q.started = true ∨ fencePassed s q.ctx q.after = false) → exec (.collectiveStart d n) s = .next s) ∧
    (∀ (u w : State) (g : Group) (hd bs : List Byte), q.started = false → fencePassed s q.ctx q.after = true → q.plan.toNat % 64 = 0 →
      q.notices = [] → q.heldSteps = [] → group? (getDie s d) q.top q.gid = some g → readFb d q.top { r := true } q.plan 64 s = (.ok hd, u) →
      headOk (natOf hd) = true → readFb d q.top { r := true } (q.plan + 64#64) (32 * nbits (natOf hd) 32 13) u = (.ok bs, w) →
      (∀ i < nbits (natOf hd) 32 13, entryOk q.oper g.ranks.length (entryBits bs i) = true) →
      exec (.collectiveStart d n) s = .next (tellMembers d q.top g (List.range g.ranks.length) (fromColl q (.openNotice q.rbuf))
        (modDie d (fun x => { x with colls := x.colls.modify n fun r => { r with
          started := true, chunk := 2 ^ (12 + nbits (natOf hd) 64 4), expect := nbits (natOf hd) 72 24, heldSteps := []
          entries := (List.range (nbits (natOf hd) 32 13)).map fun i => entryOf (entryBits bs i) } }) w)))) ∧
  (∀ (s : State) (d n tag : Nat) (q : Coll) (m : GMsg) (rbuf : Word), CollAt s d n q tag → meets m q → m.body = .openNotice rbuf →
    (d, m) ∈ s.msgs → q.started = false →
    exec (.openNoticeArrival d m) s = .next (modDie d (fun x => { x with colls := x.colls.modify n fun r =>
      { r with notices := (m.mem, rbuf) :: r.notices } }) (took d m s))) ∧
  (∀ (s : State) (d : Nat) (m : GMsg) (rbuf : Word), Acts s d → m.body = .openNotice rbuf → localSig s d m.top m.gid m.seq = none →
    (d, m) ∈ s.msgs → over? s d m.top m.gid m.seq = none →
    exec (.openNoticeArrival d m) s = .next (if (m.seq + 2 ^ 32 - seqOf s d m.top m.gid) % 2 ^ 32 < 2 ^ 31
      then modDie d (fun x => { x with early := x.early ++ [m] }) (took d m s) else took d m s)) ∧
  (∀ (s : State) (d n tag ent : Nat) (q : Coll) (m : GMsg) (ctr : Option Nat), CollAt s d n q tag → meets m q → m.body = .step ent ctr →
    (d, m) ∈ s.msgs → q.started = true → q.notices = [] → q.count + 1 < q.expect → q.heard.length < q.expect →
    let e := routeOf (getDie s d) m.top m.src
    m.src ≠ progRank (getDie s d) m.top → rtValid e = true → rtLocal e = false →
    ∃ t, exec (.planStepArrival d m) s = .next t ∧ SameMem s t ∧
      t.acksOut = s.acksOut ++ [(rtPkg e, .ackArrival (rtDie e) (.step (rtDrid e) m.gid m.seq ent))] ∧
      (getDie t d).colls[n]? = some { q with count := q.count + 1, heard := (m.mem, ent, 0) :: q.heard, counters := stepped? ctr q.counters }) ∧
  (∀ (s : State) (d n tag code mem : Nat) (q : Coll) (m : GMsg), CollAt s d n q tag → m.top = q.top → m.gid = q.gid → m.seq = q.seq →
    m.body = .abort code mem → (d, m) ∈ s.msgs → (meets m q ∨ code = 0x12 ∨ code = 0x14) →
      ∃ t, exec (.abortNoticeArrival d m) s = .next t ∧ collGone d n q tag s t ∧
      (if code = 0x12 ∨ code = 0x15 then faulted q.ctx code q.gid q.desc s t else (getCtx t q.ctx).faults = (getCtx s q.ctx).faults)) ∧
  (∀ (s : State) (d n tag code mem : Nat) (q : Coll) (m : GMsg) (g : Group), CollAt s d n q tag → m.top = q.top → m.gid = q.gid → m.seq = q.seq →
    m.body = .abort code mem → (d, m) ∈ s.msgs → ¬meets m q → code ≠ 0x12 → code ≠ 0x14 → (∀ x o l, q.sig ≠ .huddle x o l) →
    group? (getDie s d) q.top q.gid = some g →
      ∃ t, exec (.abortNoticeArrival d m) s = .next t ∧ collGone d n q tag s t ∧ faulted q.ctx 0x12 q.gid q.desc s t ∧
        ∀ i < g.ranks.length, i ≠ g.self → g.ranks.getD i 0 ≠ progRank (getDie s d) q.top →
          ∃ p ∈ (getDie t d).sendq, p.pkt.dst = g.ranks.getD i 0 ∧ ∃ w, p.pkt.pay = .group w ∧ w.gid = q.gid ∧ w.seq = q.seq ∧
            w.body = .abort 0x12 g.self) ∧
  (∀ (s : State) (d n tag : Nat) (q : Coll), CollAt s d n q tag → q.started = true →
    let awaited := q.count < q.expect ∨ ∃ e ∈ q.entries, e.fired = false
    (awaited → ∃ t, exec (.collectiveTimeout d n) s = .next t ∧ collGone d n q tag s t ∧ faulted q.ctx 0x10 0 q.desc s t) ∧
    (¬awaited → exec (.collectiveTimeout d n) s = .next s)) ∧
  (∀ (s : State) (d rank tag : Nat) (q : Coll) (g : Group), CollAt s d 0 q tag → (getDie s d).colls = [q] → (getDie s d).barriers = [] →
    (getDie s d).decisions = [] → (getDie s d).ckpts = [] → (getDie s d).dropped = [] → (∀ c, (getCtx s c).round = none) →
    group? (getDie s d) q.top q.gid = some g → rank ∈ g.ranks →
    ∃ t, exec (.memberLostReport d q.top rank) s = .next t ∧ collGone d 0 q tag s t ∧ faulted q.ctx 0x15 q.gid q.desc s t) ∧
  (∀ (s : State) (d n : Nat) (b : Barrier) (g : Group), Acts s d → (getDie s d).barriers[n]? = some b → b.sent = false → b.ending = none →
    group? (getDie s d) b.top b.gid = some g →
    let passed := (∀ i ∈ b.ls, ∀ e ∈ (getCtx s b.ctx).lsq, e.id ≠ i) ∧ fencePassed s b.ctx b.fb = true
    (¬passed → exec (.barrArrivalSend d n) s = .next s) ∧
    (passed → exec (.barrArrivalSend d n) s = .next (tellMembers d b.top g (List.range g.ranks.length)
      { dst := 0, src := 0, top := b.top, gid := b.gid, gen := b.gen, seq := b.seq, mem := b.self, sig := .barr, body := .barr }
      (modDie d (fun y => { y with barriers := y.barriers.modify n fun r => { r with sent := true } }) s)))) ∧
  (∀ (s : State) (d n : Nat) (b : Barrier) (m : GMsg) (g : Group), BarrAt s d n b m → group? (getDie s d) b.top b.gid = some g →
    let all := (m.mem :: b.arrived).eraseDups
    (all.length < g.ranks.length → ∃ t, exec (.barrArrivalReceive d m) s = .next t ∧ SameMem s t ∧
      (getDie t d).barriers = (getDie s d).barriers.modify n (fun r => { r with arrived := all }) ∧ ∀ c, getCtx t c = getCtx s c) ∧
    (g.ranks.length ≤ all.length → ∃ t, exec (.barrArrivalReceive d m) s = .next t ∧ SameMem s t ∧
      (getDie t d).barriers = (getDie s d).barriers.eraseIdx n ∧ bit (getCtx t b.ctx).tags b.tag = true))

/-- A contribution is kept until all have come; the last decides the round, and a signature that differs makes it a mismatch:
the outcome is decided once and goes to every member; an outcome resolves the round, commits or abandons the run-ahead, or is
the fault of its mismatch or of its being void; a member whose round does not resolve asks for it to be void and, when that brings no
answer either, takes it as void, for every member where its decision point has not decided; a void request decides a round that has
no outcome, and one that has it is sent again (12 R289, R303 to R311).
It rests on the model's choices of log 54 and 106. -/
def Obligations.HuddleEvents : Prop :=
  (∀ (s : State) (d oper lab v : Nat) (x : Bool) (q : Decision) (g : Group) (m : GMsg), DecidesAt s d q g → m.top = q.top → m.gid = q.gid →
    m.seq = q.seq → m.gen = q.gen → (d, m) ∈ s.msgs → m.body = .contrib v → q.verdict = none → m.sig = .huddle x oper lab →
    let others := q.contributions.filter fun e => e.1 != m.mem
    let q' := { q with sig := some m.sig, contributions := (m.mem, v) :: others }
    ((q.sig = none ∨ q.sig = some m.sig) → others.length + 1 < g.ranks.length → exec (.huddleContributionArrival d m) s = .next (decides d q' (took d m s))) ∧
    ((q.sig = none ∨ q.sig = some m.sig) → g.ranks.length ≤ others.length + 1 → g.ranks ≠ [] →
      let n := agreedValue oper v (others.map (·.2))
      exec (.huddleContributionArrival d m) s = .next (tellMembers d q.top g (List.range g.ranks.length) (outcomeMsg q g m.sig (.value n))
        (decides d { q' with verdict := some (.value n) } (took d m s)))) ∧
    (∀ y oper' lab', q.sig = some (.huddle y oper' lab') → q.sig ≠ some m.sig → exec (.huddleContributionArrival d m) s =
      .next (tellMembers d q.top g (List.range g.ranks.length) (outcomeMsg q g (.huddle y oper' lab') (.mismatch 0x14))
        (decides d { q with verdict := some (.mismatch 0x14) } (took d m s))))) ∧
  (∀ (s : State) (d c n : Nat) (m : GMsg) (r : Round), RoundAt s d c m r → m.body = .outcome (.value n) →
    ((getCtx s c).ckpt = none → ∃ t, exec (.huddleOutcomeArrival d m) s = .next t ∧ SameMem s t ∧ (getCtx t c).round = none ∧
      (getCtx t c).agstate = agAfter (getCtx s c).agstate n ∧ getArch t c = getArch s c) ∧
    (∀ a, (getCtx s c).ckpt = some a → n = bitsN r.word 24 24 → ∃ t, exec (.huddleOutcomeArrival d m) s = .next t ∧
      (getCtx t c).round = none ∧ (getCtx t c).ckpt = none ∧ (getCtx t c).hold = [] ∧ (getCtx t c).agstate = agAfter (getCtx s c).agstate n ∧
      SameMem s t ∧ getArch t c = getArch s c ∧ ∃ es ms, (getCtx t c).lsq = (getCtx s c).lsq ++ es ++ ms ∧
        es.map (·.strong) = (getCtx s c).hold.map (·.strong) ∧ (∀ e ∈ es, e.inS = true ∧ e.inL = false) ∧
        ms.map (·.kind) = if (getCtx s c).hold = [] then [] else [.resolved]) ∧
    (∀ a, (getCtx s c).ckpt = some a → n ≠ bitsN r.word 24 24 → ∃ t, exec (.huddleOutcomeArrival d m) s = .next t ∧ SameMem s t ∧
      (getCtx t c).hold = [] ∧ (getCtx t c).restore = some (.value n) ∧ (getCtx t c).ckpt = some a)) ∧
  (∀ (s : State) (d c code : Nat) (m : GMsg) (r : Round), RoundAt s d c m r →
    m.body = .outcome (.mismatch code) ∨ m.body = .outcome .void ∧ code = 0x15 → (getCtx s c).ckpt = none →
    (getCtx s c).faults.length < 8 → ∃ t, exec (.huddleOutcomeArrival d m) s = .next t ∧ SameMem s t ∧ (getCtx t c).round = none ∧
      (getCtx t c).agstate = agAfter (getCtx s c).agstate 0 ∧ faulted c code r.gid (r.word &&& ~~~(0x3000000#64)) s t) ∧
  (∀ (s : State) (c : Nat) (r : Round) (g : Group), ActsOn s c → (getCtx s c).round = some r → r.decided = none → (getCtx s c).restore = none →
    group? (getDie s (dieOf c)) (domOf s c) r.gid = some g →
    let m : GMsg :=
      { dst := 0, src := 0, top := domOf s c, gid := r.gid, gen := r.gen, seq := r.seq, mem := g.self
        sig := .huddle r.agbx (bitsN r.word 29 28) (bitsN r.word 47 32), body := .voidReq }
    (r.asked = false → exec (.huddleTimeout c) s = .next (tellMembers (dieOf c) (domOf s c) g [0] m
      (modCtx c (fun x => { x with round := some { r with asked := true } }) s))) ∧
    (r.asked = true → (getCtx s c).level = 0 → r.level = 0 → (getCtx s c).ckpt = none → (getCtx s c).round0 = none → (getCtx s c).faults.length < 8 →
      ∃ t, exec (.huddleTimeout c) s = .next t ∧ SameMem s t ∧ (getCtx t c).round = none ∧
        (getCtx t c).agstate = agAfter (getCtx s c).agstate 0 ∧ faulted c 0x15 r.gid (r.word &&& ~~~(0x3000000#64)) s t ∧
        let e := routeOf (getDie s (dieOf c)) (domOf s c) (g.ranks.getD 0 0)
        let self := progRank (getDie s (dieOf c)) (domOf s c)
        (g.ranks.getD 0 0 ≠ self → ¬(rtValid e = true ∧ rtLocal e = true) → t.acksOut = s.acksOut ++
          [(rtPkg e, .voidRequestArrival (rtDie e) { m with dst := g.ranks.getD 0 0, src := self, top := rtDrid e })]))) ∧
  (∀ (s : State) (d : Nat) (q : Decision) (g : Group) (m : GMsg) (sig : GSig), DecidesAt s d q g → m.top = q.top → m.gid = q.gid → m.seq = q.seq →
    m.gen = q.gen → (d, m) ∈ s.msgs → m.body = .voidReq → q.sig = some sig →
    (q.verdict = none → exec (.voidRequestArrival d m) s = .next (tellMembers d q.top g (List.range g.ranks.length) (outcomeMsg q g sig .void)
      (decides d { q with verdict := some .void } (took d m s)))) ∧
    (∀ v, q.verdict = some v → exec (.voidRequestArrival d m) s = .next (tellMembers d q.top g [m.mem] (outcomeMsg q g sig v) (took d m s)))) ∧
  (∀ (s : State) (d mem : Nat) (q : Decision) (g : Group) (sig : GSig) (v : Verdict), DecidesAt s d q g → q.sig = some sig → q.verdict = some v →
    exec (.outcomeResend d 0 mem) s = .next (tellMembers d q.top g [mem] (outcomeMsg q g sig v) s))

namespace Sys2Proof.Claims

open Sys2Proof Sys2Proof.Machine

/-! Events of the fabric and its light (11 R262 to R287; 13 R318, R324, R326) -/

/-- A die's fabric has nothing else to do: no transfers, collectives or messages stand on it and no packet waits in a window. -/
structure Quiet (s : State) (d : Nat) : Prop where
  cmds  : ∀ c ∈ dieCtxs s d, (getCtx s c).fb = []
  colls : (getDie s d).colls = []
  sendq : (getDie s d).sendq = []
  flows : ∀ f ∈ (getDie s d).flowsIn, f.window = []

/-- A packet from another package reaches its die, its seal holds there, and its version is in force (11 R268; 13 R324). -/
structure Reaches (s : State) (p : Pkt) (g : Region) : Prop where
  acts   : Acts s p.die
  here   : p.pkg = s.pkg ∧ p.spkg ≠ s.pkg
  region : region? (getDie s p.die) p.top = some g
  sealed : p.good = true ∧ linkOk s p.die p.top = true
  quiet  : Quiet s p.die

/-- The one packet of a die's send queue belongs to the one transfer of the die's contexts, which is cut. -/
structure Transfer (s : State) (d : Nat) (p : SendPkt) (m : FbCmd) (a : Word) (bs : List Byte) : Prop where
  acts : Acts s d
  ctx  : p.ctx < 1024 ∧ dieOf p.ctx = d
  only : (getDie s d).sendq = [p] ∧ (getCtx s p.ctx).fb = [m] ∧ ∀ c, c ≠ p.ctx → (getCtx s c).fb = []
  rest : (getDie s d).colls = [] ∧ ∀ f ∈ (getDie s d).flowsIn, f.window = []
  cmd  : m.ord = p.pkt.cmd ∧ m.kind < 5 ∧ m.ending = none ∧ m.cut = true ∧ m.suspended = false ∧ m.unacked = 1
  pay  : p.pkt.pay = .put a bs
  own  : savedArea s p.ctx m.level = none
  tag  : m.tag < 64
  room : takesFault s p.ctx m.level

/-- A transfer has ended: it has left its queue and its tag is set; no byte of memory has changed. -/
def transferOver (p : SendPkt) (m : FbCmd) (s t : State) : Prop :=
  (getCtx t p.ctx).fb = [] ∧ bit (getCtx t p.ctx).tags m.tag = true ∧ SameMem s t

/-- Active planes below plane p, and of all (11 R262). -/
def planesBelow (s : State) (p : Nat) : Nat := ((List.range p).filter fun q => (s.planes.getD q {}).active).length

/-- The distance around the rotation that plane p serves in a slot (11 R262). -/
def distanceIn (s : State) (p slot : Nat) : Nat := 1 + slot * planesBelow s 64 + planesBelow s p

end Sys2Proof.Claims

/-- A packet for another package is staged; one whose seal fails or whose version is old is returned to its source, one of the
next version is held; a weak one of this version is performed once, and acknowledged; an acknowledgement completes a transfer or is
its fault; a notice has one retransmission, a second one ends the command with 0x11 or 0x18, and so does a timeout, with 0x11 or
0x10; a message is written to its place; FRECV times out with 0x10; TLBI completes when no access holds a removed page
(11 R267 to R273, R278 to R280; 13 R318, R324).
It rests on the model's choices of log 36, 40 and 47. -/
def Obligations.FabricEvents : Prop :=
  (∀ (s : State) (d : Nat) (p : Pkt), Acts s d → p.pkg ≠ s.pkg → exec (.packetArrival d (.fibre p)) s =
    .next (if ((getDie s d).relay.map fun q => 64 * flitsOf q.1).foldl (· + ·) 0 + 64 * flitsOf p ≤ 2 ^ 27
      then modDie d (fun x => { x with relay := x.relay ++ [(p, 0)] }) s else s)) ∧
  (∀ (s : State) (p : Pkt) (g : Region), Reaches s p g → ∃ t, exec (.packetArrival p.die (.fibre p)) s = .next t ∧
    (p.ver = (g.ver + 1) % 65536 → p.ver ≠ g.ver → ¬((p.ver + 1) % 65536 = g.ver ∧ g.grace ≠ 0) → SameMem s t ∧ t.acksOut = s.acksOut ∧
      (getDie t p.die).heldPkts = (getDie s p.die).heldPkts ++ [p]) ∧
    (p.ver ≠ g.ver → p.ver ≠ (g.ver + 1) % 65536 → g.grace = 0 → SameMem s t ∧
      t.acksOut = s.acksOut ++ [(p.spkg, .staleNotice p.sdie p.stop p.src p.dst p.seq g.ver)]) ∧
    (∀ a bs seg u, p.ver = g.ver → p.strong = false → p.pay = .put a bs → p.ctr = none → (getDie s p.die).flowsIn = [] → bs ≠ [] → MemOk s →
      bs.length ≤ 65536 - a.toNat % 65536 → checkRun p.die p.top { w := true } a bs.length s = (.ok [seg], u) → seg.len = bs.length →
      keyed s p.die seg → unawaited s p.die seg → written p.die seg bs s t ∧
        t.acksOut = s.acksOut ++ [(p.spkg, .ackArrival p.sdie (.packet p.stop p.src p.dst p.seq 0#8 none []))]) ∧
    (p.ver = g.ver → (∃ f ∈ (getDie s p.die).flowsIn, f.src = p.src ∧ f.top = p.top ∧ p.seq ∈ f.seen ∧
        ∀ h ∈ (getDie s p.die).flowsIn, h.src = p.src → h.top = p.top → h = f) → SameMem s t ∧ t.acksOut = s.acksOut)) ∧
  (∀ (s : State) (p : Pkt), Acts s p.die → p.pkg = s.pkg → p.spkg ≠ s.pkg → (p.good = false ∨ linkOk s p.die p.top = false) → Quiet s p.die →
    ∃ t, exec (.packetArrival p.die (.fibre p)) s = .next t ∧ SameMem s t ∧
      t.acksOut = s.acksOut ++ [(p.spkg, .authFailNotice p.sdie p.stop p.src p.dst p.seq)]) ∧
  (∀ (s : State) (d : Nat) (p : SendPkt) (m : FbCmd) (a : Word) (bs : List Byte), Transfer s d p m a bs → p.sent = true →
    let src := p.pkt.src
    let dst := p.pkt.dst
    (∀ fl, ∃ t, exec (.ackArrival d (.packet p.pkt.stop src dst p.pkt.seq fl none [])) s = .next t ∧ transferOver p m s t ∧
      (getDie t d).sendq = [] ∧ (getArch t p.ctx).fstatus = (getArch s p.ctx).fstatus ||| fl) ∧
    (∀ code b, ∃ t, exec (.ackArrival d (.packet p.pkt.stop src dst p.pkt.seq 0#8 (some (code, b)) [])) s = .next t ∧ transferOver p m s t ∧
      faulted p.ctx code 0 b s t) ∧
    (∀ ver, p.retry = false → exec (.staleNotice d p.pkt.stop src dst p.pkt.seq ver) s = .next (modDie d (fun x => { x with sendq :=
      [{ p with retry := true, needVer := some ver, sent := false, flits := 0, via := none }] }) s)) ∧
    (∀ ver, p.retry = true → ∃ t, exec (.staleNotice d p.pkt.stop src dst p.pkt.seq ver) s = .next t ∧ transferOver p m s t ∧
      faulted p.ctx 0x11 0 m.rem s t) ∧
    (p.authRetry = false → exec (.authFailNotice d p.pkt.stop src dst p.pkt.seq) s = .next (modDie d (fun x => { x with sendq :=
      [{ p with authRetry := true, sent := false, flits := 0, via := none }] }) s)) ∧
    (p.authRetry = true → ∃ t, exec (.authFailNotice d p.pkt.stop src dst p.pkt.seq) s = .next t ∧ transferOver p m s t ∧
      faulted p.ctx 0x18 0 m.rem s t)) ∧
  (∀ (s : State) (d : Nat) (p : SendPkt) (m : FbCmd) (a : Word) (bs : List Byte), Transfer s d p m a bs → p.sent = false →
    (p.retry = true → ∃ t, exec (.staleRetransmitTimeout d 0) s = .next t ∧ transferOver p m s t ∧ faulted p.ctx 0x11 0 m.rem s t) ∧
    (p.retry = false → p.needVer = none → exec (.staleRetransmitTimeout d 0) s = .next s) ∧
    (let e := routeOf (getDie s d) (domOf s p.ctx) m.rank;
      (rtValid e = false ∨ (rtLocal e = false ∧ ((s.planes.getD (rtPlane e) {}).framed = false ∨ (s.ports.getD (rtPlane e) {}).lp = true))) →
      m.kind ≠ 1 → ∃ t, exec (.routeWaitTimeout d 0) s = .next t ∧
      transferOver p m s t ∧ faulted p.ctx 0x10 0 m.rem s t)) ∧
  (∀ (s : State) (d n : Nat) (p : Pkt), Acts s d → (getDie s d).heldPkts[n]? = some p → p.spkg ≠ s.pkg → ∃ t, exec (.heldPacketTimeout d n) s = .next t ∧
    SameMem s t ∧ (getDie t d).heldPkts = (getDie s d).heldPkts.eraseIdx n ∧
    t.acksOut = s.acksOut ++ [(p.spkg, .staleNotice p.sdie p.stop p.src p.dst p.seq (verOf (getDie s d) p.top))]) ∧
  (∀ (s u : State) (c n : Nat) (m : FbCmd) (e : TlbEntry), ActsOn s c → MemOk s → ((getCtx s c).fb.filter fun f => f.kind == 1)[n]? = some m →
    m.suspended = false → m.ending = none → m.pos = 0 → m.bytes ≠ [] → visit (tlbOf c) (dieOf c) (domOf s c) m.page { w := true } m.loc.toNat s = (.ok e, u) →
    m.bytes.length ≤ pageLeft e m.loc.toNat → savedArea s c m.level = none → m.tag < 64 →
    let g : Seg := ⟨placeOf e m.loc.toNat, m.bytes.length, m.loc.toNat, leafOkey e.leaf⟩
    keyed s (dieOf c) g → unawaited s (dieOf c) g → ∃ t, exec (.frecvCopyComplete c n) s = .next t ∧ written (dieOf c) g m.bytes s t ∧
      (∀ f ∈ (getCtx t c).fb, f.id ≠ m.id) ∧ bit (getCtx t c).tags m.tag = true) ∧
  (∀ (s : State) (c : Nat), ActsOn s c → (getCtx s c).block.isSome = true → exec (.frecvTimeout c) s = .next
    (if (attempt c s).1 = false ∧ (getCtx (attempt c s).2 c).block.map (·.1) = some .frecv then trapEntry c (preciseCode 0x10 0) 0#64 s else s)) ∧
  (∀ (s : State) (d n c : Nat) (m : FbCmd), Acts s d → ((fbCmds s d).filter fun e => e.2.kind == 7)[n]? = some (c, m) →
    (pagesHeld s d (domOf s c) m.holds = true → exec (.tlbiComplete d n) s = .next s) ∧
    (pagesHeld s d (domOf s c) m.holds = false → c < 1024 → savedArea s c m.level = none → m.tag < 64 → ∃ t, exec (.tlbiComplete d n) s = .next t ∧
      SameMem s t ∧ (∀ f ∈ (getCtx t c).fb, f.id ≠ m.id) ∧ bit (getCtx t c).tags m.tag = true))

/-- A slot boundary steps the slot of an active plane, and on plane 0 it installs a table that was written and completes its request; framing that matches
the rotation sets the plane's slot, and any other leaves it unframed, as does its loss; a framed plane opens its data window, in
which the head of a queue whose direct slot this is leaves; a ring saturates at its limit; a wake hint wakes a port of low power;
throttles and limits are events of the host, and a die at its trip point stops (11 R262 to R268, R273, R274, R283 to R287; 13 R326).
It rests on the model's choices of log 44, 45, 65 and 72. -/
def Obligations.LightEvents : Prop :=
  (∀ (s : State) (p : Nat) (pl : Plane), Sized s → p < 64 → s.planes[p]? = some pl → pl.active = true → (∀ d < 4, (getDie s d).heldPkts = []) →
    ∃ t q, exec (.fabricSlotBoundary p) s = .next t ∧ t.planes[p]? = some q ∧ q.window = false ∧ q.framed = pl.framed ∧
      q.slot = (if distanceIn s 0 (pl.slot + 1) < s.rotN then pl.slot + 1 else 0) ∧
      (∀ d g tbl v, p = 0 → d < 4 → (getDie s d).regions = [g] → g.nextRoutes = some (tbl, v) →
        (∃ h, region? (getDie t d) g.rcb.rid = some h ∧ h.routes = tbl ∧ h.ver = v ∧ h.nextRoutes = none ∧ h.oldRoutes = g.routes) ∧
        ∀ r, s.openReq = some r → r.die = d → r.rid = g.rcb.rid → t.openReq = none ∧ t.msix.getLast? = some 0 ∧
          t.completions = s.completions ++ [{ sup := none, tag := r.tag, status := 0, result := 0#64, report := [] }])) ∧
  (∀ (s : State) (p slot sender : Nat) (pl : Plane), p < 64 → s.planes[p]? = some pl → pl.active = true → 0 < s.rotN →
    let match_ := distanceIn s p slot < s.rotN ∧ sender = (s.pkg + s.rotN - distanceIn s p slot) % s.rotN
    exec (.framingReceived p slot sender) s = .next { s with planes := s.planes.set p { pl with
      slot := if match_ then slot else pl.slot, framed := decide match_ } }) ∧
  (∀ (s : State) (p : Nat), exec (.framingLost p) s = .next { s with planes := s.planes.modify p fun x => { x with framed := false } }) ∧
  (∀ (s : State) (n : Nat), exec (.ringSaturation n) s = .next { s with rings := s.rings.modify n fun r => { r with sat := true, heat := 4095 } }) ∧
  (∀ (s : State) (p : Nat) (pl : Plane), Sized s → s.planes[p]? = some pl →
    ((pl.active = false ∨ pl.framed = false ∨ pl.window = true) → exec (.dataWindowStart p) s = .next s) ∧
    (∀ d q e peer a bs, pl.active = true → pl.framed = true → pl.window = false → txPeer s p pl.slot = some peer → d < 4 →
      (∀ x < 4, x ≠ d → Quiet s x) → (∀ x < 4, (getDie s x).relay = []) → (∀ c, (getCtx s c).fb = []) → (getDie s d).colls = [] →
      (∀ f ∈ (getDie s d).flowsIn, f.window = []) → (getDie s d).sendq = [q] → q.sent = false → q.needVer = none → q.flits = 0 → q.via = none →
      q.pkt.strong = false → q.pkt.pay = .put a bs → routeOf (getDie s d) q.pkt.stop q.pkt.dst = e → rtValid e = true → rtLocal e = false →
      rtPkg e = peer → rtPlane e = p → rtPhase e = pl.slot →
      let n := max 1 ((bs.length + 63) / 64)
      n ≤ windowFlits s p → (∀ r ∈ ancestry (getDie s d) q.rid, n * 64 ≤ effFshare (getDie s d) r) → n ≤ 2 ^ 32 →
      ∃ t, exec (.dataWindowStart p) s = .next t ∧ SameMem s t ∧ t.light = s.light ++ [(p, stamp s d e q.pkt)] ∧
        (t.planes.getD p {}).window = true ∧ ∃ r, (getDie t d).sendq = [r] ∧ r.sent = true)) ∧
  (∀ (s : State) (n : Nat) (p : Port), s.ports[n]? = some p → p.orders = [] → exec (.wakeHint n) s =
    .next (if p.lp then { s with ports := s.ports.modify n fun q => { q with wake := true } } else s)) ∧
  (∀ (s : State) (n heat : Nat), exec (.ringHeatWrite n heat) s = .next { s with rings := s.rings.modify n fun r =>
    { r with heat := min heat 4095, sat := if heat < 4096 then r.sat else true } }) ∧
  (∀ (s : State) (on : Bool), ∃ t, exec (.currentLimit on) s = .next t ∧ t = { s with currentLimited := on, hostEvents := t.hostEvents, msix := t.msix } ∧
    t.hostEvents = (if on then s.hostEvents ++ [1] else s.hostEvents) ∧ t.msix = (if on then s.msix ++ [1] else s.msix)) ∧
  (∀ (s : State) (d : Nat) (on : Bool), Acts s d → ∃ t, exec (.thermalThrottle d on) s = .next t ∧ t = { s with throttled := on, hostEvents := t.hostEvents, msix := t.msix } ∧
    t.hostEvents = (if on then s.hostEvents ++ [1] else s.hostEvents) ∧ t.msix = (if on then s.msix ++ [1] else s.msix)) ∧
  (∀ (s : State) (d : Nat), Acts s d → ∃ t, exec (.thermalTrip d) s = .next t ∧ (getDie t d).tripped = true ∧ t.hostEvents = s.hostEvents ++ [2] ∧ t.msix = s.msix ++ [1] ∧
    ∀ n, exec (.collectiveStart d n) t = .next t)

namespace Sys2Proof.Claims

open Sys2Proof Sys2Proof.Machine

/-! Recovery, reset and the host (13 R319, R325; 14 R344 to R349; 15 R352 to R360), the requests to firmware (10 R243 to R260;
15 R357 to R359) -/

/-- Checkpoint command n of a die, its region, and a context that takes the tag and a fault. -/
structure CkptAt (s : State) (d n : Nat) (q : CkptCmd) (g : Region) : Prop where
  acts   : Acts s d
  at_    : (getDie s d).ckpts[n]? = some q
  region : region? (getDie s d) q.top = some g
  ctx    : q.ctx < 1024
  own    : savedArea s q.ctx q.level = none
  tag    : q.tag < 64
  room   : takesFault s q.ctx q.level
  fresh  : q.saved = false ∧ q.ending = none

/-- A checkpoint command has ended with its tag set. -/
def ckptOver (d n : Nat) (q : CkptCmd) (s t : State) : Prop :=
  (getDie t d).ckpts = (getDie s d).ckpts.eraseIdx n ∧ bit (getCtx t q.ctx).tags q.tag = true

/-- Firmware runs and takes this request of the host: the queues have sizes, no request is under way, and it is the turn of
the host among the sources that have a request (15 R356 to R358). -/
structure HostAsks (s : State) (q : Req) : Prop where
  up    : bit s.bootstat 0 = true
  host  : q.sup = none
  rsv   : q.rsv = false
  waits : s.hqprod ≠ s.hqcons
  sizes : ∃ m n, 4 ≤ m ∧ m ≤ 16 ∧ 4 ≤ n ∧ n ≤ 16 ∧ s.hqsize.toNat = 2 ^ m ∧ s.cqsize.toNat = 2 ^ n
  ready : s.openReq = none
  turn  : (turns s).find? (sourceWaits s) = some none
  die   : q.die < 4
  sized : Sized s

/-- The 16 bytes of a completion: TAG, STATUS and the result (15 R357). -/
def completion (tag status : Nat) : List Byte := bytesOf 8 (tag % 65536 + status * 65536) ++ bytesOf 8 0

/-- A request of the host is complete: what it reports is at PTR, the completion with its tag and STATUS at the place of the
completion queue, vector 0 is raised, and HQCONS and the place step (15 R356 to R358). -/
def answered (q : Req) (status : Nat) (report : List Byte) (u : State) : State :=
  { u with
    served := none
    dma := u.dma ++ (if report = [] then [] else [(q.ptr, report)]) ++
      [(u.cqbase + BitVec.ofNat 64 (16 * u.cqprod.toNat), completion q.tag status)]
    msix := u.msix ++ [0]
    hqcons := BitVec.ofNat 64 ((u.hqcons.toNat + 1) % u.hqsize.toNat)
    cqprod := BitVec.ofNat 64 ((u.cqprod.toNat + 1) % u.cqsize.toNat)
    completions := u.completions ++ [{ sup := none, tag := q.tag, status := status, result := 0#64, report := report }] }

/-- Change the region that a request names. -/
def onNamed (q : Req) (f : Region → Region) (s : State) : State :=
  modDie q.die (fun d => { d with regions := d.regions.map fun g => if g.rcb.rid == q.rid then f g else g }) s

/-- The region that a request names. -/
def named (s : State) (q : Req) (g : Region) : Prop := region? (getDie s q.die) q.rid = some g

/-- A named region is a top region. -/
def topNamed (s : State) (q : Req) (g : Region) : Prop := named s q g ∧ g.rcb.parent = 0

/-- The region that a request names has stopped: it is not runnable, and the contexts of its subtree are marked (10 R258). -/
def stopped (q : Req) (g : Region) (s t : State) : Prop :=
  SameMem s t ∧ region? (getDie t q.die) q.rid = some { g with runnable := false } ∧
  (∀ c ∈ holders s q.die q.rid, (getCtx t c).marked = true) ∧ ∀ c, getArch t c = getArch s c

/-- A region runs with its pool of this period (10 R257). -/
def running (d : Die) (g : Region) : Region :=
  let w := effCcyc d g.rcb.rid
  { g with runnable := true, pool := if w = 2 ^ 64 - 1 then none else some w, poolSince := d.clock }

/-- The next entry of a ring is the request with this OPC (15 R357, R359). -/
def nextEntryIs (s : State) (opc t : Nat) (q : Req) : Prop :=
  ∃ a e n, (ringEntry q.die t s).1 = some (a, e, n) ∧
    nbits (natOf (e.take 8)) 0 8 = opc ∧ nbits (natOf (e.take 8)) 48 12 = q.rid ∧ nbits (natOf (e.take 8)) 16 16 = q.tag

end Sys2Proof.Claims

/-- A save makes its image and sets the tag, and with a mirror its pieces leave for the partner first; a restore that maps every page
makes its generation current, and one that does not is a fault; a link key that opens makes its assigned slot live; an error that is corrected is counted, one that is not poisons; the
boot ROM tries again while firmware is not up; a reset of the package holds its dies in reset; the registers of the host are written,
and a reset of the function clears them (13 R325; 14 R344, R345, R348; 15 R352, R356, R360).
It rests on the model's choices of log 58, 59, 69, 70, 71 and 109. -/
def Obligations.RecoveryEvents : Prop :=
  (∀ (s : State) (d n : Nat) (q : CkptCmd) (g : Region), CkptAt s d n q g →
    (bitsN q.word 61 60 = 0 → bit q.word 42 = false → ∃ t h i, exec (.ckptComplete d n) s = .next t ∧ ckptOver d n q s t ∧ SameMem s t ∧
      region? (getDie t d) q.top = some h ∧ h.curGen = bitsN q.word 31 0 ∧ i ∈ h.images ∧ i.gen = bitsN q.word 31 0 ∧ i.rank = g.rank ∧
      i.mirror = false ∧ i.complete = true ∧ i.key = linkId s d q.top ∧ i.pages.map (·.va) = (markedPages (getDie s d) q.top).map (·.vbase) ∧
      ((getDie s d).unseen = [] → ∀ (n : Nat) (lf : Leaf) (p : ImgPage), (markedPages (getDie s d) q.top)[n]? = some lf → i.pages[n]? = some p →
        (∀ e ∈ (getDie s d).lineKeys, (e.2.1, e.2.2) = keyTag s (leafOkey lf.entry)) →
        let a := leafPlace lf lf.vbase
        p.size = lf.size ∧ p.bytes = ((getDie s d).mem.filter fun e => decide (a ≤ e.1) && decide (e.1 < a + lf.size)).map fun e => (e.1 - a, e.2))) ∧
    (bitsN q.word 61 60 = 0 → bit q.word 42 = true → ∃ t h i out, exec (.ckptComplete d n) s = .next t ∧ SameMem s t ∧
      region? (getDie t d) q.top = some h ∧ h.curGen = g.curGen ∧ i ∈ h.images ∧ i.gen = bitsN q.word 31 0 ∧ i.complete = false ∧
      (getDie t d).sendq = (getDie s d).sendq ++ out ∧ out.map (·.pkt.pay) = (imagePieces i).map Pay.image ∧
      (∀ p ∈ out, p.sent = false ∧ p.pkt.dst = bitsN q.word 41 32 ∧ p.pkt.stop = q.top) ∧
      (getDie t d).ckpts = (getDie s d).ckpts.modify n fun k => { k with saved := true, unacked := out.length }) ∧
    (∀ i f u, bitsN q.word 61 60 ≠ 0 → imageOf g (linkKey s d q.top) (bitsN q.word 31 0) (bitsN q.word 41 32) = some i →
      restorePages d q.top (opNum q.ctx 0) i.pages s = (f, u) → ∃ t, exec (.ckptComplete d n) s = .next t ∧ ckptOver d n q s t ∧ SameMem u t ∧
        (f = none → ∃ h, region? (getDie t d) q.top = some h ∧ h.curGen = bitsN q.word 31 0) ∧
        (∀ code a, f = some (code, a) → faulted q.ctx code 0 (BitVec.ofNat 64 a) s t))) ∧
  (∀ (s : State) (d slot top key : Nat) (k : KeySlot), Acts s d → s.keys[slot]? = some k →
    exec (.linkKeyInstall d slot top none) s = .next s ∧
    exec (.linkKeyInstall d slot top (some key)) s = .next (if k.state = .assigned ∧ k.die = d ∧ k.top = top
      then { s with keys := s.keys.set slot { k with state := .live, link := true, gen := k.gen + 1, id := key } } else s)) ∧
  (∀ (s : State) (d a : Nat), Sized s → d < 4 →
    exec (.softError (.memory d a) true) s = .next (modDie d (fun x => { x with corrections := x.corrections + 1 }) s) ∧
    ∃ t, exec (.softError (.memory d a) false) s = .next t ∧ SameMem s t ∧ ∀ n b, b ≤ a → a < b + n → poisonIn (getDie t d) b n ≠ none) ∧
  (∀ (s : State) (c kind n : Nat), Sized s → c < 1024 → siteReg kind n ≠ .x 0 → siteReg kind n ≠ .p 0 →
    ∃ t, exec (.softError (.reg c kind n) false) s = .next t ∧ siteReg kind n ∈ (getArch t c).poisoned ∧ SameMem s t) ∧
  (∀ (s : State) (b : BootTry), (bit s.bootstat 0 = true → exec (.bootRetry b) s = .next s) ∧
    (bit s.bootstat 0 = false → bootCause b ≠ 0 → exec (.bootRetry b) s = .next { s with bootstat := BitVec.ofNat 64 (bootCause b * 256) }) ∧
    (Sized s → bit s.bootstat 0 = false → bootCause b = 0 → ∃ t, exec (.bootRetry b) s = .next t ∧ (∀ d < 4, DieUp t d) ∧
      bit t.bootstat 0 = true ∧ t.mr0 = sha3 (bytesOf 48 s.mr0.toNat ++ bytesOf 48 (sha3 b.image).toNat) ∧
      t.pkg = b.pkg ∧ t.rotN = b.rotN ∧ t.slotP = b.slotP ∧ t.guardG = b.guardG)) ∧
  (∀ s : State, Sized s → ∃ t, exec .pkgreset s = .next t ∧ exec (.bar0RegisterWrite 0x0100 0x7734#64) s = .next t ∧
    (∀ d < 4, (getDie t d).inReset = true ∧ (getDie t d).regions = [] ∧ ∀ a, scratchBase ≤ a → readByte (getDie t d).mem a = 0#8) ∧
    (∀ c < 1024, (getCtx t c).status = .idle) ∧ (∀ n, 0 < n → n < 4096 → (t.keys.getD n {}).state = .free) ∧ t.bootstat = 0#64) ∧
  (∀ (s : State) (w : Word), exec (.hqprod w) s = .next { s with hqprod := w } ∧
    exec (.bar0RegisterWrite 0x0010 w) s = .next { s with hqbase := w } ∧ exec (.bar0RegisterWrite 0x0018 w) s = .next { s with hqsize := w } ∧
    exec (.bar0RegisterWrite 0x0020 w) s = .next { s with hqprod := w } ∧ exec (.bar0RegisterWrite 0x0030 w) s = .next { s with cqbase := w } ∧
    exec (.bar0RegisterWrite 0x0038 w) s = .next { s with cqsize := w } ∧
    (∀ off, off ∉ [0x0010, 0x0018, 0x0020, 0x0030, 0x0038, 0x0100] → exec (.bar0RegisterWrite off w) s = .next s) ∧
    (w ≠ 0x7734#64 → exec (.bar0RegisterWrite 0x0100 w) s = .next s)) ∧
  (∀ s : State, exec .functionLevelReset s = .next { s with hqbase := 0#64, hqsize := 0#64, hqprod := 0#64, hqcons := 0#64, cqbase := 0#64, cqsize := 0#64, cqprod := 0#64 })

/-- Requests that make, change, start, stop and destroy regions, that bind kernels and push records, each with its STATUS; a bind that
fails stops its region; one with a reserved field has STATUS 1; a supervisor's request is the next entry of its ring, taken by a poll (02 R30, R31, R383;
10 R243 to R260; 15 R357 to R359).
It rests on the model's choices of log 60 to 65 and 68. -/
def Obligations.RegionRequests : Prop :=
  (∀ (s : State) (q : Req) (b : BitVec 2048), HostAsks s q →
    let ok := (rcbOf b).rid = q.rid ∧ region? (getDie s q.die) q.rid = none ∧ rcbOk (getDie s q.die) b = true
    (¬ok → exec (.createRegion q b) s = .next (answered q 3 [] s)) ∧
    (ok → exec (.createRegion q b) s = .next (answered q 0 [] (modDie q.die (fun x => { x with regions := x.regions ++
      [{ rcb := rcbOf b, counters := if (rcbOf b).parent = 0 then List.replicate 256 {} else []
         rm := if (rcbOf b).parent = 0 then extend 0#384 (bytesOf 256 b.toNat) else 0#384 }] }) s)))) ∧
  (∀ (s : State) (q : Req) (b : BitVec 2048) (g : Region), HostAsks s q → named s q g →
    let ok := (rcbOf b).rid = q.rid ∧ (rcbOf b).parent = g.rcb.parent ∧ rcbOk (getDie s q.die) b = true
    (¬ok → exec (.changeRegion q b) s = .next (answered q 3 [] s)) ∧
    (ok → exec (.changeRegion q b) s = .next (answered q 0 [] (onNamed q (fun g => { g with rcb := rcbOf b }) (modDie q.die keepLevels s))))) ∧
  (∀ (s : State) (q : Req) (g : Region), HostAsks s q → named s q g →
    let top := topOf (getDie s q.die) q.rid
    exec (.makeRunnable q) s = .next (answered q 0 [] (onNamed q (running (getDie s q.die)) (launchRank q.die top s))) ∧
    ((∃ h ∈ (getDie s q.die).regions, h.runnable = true ∧ inSubtree (getDie s q.die) top h.rcb.rid = true) → launchRank q.die top s = s) ∧
    ((∀ h ∈ (getDie s q.die).regions, h.runnable = false) → ∀ p n, region? (getDie s q.die) top = some p →
      (p.routes.findIdx? fun e => rtValid e && rtLocal e && rtDie e == q.die && rtDrid e == top) = some n →
      region? (getDie (launchRank q.die top s) q.die) top = some { p with rank := n })) ∧
  (∀ (s : State) (q : Req) (g : Region), HostAsks s q → named s q g → ∃ t, exec (.makeNotRunnable q) s = .next (answered q 0 [] t) ∧ stopped q g s t) ∧
  (∀ (s : State) (q : Req) (g : Region), HostAsks s q → named s q g → ∃ t, exec (.destroyRegion q) s = .next (answered q 0 [] t) ∧
    (∀ r, inSubtree (getDie s q.die) q.rid r = true → region? (getDie t q.die) r = none) ∧
    (∀ h ∈ (getDie s q.die).regions, inSubtree (getDie s q.die) q.rid h.rcb.rid = false → ∃ k ∈ (getDie t q.die).regions, k.rcb = h.rcb) ∧
    (∀ c, c < 1024 → dieOf c = q.die → ∀ r, (getCtx s c).record = some r → inSubtree (getDie s q.die) q.rid r.rid = true → (getCtx t c).status = .idle) ∧
    (∀ e ∈ (getDie t q.die).queue, inSubtree (getDie s q.die) q.rid e.rid = false) ∧
    (∀ k, k / 64 = q.die → ∀ n ∈ (getCore t k).kernels, inSubtree (getDie s q.die) q.rid n.rid = false) ∧
    (g.rcb.parent = 0 → ∀ k ∈ t.keys, k.state = .live → ¬(k.die = q.die ∧ k.top = q.rid))) ∧
  (∀ (s : State) (q : Req) (image : List Byte) (kid : Nat) (mask vbase : Word) (g : Region), HostAsks s q → named s q g →
    (16 ≤ kid → ∃ t, exec (.bindKernel q image kid mask vbase) s = .next (answered q 3 [] t) ∧ stopped q g s t) ∧
    (kid < 16 → bindStatus s q.die image kid mask vbase ≠ 0 → ∃ t,
      exec (.bindKernel q image kid mask vbase) s = .next (answered q (0x10 + bindStatus s q.die image kid mask vbase) [] t) ∧ stopped q g s t) ∧
    (kid < 16 → bindStatus s q.die image kid mask vbase = 0 → ∃ t, exec (.bindKernel q image kid mask vbase) s = .next (answered q 0x10 [] t) ∧ SameMem s t ∧
      ∀ k < 256, (k / 64 = q.die ∧ bit mask (k % 64) = true →
          (getCore t k).kernels = (getCore s k).kernels ++ [kernelOf image kid q.rid vbase] ∧
          (getCore t k).scale = (if (getCore s k).kernels = [] then (image.drop 32).take 16 else (getCore s k).scale)) ∧
        (¬(k / 64 = q.die ∧ bit mask (k % 64) = true) → getCore t k = getCore s k))) ∧
  (∀ (s : State) (q : Req) (r : BitVec 256) (g : Region), HostAsks s q → named s q g → recordReservedOk r = true → bitsN r 127 64 % 64 = 0 →
    bitsN r 191 128 % 4 = 0 → inSubtree (getDie s q.die) q.rid (bitsN r 251 240) = true →
    let rid := bitsN r 251 240
    let lvl := min (bitsN r 239 236) (effPrio (getDie s q.die) rid)
    (2 ^ effQlog (getDie s q.die) rid ≤ occOf (getDie s q.die) rid lvl → exec (.pushRecords q [r]) s = .next (answered q 4 [] s)) ∧
    (occOf (getDie s q.die) rid lvl < 2 ^ effQlog (getDie s q.die) rid → ∃ t, exec (.pushRecords q [r]) s = .next (answered q 0 [] t) ∧ SameMem s t ∧
      (getDie t q.die).queue = (getDie s q.die).queue ++ [{ bits := r, rid := rid, level := lvl, enq := (getDie s q.die).clock, order := (1, 0) }] ∧
      occOf (getDie t q.die) rid lvl = occOf (getDie s q.die) rid lvl + 1)) ∧
  (∀ (s : State) (q : Req) (t : Nat), Acts s q.die → q.sup = some t →
    let poll := exec (.serviceRingPoll q.die t) s
    (nextEntryIs s 0x03 t q → exec (.makeRunnable q) s = poll) ∧ (¬nextEntryIs s 0x03 t q → exec (.makeRunnable q) s = .next s) ∧
    (nextEntryIs s 0x04 t q → exec (.makeNotRunnable q) s = poll) ∧ (¬nextEntryIs s 0x04 t q → exec (.makeNotRunnable q) s = .next s) ∧
    (nextEntryIs s 0x05 t q → exec (.destroyRegion q) s = poll) ∧ (¬nextEntryIs s 0x05 t q → exec (.destroyRegion q) s = .next s) ∧
    (∀ recs, (nextEntryIs s 0x07 t q → exec (.pushRecords q recs) s = poll) ∧ (¬nextEntryIs s 0x07 t q → exec (.pushRecords q recs) s = .next s))) ∧
  (∀ (s : State) (q : Req) (g : Region), HostAsks s { q with rsv := false } → named s q g → q.rsv = true →
    exec (.makeRunnable q) s = .next (answered q 1 [] s) ∧ exec (.destroyRegion q) s = .next (answered q 1 [] s))

/-- Requests for vectors, breakpoints, route and group tables, key slots, page tables, frames, allotments, reports and service
rings, each with its STATUS and what it changes (a FRAME_OWNER request only for a DRAM frame to be given to a top region); an entry of a service ring is taken, answered in its place, and CONS steps
(11 R265, R266, R283; 12 R288; 13 R314, R319, R322; 14 R331, R343, R347; 15 R355 to R359).
It rests on the model's choices of log 44 and 64 to 68. -/
def Obligations.TableRequests : Prop :=
  (∀ (s : State) (q : Req) (kid entry : Nat) (g : Region), HostAsks s q → named s q g → exec (.handlerVector q kid entry) s = .next
    (if kid < 16 ∧ entry < 2 ^ 24 then answered q 0 [] (onNamed q (fun g => { g with vector := some (kid, entry) }) s) else answered q 3 [] s)) ∧
  (∀ (s : State) (q : Req) (num kid pc : Nat) (en : Bool) (g : Region), HostAsks s q → named s q g → exec (.breakpoint q num kid pc en) s = .next
    (if num < 4 ∧ kid < 16 ∧ pc < 2 ^ 24 then answered q 0 [] (onNamed q (fun g => { g with breaks := g.breaks.set num (if en then some (kid, pc) else none) }) s)
     else answered q 3 [] s)) ∧
  (∀ (s : State) (q : Req) (ents : List Word) (ver : Nat) (g : Region), HostAsks s q → topNamed s q g →
    (g.nextRoutes ≠ none ∨ ents.length ≠ 1024 ∨ 65536 ≤ ver → exec (.routeTable q ents ver) s = .next (answered q 3 [] s)) ∧
    (g.nextRoutes = none → g.routes ≠ [] → ver ≠ (g.ver + 1) % 65536 → exec (.routeTable q ents ver) s = .next (answered q 3 [] s)) ∧
    (g.nextRoutes = none → (g.routes = [] ∨ ver = (g.ver + 1) % 65536) → ents.length = 1024 → ver < 65536 → exec (.routeTable q ents ver) s =
      .next { onNamed q (fun g => { g with nextRoutes := some (ents.map fun e => e &&& (if rtLocal e then 0x00008FFFFF030200#64 else 0x00008FFFFF03FEFF#64), ver) }) s with openReq := some q, served := none })) ∧
  (∀ (s : State) (q : Req) (gid : Nat) (ent : Word) (ranks : List Nat) (g p : Region), HostAsks s q → named s q g →
    region? (getDie s q.die) (topOf (getDie s q.die) q.rid) = some p → gid < 1024 → bitsN ent 46 42 = 0 → bitsN ent 31 11 = 0 →
    bit ent 47 = true → ranks ≠ [] → ranks.length = bitsN ent 10 0 → ranks.length ≤ 1024 → bitsN ent 41 32 < ranks.length → (∀ r ∈ ranks, r < 1024) →
    ∃ t e, exec (.groupEntry q gid ent ranks) s = .next (answered q 0 [] t) ∧ SameMem s t ∧
      group? (getDie t q.die) (topOf (getDie s q.die) q.rid) gid = some e ∧ e.ranks = ranks ∧ e.self = bitsN ent 41 32 ∧ e.seq = 0 ∧
      e.gen = ((((p.groups.find? fun e => e.gid == gid).map (·.gen)).getD 0) + 1) % 65536) ∧
  (∀ (s : State) (q : Req) (slot : Nat) (k : KeySlot) (g : Region), HostAsks s q → topNamed s q g → s.keys[slot]? = some k →
    exec (.assignKeySlot q slot) s = .next (if k.state = .free
      then answered q 0 [] { s with keys := s.keys.set slot { k with state := .assigned, link := false, die := q.die, top := q.rid } }
      else answered q 3 [] s)) ∧
  (∀ (s : State) (q : Req) (slot : Nat) (k : KeySlot), HostAsks s q → s.keys[slot]? = some k →
    exec (.reclaimKeySlot q slot) s = .next (if k.state = .assigned
      then answered q 0 [] { s with keys := s.keys.set slot { k with state := .free, die := 0, top := 0 } } else answered q 3 [] s)) ∧
  (∀ (s : State) (q : Req) (root : Word) (g : Region), HostAsks s q → topNamed s q g → exec (.pageTableRoot q root) s = .next
    (if root.toNat % 4096 = 0 ∧ root.toNat < 48 * 2 ^ 30 then answered q 0 [] (onNamed q (fun g => { g with root := some root.toNat }) s)
     else answered q 3 [] s)) ∧
  (∀ (s : State) (q : Req) (frame : Nat) (g : Region), HostAsks s q → named s q g → frame < 786432 → g.rcb.parent = 0 →
    let free := frameOwnerOf (getDie s q.die) .dram frame = .free
    (¬free → exec (.frameOwner q .dram frame (.top q.rid)) s = .next (answered q 3 [] s)) ∧
    (free → ∃ t, exec (.frameOwner q .dram frame (.top q.rid)) s = .next (answered q 0 [] t) ∧ SameMem s t ∧
      frameOwnerOf (getDie t q.die) .dram frame = .top q.rid ∧
      ∀ k f, (k, f) ≠ (FrameKind.dram, frame) → frameOwnerOf (getDie t q.die) k f = frameOwnerOf (getDie s q.die) k f)) ∧
  (∀ (s : State) (q : Req) (size : Nat) (g : Region), HostAsks s q → topNamed s q g →
    let others := ((getDie s q.die).regions.map (·.allotment)).foldl (· + ·) 0 - g.allotment
    exec (.cisternAllotment q size) s = .next (if size % 262144 ≠ 0 ∨ 15 * 2 ^ 30 < size then answered q 3 [] s else if 15 * 2 ^ 30 < others + size then answered q 4 [] s
      else answered q 0 [] (onNamed q (fun g => { g with allotment := size, curGen := 0, images := [] }) s))) ∧
  (∀ (s : State) (q : Req) (nonce : BitVec 256) (g p : Region), HostAsks s q → named s q g →
    region? (getDie s q.die) (topOf (getDie s q.die) q.rid) = some p →
    let body := bytesOf 4 1 ++ bytesOf 4 0 ++ bytesOf 32 nonce.toNat ++ bytesOf 48 s.mr0.toNat ++ bytesOf 48 s.mr1.toNat ++ bytesOf 48 p.rm.toNat ++
      bytesOf 8 (q.die + q.rid * 4096) ++ (List.range 1952).map Config.identityKey
    exec (.attest q nonce) s = .next (answered q 0 (body ++ (List.range 3309).map (Config.signature body)) s)) ∧
  (∀ (s : State) (q : Req) (n : Nat) (r : MicroRing), HostAsks s q → s.rings[n]? = some r → exec (.readRingStatus q n) s = .next (answered q 0
    (bytesOf 8 (r.heat % 4096 + r.mpd % 4096 * 2 ^ 24 + (if r.lock then 2 ^ 38 else 0) + (if r.sat then 2 ^ 39 else 0) + r.spare % 256 * 2 ^ 40)) s)) ∧
  (∀ (s : State) (q : Req) (va : Word) (g : Region), HostAsks s q → topNamed s q g →
    (exec (.registerServiceRing q va) s = .next (if g.serviceRing ≠ none then answered q 4 [] s
      else if ringPageOk q.die q.rid va s = true then answered q 0 [] (onNamed q (fun g => { g with serviceRing := some va }) s)
      else answered q 3 [] s)) ∧
    (exec (.withdrawServiceRing q) s = .next (if g.serviceRing = none then answered q 3 [] s
      else answered q 0 [] (onNamed q (fun g => { g with serviceRing := none }) s)))) ∧
  (∀ (s u v : State) (d top : Nat) (g : Region) (va : Word) (w e : List Byte), Acts s d → region? (getDie s d) top = some g → g.serviceRing = some va →
    readVa d top va 16 s = (some w, u) →
    let prod := natOf (w.take 8)
    let cons := natOf ((w.drop 8).take 8)
    let at_ := va + BitVec.ofNat 64 (64 + 64 * (cons % 1023))
    let h := natOf (e.take 8)
    let finish (status : Nat) (x : State) : State :=
      let y := writeVa d top (va + 8#64) (bytesOf 8 (cons + 1)) (writeVa d top (at_ + 48#64) (completion (nbits h 16 16) status) x)
      { y with
        served := some (d, top)
        completions := y.completions ++ [{ sup := some top, tag := nbits h 16 16, status := status, result := 0#64, report := [] }] }
    let rid := nbits h 48 12
    (prod = cons ∨ (turns s).find? (sourceWaits s) ≠ some (some (d, top)) ∨ s.openReq ≠ none → exec (.serviceRingPoll d top) s = .next s) ∧
    (prod ≠ cons → readVa d top at_ 64 u = (some e, v) → bit s.bootstat 0 = true → s.openReq = none →
      (turns s).find? (sourceWaits s) = some (some (d, top)) →
      (nbits h 60 4 ≠ 0 ∨ nbits h 34 14 ≠ 0 ∨ nbits h 8 8 ≠ 0 → exec (.serviceRingPoll d top) s = .next (finish 1 v)) ∧
      (nbits h 60 4 = 0 → nbits h 34 14 = 0 → nbits h 8 8 = 0 → 0 < nbits h 0 8 → nbits h 0 8 < 0x12 → nbits h 32 2 ≠ d →
        exec (.serviceRingPoll d top) s = .next (finish 2 v)) ∧
      (nbits h 60 4 = 0 → nbits h 34 14 = 0 → nbits h 8 8 = 0 → nbits h 32 2 = d →
      (nbits h 0 8 = 0x07 → exec (.serviceRingPoll d top) s = .next (finish 2 v)) ∧
      (nbits h 0 8 = 0x12 → exec (.serviceRingPoll d top) s = .next (finish 1 v)) ∧
      (nbits h 0 8 = 0x03 → inSubtree (getDie v d) top rid = false → exec (.serviceRingPoll d top) s = .next (finish 2 v)) ∧
      (nbits h 0 8 = 0x03 → inSubtree (getDie v d) top rid = true → region? (getDie v d) rid ≠ none →
        exec (.serviceRingPoll d top) s = .next (finish 0 (onNamed ⟨d, rid, 0, none, false, 0#64⟩
          (running (getDie v d)) (launchRank d (topOf (getDie v d) rid) v)))))))
end

