-- ==== Sys2Proof/Laws/State.lean ====
section
/-!
SUPPORT. What the updates of the state leave alone: one lemma for each field and update, and reading back what an
update wrote.
-/

namespace Sys2Proof.Machine

open Sys2Proof

@[simp] theorem modDie_cores (d : Nat) (f : Die → Die) (s : State) : (modDie d f s).cores = s.cores := rfl
@[simp] theorem modDie_ctxs (d : Nat) (f : Die → Die) (s : State) : (modDie d f s).ctxs = s.ctxs := rfl
@[simp] theorem modDie_keys (d : Nat) (f : Die → Die) (s : State) : (modDie d f s).keys = s.keys := rfl
@[simp] theorem modDie_pkg (d : Nat) (f : Die → Die) (s : State) : (modDie d f s).pkg = s.pkg := rfl
@[simp] theorem modDie_rotN (d : Nat) (f : Die → Die) (s : State) : (modDie d f s).rotN = s.rotN := rfl
@[simp] theorem modDie_slotP (d : Nat) (f : Die → Die) (s : State) : (modDie d f s).slotP = s.slotP := rfl
@[simp] theorem modDie_guardG (d : Nat) (f : Die → Die) (s : State) : (modDie d f s).guardG = s.guardG := rfl
@[simp] theorem modDie_planes (d : Nat) (f : Die → Die) (s : State) : (modDie d f s).planes = s.planes := rfl
@[simp] theorem modDie_ports (d : Nat) (f : Die → Die) (s : State) : (modDie d f s).ports = s.ports := rfl
@[simp] theorem modDie_rings (d : Nat) (f : Die → Die) (s : State) : (modDie d f s).rings = s.rings := rfl
@[simp] theorem modDie_mr0 (d : Nat) (f : Die → Die) (s : State) : (modDie d f s).mr0 = s.mr0 := rfl
@[simp] theorem modDie_mr1 (d : Nat) (f : Die → Die) (s : State) : (modDie d f s).mr1 = s.mr1 := rfl
@[simp] theorem modDie_bootstat (d : Nat) (f : Die → Die) (s : State) : (modDie d f s).bootstat = s.bootstat := rfl
@[simp] theorem modDie_hqbase (d : Nat) (f : Die → Die) (s : State) : (modDie d f s).hqbase = s.hqbase := rfl
@[simp] theorem modDie_hqsize (d : Nat) (f : Die → Die) (s : State) : (modDie d f s).hqsize = s.hqsize := rfl
@[simp] theorem modDie_hqprod (d : Nat) (f : Die → Die) (s : State) : (modDie d f s).hqprod = s.hqprod := rfl
@[simp] theorem modDie_hqcons (d : Nat) (f : Die → Die) (s : State) : (modDie d f s).hqcons = s.hqcons := rfl
@[simp] theorem modDie_cqbase (d : Nat) (f : Die → Die) (s : State) : (modDie d f s).cqbase = s.cqbase := rfl
@[simp] theorem modDie_cqsize (d : Nat) (f : Die → Die) (s : State) : (modDie d f s).cqsize = s.cqsize := rfl
@[simp] theorem modDie_completions (d : Nat) (f : Die → Die) (s : State) : (modDie d f s).completions = s.completions := rfl
@[simp] theorem modDie_cqprod (d : Nat) (f : Die → Die) (s : State) : (modDie d f s).cqprod = s.cqprod := rfl
@[simp] theorem modDie_dma (d : Nat) (f : Die → Die) (s : State) : (modDie d f s).dma = s.dma := rfl
@[simp] theorem modDie_msix (d : Nat) (f : Die → Die) (s : State) : (modDie d f s).msix = s.msix := rfl
@[simp] theorem modDie_served (d : Nat) (f : Die → Die) (s : State) : (modDie d f s).served = s.served := rfl
@[simp] theorem modDie_openReq (d : Nat) (f : Die → Die) (s : State) : (modDie d f s).openReq = s.openReq := rfl
@[simp] theorem modDie_hostEvents (d : Nat) (f : Die → Die) (s : State) : (modDie d f s).hostEvents = s.hostEvents := rfl
@[simp] theorem modDie_reports (d : Nat) (f : Die → Die) (s : State) : (modDie d f s).reports = s.reports := rfl
@[simp] theorem modDie_throttled (d : Nat) (f : Die → Die) (s : State) : (modDie d f s).throttled = s.throttled := rfl
@[simp] theorem modDie_currentLimited (d : Nat) (f : Die → Die) (s : State) : (modDie d f s).currentLimited = s.currentLimited := rfl
@[simp] theorem modDie_wire (d : Nat) (f : Die → Die) (s : State) : (modDie d f s).wire = s.wire := rfl
@[simp] theorem modDie_light (d : Nat) (f : Die → Die) (s : State) : (modDie d f s).light = s.light := rfl
@[simp] theorem modDie_msgs (d : Nat) (f : Die → Die) (s : State) : (modDie d f s).msgs = s.msgs := rfl
@[simp] theorem modDie_acksOut (d : Nat) (f : Die → Die) (s : State) : (modDie d f s).acksOut = s.acksOut := rfl
@[simp] theorem modDie_cur (d : Nat) (f : Die → Die) (s : State) : (modDie d f s).cur = s.cur := rfl
@[simp] theorem modDie_hdr (d : Nat) (f : Die → Die) (s : State) : (modDie d f s).hdr = s.hdr := rfl
@[simp] theorem modDie_flow (d : Nat) (f : Die → Die) (s : State) : (modDie d f s).flow = s.flow := rfl
@[simp] theorem modDie_saved (d : Nat) (f : Die → Die) (s : State) : (modDie d f s).saved = s.saved := rfl
@[simp] theorem modDie_agenda (d : Nat) (f : Die → Die) (s : State) : (modDie d f s).agenda = s.agenda := rfl
@[simp] theorem modDie_turn (d : Nat) (f : Die → Die) (s : State) : (modDie d f s).turn = s.turn := rfl
@[simp] theorem modDie_tape (d : Nat) (f : Die → Die) (s : State) : (modDie d f s).tape = s.tape := rfl
@[simp] theorem modDie_fresh (d : Nat) (f : Die → Die) (s : State) : (modDie d f s).fresh = s.fresh := rfl
@[simp] theorem modCore_dies (k : Nat) (f : Core → Core) (s : State) : (modCore k f s).dies = s.dies := rfl
@[simp] theorem modCore_ctxs (k : Nat) (f : Core → Core) (s : State) : (modCore k f s).ctxs = s.ctxs := rfl
@[simp] theorem modCore_keys (k : Nat) (f : Core → Core) (s : State) : (modCore k f s).keys = s.keys := rfl
@[simp] theorem modCore_pkg (k : Nat) (f : Core → Core) (s : State) : (modCore k f s).pkg = s.pkg := rfl
@[simp] theorem modCore_rotN (k : Nat) (f : Core → Core) (s : State) : (modCore k f s).rotN = s.rotN := rfl
@[simp] theorem modCore_slotP (k : Nat) (f : Core → Core) (s : State) : (modCore k f s).slotP = s.slotP := rfl
@[simp] theorem modCore_guardG (k : Nat) (f : Core → Core) (s : State) : (modCore k f s).guardG = s.guardG := rfl
@[simp] theorem modCore_planes (k : Nat) (f : Core → Core) (s : State) : (modCore k f s).planes = s.planes := rfl
@[simp] theorem modCore_ports (k : Nat) (f : Core → Core) (s : State) : (modCore k f s).ports = s.ports := rfl
@[simp] theorem modCore_rings (k : Nat) (f : Core → Core) (s : State) : (modCore k f s).rings = s.rings := rfl
@[simp] theorem modCore_mr0 (k : Nat) (f : Core → Core) (s : State) : (modCore k f s).mr0 = s.mr0 := rfl
@[simp] theorem modCore_mr1 (k : Nat) (f : Core → Core) (s : State) : (modCore k f s).mr1 = s.mr1 := rfl
@[simp] theorem modCore_bootstat (k : Nat) (f : Core → Core) (s : State) : (modCore k f s).bootstat = s.bootstat := rfl
@[simp] theorem modCore_hqbase (k : Nat) (f : Core → Core) (s : State) : (modCore k f s).hqbase = s.hqbase := rfl
@[simp] theorem modCore_hqsize (k : Nat) (f : Core → Core) (s : State) : (modCore k f s).hqsize = s.hqsize := rfl
@[simp] theorem modCore_hqprod (k : Nat) (f : Core → Core) (s : State) : (modCore k f s).hqprod = s.hqprod := rfl
@[simp] theorem modCore_hqcons (k : Nat) (f : Core → Core) (s : State) : (modCore k f s).hqcons = s.hqcons := rfl
@[simp] theorem modCore_cqbase (k : Nat) (f : Core → Core) (s : State) : (modCore k f s).cqbase = s.cqbase := rfl
@[simp] theorem modCore_cqsize (k : Nat) (f : Core → Core) (s : State) : (modCore k f s).cqsize = s.cqsize := rfl
@[simp] theorem modCore_completions (k : Nat) (f : Core → Core) (s : State) : (modCore k f s).completions = s.completions := rfl
@[simp] theorem modCore_cqprod (k : Nat) (f : Core → Core) (s : State) : (modCore k f s).cqprod = s.cqprod := rfl
@[simp] theorem modCore_dma (k : Nat) (f : Core → Core) (s : State) : (modCore k f s).dma = s.dma := rfl
@[simp] theorem modCore_msix (k : Nat) (f : Core → Core) (s : State) : (modCore k f s).msix = s.msix := rfl
@[simp] theorem modCore_served (k : Nat) (f : Core → Core) (s : State) : (modCore k f s).served = s.served := rfl
@[simp] theorem modCore_openReq (k : Nat) (f : Core → Core) (s : State) : (modCore k f s).openReq = s.openReq := rfl
@[simp] theorem modCore_hostEvents (k : Nat) (f : Core → Core) (s : State) : (modCore k f s).hostEvents = s.hostEvents := rfl
@[simp] theorem modCore_reports (k : Nat) (f : Core → Core) (s : State) : (modCore k f s).reports = s.reports := rfl
@[simp] theorem modCore_throttled (k : Nat) (f : Core → Core) (s : State) : (modCore k f s).throttled = s.throttled := rfl
@[simp] theorem modCore_currentLimited (k : Nat) (f : Core → Core) (s : State) : (modCore k f s).currentLimited = s.currentLimited := rfl
@[simp] theorem modCore_wire (k : Nat) (f : Core → Core) (s : State) : (modCore k f s).wire = s.wire := rfl
@[simp] theorem modCore_light (k : Nat) (f : Core → Core) (s : State) : (modCore k f s).light = s.light := rfl
@[simp] theorem modCore_msgs (k : Nat) (f : Core → Core) (s : State) : (modCore k f s).msgs = s.msgs := rfl
@[simp] theorem modCore_acksOut (k : Nat) (f : Core → Core) (s : State) : (modCore k f s).acksOut = s.acksOut := rfl
@[simp] theorem modCore_cur (k : Nat) (f : Core → Core) (s : State) : (modCore k f s).cur = s.cur := rfl
@[simp] theorem modCore_hdr (k : Nat) (f : Core → Core) (s : State) : (modCore k f s).hdr = s.hdr := rfl
@[simp] theorem modCore_flow (k : Nat) (f : Core → Core) (s : State) : (modCore k f s).flow = s.flow := rfl
@[simp] theorem modCore_saved (k : Nat) (f : Core → Core) (s : State) : (modCore k f s).saved = s.saved := rfl
@[simp] theorem modCore_agenda (k : Nat) (f : Core → Core) (s : State) : (modCore k f s).agenda = s.agenda := rfl
@[simp] theorem modCore_turn (k : Nat) (f : Core → Core) (s : State) : (modCore k f s).turn = s.turn := rfl
@[simp] theorem modCore_tape (k : Nat) (f : Core → Core) (s : State) : (modCore k f s).tape = s.tape := rfl
@[simp] theorem modCore_fresh (k : Nat) (f : Core → Core) (s : State) : (modCore k f s).fresh = s.fresh := rfl
@[simp] theorem modCtx_dies (c : Nat) (f : Ctx → Ctx) (s : State) : (modCtx c f s).dies = s.dies := by
  unfold modCtx; split <;> rfl
@[simp] theorem modCtx_cores (c : Nat) (f : Ctx → Ctx) (s : State) : (modCtx c f s).cores = s.cores := by
  unfold modCtx; split <;> rfl
@[simp] theorem modCtx_keys (c : Nat) (f : Ctx → Ctx) (s : State) : (modCtx c f s).keys = s.keys := by
  unfold modCtx; split <;> rfl
@[simp] theorem modCtx_pkg (c : Nat) (f : Ctx → Ctx) (s : State) : (modCtx c f s).pkg = s.pkg := by
  unfold modCtx; split <;> rfl
@[simp] theorem modCtx_rotN (c : Nat) (f : Ctx → Ctx) (s : State) : (modCtx c f s).rotN = s.rotN := by
  unfold modCtx; split <;> rfl
@[simp] theorem modCtx_slotP (c : Nat) (f : Ctx → Ctx) (s : State) : (modCtx c f s).slotP = s.slotP := by
  unfold modCtx; split <;> rfl
@[simp] theorem modCtx_guardG (c : Nat) (f : Ctx → Ctx) (s : State) : (modCtx c f s).guardG = s.guardG := by
  unfold modCtx; split <;> rfl
@[simp] theorem modCtx_planes (c : Nat) (f : Ctx → Ctx) (s : State) : (modCtx c f s).planes = s.planes := by
  unfold modCtx; split <;> rfl
@[simp] theorem modCtx_ports (c : Nat) (f : Ctx → Ctx) (s : State) : (modCtx c f s).ports = s.ports := by
  unfold modCtx; split <;> rfl
@[simp] theorem modCtx_rings (c : Nat) (f : Ctx → Ctx) (s : State) : (modCtx c f s).rings = s.rings := by
  unfold modCtx; split <;> rfl
@[simp] theorem modCtx_mr0 (c : Nat) (f : Ctx → Ctx) (s : State) : (modCtx c f s).mr0 = s.mr0 := by
  unfold modCtx; split <;> rfl
@[simp] theorem modCtx_mr1 (c : Nat) (f : Ctx → Ctx) (s : State) : (modCtx c f s).mr1 = s.mr1 := by
  unfold modCtx; split <;> rfl
@[simp] theorem modCtx_bootstat (c : Nat) (f : Ctx → Ctx) (s : State) : (modCtx c f s).bootstat = s.bootstat := by
  unfold modCtx; split <;> rfl
@[simp] theorem modCtx_hqbase (c : Nat) (f : Ctx → Ctx) (s : State) : (modCtx c f s).hqbase = s.hqbase := by
  unfold modCtx; split <;> rfl
@[simp] theorem modCtx_hqsize (c : Nat) (f : Ctx → Ctx) (s : State) : (modCtx c f s).hqsize = s.hqsize := by
  unfold modCtx; split <;> rfl
@[simp] theorem modCtx_hqprod (c : Nat) (f : Ctx → Ctx) (s : State) : (modCtx c f s).hqprod = s.hqprod := by
  unfold modCtx; split <;> rfl
@[simp] theorem modCtx_hqcons (c : Nat) (f : Ctx → Ctx) (s : State) : (modCtx c f s).hqcons = s.hqcons := by
  unfold modCtx; split <;> rfl
@[simp] theorem modCtx_cqbase (c : Nat) (f : Ctx → Ctx) (s : State) : (modCtx c f s).cqbase = s.cqbase := by
  unfold modCtx; split <;> rfl
@[simp] theorem modCtx_cqsize (c : Nat) (f : Ctx → Ctx) (s : State) : (modCtx c f s).cqsize = s.cqsize := by
  unfold modCtx; split <;> rfl
@[simp] theorem modCtx_completions (c : Nat) (f : Ctx → Ctx) (s : State) : (modCtx c f s).completions = s.completions := by
  unfold modCtx; split <;> rfl
@[simp] theorem modCtx_cqprod (c : Nat) (f : Ctx → Ctx) (s : State) : (modCtx c f s).cqprod = s.cqprod := by
  unfold modCtx; split <;> rfl
@[simp] theorem modCtx_dma (c : Nat) (f : Ctx → Ctx) (s : State) : (modCtx c f s).dma = s.dma := by
  unfold modCtx; split <;> rfl
@[simp] theorem modCtx_msix (c : Nat) (f : Ctx → Ctx) (s : State) : (modCtx c f s).msix = s.msix := by
  unfold modCtx; split <;> rfl
@[simp] theorem modCtx_served (c : Nat) (f : Ctx → Ctx) (s : State) : (modCtx c f s).served = s.served := by
  unfold modCtx; split <;> rfl
@[simp] theorem modCtx_openReq (c : Nat) (f : Ctx → Ctx) (s : State) : (modCtx c f s).openReq = s.openReq := by
  unfold modCtx; split <;> rfl
@[simp] theorem modCtx_hostEvents (c : Nat) (f : Ctx → Ctx) (s : State) : (modCtx c f s).hostEvents = s.hostEvents := by
  unfold modCtx; split <;> rfl
@[simp] theorem modCtx_reports (c : Nat) (f : Ctx → Ctx) (s : State) : (modCtx c f s).reports = s.reports := by
  unfold modCtx; split <;> rfl
@[simp] theorem modCtx_throttled (c : Nat) (f : Ctx → Ctx) (s : State) : (modCtx c f s).throttled = s.throttled := by
  unfold modCtx; split <;> rfl
@[simp] theorem modCtx_currentLimited (c : Nat) (f : Ctx → Ctx) (s : State) : (modCtx c f s).currentLimited = s.currentLimited := by
  unfold modCtx; split <;> rfl
@[simp] theorem modCtx_wire (c : Nat) (f : Ctx → Ctx) (s : State) : (modCtx c f s).wire = s.wire := by
  unfold modCtx; split <;> rfl
@[simp] theorem modCtx_light (c : Nat) (f : Ctx → Ctx) (s : State) : (modCtx c f s).light = s.light := by
  unfold modCtx; split <;> rfl
@[simp] theorem modCtx_msgs (c : Nat) (f : Ctx → Ctx) (s : State) : (modCtx c f s).msgs = s.msgs := by
  unfold modCtx; split <;> rfl
@[simp] theorem modCtx_acksOut (c : Nat) (f : Ctx → Ctx) (s : State) : (modCtx c f s).acksOut = s.acksOut := by
  unfold modCtx; split <;> rfl
@[simp] theorem modCtx_cur (c : Nat) (f : Ctx → Ctx) (s : State) : (modCtx c f s).cur = s.cur := by
  unfold modCtx; split <;> rfl
@[simp] theorem modCtx_hdr (c : Nat) (f : Ctx → Ctx) (s : State) : (modCtx c f s).hdr = s.hdr := by
  unfold modCtx; split <;> rfl
@[simp] theorem modCtx_flow (c : Nat) (f : Ctx → Ctx) (s : State) : (modCtx c f s).flow = s.flow := by
  unfold modCtx; split <;> rfl
@[simp] theorem modCtx_agenda (c : Nat) (f : Ctx → Ctx) (s : State) : (modCtx c f s).agenda = s.agenda := by
  unfold modCtx; split <;> rfl
@[simp] theorem modCtx_turn (c : Nat) (f : Ctx → Ctx) (s : State) : (modCtx c f s).turn = s.turn := by
  unfold modCtx; split <;> rfl
@[simp] theorem modCtx_tape (c : Nat) (f : Ctx → Ctx) (s : State) : (modCtx c f s).tape = s.tape := by
  unfold modCtx; split <;> rfl
@[simp] theorem modCtx_fresh (c : Nat) (f : Ctx → Ctx) (s : State) : (modCtx c f s).fresh = s.fresh := by
  unfold modCtx; split <;> rfl

@[simp] theorem modDie_length (d : Nat) (f : Die → Die) (s : State) : (modDie d f s).dies.length = s.dies.length := by
  simp [modDie]
@[simp] theorem modCore_length (k : Nat) (f : Core → Core) (s : State) : (modCore k f s).cores.length = s.cores.length := by
  simp [modCore]
@[simp] theorem modCtx_length (c : Nat) (f : Ctx → Ctx) (s : State) : (modCtx c f s).ctxs.length = s.ctxs.length := by
  unfold modCtx; split <;> simp

/-! Reading back -/

@[simp] theorem getCtx_modDie (d : Nat) (f : Die → Die) (s : State) (c : Nat) : getCtx (modDie d f s) c = getCtx s c := rfl
@[simp] theorem getCtx_modCore (k : Nat) (f : Core → Core) (s : State) (c : Nat) : getCtx (modCore k f s) c = getCtx s c := rfl
@[simp] theorem getDie_modCtx (c : Nat) (f : Ctx → Ctx) (s : State) (d : Nat) : getDie (modCtx c f s) d = getDie s d := by
  simp [getDie]
@[simp] theorem getDie_modCore (k : Nat) (f : Core → Core) (s : State) (d : Nat) : getDie (modCore k f s) d = getDie s d := rfl
@[simp] theorem getCore_modDie (d : Nat) (f : Die → Die) (s : State) (k : Nat) : getCore (modDie d f s) k = getCore s k := rfl
@[simp] theorem getCore_modCtx (c : Nat) (f : Ctx → Ctx) (s : State) (k : Nat) : getCore (modCtx c f s) k = getCore s k := by
  simp [getCore]

theorem getD_modify_eq {α : Type} (l : List α) (i : Nat) (f : α → α) (z : α) (h : i < l.length) :
    (l.modify i f).getD i z = f (l.getD i z) := by
  simp [List.getD_eq_getElem?_getD, h]

theorem getD_modify_ne {α : Type} (l : List α) (i j : Nat) (f : α → α) (z : α) (h : i ≠ j) :
    (l.modify i f).getD j z = l.getD j z := by
  simp only [List.getD_eq_getElem?_getD, List.getElem?_modify, h, if_false, id_map']

theorem getCtx_modCtx_eq (c : Nat) (f : Ctx → Ctx) (s : State) (h : c < 1024) (hl : c < s.ctxs.length) :
    getCtx (modCtx c f s) c = f (getCtx s c) := by
  simp [getCtx, modCtx, h, getD_modify_eq _ _ _ _ hl, -List.getD_eq_getElem?_getD]

theorem find_map_ne (l : List (Nat × Ctx)) (c e : Nat) (f : Ctx → Ctx) (h : c ≠ e) :
    ((l.map fun p => if p.1 == c then (p.1, f p.2) else p).find? fun p => p.1 == e) = l.find? fun p => p.1 == e := by
  induction l with
  | nil => rfl
  | cons a l ih =>
    rw [List.map_cons, List.find?_cons, List.find?_cons, ih]
    by_cases h2 : a.1 = c
    · simp [h2, beq_false_of_ne h]
    · simp [h2]

theorem getCtx_modCtx_ne (c e : Nat) (f : Ctx → Ctx) (s : State) (h : c ≠ e) :
    getCtx (modCtx c f s) e = getCtx s e := by
  unfold getCtx modCtx
  by_cases hc : c < 1024 <;> by_cases he : e < 1024 <;> simp only [hc, he, if_true, if_false]
  · exact getD_modify_ne _ _ _ _ _ h
  · rw [find_map_ne _ _ _ _ h]

theorem getDie_modDie_eq (d : Nat) (f : Die → Die) (s : State) (h : d < s.dies.length) :
    getDie (modDie d f s) d = f (getDie s d) := getD_modify_eq _ _ _ _ h

theorem getDie_modDie_ne (d e : Nat) (f : Die → Die) (s : State) (h : d ≠ e) :
    getDie (modDie d f s) e = getDie s e := getD_modify_ne _ _ _ _ _ h

theorem getCore_modCore_eq (k : Nat) (f : Core → Core) (s : State) (h : k < s.cores.length) :
    getCore (modCore k f s) k = f (getCore s k) := getD_modify_eq _ _ _ _ h

theorem getCore_modCore_ne (k e : Nat) (f : Core → Core) (s : State) (h : k ≠ e) :
    getCore (modCore k f s) e = getCore s e := getD_modify_ne _ _ _ _ _ h

end Sys2Proof.Machine
end

