-- ==== Sys2Proof/Laws/Issue.lean ====
section
/-!
SUPPORT. What the issue of a lone bundle does, once for all operations: what the passing of a cycle moves, what the
end of a bundle leaves, and the meaning of a syllable that is ready.
-/

namespace Sys2Proof.Machine

open Sys2Proof

/-! Parts that issuing does not move -/

theorem map_modify_same {α β : Type} (l : List α) (n : Nat) (f : α → α) (g : α → β) (h : ∀ x, g (f x) = g x) :
    (l.modify n f).map g = l.map g := by
  apply List.ext_getElem?
  intro i
  simp only [List.getElem?_map, List.getElem?_modify]
  by_cases hi : n = i
  · simp [hi, Option.map_map, Function.comp_def, h]
  · simp [hi]

theorem mapIdx_modify_same {α β : Type} (l : List α) (n : Nat) (f : α → α) (g : Nat → α → β)
    (h : ∀ x, g n (f x) = g n x) : (l.modify n f).mapIdx g = l.mapIdx g := by
  apply List.ext_getElem?
  intro i
  simp only [List.getElem?_mapIdx, List.getElem?_modify]
  by_cases hi : n = i
  · subst hi; simp [Option.map_map, Function.comp_def, h]
  · simp [hi]

theorem calm_modCore (c k : Nat) (f : Core → Core) (s : State) (h : ∀ x, (f x).calm = x.calm) :
    State.calm c (modCore k f s) = State.calm c s := by
  simp only [State.calm, modCore, map_modify_same _ _ _ _ h]

theorem calm_modDie (c d : Nat) (f : Die → Die) (s : State) (h : ∀ x, (f x).calm = x.calm) :
    State.calm c (modDie d f s) = State.calm c s := by
  simp only [State.calm, modDie, map_modify_same _ _ _ _ h]

theorem calm_modCtx_self (c : Nat) (f : Ctx → Ctx) (s : State) (hc : c < 1024) (h : ∀ x, (f x).calm = x.calm) :
    State.calm c (modCtx c f s) = State.calm c s := by
  simp only [State.calm, modCtx, hc, if_true]
  rw [mapIdx_modify_same _ _ _ _ (by intro x; simp [h])]

theorem calm_mark (c e : Nat) (s : State) :
    State.calm c (modCtx e (fun x => { x with marked := true }) s) = State.calm c s := by
  unfold modCtx
  split
  · simp only [State.calm]
    rw [mapIdx_modify_same _ _ _ _ (by intro x; split <;> rfl)]
  · simp only [State.calm, List.map_map]
    congr 1
    apply List.map_congr_left
    intro a _
    simp only [Function.comp_def]
    split <;> rfl

/-- A fold keeps what each of its steps keeps. -/
theorem foldS_keeps {α β : Type} (p : State → β) (f : α → State → State) (h : ∀ a s, p (f a s) = p s) (l : List α) :
    ∀ s, p (foldS f l s) = p s := by
  induction l with
  | nil => intro s; rfl
  | cons a l ih => intro s; simp only [foldS]; rw [ih, h]

theorem calm_exhaust (c d r : Nat) (s : State) : State.calm c (exhaust d r s) = State.calm c s :=
  foldS_keeps (State.calm c) _ (fun e s => calm_mark c e s) _ _

theorem Die.calm_modRegion (r : Nat) (p : Option Nat) (d : Die) :
    (modRegion r (fun g => { g with pool := p }) d).calm = d.calm := by
  simp only [Die.calm, modRegion, List.map_map]
  congr 1
  apply List.map_congr_left
  intro g _
  simp only [Function.comp_def]
  split <;> rfl

theorem calm_charge (c d n r : Nat) (s : State) : State.calm c (charge d n r s) = State.calm c s := by
  unfold charge
  apply foldS_keeps (State.calm c)
  intro a s
  split
  · rfl
  · rfl
  · split
    · rw [calm_exhaust, calm_modDie _ _ _ _ (Die.calm_modRegion a _)]
    · rw [calm_modDie _ _ _ _ (Die.calm_modRegion a _)]

theorem calm_tick (c k n : Nat) (s : State) : State.calm c (tick k n s) = State.calm c s := by
  simp only [tick]
  rw [foldS_keeps (State.calm c), calm_modDie, calm_modCore]
  · intro x; rfl
  · intro x; rfl
  · intro a s; split
    · exact calm_charge ..
    · rfl

/-- States with equal calm parts hold the same memory. -/
theorem mem_of_calm {c : Nat} {s t : State} (h : State.calm c t = State.calm c s) (d : Nat) :
    (getDie t d).mem = (getDie s d).mem := by
  have h1 : t.dies.map Die.calm = s.dies.map Die.calm := congrArg State.dies h
  have h2 : (t.dies.map Die.calm).getD d (Die.calm {}) = (s.dies.map Die.calm).getD d (Die.calm {}) := by rw [h1]
  simp only [List.getD_eq_getElem?_getD, List.getElem?_map] at h2
  simp only [getDie, List.getD_eq_getElem?_getD]
  cases ht : t.dies[d]? <;> cases hs : s.dies[d]? <;> rw [ht, hs] at h2 <;>
    simpa [Die.calm] using congrArg Die.mem h2

/-! Architectural state that the passing of cycles leaves -/

theorem getArch_mark (c e : Nat) (s : State) (hc : c < 1024) :
    getArch (modCtx e (fun x => { x with marked := true }) s) c = getArch s c := by
  unfold getArch getCtx modCtx
  by_cases he : e < 1024 <;> simp only [he, hc, if_true, if_false]
  simp only [List.getD_eq_getElem?_getD, List.getElem?_modify]
  by_cases h : e = c
  · cases s.ctxs[c]? <;> simp [h]
  · simp [h]

theorem getArch_exhaust (c d r : Nat) (s : State) (hc : c < 1024) : getArch (exhaust d r s) c = getArch s c :=
  foldS_keeps (fun s => getArch s c) _ (fun e s => getArch_mark c e s hc) _ _

theorem getArch_charge (c d n r : Nat) (s : State) (hc : c < 1024) : getArch (charge d n r s) c = getArch s c := by
  unfold charge
  apply foldS_keeps (fun s => getArch s c)
  intro a s
  split
  · rfl
  · rfl
  · split
    · rw [getArch_exhaust _ _ _ _ hc]; rfl
    · rfl

theorem getArch_tick (c k n : Nat) (s : State) (hc : c < 1024) : getArch (tick k n s) c = getArch s c := by
  simp only [tick]
  rw [foldS_keeps (fun s => getArch s c)]
  · rfl
  · intro a s; split
    · exact getArch_charge _ _ _ _ _ hc
    · rfl

/-! The end of a bundle and a lone operation -/

/-- A bundle without END whose operations left the flow at the next PC ends there: nothing else moves. -/
theorem finishBundle_plain (c id0 : Nat) (u : State) (n : Nat) (t0 : Word) (p0 : List Pred) (o0 : Nat) (hc : c < 1024) (hl : c < u.ctxs.length)
    (hf : u.flow = { nextPc := n, tags0 := t0, preds0 := p0, id0 := o0 }) (he : u.hdr.fin = false) :
    State.calm c (finishBundle c id0 u) = State.calm c u ∧
    getArch (finishBundle c id0 u) c = { getArch u c with pc := n } := by
  have hp : ∀ s : State, State.calm c (modArch c (fun a => { a with pc := n }) s) = State.calm c s :=
    fun s => calm_modCtx_self _ _ _ hc fun _ => rfl
  simp only [finishBundle, hf, goOn, modCtx_flow, modCtx_hdr, he, Bool.false_eq_true, if_false]
  constructor
  · show State.calm c (tick _ _ _) = _
    rw [calm_tick, hp, calm_modCtx_self _ _ _ hc]
    intro x; rfl
  · show getArch (tick _ _ _) c = _
    rw [getArch_tick _ _ _ _ hc]
    simp only [getArch, modArch]
    rw [getCtx_modCtx_eq _ _ _ hc (by simpa using hl), getCtx_modCtx_eq _ _ _ hc hl]

/-! The parts that landing leaves fixed -/

/-- The acting context, the header and the size of the package. -/
def fixedOf (s : State) : Nat × Hdr × Nat × Nat × Nat × List KeySlot × Nat :=
  (s.cur, s.hdr, s.ctxs.length, s.cores.length, s.dies.length, s.keys, s.pkg)

@[simp] theorem fixedOf_modCtx (c : Nat) (f : Ctx → Ctx) (s : State) : fixedOf (modCtx c f s) = fixedOf s := by
  simp [fixedOf]
@[simp] theorem fixedOf_modArch (c : Nat) (f : Arch → Arch) (s : State) : fixedOf (modArch c f s) = fixedOf s :=
  fixedOf_modCtx ..
@[simp] theorem fixedOf_modDie (d : Nat) (f : Die → Die) (s : State) : fixedOf (modDie d f s) = fixedOf s := by
  simp [fixedOf]
@[simp] theorem fixedOf_modCore (k : Nat) (f : Core → Core) (s : State) : fixedOf (modCore k f s) = fixedOf s := by
  simp [fixedOf]
@[simp] theorem fixedOf_choose (n : Nat) (s : State) : fixedOf (choose n s).2 = fixedOf s := by
  unfold choose
  split
  · rfl
  · split <;> rfl
@[simp] theorem fixedOf_readMissing (k d : Nat) (p : Path) (a n okey ep : Nat) (na : Bool) (s : State) :
    fixedOf (readMissing k d p a n okey ep na s).2.2 = fixedOf s := by
  simp [readMissing]
@[simp] theorem fixedOf_readWholeOn (d : Nat) (p : Path) (a n okey ep : Nat) (na : Bool) (s : State) :
    fixedOf (readWholeOn d p a n okey ep na s).2.2 = fixedOf s := by
  simp [readWholeOn]
@[simp] theorem fixedOf_readUnits (d : Nat) (p : Path) (okey ep : Nat) (na : Bool) (rs : List (Nat × Nat)) :
    ∀ s, fixedOf (readUnits d p okey ep na rs s).2.2 = fixedOf s := by
  induction rs with
  | nil => intro s; rfl
  | cons r rs ih => intro s; simp [readUnits, ih]
@[simp] theorem fixedOf_readRunBy (u d : Nat) (p : Path) (a n okey ep : Nat) (na : Bool) (s : State) :
    fixedOf (readRunBy u d p a n okey ep na s).2.2 = fixedOf s := by
  unfold readRunBy; split <;> simp
@[simp] theorem fixedOf_readBankOn (d : Nat) (p : Path) (a n okey ep : Nat) (na : Bool) (s : State) :
    fixedOf (readBankOn d p a n okey ep na s).2.2 = fixedOf s := by
  simp [readBankOn]
@[simp] theorem fixedOf_writeAs (fill : Bool) (d : Nat) (p : Path) (op a okey ep : Nat) (na : Bool) (bs : List Byte) (s : State) :
    fixedOf (writeAs fill d p op a okey ep na bs s) = fixedOf s := by
  unfold writeAs; split <;> simp
@[simp] theorem fixedOf_writeRunOn (d : Nat) (p : Path) (op a okey ep : Nat) (na : Bool) (bs : List Byte) (s : State) :
    fixedOf (writeRunOn d p op a okey ep na bs s) = fixedOf s := fixedOf_writeAs ..
@[simp] theorem fixedOf_readSegsBy (u d : Nat) (p : Path) (ep : Nat) (na : Bool) (gs : List Seg) :
    ∀ s, fixedOf (readSegsBy u d p ep na gs s).2.2 = fixedOf s := by
  induction gs with
  | nil => intro s; rfl
  | cons g gs ih => intro s; simp [readSegsBy, ih]
@[simp] theorem fixedOf_writeSegs (d : Nat) (p : Path) (op ep : Nat) (na : Bool) (gs : List Seg) :
    ∀ bs s, fixedOf (writeSegs d p op ep na gs bs s) = fixedOf s := by
  induction gs with
  | nil => intro bs s; rfl
  | cons g gs ih => intro bs s; simp [writeSegs, ih]

/-! Translation leaves the fixed parts -/

@[simp] theorem fixedOf_touchOwn (d line : Nat) (s : State) : fixedOf (touchOwn d line s) = fixedOf s := fixedOf_modDie ..
@[simp] theorem fixedOf_readEntry (d a : Nat) (s : State) : fixedOf (readEntry d a s).2.2 = fixedOf s := by
  unfold readEntry
  dsimp only
  rw [fixedOf_touchOwn]
  split <;> simp
@[simp] theorem fixedOf_entryAt (d top va level table : Nat) (s : State) :
    fixedOf (entryAt d top va level table s).2.2 = fixedOf s := by
  unfold entryAt
  dsimp only
  split <;> simp
theorem fixedOf_walkLevel (d top va level table : Nat) (s : State) :
    fixedOf (walkLevel d top va level table s).2 = fixedOf s := by
  have hk := fixedOf_entryAt d top va level table s
  unfold walkLevel
  generalize entryAt d top va level table s = r at hk
  dsimp only
  split
  · rfl
  · split
    · simpa using hk
    · exact hk
theorem fixedOf_walkFrom (d top va : Nat) (level : Nat) : ∀ table s, fixedOf (walkFrom d top va level table s).2 = fixedOf s := by
  induction level with
  | zero =>
    intro table s
    have hk := fixedOf_walkLevel d top va 0 table s
    rw [walkFrom.eq_def]
    dsimp only
    split <;> simp_all
  | succ l ih =>
    intro table s
    have hk := fixedOf_walkLevel d top va (l + 1) table s
    rw [walkFrom.eq_def]
    dsimp only
    split <;> simp_all
@[simp] theorem fixedOf_walk (d top va : Nat) (s : State) : fixedOf (walk d top va s).2 = fixedOf s := by
  unfold walk
  split
  · rfl
  · split
    · rfl
    · exact fixedOf_walkFrom ..
@[simp] theorem fixedOf_lookup (k : Option Nat) (s : State) (d top va : Nat) : fixedOf (lookup k s d top va).2 = fixedOf s := by
  unfold lookup
  dsimp only
  split <;> simp
@[simp] theorem fixedOf_keepLeaf (k : Option Nat) (d : Nat) (e : TlbEntry) (s : State) : fixedOf (keepLeaf k d e s) = fixedOf s := by
  unfold keepLeaf; dsimp only; split <;> simp
@[simp] theorem fixedOf_checkPage (k : Option Nat) (d top : Nat) (nd : Need) (va : Nat) (s : State) :
    fixedOf (checkPage k d top nd va s).2 = fixedOf s := by
  have hl := fixedOf_lookup k s d top va
  unfold checkPage
  split
  · next h => rw [h] at hl; exact hl
  · next h =>
    rw [h] at hl
    repeat' split
    all_goals simpa using hl
@[simp] theorem fixedOf_checkPages (k : Option Nat) (d top : Nat) (nd : Need) (fuel : Nat) :
    ∀ va len s, fixedOf (checkPages k d top nd fuel va len s).2 = fixedOf s := by
  induction fuel with
  | zero => intro va len s; rfl
  | succ n ih =>
    intro va len s
    have hl := fixedOf_checkPage k d top nd va s
    unfold checkPages
    split
    · rfl
    · split
      · next h => rw [h] at hl; exact hl
      · next e s' h =>
        rw [h] at hl
        have h2 := ih (va + min len (pageLeft e va)) (len - min len (pageLeft e va)) s'
        dsimp only
        split
        · next h3 => rw [h3] at h2; exact h2.trans hl
        · next h3 => rw [h3] at h2; exact h2.trans hl
@[simp] theorem fixedOf_checkRun (d top : Nat) (nd : Need) (va : Word) (len : Nat) (s : State) :
    fixedOf (checkRun d top nd va len s).2 = fixedOf s := fixedOf_checkPages ..
@[simp] theorem fixedOf_checkAccess (c : Nat) (nd : Need) (va : Word) (len : Nat) (s : State) :
    fixedOf (checkAccess c nd va len s).2 = fixedOf s := fixedOf_checkPages ..

/-! Performing an access leaves them -/

@[simp] theorem fixedOf_deliver (c lvl code arg : Nat) (a : Word) (s : State) :
    fixedOf (deliver c lvl code arg a s) = fixedOf s := fixedOf_modCtx ..
@[simp] theorem fixedOf_owePoison (c lvl : Nat) (s : State) : fixedOf (owePoison c lvl s) = fixedOf s := by
  unfold owePoison; split <;> simp
@[simp] theorem fixedOf_giveResult (c id at_ : Nat) (v : Val) (fl : BitVec 8) (bad : Bool) (s : State) :
    fixedOf (giveResult c id at_ v fl bad s) = fixedOf s := fixedOf_modCtx ..
@[simp] theorem fixedOf_orSaved (d top : Nat) (va bits : Word) (s : State) :
    fixedOf (orSaved d top va bits s).2 = fixedOf s := by
  have h := fixedOf_checkRun d top { r := true, w := true } va 8 s
  unfold orSaved
  split
  · next g s' hc =>
    rw [hc] at h
    have hr := fixedOf_readBankOn d .bk g.pa 8 g.okey 0 false s'
    dsimp only
    split <;> simp_all
  · next hc => rw [← h, hc]
@[simp] theorem fixedOf_engineFlags (c lvl : Nat) (fl : BitVec 8) (s : State) :
    fixedOf (engineFlags c lvl fl s) = fixedOf s := by
  unfold engineFlags
  split
  · rfl
  · (try dsimp only)
    split
    · (try dsimp only); split <;> simp
    · simp
@[simp] theorem fixedOf_arriveBarrier (c lvl : Nat) (p : Path) (op pa va okey : Nat) (s : State) :
    fixedOf (arriveBarrier c lvl p op pa va okey s) = fixedOf s := by
  unfold arriveBarrier
  dsimp only
  split <;> simp
@[simp] theorem fixedOf_performAtomic (c : Nat) (p : Path) (e : LsEntry) (s : State) :
    fixedOf (performAtomic c p e s) = fixedOf s := by
  unfold performAtomic
  split
  · next g _ _ =>
    have hr := fixedOf_readBankOn (dieOf c) p g.pa g.len g.okey e.ep e.na s
    (try dsimp only)
    split
    · split <;> simp
    · split
      · split <;> simp_all
      · split
        · (try dsimp only); split <;> simp_all
        · (try dsimp only)
          split
          · split <;> simp_all
          · simp_all
        · split <;> simp_all
        · simp_all
  · rfl
@[simp] theorem fixedOf_finishLoad (c : Nat) (e : LsEntry) (bs : List Byte) (bad : Bool) (s : State) :
    fixedOf (finishLoad c e bs bad s) = fixedOf s := by
  unfold finishLoad
  split
  · split <;> simp
  · split <;> simp
  · simp
  · rfl
@[simp] theorem fixedOf_loadArrives (c : Nat) (e : LsEntry) (bs : List Byte) (bad : Option Nat) (s : State) :
    fixedOf (loadArrives c e bs bad s) = fixedOf s := by
  unfold loadArrives; dsimp only; split <;> simp
@[simp] theorem fixedOf_remember (c : Nat) (e : LsEntry) (bs : List Byte) (bad : Option Nat) (s : State) :
    fixedOf (remember c e bs bad s) = fixedOf s := by
  unfold remember; split <;> simp
@[simp] theorem fixedOf_performLs (c : Nat) (e : LsEntry) (s : State) : fixedOf (performLs c e s) = fixedOf s := by
  have hr : ∀ s, fixedOf (readRest c e s).2.2 = fixedOf s := by
    intro s; simp [readRest]
  unfold performLs
  dsimp only
  split
  all_goals first | (simp [pushRecord, hr]; done) | rfl
@[simp] theorem fixedOf_refuseLs (c : Nat) (e : LsEntry) (va : Nat) (s : State) : fixedOf (refuseLs c e va s) = fixedOf s := by
  simp [refuseLs]
@[simp] theorem fixedOf_performEntry (c : Nat) (e : LsEntry) (s : State) : fixedOf (performEntry c e s) = fixedOf s := by
  unfold performEntry
  split
  · split <;> simp
  · simp
@[simp] theorem fixedOf_bkPerform (c : Nat) (s : State) : fixedOf (bkPerform c s) = fixedOf s := by
  unfold bkPerform; split <;> simp
@[simp] theorem fixedOf_drainTo (c id : Nat) (s : State) : fixedOf (drainTo c id s) = fixedOf s := by
  unfold drainTo
  (try dsimp only)
  rw [foldS_keeps fixedOf _ (fun e s => fixedOf_performEntry c e s)]
  simp
@[simp] theorem fixedOf_drainLs (c : Nat) (s : State) : fixedOf (drainLs c s) = fixedOf s := by
  unfold drainLs orderPoint
  (try dsimp only)
  rw [fixedOf_modCtx, foldS_keeps fixedOf _ (fun e s => fixedOf_performEntry c e s)]
  simp
@[simp] theorem fixedOf_landNow (c : Nat) (s : State) : fixedOf (landNow c s) = fixedOf s := by
  unfold landNow
  split
  · rfl
  · (try dsimp only)
    rw [fixedOf_modCtx]
    unfold forceDue
    (try dsimp only)
    apply foldS_keeps fixedOf
    intro r s
    (try dsimp only)
    rw [foldS_keeps fixedOf _ (fun _ s => fixedOf_bkPerform c s)]
    split <;> simp
@[simp] theorem fixedOf_rebaseNow (c : Nat) (s : State) : fixedOf (rebaseNow c s) = fixedOf s := by
  unfold rebaseNow; split <;> simp

/-- Landing leaves the acting context, the header and the size of the package. -/
theorem fixedOf_atIssue (s : State) : fixedOf (atIssue s) = fixedOf s := by simp [atIssue]

theorem atIssue_cur (s : State) : (atIssue s).cur = s.cur := congrArg (·.1) (fixedOf_atIssue s)
theorem atIssue_hdr (s : State) : (atIssue s).hdr = s.hdr := congrArg (·.2.1) (fixedOf_atIssue s)
theorem atIssue_length (s : State) : (atIssue s).ctxs.length = s.ctxs.length := congrArg (·.2.2.1) (fixedOf_atIssue s)

/-! A lone operation -/

/-- No END of a bundle without one reads a poisoned register. -/
theorem endPoisoned_noEnd (c : Nat) (u : State) (h : u.hdr.fin = false) : endPoisoned c u = false := by
  simp [endPoisoned, endActs, h]

/-- A ready operation issues: only what it answers itself is open. -/
theorem issueOps_ready (i : Instr) (f : Op) (s : State) (h : Ready i s) :
    issueOps ((getArch s s.cur).pc + 1) [(i, f)] s = match f (started s) with
      | .ok u => .went (if endPoisoned s.cur u then preciseFault s.cur 0x18 0 (BitVec.allOnes 64) (atIssue s)
          else finishBundle s.cur (getCtx (atIssue s) s.cur).nextId u)
      | .trap code addr => .went (opFault s.cur code addr (atIssue s))
      | .block k reg => .waits k (reg (atIssue s))
      | .stall => .went (tick (coreOf s.cur) 1 (atIssue s)) := by
  have e1 := h.legal; have e2 := h.free; have e3 := h.stage; have e4 := h.ahead; have e5 := h.clean
  have e6 := h.room; have e7 := h.guard; have e8 := h.tables
  have hA : landNow s.cur (rebaseNow s.cur s) = atIssue s := rfl
  have hS : ({ atIssue s with flow :=
      { nextPc := (getArch s s.cur).pc + 1, tags0 := (getCtx (atIssue s) s.cur).tags
        preds0 := (getCtx (atIssue s) s.cur).arch.p, id0 := (getCtx (atIssue s) s.cur).nextId } } : State) = started s := rfl
  have eH : ({ s.hdr with fin := false } : Hdr) = s.hdr := by rw [← h.noEnd]
  unfold getArch at e2 e3 e5 e7
  unfold issueOps
  dsimp only
  rw [hA]
  simp only [List.map_cons, List.map_nil, eH, e1, e2, e3, e4, e8, Bool.or_false, if_false, if_true, Bool.false_eq_true, List.any_cons, List.any_nil,
    Bool.or_false, List.filter_cons, List.filter_nil, e7, List.flatMap_cons, List.flatMap_nil, List.append_nil, e5, e6]
  cases isLate i <;> simp only [Bool.not_true, Bool.not_false, if_true, if_false, Bool.false_eq_true, List.nil_append, List.append_nil, runOps, hS]
    <;> cases hf : f (started s) <;> rfl

/-- A ready operation that takes effect leaves the end of its bundle. -/
theorem lone_ready (i : Instr) (f : Op) (s u : State) (h : Ready i s) (hf : f (started s) = .ok u)
    (he : u.hdr.fin = false) : lone i f s = finishBundle s.cur (getCtx (atIssue s) s.cur).nextId u := by
  unfold lone
  rw [issueOps_ready i f s h, hf]
  simp only [endPoisoned_noEnd s.cur u he, Bool.false_eq_true, if_false]

theorem started_cur (s : State) : (started s).cur = s.cur := atIssue_cur s
theorem fixedOf_started (s : State) : fixedOf (started s) = fixedOf s := fixedOf_atIssue s

/-- A ready operation whose effect leaves the flow alone: the PC is the next one, and nothing moves besides the effect. -/
theorem lone_ends (i : Instr) (f : Op) (s u : State) (h : Ready i s) (hf : f (started s) = .ok u)
    (hfix : fixedOf u = fixedOf (started s)) (hflow : u.flow = (started s).flow) :
    Ends ((getArch s s.cur).pc + 1) u (lone i f s) := by
  have hfx : fixedOf u = fixedOf s := hfix.trans (fixedOf_started s)
  have hcur : u.cur = s.cur := congrArg (·.1) hfx
  have hlen : u.ctxs.length = s.ctxs.length := congrArg (·.2.2.1) hfx
  have hhdr : u.hdr = s.hdr := congrArg (·.2.1) hfx
  have hc := h.cur
  have hl : s.cur < u.ctxs.length := by rw [hlen, h.sized.ctxs]; exact hc
  rw [lone_ready i f s u h hf (by rw [hhdr]; exact h.noEnd)]
  have := finishBundle_plain s.cur (getCtx (atIssue s) s.cur).nextId u ((getArch s s.cur).pc + 1) _ _ _ hc hl hflow
    (by rw [hhdr]; exact h.noEnd)
  refine ⟨by simpa [hcur] using this.1, by simpa [hcur] using this.2, fun d a => ?_⟩
  rw [mem_of_calm this.1]

/-! Results -/

/-- A state that differs in the model's own counters of the context ends alike. -/
theorem Ends.of_calm {pc : Nat} {u v t : State} (h : Ends pc u t) (hcur : v.cur = u.cur)
    (hcalm : State.calm u.cur v = State.calm u.cur u) (harch : getArch v u.cur = getArch u u.cur) : Ends pc v t := by
  obtain ⟨h1, h2, h3⟩ := h
  refine ⟨by rw [hcur, h1, hcalm], by rw [hcur, h2, harch], fun d a => ?_⟩
  rw [h3, mem_of_calm hcalm]

/-- A result of a fixed class is queued (02 R34 to R36). -/
theorem addResult_fixed (dst : Dest) (v : Val) (fl : BitVec 8) (cls : Nat) (s : State) (hv : variableClass cls = false)
    (hc : s.cur < 1024) (hl : s.cur < s.ctxs.length) :
    State.calm s.cur (addResult s.cur dst v fl cls s) = State.calm s.cur (queued dst v fl cls s) ∧
    getArch (addResult s.cur dst v fl cls s) s.cur = getArch (queued dst v fl cls s) s.cur := by
  constructor
  · simp only [addResult, hv, Bool.false_eq_true, if_false, nextOp, modArch, queued]
    rw [calm_modCtx_self _ _ _ hc, calm_modCtx_self _ _ _ hc, calm_modCtx_self _ _ _ hc]
    · intro x; rfl
    · intro x; rfl
    · intro x; rfl
  · simp only [addResult, hv, Bool.false_eq_true, if_false, nextOp, modArch, queued, getArch]
    rw [getCtx_modCtx_eq _ _ _ hc (by simpa using hl), getCtx_modCtx_eq _ _ _ hc hl, getCtx_modCtx_eq _ _ _ hc hl]
    simp [Nat.add_zero]

theorem addResult_fixedOf (c : Nat) (dst : Dest) (v : Val) (fl : BitVec 8) (cls : Nat) (s : State) :
    fixedOf (addResult c dst v fl cls s) = fixedOf s ∧ (addResult c dst v fl cls s).flow = s.flow := by
  simp only [addResult, nextOp, modArch]
  split
  · have hf : (choose 65536 s).2.flow = s.flow := by
      unfold choose; split
      · rfl
      · split <;> rfl
    simp [hf]
  · simp

/-- The meaning that queues one result of a fixed class completes with it. -/
theorem completes_result (i : Instr) (f : Op) (s : State) (dst : Dest) (v : Val) (fl : BitVec 8) (cls : Nat)
    (he : exec i s = .next (lone i f s)) (hr : Ready i s) (hv : variableClass cls = false)
    (hf : f (started s) = .ok (addResult s.cur dst v fl cls (started s))) :
    Completes i s (queued dst v fl cls (started s)) := by
  have hcur := started_cur s
  have hfix := addResult_fixedOf s.cur dst v fl cls (started s)
  have hl : s.cur < (started s).ctxs.length := by
    have := congrArg (·.2.2.1) (fixedOf_started s)
    change (started s).ctxs.length = s.ctxs.length at this
    rw [this, hr.sized.ctxs]; exact hr.cur
  have hq := addResult_fixed dst v fl cls (started s) hv (by rw [hcur]; exact hr.cur) (by rw [hcur]; exact hl)
  have hcu : (addResult s.cur dst v fl cls (started s)).cur = s.cur := (congrArg (·.1) hfix.1).trans hcur
  rw [hcur] at hq
  refine ⟨_, he, (lone_ends i f s _ hr hf hfix.1 hfix.2).of_calm ?_ ?_ ?_⟩
  · rw [hcu]; simp [queued, hcur]
  · rw [hcu]; exact hq.1.symm
  · rw [hcu]; exact hq.2.symm

end Sys2Proof.Machine
end

