-- ==== Sys2Proof/Laws/Memory.lean ====
section
/-!
SUPPORT. Memory in canonical form: each operation that changes memory keeps the form, and the memory of a die is
changed by no other operation.
-/

namespace Sys2Proof.Machine

open Sys2Proof

/-! The form -/

theorem wfFrom_le (m : Memory) : ∀ {lo hi : Nat}, lo ≤ hi → wfFrom hi m = true → wfFrom lo m = true := by
  induction m with
  | nil => intros; rfl
  | cons e m ih =>
    intro lo hi h hm
    simp only [wfFrom, Bool.and_eq_true, decide_eq_true_eq] at hm ⊢
    exact ⟨⟨by omega, hm.1.2⟩, hm.2⟩

theorem wfFrom_filter (p : Host.Cell → Bool) (m : Memory) : ∀ lo, wfFrom lo m = true → wfFrom lo (m.filter p) = true := by
  induction m with
  | nil => intros; rfl
  | cons e m ih =>
    intro lo h
    simp only [wfFrom, Bool.and_eq_true, decide_eq_true_eq] at h
    by_cases hp : p e
    · simp only [List.filter_cons_of_pos hp, wfFrom, Bool.and_eq_true, decide_eq_true_eq]
      exact ⟨h.1, ih _ h.2⟩
    · rw [List.filter_cons_of_neg hp]
      exact ih _ (wfFrom_le m (by omega) h.2)

/-- What is kept of memory stays in form. -/
theorem wf_filter (p : Host.Cell → Bool) (m : Memory) (h : Memory.wf m = true) : Memory.wf (m.filter p) = true :=
  wfFrom_filter p m 0 h

theorem writeByte_wfFrom (m : Memory) : ∀ (lo a : Nat) (v : Byte), lo ≤ a → wfFrom lo m = true → wfFrom lo (writeByte m a v) = true := by
  induction m with
  | nil =>
    intro lo a v h _
    unfold writeByte
    split <;> simp_all [wfFrom]
  | cons e m ih =>
    obtain ⟨b, w⟩ := e
    intro lo a v h hm
    simp only [wfFrom, Bool.and_eq_true, decide_eq_true_eq, bne_iff_ne, ne_eq] at hm
    have hm2 : wfFrom (b + 1) m = true := hm.2
    unfold writeByte
    split
    · split
      · simp [wfFrom, hm]
      · have : wfFrom (a + 1) ((b, w) :: m) = true := by simp [wfFrom, hm.1.2, hm2] <;> omega
        simp [wfFrom, *] <;> omega
    · split
      · subst_vars
        split
        · exact wfFrom_le m (by omega) hm2
        · simp [wfFrom, *]
      · have : wfFrom (b + 1) (writeByte m a v) = true := ih (b + 1) a v (by omega) hm2
        simp [wfFrom, hm.1, this]

/-- A byte is written in form. -/
theorem writeByte_wf (m : Memory) (a : Nat) (v : Byte) (h : Memory.wf m = true) : Memory.wf (writeByte m a v) = true :=
  writeByte_wfFrom m 0 a v (Nat.zero_le a) h

theorem cellsOf_wfFrom (vs : List Byte) : ∀ a, wfFrom a (cellsOf a vs) = true := by
  induction vs with
  | nil => intro a; rfl
  | cons v vs ih =>
    intro a
    unfold cellsOf
    split
    · exact wfFrom_le _ (Nat.le_succ a) (ih (a + 1))
    · simp [wfFrom, *]

theorem cellsOf_lt (vs : List Byte) : ∀ a, ∀ e ∈ cellsOf a vs, e.1 < a + vs.length := by
  induction vs with
  | nil => intro a e h; simp [cellsOf] at h
  | cons v vs ih =>
    intro a e h
    unfold cellsOf at h
    simp only [List.length_cons]
    split at h
    · have := ih (a + 1) e h; omega
    · rcases List.mem_cons.1 h with h | h
      · subst h; simp
      · have := ih (a + 1) e h; omega

theorem wfFrom_append (m n : Memory) : ∀ lo hi, wfFrom lo m = true → (∀ e ∈ m, e.1 < hi) → lo ≤ hi → wfFrom hi n = true →
    wfFrom lo (m ++ n) = true := by
  induction m with
  | nil => intro lo hi _ _ hl h; exact wfFrom_le n hl h
  | cons e m ih =>
    intro lo hi hm hb _ hn
    simp only [wfFrom, Bool.and_eq_true, decide_eq_true_eq] at hm
    simp only [List.cons_append, wfFrom, Bool.and_eq_true, decide_eq_true_eq]
    exact ⟨hm.1, ih _ hi hm.2 (fun x hx => hb x (List.mem_cons_of_mem _ hx)) (hb e List.mem_cons_self) hn⟩

theorem wfFrom_from (m : Memory) : ∀ lo hi, wfFrom lo m = true → wfFrom hi (m.filter fun e => decide (hi ≤ e.1)) = true := by
  induction m with
  | nil => intros; rfl
  | cons e m ih =>
    intro lo hi h
    simp only [wfFrom, Bool.and_eq_true, decide_eq_true_eq] at h
    by_cases hp : hi ≤ e.1
    · rw [List.filter_cons_of_pos (by simpa using hp)]
      simp only [wfFrom, Bool.and_eq_true, decide_eq_true_eq]
      exact ⟨⟨hp, h.1.2⟩, wfFrom_filter _ m _ h.2⟩
    · rw [List.filter_cons_of_neg (by simpa using hp)]
      exact ih _ hi h.2

theorem writeRun_wfFrom (m : Memory) : ∀ (lo a : Nat) (vs : List Byte), lo ≤ a → wfFrom lo m = true → wfFrom lo (writeRun m a vs) = true := by
  induction m with
  | nil => intro lo a vs h _; exact wfFrom_le _ h (cellsOf_wfFrom vs a)
  | cons e m ih =>
    obtain ⟨b, w⟩ := e
    intro lo a vs h hm
    have hm0 := hm
    simp only [wfFrom, Bool.and_eq_true, decide_eq_true_eq] at hm
    unfold writeRun
    split
    · simp only [wfFrom, Bool.and_eq_true, decide_eq_true_eq]
      exact ⟨hm.1, ih _ a vs (by omega) hm.2⟩
    · exact wfFrom_append _ _ lo (a + vs.length) (wfFrom_le _ h (cellsOf_wfFrom vs a)) (cellsOf_lt vs a) (by omega)
        (wfFrom_from _ lo _ hm0)

/-- A run of bytes is written in form. -/
theorem writeRun_wf (m : Memory) (a : Nat) (vs : List Byte) (h : Memory.wf m = true) : Memory.wf (writeRun m a vs) = true :=
  writeRun_wfFrom m 0 a vs (Nat.zero_le a) h

/-- Bytes of an image are written in form. -/
theorem writeBytes_wf (pa : Nat) (bs : List (Nat × Byte)) : ∀ m : Memory, Memory.wf m = true →
    Memory.wf (bs.foldl (fun m e => writeByte m (pa + e.1) e.2) m) = true := by
  induction bs with
  | nil => intro m h; exact h
  | cons e bs ih => intro m h; exact ih _ (writeByte_wf m _ _ h)

/-! Operations on a die -/

/-- An operation on a die keeps the form of its memory. -/
def KeepsWf (f : Die → Die) : Prop := ∀ x : Die, Memory.wf x.mem = true → Memory.wf (f x).mem = true

theorem keepsWf_of_mem {f : Die → Die} (h : ∀ x, (f x).mem = x.mem) : KeepsWf f := fun x hx => by rw [h x]; exact hx

theorem keepsWf_comp {f g : Die → Die} (hf : KeepsWf f) (hg : KeepsWf g) : KeepsWf (fun x => g (f x)) := fun x hx => hg _ (hf x hx)

theorem keepsWf_foldl {α : Type} (f : Die → α → Die) (h : ∀ a, KeepsWf fun x => f x a) (l : List α) : KeepsWf fun x => l.foldl f x := by
  induction l with
  | nil => intro x hx; exact hx
  | cons a l ih => intro x hx; exact ih _ (h a x hx)

theorem setLineKey_mem (l : Nat) (k : Config.KeyTag) (x : Die) : (setLineKey l k x).mem = x.mem := rfl
theorem setFull_mem (a : Nat) (x : Die) : (setFull a x).mem = x.mem := rfl
theorem setEmpty_mem (a : Nat) (x : Die) : (setEmpty a x).mem = x.mem := by unfold setEmpty; split <;> rfl
theorem clearPoison_mem (a n : Nat) (x : Die) : (clearPoison a n x).mem = x.mem := rfl
theorem releaseJoins_mem (a n : Nat) (x : Die) : (releaseJoins a n x).mem = x.mem := by unfold releaseJoins; split <;> rfl
theorem release_mem (w : Nat) (k : WaitKind) (got : Word × Bool) (x : Die) : (release w k got x).mem = x.mem := rfl
theorem exposeFill_mem (w : Nat) (x : Die) : (exposeFill w x).mem = x.mem := by unfold exposeFill; split <;> rfl
theorem evict_mem (l : Nat) (x : Die) : (evict l x).mem = x.mem := rfl
theorem exposeTo_mem (p q : Path) (x : Die) : (exposeTo p q x).mem = x.mem := rfl
theorem exposeAll_mem (op : Nat) (x : Die) : (exposeAll op x).mem = x.mem := rfl
theorem exposeOp_mem (op : Nat) (q : Path) (x : Die) : (exposeOp op q x).mem = x.mem := rfl
theorem keepUpper_mem (top va level : Nat) (e : Word) (x : Die) : (keepUpper top va level e x).mem = x.mem := by
  unfold keepUpper; dsimp only; split <;> rfl

theorem touchLine_mem (wins : List (Nat × Nat)) (line ep : Nat) (na write : Bool) (k : Config.KeyTag) (x : Die) :
    (touchLine wins line ep na write k x).mem = x.mem := by
  unfold touchLine
  dsimp only
  split
  · rfl
  · split
    · rfl
    · split <;> split <;> (try split) <;> rfl

/-- A bank that writes the word of an STE keeps the form (08 R192). -/
theorem bankSte_keepsWf (b : BankWait) : KeepsWf (bankSte b) := by
  intro x hx
  unfold bankSte
  rw [releaseJoins_mem, setFull_mem, clearPoison_mem]
  exact writeRun_wf _ _ _ hx

/-- The contexts that a bank serves leave its memory in form (08 R191, R192). -/
theorem serveWord_keepsWf (w fuel : Nat) : KeepsWf (serveWord w fuel) := by
  induction fuel with
  | zero => intro x hx; exact hx
  | succ fuel ih =>
    intro x hx
    unfold serveWord
    split
    · split
      · refine ih _ ?_
        rw [setEmpty_mem, release_mem, exposeFill_mem]
        exact hx
      · exact hx
    · split
      · exact ih _ (bankSte_keepsWf _ _ hx)
      · exact hx

theorem emptyWord_keepsWf (a : Nat) : KeepsWf (emptyWord a) := fun x hx =>
  serveWord_keepsWf _ _ _ (by rw [setEmpty_mem]; exact hx)

theorem fillWord_keepsWf (a : Nat) : KeepsWf (fillWord a) := fun x hx => serveWord_keepsWf _ _ _ hx

/-- A foreign line is rewritten in form. -/
theorem rekey_keepsWf (line : Nat) (k : Config.KeyTag) : KeepsWf (rekey line k) := by
  intro x hx
  unfold rekey
  split
  · split
    · exact hx
    · exact writeRun_wf _ _ _ hx
  · exact hx

theorem dropUnwritten_keepsWf (b : BLine) : KeepsWf fun x => dropUnwritten x b := by
  intro x hx
  unfold dropUnwritten
  split
  · exact writeRun_wf _ _ _ hx
  · exact hx

theorem zeroFrame_keepsWf (f : Nat) : KeepsWf (zeroFrame f) := fun x hx => wf_filter _ _ hx

/-- A drain that ends keeps what lies outside the steps that change (08 R196). -/
theorem endDrain_keepsWf (i : Nat) : KeepsWf (endDrain i) := by
  intro x hx
  unfold endDrain
  dsimp only
  split
  · exact hx
  · split
    · exact hx
    · exact wf_filter _ _ hx

theorem freeSlice_keepsWf (gone : Nat → Bool) (n : Nat) : KeepsWf (freeSlice gone n) := by
  intro x hx
  unfold freeSlice
  dsimp only
  split
  · exact hx
  · exact wf_filter _ _ hx

theorem dropBasin_keepsWf : KeepsWf dropBasin := by
  intro x hx
  exact keepsWf_foldl _ dropUnwritten_keepsWf _ x hx

theorem releasedDie_keepsWf : KeepsWf releasedDie := fun x hx => wf_filter _ _ hx

theorem placedDie_keepsWf : KeepsWf placedDie := fun x hx => writeRun_wf _ _ _ hx

/-! The state -/

/-- A change of a die that keeps the form keeps it in every die. -/
theorem memOk_modDie (d : Nat) (f : Die → Die) (s : State) (hf : KeepsWf f) (h : MemOk s) : MemOk (modDie d f s) := by
  intro x hx
  simp only [modDie] at hx
  obtain ⟨n, hn⟩ := List.getElem?_of_mem hx
  rw [List.getElem?_modify] at hn
  obtain ⟨y, hy, rfl⟩ := Option.map_eq_some_iff.1 hn
  have hm := h y (List.mem_of_getElem? hy)
  split
  · exact hf y hm
  · exact hm

theorem memOk_modCtx (c : Nat) (f : Ctx → Ctx) (s : State) (h : MemOk s) : MemOk (modCtx c f s) := by
  unfold modCtx; split <;> exact h

theorem memOk_modCore (k : Nat) (f : Core → Core) (s : State) (h : MemOk s) : MemOk (modCore k f s) := h

theorem memOk_choose (n : Nat) (s : State) (h : MemOk s) : MemOk (choose n s).2 := by
  unfold choose
  split
  · exact h
  · split <;> exact h

/-- A write of a run keeps every memory in form (08 R190, R197). -/
theorem memOk_writeAs (fill : Bool) (d : Nat) (p : Path) (op a okey ep : Nat) (na : Bool) (bs : List Byte) (s : State)
    (h : MemOk s) : MemOk (writeAs fill d p op a okey ep na bs s) := by
  unfold writeAs
  split
  · exact h
  · refine memOk_modDie d _ s ?_ h
    intro x hx
    dsimp only
    have h1 : Memory.wf (if isDram a then (linesOf a bs.length).foldl (fun y l => rekey l (keyTag s okey)
        (touchLine (windowsOf s d l) l ep na true (keyTag s okey) y)) x else x).mem = true := by
      split
      · exact keepsWf_foldl _ (fun l => keepsWf_comp (keepsWf_of_mem (touchLine_mem _ l ep na true _)) (rekey_keepsWf l _)) _ x hx
      · exact hx
    split
    · refine keepsWf_foldl _ (fun i => fillWord_keepsWf _) _ _ ?_
      rw [releaseJoins_mem]
      exact writeRun_wf _ _ _ h1
    · split
      · rw [releaseJoins_mem]
        exact writeRun_wf _ _ _ h1
      · exact writeRun_wf _ _ _ h1

theorem memOk_writeRunOn (d : Nat) (p : Path) (op a okey ep : Nat) (na : Bool) (bs : List Byte) (s : State) (h : MemOk s) :
    MemOk (writeRunOn d p op a okey ep na bs s) := memOk_writeAs true d p op a okey ep na bs s h

theorem memOk_readMissing (skip d : Nat) (p : Path) (a n okey ep : Nat) (na : Bool) (s : State) (h : MemOk s) :
    MemOk (readMissing skip d p a n okey ep na s).2.2 := by
  refine memOk_modDie d _ s ?_ h
  intro x hx
  dsimp only
  split
  · exact keepsWf_foldl _ (fun l => keepsWf_of_mem (touchLine_mem _ l ep na false _)) _ _ hx
  · exact hx

theorem memOk_readWholeOn (d : Nat) (p : Path) (a n okey ep : Nat) (na : Bool) (s : State) (h : MemOk s) :
    MemOk (readWholeOn d p a n okey ep na s).2.2 :=
  memOk_readMissing _ d p a n okey ep na _ (memOk_choose _ s h)

theorem memOk_readUnits (d : Nat) (p : Path) (okey ep : Nat) (na : Bool) (rs : List (Nat × Nat)) : ∀ s, MemOk s →
    MemOk (readUnits d p okey ep na rs s).2.2 := by
  induction rs with
  | nil => intro s h; exact h
  | cons r rs ih => intro s h; exact ih _ (memOk_readWholeOn d p r.1 r.2 okey ep na s h)

/-- A read of a run keeps every memory in form: it may bring lines into the basin (08 R197). -/
theorem memOk_readRunBy (u d : Nat) (p : Path) (a n okey ep : Nat) (na : Bool) (s : State) (h : MemOk s) :
    MemOk (readRunBy u d p a n okey ep na s).2.2 := by
  unfold readRunBy
  split
  · exact memOk_readMissing _ d p a n okey ep na s h
  · exact memOk_readUnits d p okey ep na _ s h

theorem memOk_readRunOn (d : Nat) (p : Path) (a n okey ep : Nat) (na : Bool) (s : State) (h : MemOk s) :
    MemOk (readRunOn d p a n okey ep na s).2.2 := memOk_readRunBy 4 d p a n okey ep na s h

theorem memOk_writeSegs (d : Nat) (p : Path) (op ep : Nat) (na : Bool) (segs : List Seg) : ∀ (bs : List Byte) (s : State),
    MemOk s → MemOk (writeSegs d p op ep na segs bs s) := by
  induction segs with
  | nil => intro bs s h; exact h
  | cons g gs ih => intro bs s h; exact ih _ _ (memOk_writeRunOn d p op g.pa g.okey ep na _ s h)

theorem memOk_readSegsBy (u d : Nat) (p : Path) (ep : Nat) (na : Bool) (segs : List Seg) : ∀ (s : State),
    MemOk s → MemOk (readSegsBy u d p ep na segs s).2.2 := by
  induction segs with
  | nil => intro s h; exact h
  | cons g gs ih => intro s h; exact ih _ (memOk_readRunBy u d p g.pa g.len g.okey ep na s h)

theorem memOk_readSegs (d : Nat) (p : Path) (ep : Nat) (na : Bool) (segs : List Seg) (s : State) (h : MemOk s) :
    MemOk (readSegs d p ep na segs s).2.2 := memOk_readSegsBy 4 d p ep na segs s h

/-- A change of a die that is none of its memory. -/
theorem memOk_same (d : Nat) (f : Die → Die) (s : State) (hf : ∀ x, (f x).mem = x.mem) (h : MemOk s) : MemOk (modDie d f s) :=
  memOk_modDie d f s (keepsWf_of_mem hf) h

theorem memOk_touchOwn (d line : Nat) (s : State) (h : MemOk s) : MemOk (touchOwn d line s) :=
  memOk_same d _ s (fun x => touchLine_mem _ line 0 false false _ x) h

theorem memOk_readEntry (d a : Nat) (s : State) (h : MemOk s) : MemOk (readEntry d a s).2.2 := by
  unfold readEntry
  dsimp only
  refine memOk_touchOwn d _ _ ?_
  split
  · exact memOk_choose _ s h
  · exact memOk_same d _ _ (fun _ => rfl) (memOk_choose _ s h)

theorem memOk_entryAt (d top va level table : Nat) (s : State) (h : MemOk s) : MemOk (entryAt d top va level table s).2.2 := by
  unfold entryAt
  dsimp only
  split <;> exact memOk_choose _ _ (memOk_readEntry d _ s h)

theorem memOk_walkLevel (d top va level table : Nat) (s : State) (h : MemOk s) : MemOk (walkLevel d top va level table s).2 := by
  have hk := memOk_entryAt d top va level table s h
  unfold walkLevel
  generalize entryAt d top va level table s = r at hk
  dsimp only
  split
  · exact h
  · split
    · exact memOk_same d _ _ (keepUpper_mem top va level _) hk
    · exact hk

theorem memOk_walkFrom (d top va level : Nat) : ∀ table s, MemOk s → MemOk (walkFrom d top va level table s).2 := by
  induction level with
  | zero =>
    intro table s h
    have hk := memOk_walkLevel d top va 0 table s h
    rw [walkFrom.eq_def]
    dsimp only
    split <;> simp_all
  | succ l ih =>
    intro table s h
    have hk := memOk_walkLevel d top va (l + 1) table s h
    rw [walkFrom.eq_def]
    dsimp only
    split <;> simp_all

theorem memOk_walk (d top va : Nat) (s : State) (h : MemOk s) : MemOk (walk d top va s).2 := by
  unfold walk
  split
  · exact h
  · split
    · exact h
    · exact memOk_walkFrom d top va 3 _ s h

theorem memOk_lookup (k : Option Nat) (s : State) (d top va : Nat) (h : MemOk s) : MemOk (lookup k s d top va).2 := by
  unfold lookup
  dsimp only
  split
  · exact memOk_choose _ s h
  · exact memOk_walk d top va _ (memOk_choose _ s h)

theorem memOk_keepLeaf (k : Option Nat) (d : Nat) (e : TlbEntry) (s : State) (h : MemOk s) : MemOk (keepLeaf k d e s) := by
  unfold keepLeaf
  dsimp only
  split <;> exact memOk_same d _ s (fun _ => rfl) h

theorem memOk_checkPage (k : Option Nat) (d top : Nat) (nd : Need) (va : Nat) (s : State) (h : MemOk s) :
    MemOk (checkPage k d top nd va s).2 := by
  have hl := memOk_lookup k s d top va h
  unfold checkPage
  split
  · next e => rw [e] at hl; exact hl
  · next e =>
    rw [e] at hl
    split
    · exact hl
    · split
      · split
        · exact hl
        · exact memOk_keepLeaf k d _ _ hl
      · exact hl

/-- The checks of an access keep every memory in form: they add cached leaves (08 R186; 13 R317). -/
theorem memOk_checkPages (k : Option Nat) (d top : Nat) (nd : Need) (fuel : Nat) : ∀ (va len : Nat) (s : State),
    MemOk s → MemOk (checkPages k d top nd fuel va len s).2 := by
  induction fuel with
  | zero => intro va len s h; exact h
  | succ fuel ih =>
    intro va len s h
    have hl := memOk_checkPage k d top nd va s h
    unfold checkPages
    split
    · exact h
    · split
      · next e => rw [e] at hl; exact hl
      · next e s' he =>
        rw [he] at hl
        have h2 := ih (va + min len (pageLeft e va)) (len - min len (pageLeft e va)) s' hl
        dsimp only
        split
        · next h3 => rw [h3] at h2; exact h2
        · next h3 => rw [h3] at h2; exact h2

theorem memOk_checkAccess (c : Nat) (nd : Need) (va : Word) (len : Nat) (s : State) (h : MemOk s) :
    MemOk (checkAccess c nd va len s).2 := memOk_checkPages _ _ _ nd _ _ _ s h

/-- A fold keeps what each step keeps. -/
theorem memOk_foldS {α : Type} (f : α → State → State) (hf : ∀ a s, MemOk s → MemOk (f a s)) (l : List α) :
    ∀ s, MemOk s → MemOk (foldS f l s) := by
  induction l with
  | nil => intro s h; exact h
  | cons a l ih => intro s h; exact ih _ (hf a s h)

/-- A page of an image is written back in form (14 R348). -/
theorem memOk_restorePage (d op : Nat) (lf : Leaf) (p : ImgPage) (s : State) (h : MemOk s) : MemOk (restorePage d op lf p s) := by
  refine memOk_modDie d _ s ?_ h
  intro x hx
  exact keepsWf_foldl _ (fun l => keepsWf_of_mem fun y => setLineKey_mem l _ y) _ _ (writeBytes_wf _ _ _ (wf_filter _ _ hx))

/-- Right after reset every memory is in form. -/
theorem memOk_reset : MemOk State.reset := by
  intro x hx
  rw [State.reset] at hx
  rw [List.eq_of_mem_replicate hx]
  rfl

end Sys2Proof.Machine
end

