-- ==== Sys2Proof/Laws/Ops.lean ====
section
/-!
SUPPORT. How a lone operation completes: what its meaning answers on the state that the bundle reads is what the
instruction leaves.
-/

namespace Sys2Proof.Machine

open Sys2Proof

theorem arch_started (s : State) : archOf (started s) = getArch (atIssue s) s.cur := by
  unfold archOf; rw [started_cur]; rfl

theorem hdr_started (s : State) : (started s).hdr = s.hdr := atIssue_hdr s

theorem guard_started (s : State) : guardNow (started s) = guardOf (getArch (atIssue s) s.cur) s.hdr := by
  unfold guardNow; rw [arch_started, hdr_started]

theorem rdX_xAt (a : Arch) (r : BitVec 6) : rdX a r = xAt a r := rfl

theorem len_started (s : State) (h : s.ctxs.length = 1024) : (started s).ctxs.length = 1024 :=
  (congrArg (·.2.2.1) (fixedOf_started s)).trans h

/-- A result for a vector register under the guard of the bundle. -/
theorem putV_started (vd : BitVec 6) (cls : Nat) (v : VReg) (fl : BitVec 8) (s : State) :
    putV vd cls v fl (started s) = .ok (addResult s.cur (.v (physV (getArch (atIssue s) s.cur) vd.toNat))
      (.lanes (guardOf (getArch (atIssue s) s.cur) s.hdr) v) fl cls (started s)) := by
  simp [putV, arch_started, started_cur, guard_started]

/-- A ready operation that answers v completes with v, or with a state that differs from it in the model's counters. -/
theorem completes_of (i : Instr) (f : Op) (s u v : State) (he : exec i s = .next (lone i f s)) (hr : Ready i s)
    (hf : f (started s) = .ok v) (hfix : fixedOf v = fixedOf (started s)) (hflow : v.flow = (started s).flow)
    (hcur : u.cur = s.cur) (hcalm : State.calm s.cur u = State.calm s.cur v) (harch : getArch u s.cur = getArch v s.cur) :
    Completes i s u := by
  have hv : v.cur = s.cur := (congrArg (·.1) hfix).trans (started_cur s)
  refine ⟨_, he, (lone_ends i f s v hr hf hfix hflow).of_calm ?_ ?_ ?_⟩
  · rw [hv, hcur]
  · rw [hv]; exact hcalm
  · rw [hv]; exact harch

/-- A meaning that queues one result of a fixed class on a changed state completes with both. -/
theorem completes_queued (i : Instr) (f : Op) (s v : State) (dst : Dest) (w : Val) (fl : BitVec 8) (cls : Nat)
    (he : exec i s = .next (lone i f s)) (hr : Ready i s) (hv : variableClass cls = false)
    (hf : f (started s) = .ok (addResult s.cur dst w fl cls v)) (hfix : fixedOf v = fixedOf (started s))
    (hflow : v.flow = (started s).flow) : Completes i s (queued dst w fl cls v) := by
  have hcur : v.cur = s.cur := (congrArg (·.1) hfix).trans (started_cur s)
  have h2 := addResult_fixedOf s.cur dst w fl cls v
  have hl : s.cur < v.ctxs.length := by
    have h3 : v.ctxs.length = (started s).ctxs.length := congrArg (·.2.2.1) hfix
    rw [h3, len_started s hr.sized.ctxs]; exact hr.cur
  have hq := addResult_fixed dst w fl cls v hv (by rw [hcur]; exact hr.cur) (by rw [hcur]; exact hl)
  rw [hcur] at hq
  exact completes_of i f s _ _ he hr hf (h2.1.trans hfix) (h2.2.trans hflow) (by simp [queued, hcur]) hq.1.symm hq.2.symm

end Sys2Proof.Machine
end

