-- ==== Sys2Proof/Laws/PerInstr.lean ====
section
/-!
SUPPORT. Per instruction: the word that the encoder writes is read back by the decoder of its bundle slot, before the
checks of R44. One lemma for each constructor; an event has no word.
-/

namespace Sys2Proof

/-! Fields of a word (02 R47) -/

theorem mkW_toNat (op rest : Nat) (h : op < 256) (hr : rest < 16777216) : (mkW op rest).toNat = op * 16777216 + rest := by
  simp only [mkW, BitVec.toNat_ofNat]; omega

theorem fN_op (op rest : Nat) (h : op < 256) (hr : rest < 16777216) : fN (mkW op rest) 24 8 = op := by
  unfold fN; rw [mkW_toNat _ _ h hr]; omega

theorem fN_eq (n op rest lo k : Nat) (h : op < 256) (hr : rest < 16777216)
    (e : (op * 16777216 + rest) / 2 ^ lo % 2 ^ n = k) : fN (mkW op rest) lo n = k := by
  unfold fN; rw [mkW_toNat _ _ h hr, e]

theorem fB_eq (n op rest lo : Nat) (r : BitVec n) (h : op < 256) (hr : rest < 16777216)
    (e : (op * 16777216 + rest) / 2 ^ lo % 2 ^ n = r.toNat) : fB (mkW op rest) lo n = r := by
  apply BitVec.eq_of_toNat_eq
  rw [fB, fN_eq n op rest lo _ h hr e, BitVec.toNat_ofNat]
  exact Nat.mod_eq_of_lt r.isLt

theorem boolCode_lt (b : Bool) : boolCode b < 2 := by cases b <;> decide

theorem fT_eq (op rest lo : Nat) (b : Bool) (h : op < 256) (hr : rest < 16777216)
    (e : (op * 16777216 + rest) / 2 ^ lo % 2 ^ 1 = boolCode b) : fT (mkW op rest) lo = b := by
  rw [fT, fN_eq 1 op rest lo _ h hr e]; cases b <;> rfl

/-! Named values of fields (02 R48, R49) -/

theorem Fmt.code_lt (v : Fmt) : v.code < 5 := by cases v <;> decide
theorem Fmt.ofCode_code (v : Fmt) : Fmt.ofCode v.code = some v := by cases v <;> rfl
theorem IFmt.code_lt (v : IFmt) : v.code < 5 := by cases v <;> decide
theorem IFmt.ofCode_code (v : IFmt) : IFmt.ofCode v.code = some v := by cases v <;> rfl
theorem RM.code_lt (v : RM) : v.code < 6 := by cases v <;> decide
theorem RM.ofCode_code (v : RM) : RM.ofCode v.code = some v := by cases v <;> rfl
theorem Cond.code_lt (v : Cond) : v.code < 10 := by cases v <;> decide
theorem Cond.ofCode_code (v : Cond) : Cond.ofCode v.code = some v := by cases v <;> rfl
theorem VCond.code_lt (v : VCond) : v.code < 6 := by cases v <;> decide
theorem VCond.ofCode_code (v : VCond) : VCond.ofCode v.code = some v := by cases v <;> rfl
theorem ExtW.code_lt (v : ExtW) : v.code < 3 := by cases v <;> decide
theorem ExtW.ofCode_code (v : ExtW) : ExtW.ofCode v.code = some v := by cases v <;> rfl
theorem KF.code_lt (v : KF) : v.code < 3 := by cases v <;> decide
theorem KF.ofCode_code (v : KF) : KF.ofCode v.code = some v := by cases v <;> rfl
theorem Size.code_lt (v : Size) : v.code < 4 := by cases v <;> decide
theorem Size.ofCode_code (v : Size) : Size.ofCode v.code = some v := by cases v <;> rfl
theorem ASize.code_lt (v : ASize) : v.code < 2 := by cases v <;> decide
theorem ASize.ofCode_code (v : ASize) : ASize.ofCode v.code = some v := by cases v <;> rfl
theorem Scope.code_lt (v : Scope) : v.code < 5 := by cases v <;> decide
theorem Scope.ofCode_code (v : Scope) : Scope.ofCode v.code = some v := by cases v <;> rfl
theorem Path.code_lt (v : Path) : v.code < 6 := by cases v <;> decide
theorem Path.ofCode_code (v : Path) : Path.ofCode v.code = some v := by cases v <;> rfl
theorem MF.code_lt (v : MF) : v.code < 3 := by cases v <;> decide
theorem MF.ofCode_code (v : MF) : MF.ofCode v.code = some v := by cases v <;> rfl
theorem MMode.code_lt (v : MMode) : v.code < 3 := by cases v <;> decide
theorem MMode.ofCode_code (v : MMode) : MMode.ofCode v.code = some v := by cases v <;> rfl
theorem OFmt.code_lt (v : OFmt) : v.code < 3 := by cases v <;> decide
theorem OFmt.ofCode_code (v : OFmt) : OFmt.ofCode v.code = some v := by cases v <;> rfl

/-! The fields of a shape of word -/

theorem fields1 (oc : Nat) (h : oc < 256) (rd : BitVec 6) (ra : BitVec 6) (rb : BitVec 6) :
    fN (mkW oc (rd.toNat * 262144 + ra.toNat * 4096 + rb.toNat * 64)) 24 8 = oc ∧
      fB (mkW oc (rd.toNat * 262144 + ra.toNat * 4096 + rb.toNat * 64)) 18 6 = rd ∧
      fB (mkW oc (rd.toNat * 262144 + ra.toNat * 4096 + rb.toNat * 64)) 12 6 = ra ∧
      fB (mkW oc (rd.toNat * 262144 + ra.toNat * 4096 + rb.toNat * 64)) 6 6 = rb := by
  have := rd.isLt; have := ra.isLt; have := rb.isLt
  exact ⟨fN_op _ _ h (by omega), fB_eq 6 _ _ 18 rd h (by omega) (by omega), fB_eq 6 _ _ 12 ra h (by omega) (by omega), fB_eq 6 _ _ 6 rb h (by omega) (by omega)⟩

theorem fields2 (oc : Nat) (h : oc < 256) (rd : BitVec 6) (ra : BitVec 6) :
    fN (mkW oc (rd.toNat * 262144 + ra.toNat * 4096)) 24 8 = oc ∧
      fB (mkW oc (rd.toNat * 262144 + ra.toNat * 4096)) 18 6 = rd ∧
      fB (mkW oc (rd.toNat * 262144 + ra.toNat * 4096)) 12 6 = ra := by
  have := rd.isLt; have := ra.isLt
  exact ⟨fN_op _ _ h (by omega), fB_eq 6 _ _ 18 rd h (by omega) (by omega), fB_eq 6 _ _ 12 ra h (by omega) (by omega)⟩

theorem fields3 (oc : Nat) (h : oc < 256) (rd : BitVec 6) (ra : BitVec 6) (ew : ExtW) :
    fN (mkW oc (rd.toNat * 262144 + ra.toNat * 4096 + ew.code)) 24 8 = oc ∧
      fN (mkW oc (rd.toNat * 262144 + ra.toNat * 4096 + ew.code)) 0 6 = ew.code ∧
      fB (mkW oc (rd.toNat * 262144 + ra.toNat * 4096 + ew.code)) 18 6 = rd ∧
      fB (mkW oc (rd.toNat * 262144 + ra.toNat * 4096 + ew.code)) 12 6 = ra := by
  have := rd.isLt; have := ra.isLt; have := ew.code_lt
  exact ⟨fN_op _ _ h (by omega), fN_eq 6 _ _ 0 ew.code h (by omega) (by omega), fB_eq 6 _ _ 18 rd h (by omega) (by omega), fB_eq 6 _ _ 12 ra h (by omega) (by omega)⟩

theorem fields4 (oc : Nat) (h : oc < 256) (rd : BitVec 6) (ra : BitVec 6) (imm : BitVec 12) :
    fN (mkW oc (rd.toNat * 262144 + ra.toNat * 4096 + imm.toNat)) 24 8 = oc ∧
      fB (mkW oc (rd.toNat * 262144 + ra.toNat * 4096 + imm.toNat)) 18 6 = rd ∧
      fB (mkW oc (rd.toNat * 262144 + ra.toNat * 4096 + imm.toNat)) 12 6 = ra ∧
      fB (mkW oc (rd.toNat * 262144 + ra.toNat * 4096 + imm.toNat)) 0 12 = imm := by
  have := rd.isLt; have := ra.isLt; have := imm.isLt
  exact ⟨fN_op _ _ h (by omega), fB_eq 6 _ _ 18 rd h (by omega) (by omega), fB_eq 6 _ _ 12 ra h (by omega) (by omega), fB_eq 12 _ _ 0 imm h (by omega) (by omega)⟩

theorem fields5 (oc : Nat) (h : oc < 256) (rd : BitVec 6) (ra : BitVec 6) (sh : BitVec 6) :
    fN (mkW oc (rd.toNat * 262144 + ra.toNat * 4096 + sh.toNat)) 24 8 = oc ∧
      fB (mkW oc (rd.toNat * 262144 + ra.toNat * 4096 + sh.toNat)) 18 6 = rd ∧
      fB (mkW oc (rd.toNat * 262144 + ra.toNat * 4096 + sh.toNat)) 12 6 = ra ∧
      fB (mkW oc (rd.toNat * 262144 + ra.toNat * 4096 + sh.toNat)) 0 6 = sh := by
  have := rd.isLt; have := ra.isLt; have := sh.isLt
  exact ⟨fN_op _ _ h (by omega), fB_eq 6 _ _ 18 rd h (by omega) (by omega), fB_eq 6 _ _ 12 ra h (by omega) (by omega), fB_eq 6 _ _ 0 sh h (by omega) (by omega)⟩

theorem fields6 (oc : Nat) (h : oc < 256) (rd : BitVec 6) (imm : BitVec 18) :
    fN (mkW oc (rd.toNat * 262144 + imm.toNat)) 24 8 = oc ∧
      fB (mkW oc (rd.toNat * 262144 + imm.toNat)) 18 6 = rd ∧
      fB (mkW oc (rd.toNat * 262144 + imm.toNat)) 0 18 = imm := by
  have := rd.isLt; have := imm.isLt
  exact ⟨fN_op _ _ h (by omega), fB_eq 6 _ _ 18 rd h (by omega) (by omega), fB_eq 18 _ _ 0 imm h (by omega) (by omega)⟩

theorem fields7 (oc : Nat) (h : oc < 256) (ra : BitVec 6) :
    fN (mkW oc (ra.toNat * 4096)) 24 8 = oc ∧
      fB (mkW oc (ra.toNat * 4096)) 12 6 = ra := by
  have := ra.isLt
  exact ⟨fN_op _ _ h (by omega), fB_eq 6 _ _ 12 ra h (by omega) (by omega)⟩

theorem fields8 (oc : Nat) (h : oc < 256) (tbl : BitVec 2) (ra : BitVec 6) :
    fN (mkW oc (ra.toNat * 4096 + tbl.toNat)) 24 8 = oc ∧
      fB (mkW oc (ra.toNat * 4096 + tbl.toNat)) 0 2 = tbl ∧
      fB (mkW oc (ra.toNat * 4096 + tbl.toNat)) 12 6 = ra := by
  have := tbl.isLt; have := ra.isLt
  exact ⟨fN_op _ _ h (by omega), fB_eq 2 _ _ 0 tbl h (by omega) (by omega), fB_eq 6 _ _ 12 ra h (by omega) (by omega)⟩

theorem fields9 (oc : Nat) (h : oc < 256) (ring : BitVec 5) :
    fN (mkW oc (ring.toNat)) 24 8 = oc ∧
      fB (mkW oc (ring.toNat)) 0 5 = ring := by
  have := ring.isLt
  exact ⟨fN_op _ _ h (by omega), fB_eq 5 _ _ 0 ring h (by omega) (by omega)⟩

theorem fields10 (oc : Nat) (h : oc < 256) (fmt : Fmt) (rm : RM) (vd : BitVec 6) (va : BitVec 6) (vb : BitVec 6) :
    fN (mkW oc (vd.toNat * 262144 + va.toNat * 4096 + vb.toNat * 64 + fmt.code * 8 + rm.code)) 24 8 = oc ∧
      fN (mkW oc (vd.toNat * 262144 + va.toNat * 4096 + vb.toNat * 64 + fmt.code * 8 + rm.code)) 3 3 = fmt.code ∧
      fN (mkW oc (vd.toNat * 262144 + va.toNat * 4096 + vb.toNat * 64 + fmt.code * 8 + rm.code)) 0 3 = rm.code ∧
      fB (mkW oc (vd.toNat * 262144 + va.toNat * 4096 + vb.toNat * 64 + fmt.code * 8 + rm.code)) 18 6 = vd ∧
      fB (mkW oc (vd.toNat * 262144 + va.toNat * 4096 + vb.toNat * 64 + fmt.code * 8 + rm.code)) 12 6 = va ∧
      fB (mkW oc (vd.toNat * 262144 + va.toNat * 4096 + vb.toNat * 64 + fmt.code * 8 + rm.code)) 6 6 = vb := by
  have := fmt.code_lt; have := rm.code_lt; have := vd.isLt; have := va.isLt; have := vb.isLt
  exact ⟨fN_op _ _ h (by omega), fN_eq 3 _ _ 3 fmt.code h (by omega) (by omega), fN_eq 3 _ _ 0 rm.code h (by omega) (by omega), fB_eq 6 _ _ 18 vd h (by omega) (by omega), fB_eq 6 _ _ 12 va h (by omega) (by omega), fB_eq 6 _ _ 6 vb h (by omega) (by omega)⟩

theorem fields11 (oc : Nat) (h : oc < 256) (fmt : Fmt) (vd : BitVec 6) (va : BitVec 6) (vb : BitVec 6) :
    fN (mkW oc (vd.toNat * 262144 + va.toNat * 4096 + vb.toNat * 64 + fmt.code * 8)) 24 8 = oc ∧
      fN (mkW oc (vd.toNat * 262144 + va.toNat * 4096 + vb.toNat * 64 + fmt.code * 8)) 3 3 = fmt.code ∧
      fB (mkW oc (vd.toNat * 262144 + va.toNat * 4096 + vb.toNat * 64 + fmt.code * 8)) 18 6 = vd ∧
      fB (mkW oc (vd.toNat * 262144 + va.toNat * 4096 + vb.toNat * 64 + fmt.code * 8)) 12 6 = va ∧
      fB (mkW oc (vd.toNat * 262144 + va.toNat * 4096 + vb.toNat * 64 + fmt.code * 8)) 6 6 = vb := by
  have := fmt.code_lt; have := vd.isLt; have := va.isLt; have := vb.isLt
  exact ⟨fN_op _ _ h (by omega), fN_eq 3 _ _ 3 fmt.code h (by omega) (by omega), fB_eq 6 _ _ 18 vd h (by omega) (by omega), fB_eq 6 _ _ 12 va h (by omega) (by omega), fB_eq 6 _ _ 6 vb h (by omega) (by omega)⟩

theorem fields12 (oc : Nat) (h : oc < 256) (fmt : Fmt) (vd : BitVec 6) (va : BitVec 6) :
    fN (mkW oc (vd.toNat * 262144 + va.toNat * 4096 + fmt.code * 8)) 24 8 = oc ∧
      fN (mkW oc (vd.toNat * 262144 + va.toNat * 4096 + fmt.code * 8)) 3 3 = fmt.code ∧
      fB (mkW oc (vd.toNat * 262144 + va.toNat * 4096 + fmt.code * 8)) 18 6 = vd ∧
      fB (mkW oc (vd.toNat * 262144 + va.toNat * 4096 + fmt.code * 8)) 12 6 = va := by
  have := fmt.code_lt; have := vd.isLt; have := va.isLt
  exact ⟨fN_op _ _ h (by omega), fN_eq 3 _ _ 3 fmt.code h (by omega) (by omega), fB_eq 6 _ _ 18 vd h (by omega) (by omega), fB_eq 6 _ _ 12 va h (by omega) (by omega)⟩

theorem fields13 (oc : Nat) (h : oc < 256) (vd : BitVec 6) (va : BitVec 6) (vb : BitVec 6) :
    fN (mkW oc (vd.toNat * 262144 + va.toNat * 4096 + vb.toNat * 64 + 24)) 24 8 = oc ∧
      fB (mkW oc (vd.toNat * 262144 + va.toNat * 4096 + vb.toNat * 64 + 24)) 18 6 = vd ∧
      fB (mkW oc (vd.toNat * 262144 + va.toNat * 4096 + vb.toNat * 64 + 24)) 12 6 = va ∧
      fB (mkW oc (vd.toNat * 262144 + va.toNat * 4096 + vb.toNat * 64 + 24)) 6 6 = vb := by
  have := vd.isLt; have := va.isLt; have := vb.isLt
  exact ⟨fN_op _ _ h (by omega), fB_eq 6 _ _ 18 vd h (by omega) (by omega), fB_eq 6 _ _ 12 va h (by omega) (by omega), fB_eq 6 _ _ 6 vb h (by omega) (by omega)⟩

theorem fields14 (oc : Nat) (h : oc < 256) (fmt : IFmt) (vd : BitVec 6) (va : BitVec 6) (vb : BitVec 6) :
    fN (mkW oc (vd.toNat * 262144 + va.toNat * 4096 + vb.toNat * 64 + fmt.code * 8)) 24 8 = oc ∧
      fN (mkW oc (vd.toNat * 262144 + va.toNat * 4096 + vb.toNat * 64 + fmt.code * 8)) 3 3 = fmt.code ∧
      fB (mkW oc (vd.toNat * 262144 + va.toNat * 4096 + vb.toNat * 64 + fmt.code * 8)) 18 6 = vd ∧
      fB (mkW oc (vd.toNat * 262144 + va.toNat * 4096 + vb.toNat * 64 + fmt.code * 8)) 12 6 = va ∧
      fB (mkW oc (vd.toNat * 262144 + va.toNat * 4096 + vb.toNat * 64 + fmt.code * 8)) 6 6 = vb := by
  have := fmt.code_lt; have := vd.isLt; have := va.isLt; have := vb.isLt
  exact ⟨fN_op _ _ h (by omega), fN_eq 3 _ _ 3 fmt.code h (by omega) (by omega), fB_eq 6 _ _ 18 vd h (by omega) (by omega), fB_eq 6 _ _ 12 va h (by omega) (by omega), fB_eq 6 _ _ 6 vb h (by omega) (by omega)⟩

theorem fields15 (oc : Nat) (h : oc < 256) (vd : BitVec 6) :
    fN (mkW oc (vd.toNat * 262144)) 24 8 = oc ∧
      fB (mkW oc (vd.toNat * 262144)) 18 6 = vd := by
  have := vd.isLt
  exact ⟨fN_op _ _ h (by omega), fB_eq 6 _ _ 18 vd h (by omega) (by omega)⟩

theorem fields16 (oc : Nat) (h : oc < 256) (vd : BitVec 6) (va : BitVec 6) (pb : BitVec 4) :
    fN (mkW oc (vd.toNat * 262144 + va.toNat * 4096 + pb.toNat * 64)) 24 8 = oc ∧
      fB (mkW oc (vd.toNat * 262144 + va.toNat * 4096 + pb.toNat * 64)) 18 6 = vd ∧
      fB (mkW oc (vd.toNat * 262144 + va.toNat * 4096 + pb.toNat * 64)) 12 6 = va ∧
      fB (mkW oc (vd.toNat * 262144 + va.toNat * 4096 + pb.toNat * 64)) 6 4 = pb := by
  have := vd.isLt; have := va.isLt; have := pb.isLt
  exact ⟨fN_op _ _ h (by omega), fB_eq 6 _ _ 18 vd h (by omega) (by omega), fB_eq 6 _ _ 12 va h (by omega) (by omega), fB_eq 4 _ _ 6 pb h (by omega) (by omega)⟩

theorem fields17 (oc : Nat) (h : oc < 256) (fmt : Fmt) (rd : BitVec 6) (va : BitVec 6) (pb : BitVec 4) :
    fN (mkW oc (rd.toNat * 262144 + va.toNat * 4096 + pb.toNat * 64 + fmt.code * 8)) 24 8 = oc ∧
      fN (mkW oc (rd.toNat * 262144 + va.toNat * 4096 + pb.toNat * 64 + fmt.code * 8)) 3 3 = fmt.code ∧
      fB (mkW oc (rd.toNat * 262144 + va.toNat * 4096 + pb.toNat * 64 + fmt.code * 8)) 18 6 = rd ∧
      fB (mkW oc (rd.toNat * 262144 + va.toNat * 4096 + pb.toNat * 64 + fmt.code * 8)) 12 6 = va ∧
      fB (mkW oc (rd.toNat * 262144 + va.toNat * 4096 + pb.toNat * 64 + fmt.code * 8)) 6 4 = pb := by
  have := fmt.code_lt; have := rd.isLt; have := va.isLt; have := pb.isLt
  exact ⟨fN_op _ _ h (by omega), fN_eq 3 _ _ 3 fmt.code h (by omega) (by omega), fB_eq 6 _ _ 18 rd h (by omega) (by omega), fB_eq 6 _ _ 12 va h (by omega) (by omega), fB_eq 4 _ _ 6 pb h (by omega) (by omega)⟩

theorem fields18 (oc : Nat) (h : oc < 256) (pd : BitVec 4) (pa : BitVec 4) (pb : BitVec 4) :
    fN (mkW oc (pd.toNat * 262144 + pa.toNat * 4096 + pb.toNat * 64)) 24 8 = oc ∧
      fB (mkW oc (pd.toNat * 262144 + pa.toNat * 4096 + pb.toNat * 64)) 18 4 = pd ∧
      fB (mkW oc (pd.toNat * 262144 + pa.toNat * 4096 + pb.toNat * 64)) 12 4 = pa ∧
      fB (mkW oc (pd.toNat * 262144 + pa.toNat * 4096 + pb.toNat * 64)) 6 4 = pb := by
  have := pd.isLt; have := pa.isLt; have := pb.isLt
  exact ⟨fN_op _ _ h (by omega), fB_eq 4 _ _ 18 pd h (by omega) (by omega), fB_eq 4 _ _ 12 pa h (by omega) (by omega), fB_eq 4 _ _ 6 pb h (by omega) (by omega)⟩

theorem fields19 (oc : Nat) (h : oc < 256) (rd : BitVec 6) (pa : BitVec 4) :
    fN (mkW oc (rd.toNat * 262144 + pa.toNat * 4096)) 24 8 = oc ∧
      fB (mkW oc (rd.toNat * 262144 + pa.toNat * 4096)) 18 6 = rd ∧
      fB (mkW oc (rd.toNat * 262144 + pa.toNat * 4096)) 12 4 = pa := by
  have := rd.isLt; have := pa.isLt
  exact ⟨fN_op _ _ h (by omega), fB_eq 6 _ _ 18 rd h (by omega) (by omega), fB_eq 4 _ _ 12 pa h (by omega) (by omega)⟩

theorem fields20 (oc : Nat) (h : oc < 256) (fmt : Fmt) (rm : RM) (vd : BitVec 6) (va : BitVec 6) :
    fN (mkW oc (vd.toNat * 262144 + va.toNat * 4096 + fmt.code * 8 + rm.code)) 24 8 = oc ∧
      fN (mkW oc (vd.toNat * 262144 + va.toNat * 4096 + fmt.code * 8 + rm.code)) 3 3 = fmt.code ∧
      fN (mkW oc (vd.toNat * 262144 + va.toNat * 4096 + fmt.code * 8 + rm.code)) 0 3 = rm.code ∧
      fB (mkW oc (vd.toNat * 262144 + va.toNat * 4096 + fmt.code * 8 + rm.code)) 18 6 = vd ∧
      fB (mkW oc (vd.toNat * 262144 + va.toNat * 4096 + fmt.code * 8 + rm.code)) 12 6 = va := by
  have := fmt.code_lt; have := rm.code_lt; have := vd.isLt; have := va.isLt
  exact ⟨fN_op _ _ h (by omega), fN_eq 3 _ _ 3 fmt.code h (by omega) (by omega), fN_eq 3 _ _ 0 rm.code h (by omega) (by omega), fB_eq 6 _ _ 18 vd h (by omega) (by omega), fB_eq 6 _ _ 12 va h (by omega) (by omega)⟩

theorem fields21 (oc : Nat) (h : oc < 256) (kf : KF) (desc : Bool) (vd : BitVec 6) (va : BitVec 6) (j : BitVec 3) (db : BitVec 3) :
    fN (mkW oc (vd.toNat * 262144 + va.toNat * 4096 + db.toNat * 64 + j.toNat * 8 + boolCode desc * 4 + kf.code)) 24 8 = oc ∧
      fN (mkW oc (vd.toNat * 262144 + va.toNat * 4096 + db.toNat * 64 + j.toNat * 8 + boolCode desc * 4 + kf.code)) 0 2 = kf.code ∧
      fT (mkW oc (vd.toNat * 262144 + va.toNat * 4096 + db.toNat * 64 + j.toNat * 8 + boolCode desc * 4 + kf.code)) 2 = desc ∧
      fB (mkW oc (vd.toNat * 262144 + va.toNat * 4096 + db.toNat * 64 + j.toNat * 8 + boolCode desc * 4 + kf.code)) 18 6 = vd ∧
      fB (mkW oc (vd.toNat * 262144 + va.toNat * 4096 + db.toNat * 64 + j.toNat * 8 + boolCode desc * 4 + kf.code)) 12 6 = va ∧
      fB (mkW oc (vd.toNat * 262144 + va.toNat * 4096 + db.toNat * 64 + j.toNat * 8 + boolCode desc * 4 + kf.code)) 3 3 = j ∧
      fB (mkW oc (vd.toNat * 262144 + va.toNat * 4096 + db.toNat * 64 + j.toNat * 8 + boolCode desc * 4 + kf.code)) 6 3 = db := by
  have := kf.code_lt; have := boolCode_lt desc; have := vd.isLt; have := va.isLt; have := j.isLt; have := db.isLt
  exact ⟨fN_op _ _ h (by omega), fN_eq 2 _ _ 0 kf.code h (by omega) (by omega), fT_eq _ _ 2 desc h (by omega) (by omega), fB_eq 6 _ _ 18 vd h (by omega) (by omega), fB_eq 6 _ _ 12 va h (by omega) (by omega), fB_eq 3 _ _ 3 j h (by omega) (by omega), fB_eq 3 _ _ 6 db h (by omega) (by omega)⟩

theorem fields22 (oc : Nat) (h : oc < 256) (kf : KF) (rd : BitVec 6) (va : BitVec 6) (pb : BitVec 4) :
    fN (mkW oc (rd.toNat * 262144 + va.toNat * 4096 + pb.toNat * 64 + kf.code)) 24 8 = oc ∧
      fN (mkW oc (rd.toNat * 262144 + va.toNat * 4096 + pb.toNat * 64 + kf.code)) 0 2 = kf.code ∧
      fB (mkW oc (rd.toNat * 262144 + va.toNat * 4096 + pb.toNat * 64 + kf.code)) 18 6 = rd ∧
      fB (mkW oc (rd.toNat * 262144 + va.toNat * 4096 + pb.toNat * 64 + kf.code)) 12 6 = va ∧
      fB (mkW oc (rd.toNat * 262144 + va.toNat * 4096 + pb.toNat * 64 + kf.code)) 6 4 = pb := by
  have := kf.code_lt; have := rd.isLt; have := va.isLt; have := pb.isLt
  exact ⟨fN_op _ _ h (by omega), fN_eq 2 _ _ 0 kf.code h (by omega) (by omega), fB_eq 6 _ _ 18 rd h (by omega) (by omega), fB_eq 6 _ _ 12 va h (by omega) (by omega), fB_eq 4 _ _ 6 pb h (by omega) (by omega)⟩

theorem fields23 (oc : Nat) (h : oc < 256) (sz : Size) (ep : BitVec 2) (na : Bool) (rd : BitVec 6) (ra : BitVec 6) (off : BitVec 6) :
    fN (mkW oc (rd.toNat * 262144 + ra.toNat * 4096 + off.toNat * 64 + sz.code * 8 + ep.toNat * 2 + boolCode na)) 24 8 = oc ∧
      fN (mkW oc (rd.toNat * 262144 + ra.toNat * 4096 + off.toNat * 64 + sz.code * 8 + ep.toNat * 2 + boolCode na)) 3 3 = sz.code ∧
      fB (mkW oc (rd.toNat * 262144 + ra.toNat * 4096 + off.toNat * 64 + sz.code * 8 + ep.toNat * 2 + boolCode na)) 1 2 = ep ∧
      fT (mkW oc (rd.toNat * 262144 + ra.toNat * 4096 + off.toNat * 64 + sz.code * 8 + ep.toNat * 2 + boolCode na)) 0 = na ∧
      fB (mkW oc (rd.toNat * 262144 + ra.toNat * 4096 + off.toNat * 64 + sz.code * 8 + ep.toNat * 2 + boolCode na)) 18 6 = rd ∧
      fB (mkW oc (rd.toNat * 262144 + ra.toNat * 4096 + off.toNat * 64 + sz.code * 8 + ep.toNat * 2 + boolCode na)) 12 6 = ra ∧
      fB (mkW oc (rd.toNat * 262144 + ra.toNat * 4096 + off.toNat * 64 + sz.code * 8 + ep.toNat * 2 + boolCode na)) 6 6 = off := by
  have := sz.code_lt; have := ep.isLt; have := boolCode_lt na; have := rd.isLt; have := ra.isLt; have := off.isLt
  exact ⟨fN_op _ _ h (by omega), fN_eq 3 _ _ 3 sz.code h (by omega) (by omega), fB_eq 2 _ _ 1 ep h (by omega) (by omega), fT_eq _ _ 0 na h (by omega) (by omega), fB_eq 6 _ _ 18 rd h (by omega) (by omega), fB_eq 6 _ _ 12 ra h (by omega) (by omega), fB_eq 6 _ _ 6 off h (by omega) (by omega)⟩

theorem fields24 (oc : Nat) (h : oc < 256) (fmt : Fmt) (ep : BitVec 2) (na : Bool) (vd : BitVec 6) (ra : BitVec 6) (off : BitVec 6) :
    fN (mkW oc (vd.toNat * 262144 + ra.toNat * 4096 + off.toNat * 64 + fmt.code * 8 + ep.toNat * 2 + boolCode na)) 24 8 = oc ∧
      fN (mkW oc (vd.toNat * 262144 + ra.toNat * 4096 + off.toNat * 64 + fmt.code * 8 + ep.toNat * 2 + boolCode na)) 3 3 = fmt.code ∧
      fB (mkW oc (vd.toNat * 262144 + ra.toNat * 4096 + off.toNat * 64 + fmt.code * 8 + ep.toNat * 2 + boolCode na)) 1 2 = ep ∧
      fT (mkW oc (vd.toNat * 262144 + ra.toNat * 4096 + off.toNat * 64 + fmt.code * 8 + ep.toNat * 2 + boolCode na)) 0 = na ∧
      fB (mkW oc (vd.toNat * 262144 + ra.toNat * 4096 + off.toNat * 64 + fmt.code * 8 + ep.toNat * 2 + boolCode na)) 18 6 = vd ∧
      fB (mkW oc (vd.toNat * 262144 + ra.toNat * 4096 + off.toNat * 64 + fmt.code * 8 + ep.toNat * 2 + boolCode na)) 12 6 = ra ∧
      fB (mkW oc (vd.toNat * 262144 + ra.toNat * 4096 + off.toNat * 64 + fmt.code * 8 + ep.toNat * 2 + boolCode na)) 6 6 = off := by
  have := fmt.code_lt; have := ep.isLt; have := boolCode_lt na; have := vd.isLt; have := ra.isLt; have := off.isLt
  exact ⟨fN_op _ _ h (by omega), fN_eq 3 _ _ 3 fmt.code h (by omega) (by omega), fB_eq 2 _ _ 1 ep h (by omega) (by omega), fT_eq _ _ 0 na h (by omega) (by omega), fB_eq 6 _ _ 18 vd h (by omega) (by omega), fB_eq 6 _ _ 12 ra h (by omega) (by omega), fB_eq 6 _ _ 6 off h (by omega) (by omega)⟩

theorem fields25 (oc : Nat) (h : oc < 256) (sz : ASize) (rd : BitVec 6) (ra : BitVec 6) (rb : BitVec 6) :
    fN (mkW oc (rd.toNat * 262144 + ra.toNat * 4096 + rb.toNat * 64 + sz.code * 16)) 24 8 = oc ∧
      fN (mkW oc (rd.toNat * 262144 + ra.toNat * 4096 + rb.toNat * 64 + sz.code * 16)) 4 2 = sz.code ∧
      fB (mkW oc (rd.toNat * 262144 + ra.toNat * 4096 + rb.toNat * 64 + sz.code * 16)) 18 6 = rd ∧
      fB (mkW oc (rd.toNat * 262144 + ra.toNat * 4096 + rb.toNat * 64 + sz.code * 16)) 12 6 = ra ∧
      fB (mkW oc (rd.toNat * 262144 + ra.toNat * 4096 + rb.toNat * 64 + sz.code * 16)) 6 6 = rb := by
  have := sz.code_lt; have := rd.isLt; have := ra.isLt; have := rb.isLt
  exact ⟨fN_op _ _ h (by omega), fN_eq 2 _ _ 4 sz.code h (by omega) (by omega), fB_eq 6 _ _ 18 rd h (by omega) (by omega), fB_eq 6 _ _ 12 ra h (by omega) (by omega), fB_eq 6 _ _ 6 rb h (by omega) (by omega)⟩

theorem fields26 (oc : Nat) (h : oc < 256) (op : BitVec 6) (ra : BitVec 6) (rb : BitVec 6) (rv : BitVec 6) :
    fN (mkW oc (rv.toNat * 262144 + ra.toNat * 4096 + rb.toNat * 64 + op.toNat)) 24 8 = oc ∧
      fB (mkW oc (rv.toNat * 262144 + ra.toNat * 4096 + rb.toNat * 64 + op.toNat)) 0 6 = op ∧
      fB (mkW oc (rv.toNat * 262144 + ra.toNat * 4096 + rb.toNat * 64 + op.toNat)) 12 6 = ra ∧
      fB (mkW oc (rv.toNat * 262144 + ra.toNat * 4096 + rb.toNat * 64 + op.toNat)) 6 6 = rb ∧
      fB (mkW oc (rv.toNat * 262144 + ra.toNat * 4096 + rb.toNat * 64 + op.toNat)) 18 6 = rv := by
  have := op.isLt; have := ra.isLt; have := rb.isLt; have := rv.isLt
  exact ⟨fN_op _ _ h (by omega), fB_eq 6 _ _ 0 op h (by omega) (by omega), fB_eq 6 _ _ 12 ra h (by omega) (by omega), fB_eq 6 _ _ 6 rb h (by omega) (by omega), fB_eq 6 _ _ 18 rv h (by omega) (by omega)⟩

theorem fields27 (oc : Nat) (h : oc < 256) (s : BitVec 4) (ra : BitVec 6) (imm : BitVec 14) :
    fN (mkW oc (s.toNat * 1048576 + ra.toNat * 16384 + imm.toNat)) 24 8 = oc ∧
      fB (mkW oc (s.toNat * 1048576 + ra.toNat * 16384 + imm.toNat)) 20 4 = s ∧
      fB (mkW oc (s.toNat * 1048576 + ra.toNat * 16384 + imm.toNat)) 14 6 = ra ∧
      fB (mkW oc (s.toNat * 1048576 + ra.toNat * 16384 + imm.toNat)) 0 14 = imm := by
  have := s.isLt; have := ra.isLt; have := imm.isLt
  exact ⟨fN_op _ _ h (by omega), fB_eq 4 _ _ 20 s h (by omega) (by omega), fB_eq 6 _ _ 14 ra h (by omega) (by omega), fB_eq 14 _ _ 0 imm h (by omega) (by omega)⟩

theorem fields28 (oc : Nat) (h : oc < 256) (ad : BitVec 4) (ra : BitVec 6) (lvl : BitVec 3) :
    fN (mkW oc (ad.toNat * 1048576 + ra.toNat * 16384 + lvl.toNat)) 24 8 = oc ∧
      fB (mkW oc (ad.toNat * 1048576 + ra.toNat * 16384 + lvl.toNat)) 20 4 = ad ∧
      fB (mkW oc (ad.toNat * 1048576 + ra.toNat * 16384 + lvl.toNat)) 14 6 = ra ∧
      fB (mkW oc (ad.toNat * 1048576 + ra.toNat * 16384 + lvl.toNat)) 0 3 = lvl := by
  have := ad.isLt; have := ra.isLt; have := lvl.isLt
  exact ⟨fN_op _ _ h (by omega), fB_eq 4 _ _ 20 ad h (by omega) (by omega), fB_eq 6 _ _ 14 ra h (by omega) (by omega), fB_eq 3 _ _ 0 lvl h (by omega) (by omega)⟩

theorem fields29 (oc : Nat) (h : oc < 256) (td : BitVec 4) (n : BitVec 4) :
    fN (mkW oc (td.toNat * 1048576 + n.toNat * 4)) 24 8 = oc ∧
      fB (mkW oc (td.toNat * 1048576 + n.toNat * 4)) 20 4 = td ∧
      fB (mkW oc (td.toNat * 1048576 + n.toNat * 4)) 2 4 = n := by
  have := td.isLt; have := n.isLt
  exact ⟨fN_op _ _ h (by omega), fB_eq 4 _ _ 20 td h (by omega) (by omega), fB_eq 4 _ _ 2 n h (by omega) (by omega)⟩

theorem fields30 (oc : Nat) (h : oc < 256) (ra : BitVec 6) (rb : BitVec 6) (rc : BitVec 6) (tag : BitVec 6) :
    fN (mkW oc (ra.toNat * 262144 + rb.toNat * 4096 + rc.toNat * 64 + tag.toNat)) 24 8 = oc ∧
      fB (mkW oc (ra.toNat * 262144 + rb.toNat * 4096 + rc.toNat * 64 + tag.toNat)) 18 6 = ra ∧
      fB (mkW oc (ra.toNat * 262144 + rb.toNat * 4096 + rc.toNat * 64 + tag.toNat)) 12 6 = rb ∧
      fB (mkW oc (ra.toNat * 262144 + rb.toNat * 4096 + rc.toNat * 64 + tag.toNat)) 6 6 = rc ∧
      fB (mkW oc (ra.toNat * 262144 + rb.toNat * 4096 + rc.toNat * 64 + tag.toNat)) 0 6 = tag := by
  have := ra.isLt; have := rb.isLt; have := rc.isLt; have := tag.isLt
  exact ⟨fN_op _ _ h (by omega), fB_eq 6 _ _ 18 ra h (by omega) (by omega), fB_eq 6 _ _ 12 rb h (by omega) (by omega), fB_eq 6 _ _ 6 rc h (by omega) (by omega), fB_eq 6 _ _ 0 tag h (by omega) (by omega)⟩

theorem fields31 (oc : Nat) (h : oc < 256) (op : BitVec 6) (ra : BitVec 6) (rb : BitVec 6) (tag : BitVec 6) :
    fN (mkW oc (ra.toNat * 262144 + rb.toNat * 4096 + op.toNat * 64 + tag.toNat)) 24 8 = oc ∧
      fB (mkW oc (ra.toNat * 262144 + rb.toNat * 4096 + op.toNat * 64 + tag.toNat)) 6 6 = op ∧
      fB (mkW oc (ra.toNat * 262144 + rb.toNat * 4096 + op.toNat * 64 + tag.toNat)) 18 6 = ra ∧
      fB (mkW oc (ra.toNat * 262144 + rb.toNat * 4096 + op.toNat * 64 + tag.toNat)) 12 6 = rb ∧
      fB (mkW oc (ra.toNat * 262144 + rb.toNat * 4096 + op.toNat * 64 + tag.toNat)) 0 6 = tag := by
  have := op.isLt; have := ra.isLt; have := rb.isLt; have := tag.isLt
  exact ⟨fN_op _ _ h (by omega), fB_eq 6 _ _ 6 op h (by omega) (by omega), fB_eq 6 _ _ 18 ra h (by omega) (by omega), fB_eq 6 _ _ 12 rb h (by omega) (by omega), fB_eq 6 _ _ 0 tag h (by omega) (by omega)⟩

theorem fields32 (oc : Nat) (h : oc < 256) (ra : BitVec 6) (tag : BitVec 6) :
    fN (mkW oc (ra.toNat * 262144 + tag.toNat)) 24 8 = oc ∧
      fB (mkW oc (ra.toNat * 262144 + tag.toNat)) 18 6 = ra ∧
      fB (mkW oc (ra.toNat * 262144 + tag.toNat)) 0 6 = tag := by
  have := ra.isLt; have := tag.isLt
  exact ⟨fN_op _ _ h (by omega), fB_eq 6 _ _ 18 ra h (by omega) (by omega), fB_eq 6 _ _ 0 tag h (by omega) (by omega)⟩

end Sys2Proof

namespace Sys2Proof.Laws.Coding

open Sys2Proof

/-- The encoder's word is read as the instruction in the instruction's own bundle slot (02 R41, R50 to R57). -/
def Statement (i : Instr) : Prop := ∀ sl, slotOf i = some sl → i.wf = true → candidate sl (encode i) = some i

/-- A special register whose write is an instruction of its own is not written by MTS here (02 R61). -/
theorem notOwn (n : BitVec 12) (ra : BitVec 6) (hw : (Instr.mts n ra).wf = true) :
    (match n.toNat with
      | 1 => some (Instr.tagsWrite ra)
      | 2 => some (.fstatusWrite ra)
      | 3 => some (.fctlWrite ra)
      | 8 => some (.rowprogWrite ra)
      | _ => some (.mts n ra)) = some (.mts n ra) := by
  have h : ownWrite n = false := by
    have h2 : (assignedSR n && !ownWrite n) = true := hw
    simp only [Bool.and_eq_true, Bool.not_eq_true'] at h2; exact h2.2
  simp only [ownWrite, List.contains_eq_mem, List.mem_cons, List.not_mem_nil, or_false, decide_eq_false_iff_not, not_or] at h
  obtain ⟨h1, h2, h3, h8⟩ := h
  split <;> first | (exfalso; omega) | rfl

/-- An event stands in no bundle slot. -/
theorem event {i : Instr} (h : slotOf i = none) : Statement i := fun sl hs _ => by rw [h] at hs; cases hs

theorem add (rd : BitVec 6) (ra : BitVec 6) (rb : BitVec 6) : Statement (.add rd ra rb) := by
  intro sl hs _
  cases (show some Slot.s0 = some sl from hs)
  have d (w : BitVec 32) (h : fN w 24 8 = 0x1) : candidate .s0 w = some (.add (fB w 18 6) (fB w 12 6) (fB w 6 6)) := by
    show candScalar w = _
    unfold candScalar; rw [h]; rfl
  obtain ⟨e0, e1, e2, e3⟩ := fields1 0x1 (by decide) rd ra rb
  show candidate .s0 (mkW 0x1 (rd.toNat * 262144 + ra.toNat * 4096 + rb.toNat * 64)) = _
  rw [d _ e0, e1, e2, e3]

theorem sub (rd : BitVec 6) (ra : BitVec 6) (rb : BitVec 6) : Statement (.sub rd ra rb) := by
  intro sl hs _
  cases (show some Slot.s0 = some sl from hs)
  have d (w : BitVec 32) (h : fN w 24 8 = 0x2) : candidate .s0 w = some (.sub (fB w 18 6) (fB w 12 6) (fB w 6 6)) := by
    show candScalar w = _
    unfold candScalar; rw [h]; rfl
  obtain ⟨e0, e1, e2, e3⟩ := fields1 0x2 (by decide) rd ra rb
  show candidate .s0 (mkW 0x2 (rd.toNat * 262144 + ra.toNat * 4096 + rb.toNat * 64)) = _
  rw [d _ e0, e1, e2, e3]

theorem mul (rd : BitVec 6) (ra : BitVec 6) (rb : BitVec 6) : Statement (.mul rd ra rb) := by
  intro sl hs _
  cases (show some Slot.s0 = some sl from hs)
  have d (w : BitVec 32) (h : fN w 24 8 = 0x3) : candidate .s0 w = some (.mul (fB w 18 6) (fB w 12 6) (fB w 6 6)) := by
    show candScalar w = _
    unfold candScalar; rw [h]; rfl
  obtain ⟨e0, e1, e2, e3⟩ := fields1 0x3 (by decide) rd ra rb
  show candidate .s0 (mkW 0x3 (rd.toNat * 262144 + ra.toNat * 4096 + rb.toNat * 64)) = _
  rw [d _ e0, e1, e2, e3]

theorem mulh (rd : BitVec 6) (ra : BitVec 6) (rb : BitVec 6) : Statement (.mulh rd ra rb) := by
  intro sl hs _
  cases (show some Slot.s0 = some sl from hs)
  have d (w : BitVec 32) (h : fN w 24 8 = 0x4) : candidate .s0 w = some (.mulh (fB w 18 6) (fB w 12 6) (fB w 6 6)) := by
    show candScalar w = _
    unfold candScalar; rw [h]; rfl
  obtain ⟨e0, e1, e2, e3⟩ := fields1 0x4 (by decide) rd ra rb
  show candidate .s0 (mkW 0x4 (rd.toNat * 262144 + ra.toNat * 4096 + rb.toNat * 64)) = _
  rw [d _ e0, e1, e2, e3]

theorem mulhu (rd : BitVec 6) (ra : BitVec 6) (rb : BitVec 6) : Statement (.mulhu rd ra rb) := by
  intro sl hs _
  cases (show some Slot.s0 = some sl from hs)
  have d (w : BitVec 32) (h : fN w 24 8 = 0x5) : candidate .s0 w = some (.mulhu (fB w 18 6) (fB w 12 6) (fB w 6 6)) := by
    show candScalar w = _
    unfold candScalar; rw [h]; rfl
  obtain ⟨e0, e1, e2, e3⟩ := fields1 0x5 (by decide) rd ra rb
  show candidate .s0 (mkW 0x5 (rd.toNat * 262144 + ra.toNat * 4096 + rb.toNat * 64)) = _
  rw [d _ e0, e1, e2, e3]

theorem div (rd : BitVec 6) (ra : BitVec 6) (rb : BitVec 6) : Statement (.div rd ra rb) := by
  intro sl hs _
  cases (show some Slot.s0 = some sl from hs)
  have d (w : BitVec 32) (h : fN w 24 8 = 0x6) : candidate .s0 w = some (.div (fB w 18 6) (fB w 12 6) (fB w 6 6)) := by
    show candScalar w = _
    unfold candScalar; rw [h]; rfl
  obtain ⟨e0, e1, e2, e3⟩ := fields1 0x6 (by decide) rd ra rb
  show candidate .s0 (mkW 0x6 (rd.toNat * 262144 + ra.toNat * 4096 + rb.toNat * 64)) = _
  rw [d _ e0, e1, e2, e3]

theorem divu (rd : BitVec 6) (ra : BitVec 6) (rb : BitVec 6) : Statement (.divu rd ra rb) := by
  intro sl hs _
  cases (show some Slot.s0 = some sl from hs)
  have d (w : BitVec 32) (h : fN w 24 8 = 0x7) : candidate .s0 w = some (.divu (fB w 18 6) (fB w 12 6) (fB w 6 6)) := by
    show candScalar w = _
    unfold candScalar; rw [h]; rfl
  obtain ⟨e0, e1, e2, e3⟩ := fields1 0x7 (by decide) rd ra rb
  show candidate .s0 (mkW 0x7 (rd.toNat * 262144 + ra.toNat * 4096 + rb.toNat * 64)) = _
  rw [d _ e0, e1, e2, e3]

theorem rem (rd : BitVec 6) (ra : BitVec 6) (rb : BitVec 6) : Statement (.rem rd ra rb) := by
  intro sl hs _
  cases (show some Slot.s0 = some sl from hs)
  have d (w : BitVec 32) (h : fN w 24 8 = 0x8) : candidate .s0 w = some (.rem (fB w 18 6) (fB w 12 6) (fB w 6 6)) := by
    show candScalar w = _
    unfold candScalar; rw [h]; rfl
  obtain ⟨e0, e1, e2, e3⟩ := fields1 0x8 (by decide) rd ra rb
  show candidate .s0 (mkW 0x8 (rd.toNat * 262144 + ra.toNat * 4096 + rb.toNat * 64)) = _
  rw [d _ e0, e1, e2, e3]

theorem remu (rd : BitVec 6) (ra : BitVec 6) (rb : BitVec 6) : Statement (.remu rd ra rb) := by
  intro sl hs _
  cases (show some Slot.s0 = some sl from hs)
  have d (w : BitVec 32) (h : fN w 24 8 = 0x9) : candidate .s0 w = some (.remu (fB w 18 6) (fB w 12 6) (fB w 6 6)) := by
    show candScalar w = _
    unfold candScalar; rw [h]; rfl
  obtain ⟨e0, e1, e2, e3⟩ := fields1 0x9 (by decide) rd ra rb
  show candidate .s0 (mkW 0x9 (rd.toNat * 262144 + ra.toNat * 4096 + rb.toNat * 64)) = _
  rw [d _ e0, e1, e2, e3]

theorem and (rd : BitVec 6) (ra : BitVec 6) (rb : BitVec 6) : Statement (.and rd ra rb) := by
  intro sl hs _
  cases (show some Slot.s0 = some sl from hs)
  have d (w : BitVec 32) (h : fN w 24 8 = 0xa) : candidate .s0 w = some (.and (fB w 18 6) (fB w 12 6) (fB w 6 6)) := by
    show candScalar w = _
    unfold candScalar; rw [h]; rfl
  obtain ⟨e0, e1, e2, e3⟩ := fields1 0xa (by decide) rd ra rb
  show candidate .s0 (mkW 0xa (rd.toNat * 262144 + ra.toNat * 4096 + rb.toNat * 64)) = _
  rw [d _ e0, e1, e2, e3]

theorem or (rd : BitVec 6) (ra : BitVec 6) (rb : BitVec 6) : Statement (.or rd ra rb) := by
  intro sl hs _
  cases (show some Slot.s0 = some sl from hs)
  have d (w : BitVec 32) (h : fN w 24 8 = 0xb) : candidate .s0 w = some (.or (fB w 18 6) (fB w 12 6) (fB w 6 6)) := by
    show candScalar w = _
    unfold candScalar; rw [h]; rfl
  obtain ⟨e0, e1, e2, e3⟩ := fields1 0xb (by decide) rd ra rb
  show candidate .s0 (mkW 0xb (rd.toNat * 262144 + ra.toNat * 4096 + rb.toNat * 64)) = _
  rw [d _ e0, e1, e2, e3]

theorem xor (rd : BitVec 6) (ra : BitVec 6) (rb : BitVec 6) : Statement (.xor rd ra rb) := by
  intro sl hs _
  cases (show some Slot.s0 = some sl from hs)
  have d (w : BitVec 32) (h : fN w 24 8 = 0xc) : candidate .s0 w = some (.xor (fB w 18 6) (fB w 12 6) (fB w 6 6)) := by
    show candScalar w = _
    unfold candScalar; rw [h]; rfl
  obtain ⟨e0, e1, e2, e3⟩ := fields1 0xc (by decide) rd ra rb
  show candidate .s0 (mkW 0xc (rd.toNat * 262144 + ra.toNat * 4096 + rb.toNat * 64)) = _
  rw [d _ e0, e1, e2, e3]

theorem andn (rd : BitVec 6) (ra : BitVec 6) (rb : BitVec 6) : Statement (.andn rd ra rb) := by
  intro sl hs _
  cases (show some Slot.s0 = some sl from hs)
  have d (w : BitVec 32) (h : fN w 24 8 = 0xd) : candidate .s0 w = some (.andn (fB w 18 6) (fB w 12 6) (fB w 6 6)) := by
    show candScalar w = _
    unfold candScalar; rw [h]; rfl
  obtain ⟨e0, e1, e2, e3⟩ := fields1 0xd (by decide) rd ra rb
  show candidate .s0 (mkW 0xd (rd.toNat * 262144 + ra.toNat * 4096 + rb.toNat * 64)) = _
  rw [d _ e0, e1, e2, e3]

theorem shl (rd : BitVec 6) (ra : BitVec 6) (rb : BitVec 6) : Statement (.shl rd ra rb) := by
  intro sl hs _
  cases (show some Slot.s0 = some sl from hs)
  have d (w : BitVec 32) (h : fN w 24 8 = 0xe) : candidate .s0 w = some (.shl (fB w 18 6) (fB w 12 6) (fB w 6 6)) := by
    show candScalar w = _
    unfold candScalar; rw [h]; rfl
  obtain ⟨e0, e1, e2, e3⟩ := fields1 0xe (by decide) rd ra rb
  show candidate .s0 (mkW 0xe (rd.toNat * 262144 + ra.toNat * 4096 + rb.toNat * 64)) = _
  rw [d _ e0, e1, e2, e3]

theorem shr (rd : BitVec 6) (ra : BitVec 6) (rb : BitVec 6) : Statement (.shr rd ra rb) := by
  intro sl hs _
  cases (show some Slot.s0 = some sl from hs)
  have d (w : BitVec 32) (h : fN w 24 8 = 0xf) : candidate .s0 w = some (.shr (fB w 18 6) (fB w 12 6) (fB w 6 6)) := by
    show candScalar w = _
    unfold candScalar; rw [h]; rfl
  obtain ⟨e0, e1, e2, e3⟩ := fields1 0xf (by decide) rd ra rb
  show candidate .s0 (mkW 0xf (rd.toNat * 262144 + ra.toNat * 4096 + rb.toNat * 64)) = _
  rw [d _ e0, e1, e2, e3]

theorem sra (rd : BitVec 6) (ra : BitVec 6) (rb : BitVec 6) : Statement (.sra rd ra rb) := by
  intro sl hs _
  cases (show some Slot.s0 = some sl from hs)
  have d (w : BitVec 32) (h : fN w 24 8 = 0x10) : candidate .s0 w = some (.sra (fB w 18 6) (fB w 12 6) (fB w 6 6)) := by
    show candScalar w = _
    unfold candScalar; rw [h]; rfl
  obtain ⟨e0, e1, e2, e3⟩ := fields1 0x10 (by decide) rd ra rb
  show candidate .s0 (mkW 0x10 (rd.toNat * 262144 + ra.toNat * 4096 + rb.toNat * 64)) = _
  rw [d _ e0, e1, e2, e3]

theorem min (rd : BitVec 6) (ra : BitVec 6) (rb : BitVec 6) : Statement (.min rd ra rb) := by
  intro sl hs _
  cases (show some Slot.s0 = some sl from hs)
  have d (w : BitVec 32) (h : fN w 24 8 = 0x11) : candidate .s0 w = some (.min (fB w 18 6) (fB w 12 6) (fB w 6 6)) := by
    show candScalar w = _
    unfold candScalar; rw [h]; rfl
  obtain ⟨e0, e1, e2, e3⟩ := fields1 0x11 (by decide) rd ra rb
  show candidate .s0 (mkW 0x11 (rd.toNat * 262144 + ra.toNat * 4096 + rb.toNat * 64)) = _
  rw [d _ e0, e1, e2, e3]

theorem max (rd : BitVec 6) (ra : BitVec 6) (rb : BitVec 6) : Statement (.max rd ra rb) := by
  intro sl hs _
  cases (show some Slot.s0 = some sl from hs)
  have d (w : BitVec 32) (h : fN w 24 8 = 0x12) : candidate .s0 w = some (.max (fB w 18 6) (fB w 12 6) (fB w 6 6)) := by
    show candScalar w = _
    unfold candScalar; rw [h]; rfl
  obtain ⟨e0, e1, e2, e3⟩ := fields1 0x12 (by decide) rd ra rb
  show candidate .s0 (mkW 0x12 (rd.toNat * 262144 + ra.toNat * 4096 + rb.toNat * 64)) = _
  rw [d _ e0, e1, e2, e3]

theorem minu (rd : BitVec 6) (ra : BitVec 6) (rb : BitVec 6) : Statement (.minu rd ra rb) := by
  intro sl hs _
  cases (show some Slot.s0 = some sl from hs)
  have d (w : BitVec 32) (h : fN w 24 8 = 0x13) : candidate .s0 w = some (.minu (fB w 18 6) (fB w 12 6) (fB w 6 6)) := by
    show candScalar w = _
    unfold candScalar; rw [h]; rfl
  obtain ⟨e0, e1, e2, e3⟩ := fields1 0x13 (by decide) rd ra rb
  show candidate .s0 (mkW 0x13 (rd.toNat * 262144 + ra.toNat * 4096 + rb.toNat * 64)) = _
  rw [d _ e0, e1, e2, e3]

theorem maxu (rd : BitVec 6) (ra : BitVec 6) (rb : BitVec 6) : Statement (.maxu rd ra rb) := by
  intro sl hs _
  cases (show some Slot.s0 = some sl from hs)
  have d (w : BitVec 32) (h : fN w 24 8 = 0x14) : candidate .s0 w = some (.maxu (fB w 18 6) (fB w 12 6) (fB w 6 6)) := by
    show candScalar w = _
    unfold candScalar; rw [h]; rfl
  obtain ⟨e0, e1, e2, e3⟩ := fields1 0x14 (by decide) rd ra rb
  show candidate .s0 (mkW 0x14 (rd.toNat * 262144 + ra.toNat * 4096 + rb.toNat * 64)) = _
  rw [d _ e0, e1, e2, e3]

theorem cmp (cc : Cond) (pd : BitVec 4) (ra : BitVec 6) (rb : BitVec 6) : Statement (.cmp cc pd ra rb) := by
  intro sl hs _
  cases (show some Slot.s0 = some sl from hs)
  have := cc.code_lt; have := pd.isLt; have := ra.isLt; have := rb.isLt
  have d (w : BitVec 32) (h : fN w 24 8 = 0x15) : candidate .s0 w = (Cond.ofCode (fN w 0 6)).bind fun cc => some (.cmp cc (fB w 18 4) (fB w 12 6) (fB w 6 6)) := by
    show candScalar w = _
    unfold candScalar; rw [h]; rfl
  show candidate .s0 (mkW 0x15 (pd.toNat * 262144 + ra.toNat * 4096 + rb.toNat * 64 + cc.code)) = _
  rw [d _ (fN_op _ _ (by decide) (by omega))]
  rw [fN_eq 6 _ _ 0 cc.code (by decide) (by omega) (by omega),
    Cond.ofCode_code cc,
    fB_eq 4 _ _ 18 pd (by decide) (by omega) (by omega),
    fB_eq 6 _ _ 12 ra (by decide) (by omega) (by omega),
    fB_eq 6 _ _ 6 rb (by decide) (by omega) (by omega)]
  rfl

theorem sel (rd : BitVec 6) (ra : BitVec 6) (rb : BitVec 6) (pc : BitVec 4) : Statement (.sel rd ra rb pc) := by
  intro sl hs _
  cases (show some Slot.s0 = some sl from hs)
  have := rd.isLt; have := ra.isLt; have := rb.isLt; have := pc.isLt
  have d (w : BitVec 32) (h : fN w 24 8 = 0x16) : candidate .s0 w = some (.sel (fB w 18 6) (fB w 12 6) (fB w 6 6) (fB w 0 4)) := by
    show candScalar w = _
    unfold candScalar; rw [h]; rfl
  show candidate .s0 (mkW 0x16 (rd.toNat * 262144 + ra.toNat * 4096 + rb.toNat * 64 + pc.toNat)) = _
  rw [d _ (fN_op _ _ (by decide) (by omega))]
  rw [fB_eq 6 _ _ 18 rd (by decide) (by omega) (by omega),
    fB_eq 6 _ _ 12 ra (by decide) (by omega) (by omega),
    fB_eq 6 _ _ 6 rb (by decide) (by omega) (by omega),
    fB_eq 4 _ _ 0 pc (by decide) (by omega) (by omega)]

theorem clz (rd : BitVec 6) (ra : BitVec 6) : Statement (.clz rd ra) := by
  intro sl hs _
  cases (show some Slot.s0 = some sl from hs)
  have d (w : BitVec 32) (h : fN w 24 8 = 0x17) : candidate .s0 w = some (.clz (fB w 18 6) (fB w 12 6)) := by
    show candScalar w = _
    unfold candScalar; rw [h]; rfl
  obtain ⟨e0, e1, e2⟩ := fields2 0x17 (by decide) rd ra
  show candidate .s0 (mkW 0x17 (rd.toNat * 262144 + ra.toNat * 4096)) = _
  rw [d _ e0, e1, e2]

theorem ctz (rd : BitVec 6) (ra : BitVec 6) : Statement (.ctz rd ra) := by
  intro sl hs _
  cases (show some Slot.s0 = some sl from hs)
  have d (w : BitVec 32) (h : fN w 24 8 = 0x18) : candidate .s0 w = some (.ctz (fB w 18 6) (fB w 12 6)) := by
    show candScalar w = _
    unfold candScalar; rw [h]; rfl
  obtain ⟨e0, e1, e2⟩ := fields2 0x18 (by decide) rd ra
  show candidate .s0 (mkW 0x18 (rd.toNat * 262144 + ra.toNat * 4096)) = _
  rw [d _ e0, e1, e2]

theorem popc (rd : BitVec 6) (ra : BitVec 6) : Statement (.popc rd ra) := by
  intro sl hs _
  cases (show some Slot.s0 = some sl from hs)
  have d (w : BitVec 32) (h : fN w 24 8 = 0x19) : candidate .s0 w = some (.popc (fB w 18 6) (fB w 12 6)) := by
    show candScalar w = _
    unfold candScalar; rw [h]; rfl
  obtain ⟨e0, e1, e2⟩ := fields2 0x19 (by decide) rd ra
  show candidate .s0 (mkW 0x19 (rd.toNat * 262144 + ra.toNat * 4096)) = _
  rw [d _ e0, e1, e2]

theorem lea (rd : BitVec 6) (ra : BitVec 6) (rb : BitVec 6) (sh : BitVec 2) : Statement (.lea rd ra rb sh) := by
  intro sl hs _
  cases (show some Slot.s0 = some sl from hs)
  have := rd.isLt; have := ra.isLt; have := rb.isLt; have := sh.isLt
  have d (w : BitVec 32) (h : fN w 24 8 = 0x1a) : candidate .s0 w = some (.lea (fB w 18 6) (fB w 12 6) (fB w 6 6) (fB w 0 2)) := by
    show candScalar w = _
    unfold candScalar; rw [h]; rfl
  show candidate .s0 (mkW 0x1a (rd.toNat * 262144 + ra.toNat * 4096 + rb.toNat * 64 + sh.toNat)) = _
  rw [d _ (fN_op _ _ (by decide) (by omega))]
  rw [fB_eq 6 _ _ 18 rd (by decide) (by omega) (by omega),
    fB_eq 6 _ _ 12 ra (by decide) (by omega) (by omega),
    fB_eq 6 _ _ 6 rb (by decide) (by omega) (by omega),
    fB_eq 2 _ _ 0 sh (by decide) (by omega) (by omega)]

theorem sext (rd : BitVec 6) (ra : BitVec 6) (ew : ExtW) : Statement (.sext rd ra ew) := by
  intro sl hs _
  cases (show some Slot.s0 = some sl from hs)
  have d (w : BitVec 32) (h : fN w 24 8 = 0x1b) : candidate .s0 w = (ExtW.ofCode (fN w 0 6)).bind fun ew => some (.sext (fB w 18 6) (fB w 12 6) ew) := by
    show candScalar w = _
    unfold candScalar; rw [h]; rfl
  obtain ⟨e0, e1, e2, e3⟩ := fields3 0x1b (by decide) rd ra ew
  show candidate .s0 (mkW 0x1b (rd.toNat * 262144 + ra.toNat * 4096 + ew.code)) = _
  rw [d _ e0, e1, ExtW.ofCode_code ew, e2, e3]
  rfl

theorem zext (rd : BitVec 6) (ra : BitVec 6) (ew : ExtW) : Statement (.zext rd ra ew) := by
  intro sl hs _
  cases (show some Slot.s0 = some sl from hs)
  have d (w : BitVec 32) (h : fN w 24 8 = 0x1c) : candidate .s0 w = (ExtW.ofCode (fN w 0 6)).bind fun ew => some (.zext (fB w 18 6) (fB w 12 6) ew) := by
    show candScalar w = _
    unfold candScalar; rw [h]; rfl
  obtain ⟨e0, e1, e2, e3⟩ := fields3 0x1c (by decide) rd ra ew
  show candidate .s0 (mkW 0x1c (rd.toNat * 262144 + ra.toNat * 4096 + ew.code)) = _
  rw [d _ e0, e1, ExtW.ofCode_code ew, e2, e3]
  rfl

theorem addi (rd : BitVec 6) (ra : BitVec 6) (imm : BitVec 12) : Statement (.addi rd ra imm) := by
  intro sl hs _
  cases (show some Slot.s0 = some sl from hs)
  have d (w : BitVec 32) (h : fN w 24 8 = 0x20) : candidate .s0 w = some (.addi (fB w 18 6) (fB w 12 6) (fB w 0 12)) := by
    show candScalar w = _
    unfold candScalar; rw [h]; rfl
  obtain ⟨e0, e1, e2, e3⟩ := fields4 0x20 (by decide) rd ra imm
  show candidate .s0 (mkW 0x20 (rd.toNat * 262144 + ra.toNat * 4096 + imm.toNat)) = _
  rw [d _ e0, e1, e2, e3]

theorem andi (rd : BitVec 6) (ra : BitVec 6) (imm : BitVec 12) : Statement (.andi rd ra imm) := by
  intro sl hs _
  cases (show some Slot.s0 = some sl from hs)
  have d (w : BitVec 32) (h : fN w 24 8 = 0x21) : candidate .s0 w = some (.andi (fB w 18 6) (fB w 12 6) (fB w 0 12)) := by
    show candScalar w = _
    unfold candScalar; rw [h]; rfl
  obtain ⟨e0, e1, e2, e3⟩ := fields4 0x21 (by decide) rd ra imm
  show candidate .s0 (mkW 0x21 (rd.toNat * 262144 + ra.toNat * 4096 + imm.toNat)) = _
  rw [d _ e0, e1, e2, e3]

theorem ori (rd : BitVec 6) (ra : BitVec 6) (imm : BitVec 12) : Statement (.ori rd ra imm) := by
  intro sl hs _
  cases (show some Slot.s0 = some sl from hs)
  have d (w : BitVec 32) (h : fN w 24 8 = 0x22) : candidate .s0 w = some (.ori (fB w 18 6) (fB w 12 6) (fB w 0 12)) := by
    show candScalar w = _
    unfold candScalar; rw [h]; rfl
  obtain ⟨e0, e1, e2, e3⟩ := fields4 0x22 (by decide) rd ra imm
  show candidate .s0 (mkW 0x22 (rd.toNat * 262144 + ra.toNat * 4096 + imm.toNat)) = _
  rw [d _ e0, e1, e2, e3]

theorem xori (rd : BitVec 6) (ra : BitVec 6) (imm : BitVec 12) : Statement (.xori rd ra imm) := by
  intro sl hs _
  cases (show some Slot.s0 = some sl from hs)
  have d (w : BitVec 32) (h : fN w 24 8 = 0x23) : candidate .s0 w = some (.xori (fB w 18 6) (fB w 12 6) (fB w 0 12)) := by
    show candScalar w = _
    unfold candScalar; rw [h]; rfl
  obtain ⟨e0, e1, e2, e3⟩ := fields4 0x23 (by decide) rd ra imm
  show candidate .s0 (mkW 0x23 (rd.toNat * 262144 + ra.toNat * 4096 + imm.toNat)) = _
  rw [d _ e0, e1, e2, e3]

theorem shli (rd : BitVec 6) (ra : BitVec 6) (sh : BitVec 6) : Statement (.shli rd ra sh) := by
  intro sl hs _
  cases (show some Slot.s0 = some sl from hs)
  have d (w : BitVec 32) (h : fN w 24 8 = 0x24) : candidate .s0 w = some (.shli (fB w 18 6) (fB w 12 6) (fB w 0 6)) := by
    show candScalar w = _
    unfold candScalar; rw [h]; rfl
  obtain ⟨e0, e1, e2, e3⟩ := fields5 0x24 (by decide) rd ra sh
  show candidate .s0 (mkW 0x24 (rd.toNat * 262144 + ra.toNat * 4096 + sh.toNat)) = _
  rw [d _ e0, e1, e2, e3]

theorem shri (rd : BitVec 6) (ra : BitVec 6) (sh : BitVec 6) : Statement (.shri rd ra sh) := by
  intro sl hs _
  cases (show some Slot.s0 = some sl from hs)
  have d (w : BitVec 32) (h : fN w 24 8 = 0x25) : candidate .s0 w = some (.shri (fB w 18 6) (fB w 12 6) (fB w 0 6)) := by
    show candScalar w = _
    unfold candScalar; rw [h]; rfl
  obtain ⟨e0, e1, e2, e3⟩ := fields5 0x25 (by decide) rd ra sh
  show candidate .s0 (mkW 0x25 (rd.toNat * 262144 + ra.toNat * 4096 + sh.toNat)) = _
  rw [d _ e0, e1, e2, e3]

theorem srai (rd : BitVec 6) (ra : BitVec 6) (sh : BitVec 6) : Statement (.srai rd ra sh) := by
  intro sl hs _
  cases (show some Slot.s0 = some sl from hs)
  have d (w : BitVec 32) (h : fN w 24 8 = 0x26) : candidate .s0 w = some (.srai (fB w 18 6) (fB w 12 6) (fB w 0 6)) := by
    show candScalar w = _
    unfold candScalar; rw [h]; rfl
  obtain ⟨e0, e1, e2, e3⟩ := fields5 0x26 (by decide) rd ra sh
  show candidate .s0 (mkW 0x26 (rd.toNat * 262144 + ra.toNat * 4096 + sh.toNat)) = _
  rw [d _ e0, e1, e2, e3]

theorem movi (rd : BitVec 6) (imm : BitVec 18) : Statement (.movi rd imm) := by
  intro sl hs _
  cases (show some Slot.s0 = some sl from hs)
  have d (w : BitVec 32) (h : fN w 24 8 = 0x28) : candidate .s0 w = some (.movi (fB w 18 6) (fB w 0 18)) := by
    show candScalar w = _
    unfold candScalar; rw [h]; rfl
  obtain ⟨e0, e1, e2⟩ := fields6 0x28 (by decide) rd imm
  show candidate .s0 (mkW 0x28 (rd.toNat * 262144 + imm.toNat)) = _
  rw [d _ e0, e1, e2]

theorem movhi (rd : BitVec 6) (hw : BitVec 2) (imm : BitVec 16) : Statement (.movhi rd hw imm) := by
  intro sl hs _
  cases (show some Slot.s0 = some sl from hs)
  have := rd.isLt; have := hw.isLt; have := imm.isLt
  have d (w : BitVec 32) (h : fN w 24 8 = 0x29) : candidate .s0 w = some (.movhi (fB w 18 6) (fB w 16 2) (fB w 0 16)) := by
    show candScalar w = _
    unfold candScalar; rw [h]; rfl
  show candidate .s0 (mkW 0x29 (rd.toNat * 262144 + hw.toNat * 65536 + imm.toNat)) = _
  rw [d _ (fN_op _ _ (by decide) (by omega))]
  rw [fB_eq 6 _ _ 18 rd (by decide) (by omega) (by omega),
    fB_eq 2 _ _ 16 hw (by decide) (by omega) (by omega),
    fB_eq 16 _ _ 0 imm (by decide) (by omega) (by omega)]

theorem br (off : BitVec 19) : Statement (.br off) := by
  intro sl hs _
  cases (show some Slot.s1 = some sl from hs)
  have := off.isLt
  have d (w : BitVec 32) (h : fN w 24 8 = 0x40) : candidate .s1 w = some (.br (fB w 0 19)) := by
    show orElseI (candScalar w) (candControl w) = _
    unfold candScalar candControl; rw [h]; rfl
  show candidate .s1 (mkW 0x40 (off.toNat)) = _
  rw [d _ (fN_op _ _ (by decide) (by omega))]
  rw [fB_eq 19 _ _ 0 off (by decide) (by omega) (by omega)]

theorem brc (pc : BitVec 4) (neg : Bool) (off : BitVec 19) : Statement (.brc pc neg off) := by
  intro sl hs _
  cases (show some Slot.s1 = some sl from hs)
  have := pc.isLt; have := boolCode_lt neg; have := off.isLt
  have d (w : BitVec 32) (h : fN w 24 8 = 0x41) : candidate .s1 w = some (.brc (fB w 20 4) (fT w 19) (fB w 0 19)) := by
    show orElseI (candScalar w) (candControl w) = _
    unfold candScalar candControl; rw [h]; rfl
  show candidate .s1 (mkW 0x41 (pc.toNat * 1048576 + boolCode neg * 524288 + off.toNat)) = _
  rw [d _ (fN_op _ _ (by decide) (by omega))]
  rw [fB_eq 4 _ _ 20 pc (by decide) (by omega) (by omega),
    fT_eq _ _ 19 neg (by decide) (by omega) (by omega),
    fB_eq 19 _ _ 0 off (by decide) (by omega) (by omega)]

theorem call (rd : BitVec 6) (off : BitVec 18) : Statement (.call rd off) := by
  intro sl hs _
  cases (show some Slot.s1 = some sl from hs)
  have d (w : BitVec 32) (h : fN w 24 8 = 0x42) : candidate .s1 w = some (.call (fB w 18 6) (fB w 0 18)) := by
    show orElseI (candScalar w) (candControl w) = _
    unfold candScalar candControl; rw [h]; rfl
  obtain ⟨e0, e1, e2⟩ := fields6 0x42 (by decide) rd off
  show candidate .s1 (mkW 0x42 (rd.toNat * 262144 + off.toNat)) = _
  rw [d _ e0, e1, e2]

theorem ret (ra : BitVec 6) : Statement (.ret ra) := by
  intro sl hs _
  cases (show some Slot.s1 = some sl from hs)
  have d (w : BitVec 32) (h : fN w 24 8 = 0x43) : candidate .s1 w = some (.ret (fB w 12 6)) := by
    show orElseI (candScalar w) (candControl w) = _
    unfold candScalar candControl; rw [h]; rfl
  obtain ⟨e0, e1⟩ := fields7 0x43 (by decide) ra
  show candidate .s1 (mkW 0x43 (ra.toNat * 4096)) = _
  rw [d _ e0, e1]

theorem bktj (tbl : BitVec 2) (ra : BitVec 6) : Statement (.bktj tbl ra) := by
  intro sl hs _
  cases (show some Slot.s1 = some sl from hs)
  have d (w : BitVec 32) (h : fN w 24 8 = 0x44) : candidate .s1 w = some (.bktj (fB w 0 2) (fB w 12 6)) := by
    show orElseI (candScalar w) (candControl w) = _
    unfold candScalar candControl; rw [h]; rfl
  obtain ⟨e0, e1, e2⟩ := fields8 0x44 (by decide) tbl ra
  show candidate .s1 (mkW 0x44 (ra.toNat * 4096 + tbl.toNat)) = _
  rw [d _ e0, e1, e2]

theorem bktset (tbl : BitVec 2) (ra : BitVec 6) : Statement (.bktset tbl ra) := by
  intro sl hs _
  cases (show some Slot.s1 = some sl from hs)
  have d (w : BitVec 32) (h : fN w 24 8 = 0x45) : candidate .s1 w = some (.bktset (fB w 0 2) (fB w 12 6)) := by
    show orElseI (candScalar w) (candControl w) = _
    unfold candScalar candControl; rw [h]; rfl
  obtain ⟨e0, e1, e2⟩ := fields8 0x45 (by decide) tbl ra
  show candidate .s1 (mkW 0x45 (ra.toNat * 4096 + tbl.toNat)) = _
  rw [d _ e0, e1, e2]

theorem waitt (ra : BitVec 6) : Statement (.waitt ra) := by
  intro sl hs _
  cases (show some Slot.s1 = some sl from hs)
  have d (w : BitVec 32) (h : fN w 24 8 = 0x48) : candidate .s1 w = some (.waitt (fB w 12 6)) := by
    show orElseI (candScalar w) (candControl w) = _
    unfold candScalar candControl; rw [h]; rfl
  obtain ⟨e0, e1⟩ := fields7 0x48 (by decide) ra
  show candidate .s1 (mkW 0x48 (ra.toNat * 4096)) = _
  rw [d _ e0, e1]

theorem waitany (ra : BitVec 6) : Statement (.waitany ra) := by
  intro sl hs _
  cases (show some Slot.s1 = some sl from hs)
  have d (w : BitVec 32) (h : fN w 24 8 = 0x49) : candidate .s1 w = some (.waitany (fB w 12 6)) := by
    show orElseI (candScalar w) (candControl w) = _
    unfold candScalar candControl; rw [h]; rfl
  obtain ⟨e0, e1⟩ := fields7 0x49 (by decide) ra
  show candidate .s1 (mkW 0x49 (ra.toNat * 4096)) = _
  rw [d _ e0, e1]

theorem ffrdy (rd : BitVec 6) (ra : BitVec 6) : Statement (.ffrdy rd ra) := by
  intro sl hs _
  cases (show some Slot.s1 = some sl from hs)
  have d (w : BitVec 32) (h : fN w 24 8 = 0x4a) : candidate .s1 w = some (.ffrdy (fB w 18 6) (fB w 12 6)) := by
    show orElseI (candScalar w) (candControl w) = _
    unfold candScalar candControl; rw [h]; rfl
  obtain ⟨e0, e1, e2⟩ := fields2 0x4a (by decide) rd ra
  show candidate .s1 (mkW 0x4a (rd.toNat * 262144 + ra.toNat * 4096)) = _
  rw [d _ e0, e1, e2]

theorem rbwait (ring : BitVec 5) : Statement (.rbwait ring) := by
  intro sl hs _
  cases (show some Slot.s1 = some sl from hs)
  have d (w : BitVec 32) (h : fN w 24 8 = 0x4b) : candidate .s1 w = some (.rbwait (fB w 0 5)) := by
    show orElseI (candScalar w) (candControl w) = _
    unfold candScalar candControl; rw [h]; rfl
  obtain ⟨e0, e1⟩ := fields9 0x4b (by decide) ring
  show candidate .s1 (mkW 0x4b (ring.toNat)) = _
  rw [d _ e0, e1]

theorem yield  : Statement (.yield) := by
  intro sl hs _
  cases (show some Slot.s1 = some sl from hs)
  have d (w : BitVec 32) (h : fN w 24 8 = 0x4c) : candidate .s1 w = some .yield := by
    show orElseI (candScalar w) (candControl w) = _
    unfold candScalar candControl; rw [h]; rfl
  show candidate .s1 (mkW 0x4c (0)) = _
  rw [d _ (fN_op _ _ (by decide) (by omega))]
  

theorem spawn (ra : BitVec 6) : Statement (.spawn ra) := by
  intro sl hs _
  cases (show some Slot.s1 = some sl from hs)
  have d (w : BitVec 32) (h : fN w 24 8 = 0x4d) : candidate .s1 w = some (.spawn (fB w 12 6)) := by
    show orElseI (candScalar w) (candControl w) = _
    unfold candScalar candControl; rw [h]; rfl
  obtain ⟨e0, e1⟩ := fields7 0x4d (by decide) ra
  show candidate .s1 (mkW 0x4d (ra.toNat * 4096)) = _
  rw [d _ e0, e1]

theorem join (ra : BitVec 6) : Statement (.join ra) := by
  intro sl hs _
  cases (show some Slot.s1 = some sl from hs)
  have := ra.isLt
  have d (w : BitVec 32) (h : fN w 24 8 = 0x4e) : candidate .s1 w = if fN w 0 6 = 1 then some (.joinW (fB w 12 6)) else some (.join (fB w 12 6)) := by
    show orElseI (candScalar w) (candControl w) = _
    unfold candScalar candControl; rw [h]; rfl
  show candidate .s1 (mkW 0x4e (ra.toNat * 4096)) = _
  rw [d _ (fN_op _ _ (by decide) (by omega))]
  rw [fN_eq 6 _ _ 0 0 (by decide) (by omega) (by omega), fB_eq 6 _ _ 12 ra (by decide) (by omega) (by omega)]; rfl

theorem joinW (ra : BitVec 6) : Statement (.joinW ra) := by
  intro sl hs _
  cases (show some Slot.s1 = some sl from hs)
  have := ra.isLt
  have d (w : BitVec 32) (h : fN w 24 8 = 0x4e) : candidate .s1 w = if fN w 0 6 = 1 then some (.joinW (fB w 12 6)) else some (.join (fB w 12 6)) := by
    show orElseI (candScalar w) (candControl w) = _
    unfold candScalar candControl; rw [h]; rfl
  show candidate .s1 (mkW 0x4e (ra.toNat * 4096 + 1)) = _
  rw [d _ (fN_op _ _ (by decide) (by omega))]
  rw [fN_eq 6 _ _ 0 1 (by decide) (by omega) (by omega), fB_eq 6 _ _ 12 ra (by decide) (by omega) (by omega)]; rfl

theorem done  : Statement (.done) := by
  intro sl hs _
  cases (show some Slot.s1 = some sl from hs)
  have d (w : BitVec 32) (h : fN w 24 8 = 0x4f) : candidate .s1 w = some .done := by
    show orElseI (candScalar w) (candControl w) = _
    unfold candScalar candControl; rw [h]; rfl
  show candidate .s1 (mkW 0x4f (0)) = _
  rw [d _ (fN_op _ _ (by decide) (by omega))]
  

theorem trap (imm : BitVec 18) : Statement (.trap imm) := by
  intro sl hs _
  cases (show some Slot.s1 = some sl from hs)
  have := imm.isLt
  have d (w : BitVec 32) (h : fN w 24 8 = 0x50) : candidate .s1 w = some (.trap (fB w 0 18)) := by
    show orElseI (candScalar w) (candControl w) = _
    unfold candScalar candControl; rw [h]; rfl
  show candidate .s1 (mkW 0x50 (imm.toNat)) = _
  rw [d _ (fN_op _ _ (by decide) (by omega))]
  rw [fB_eq 18 _ _ 0 imm (by decide) (by omega) (by omega)]

theorem rfe  : Statement (.rfe) := by
  intro sl hs _
  cases (show some Slot.s1 = some sl from hs)
  have d (w : BitVec 32) (h : fN w 24 8 = 0x51) : candidate .s1 w = some .rfe := by
    show orElseI (candScalar w) (candControl w) = _
    unfold candScalar candControl; rw [h]; rfl
  show candidate .s1 (mkW 0x51 (0)) = _
  rw [d _ (fN_op _ _ (by decide) (by omega))]
  

theorem mfs (rd : BitVec 6) (n : BitVec 12) : Statement (.mfs rd n) := by
  intro sl hs _
  cases (show some Slot.s1 = some sl from hs)
  have := rd.isLt; have := n.isLt
  have d (w : BitVec 32) (h : fN w 24 8 = 0x52) : candidate .s1 w = some (.mfs (fB w 18 6) (fB w 0 12)) := by
    show orElseI (candScalar w) (candControl w) = _
    unfold candScalar candControl; rw [h]; rfl
  show candidate .s1 (mkW 0x52 (rd.toNat * 262144 + n.toNat)) = _
  rw [d _ (fN_op _ _ (by decide) (by omega))]
  rw [fB_eq 6 _ _ 18 rd (by decide) (by omega) (by omega),
    fB_eq 12 _ _ 0 n (by decide) (by omega) (by omega)]

theorem mts (n : BitVec 12) (ra : BitVec 6) : Statement (.mts n ra) := by
  intro sl hs hw
  cases (show some Slot.s1 = some sl from hs)
  have := n.isLt; have := ra.isLt
  have d (w : BitVec 32) (h : fN w 24 8 = 0x53) : candidate .s1 w = match fN w 0 12 with
      | 1 => some (.tagsWrite (fB w 12 6))
      | 2 => some (.fstatusWrite (fB w 12 6))
      | 3 => some (.fctlWrite (fB w 12 6))
      | 8 => some (.rowprogWrite (fB w 12 6))
      | _ => some (.mts (fB w 0 12) (fB w 12 6)) := by
    show orElseI (candScalar w) (candControl w) = _
    unfold candScalar candControl; rw [h]; rfl
  show candidate .s1 (mkW 0x53 (ra.toNat * 4096 + n.toNat)) = _
  rw [d _ (fN_op _ _ (by decide) (by omega))]
  rw [fN_eq 12 _ _ 0 n.toNat (by decide) (by omega) (by omega), fB_eq 6 _ _ 12 ra (by decide) (by omega) (by omega)]
  rw [fB_eq 12 _ _ 0 n (by decide) (by omega) (by omega)]
  exact notOwn n ra hw

theorem tagsWrite (ra : BitVec 6) : Statement (.tagsWrite ra) := by
  intro sl hs _
  cases (show some Slot.s1 = some sl from hs)
  have := ra.isLt
  have d (w : BitVec 32) (h : fN w 24 8 = 0x53) : candidate .s1 w = match fN w 0 12 with
      | 1 => some (.tagsWrite (fB w 12 6))
      | 2 => some (.fstatusWrite (fB w 12 6))
      | 3 => some (.fctlWrite (fB w 12 6))
      | 8 => some (.rowprogWrite (fB w 12 6))
      | _ => some (.mts (fB w 0 12) (fB w 12 6)) := by
    show orElseI (candScalar w) (candControl w) = _
    unfold candScalar candControl; rw [h]; rfl
  show candidate .s1 (mkW 0x53 (ra.toNat * 4096 + 1)) = _
  rw [d _ (fN_op _ _ (by decide) (by omega))]
  rw [fN_eq 12 _ _ 0 1 (by decide) (by omega) (by omega), fB_eq 6 _ _ 12 ra (by decide) (by omega) (by omega)]; rfl

theorem fstatusWrite (ra : BitVec 6) : Statement (.fstatusWrite ra) := by
  intro sl hs _
  cases (show some Slot.s1 = some sl from hs)
  have := ra.isLt
  have d (w : BitVec 32) (h : fN w 24 8 = 0x53) : candidate .s1 w = match fN w 0 12 with
      | 1 => some (.tagsWrite (fB w 12 6))
      | 2 => some (.fstatusWrite (fB w 12 6))
      | 3 => some (.fctlWrite (fB w 12 6))
      | 8 => some (.rowprogWrite (fB w 12 6))
      | _ => some (.mts (fB w 0 12) (fB w 12 6)) := by
    show orElseI (candScalar w) (candControl w) = _
    unfold candScalar candControl; rw [h]; rfl
  show candidate .s1 (mkW 0x53 (ra.toNat * 4096 + 2)) = _
  rw [d _ (fN_op _ _ (by decide) (by omega))]
  rw [fN_eq 12 _ _ 0 2 (by decide) (by omega) (by omega), fB_eq 6 _ _ 12 ra (by decide) (by omega) (by omega)]; rfl

theorem fctlWrite (ra : BitVec 6) : Statement (.fctlWrite ra) := by
  intro sl hs _
  cases (show some Slot.s1 = some sl from hs)
  have := ra.isLt
  have d (w : BitVec 32) (h : fN w 24 8 = 0x53) : candidate .s1 w = match fN w 0 12 with
      | 1 => some (.tagsWrite (fB w 12 6))
      | 2 => some (.fstatusWrite (fB w 12 6))
      | 3 => some (.fctlWrite (fB w 12 6))
      | 8 => some (.rowprogWrite (fB w 12 6))
      | _ => some (.mts (fB w 0 12) (fB w 12 6)) := by
    show orElseI (candScalar w) (candControl w) = _
    unfold candScalar candControl; rw [h]; rfl
  show candidate .s1 (mkW 0x53 (ra.toNat * 4096 + 3)) = _
  rw [d _ (fN_op _ _ (by decide) (by omega))]
  rw [fN_eq 12 _ _ 0 3 (by decide) (by omega) (by omega), fB_eq 6 _ _ 12 ra (by decide) (by omega) (by omega)]; rfl

theorem rowprogWrite (ra : BitVec 6) : Statement (.rowprogWrite ra) := by
  intro sl hs _
  cases (show some Slot.s1 = some sl from hs)
  have := ra.isLt
  have d (w : BitVec 32) (h : fN w 24 8 = 0x53) : candidate .s1 w = match fN w 0 12 with
      | 1 => some (.tagsWrite (fB w 12 6))
      | 2 => some (.fstatusWrite (fB w 12 6))
      | 3 => some (.fctlWrite (fB w 12 6))
      | 8 => some (.rowprogWrite (fB w 12 6))
      | _ => some (.mts (fB w 0 12) (fB w 12 6)) := by
    show orElseI (candScalar w) (candControl w) = _
    unfold candScalar candControl; rw [h]; rfl
  show candidate .s1 (mkW 0x53 (ra.toNat * 4096 + 8)) = _
  rw [d _ (fN_op _ _ (by decide) (by omega))]
  rw [fN_eq 12 _ _ 0 8 (by decide) (by omega) (by omega), fB_eq 6 _ _ 12 ra (by decide) (by omega) (by omega)]; rfl

theorem keyselGen (ra : BitVec 6) : Statement (.keyselGen ra) := by
  intro sl hs _
  cases (show some Slot.s1 = some sl from hs)
  have := ra.isLt
  have d (w : BitVec 32) (h : fN w 24 8 = 0x54) : candidate .s1 w = if fN w 0 6 = 1 then some (.keyselKill (fB w 12 6)) else some (.keyselGen (fB w 12 6)) := by
    show orElseI (candScalar w) (candControl w) = _
    unfold candScalar candControl; rw [h]; rfl
  show candidate .s1 (mkW 0x54 (ra.toNat * 4096)) = _
  rw [d _ (fN_op _ _ (by decide) (by omega))]
  rw [fN_eq 6 _ _ 0 0 (by decide) (by omega) (by omega), fB_eq 6 _ _ 12 ra (by decide) (by omega) (by omega)]; rfl

theorem keyselKill (ra : BitVec 6) : Statement (.keyselKill ra) := by
  intro sl hs _
  cases (show some Slot.s1 = some sl from hs)
  have := ra.isLt
  have d (w : BitVec 32) (h : fN w 24 8 = 0x54) : candidate .s1 w = if fN w 0 6 = 1 then some (.keyselKill (fB w 12 6)) else some (.keyselGen (fB w 12 6)) := by
    show orElseI (candScalar w) (candControl w) = _
    unfold candScalar candControl; rw [h]; rfl
  show candidate .s1 (mkW 0x54 (ra.toNat * 4096 + 1)) = _
  rw [d _ (fN_op _ _ (by decide) (by omega))]
  rw [fN_eq 6 _ _ 0 1 (by decide) (by omega) (by omega), fB_eq 6 _ _ 12 ra (by decide) (by omega) (by omega)]; rfl

theorem halt (ra : BitVec 6) : Statement (.halt ra) := by
  intro sl hs _
  cases (show some Slot.s1 = some sl from hs)
  have d (w : BitVec 32) (h : fN w 24 8 = 0x55) : candidate .s1 w = some (.halt (fB w 12 6)) := by
    show orElseI (candScalar w) (candControl w) = _
    unfold candScalar candControl; rw [h]; rfl
  obtain ⟨e0, e1⟩ := fields7 0x55 (by decide) ra
  show candidate .s1 (mkW 0x55 (ra.toNat * 4096)) = _
  rw [d _ e0, e1]

theorem ckwait  : Statement (.ckwait) := by
  intro sl hs _
  cases (show some Slot.s1 = some sl from hs)
  have d (w : BitVec 32) (h : fN w 24 8 = 0x56) : candidate .s1 w = some .ckwait := by
    show orElseI (candScalar w) (candControl w) = _
    unfold candScalar candControl; rw [h]; rfl
  show candidate .s1 (mkW 0x56 (0)) = _
  rw [d _ (fN_op _ _ (by decide) (by omega))]
  

theorem vadd (fmt : Fmt) (rm : RM) (vd : BitVec 6) (va : BitVec 6) (vb : BitVec 6) : Statement (.vadd fmt rm vd va vb) := by
  intro sl hs _
  cases (show some Slot.v0 = some sl from hs)
  have d (w : BitVec 32) (h : fN w 24 8 = 0x1) : candidate .v0 w = (Fmt.ofCode (fN w 3 3)).bind fun fmt => (RM.ofCode (fN w 0 3)).bind fun rm => some (.vadd fmt rm (fB w 18 6) (fB w 12 6) (fB w 6 6)) := by
    show candVector w = _
    unfold candVector; rw [h]; rfl
  obtain ⟨e0, e1, e2, e3, e4, e5⟩ := fields10 0x1 (by decide) fmt rm vd va vb
  show candidate .v0 (mkW 0x1 (vd.toNat * 262144 + va.toNat * 4096 + vb.toNat * 64 + fmt.code * 8 + rm.code)) = _
  rw [d _ e0, e1, Fmt.ofCode_code fmt, e2, RM.ofCode_code rm, e3, e4, e5]
  rfl

theorem vsub (fmt : Fmt) (rm : RM) (vd : BitVec 6) (va : BitVec 6) (vb : BitVec 6) : Statement (.vsub fmt rm vd va vb) := by
  intro sl hs _
  cases (show some Slot.v0 = some sl from hs)
  have d (w : BitVec 32) (h : fN w 24 8 = 0x2) : candidate .v0 w = (Fmt.ofCode (fN w 3 3)).bind fun fmt => (RM.ofCode (fN w 0 3)).bind fun rm => some (.vsub fmt rm (fB w 18 6) (fB w 12 6) (fB w 6 6)) := by
    show candVector w = _
    unfold candVector; rw [h]; rfl
  obtain ⟨e0, e1, e2, e3, e4, e5⟩ := fields10 0x2 (by decide) fmt rm vd va vb
  show candidate .v0 (mkW 0x2 (vd.toNat * 262144 + va.toNat * 4096 + vb.toNat * 64 + fmt.code * 8 + rm.code)) = _
  rw [d _ e0, e1, Fmt.ofCode_code fmt, e2, RM.ofCode_code rm, e3, e4, e5]
  rfl

theorem vmul (fmt : Fmt) (rm : RM) (vd : BitVec 6) (va : BitVec 6) (vb : BitVec 6) : Statement (.vmul fmt rm vd va vb) := by
  intro sl hs _
  cases (show some Slot.v0 = some sl from hs)
  have d (w : BitVec 32) (h : fN w 24 8 = 0x3) : candidate .v0 w = (Fmt.ofCode (fN w 3 3)).bind fun fmt => (RM.ofCode (fN w 0 3)).bind fun rm => some (.vmul fmt rm (fB w 18 6) (fB w 12 6) (fB w 6 6)) := by
    show candVector w = _
    unfold candVector; rw [h]; rfl
  obtain ⟨e0, e1, e2, e3, e4, e5⟩ := fields10 0x3 (by decide) fmt rm vd va vb
  show candidate .v0 (mkW 0x3 (vd.toNat * 262144 + va.toNat * 4096 + vb.toNat * 64 + fmt.code * 8 + rm.code)) = _
  rw [d _ e0, e1, Fmt.ofCode_code fmt, e2, RM.ofCode_code rm, e3, e4, e5]
  rfl

theorem vfma (fmt : Fmt) (rm : RM) (vd : BitVec 6) (va : BitVec 6) (vb : BitVec 6) : Statement (.vfma fmt rm vd va vb) := by
  intro sl hs _
  cases (show some Slot.v0 = some sl from hs)
  have d (w : BitVec 32) (h : fN w 24 8 = 0x4) : candidate .v0 w = (Fmt.ofCode (fN w 3 3)).bind fun fmt => (RM.ofCode (fN w 0 3)).bind fun rm => some (.vfma fmt rm (fB w 18 6) (fB w 12 6) (fB w 6 6)) := by
    show candVector w = _
    unfold candVector; rw [h]; rfl
  obtain ⟨e0, e1, e2, e3, e4, e5⟩ := fields10 0x4 (by decide) fmt rm vd va vb
  show candidate .v0 (mkW 0x4 (vd.toNat * 262144 + va.toNat * 4096 + vb.toNat * 64 + fmt.code * 8 + rm.code)) = _
  rw [d _ e0, e1, Fmt.ofCode_code fmt, e2, RM.ofCode_code rm, e3, e4, e5]
  rfl

theorem vfms (fmt : Fmt) (rm : RM) (vd : BitVec 6) (va : BitVec 6) (vb : BitVec 6) : Statement (.vfms fmt rm vd va vb) := by
  intro sl hs _
  cases (show some Slot.v0 = some sl from hs)
  have d (w : BitVec 32) (h : fN w 24 8 = 0x5) : candidate .v0 w = (Fmt.ofCode (fN w 3 3)).bind fun fmt => (RM.ofCode (fN w 0 3)).bind fun rm => some (.vfms fmt rm (fB w 18 6) (fB w 12 6) (fB w 6 6)) := by
    show candVector w = _
    unfold candVector; rw [h]; rfl
  obtain ⟨e0, e1, e2, e3, e4, e5⟩ := fields10 0x5 (by decide) fmt rm vd va vb
  show candidate .v0 (mkW 0x5 (vd.toNat * 262144 + va.toNat * 4096 + vb.toNat * 64 + fmt.code * 8 + rm.code)) = _
  rw [d _ e0, e1, Fmt.ofCode_code fmt, e2, RM.ofCode_code rm, e3, e4, e5]
  rfl

theorem vfnma (fmt : Fmt) (rm : RM) (vd : BitVec 6) (va : BitVec 6) (vb : BitVec 6) : Statement (.vfnma fmt rm vd va vb) := by
  intro sl hs _
  cases (show some Slot.v0 = some sl from hs)
  have d (w : BitVec 32) (h : fN w 24 8 = 0x6) : candidate .v0 w = (Fmt.ofCode (fN w 3 3)).bind fun fmt => (RM.ofCode (fN w 0 3)).bind fun rm => some (.vfnma fmt rm (fB w 18 6) (fB w 12 6) (fB w 6 6)) := by
    show candVector w = _
    unfold candVector; rw [h]; rfl
  obtain ⟨e0, e1, e2, e3, e4, e5⟩ := fields10 0x6 (by decide) fmt rm vd va vb
  show candidate .v0 (mkW 0x6 (vd.toNat * 262144 + va.toNat * 4096 + vb.toNat * 64 + fmt.code * 8 + rm.code)) = _
  rw [d _ e0, e1, Fmt.ofCode_code fmt, e2, RM.ofCode_code rm, e3, e4, e5]
  rfl

theorem vmin (fmt : Fmt) (vd : BitVec 6) (va : BitVec 6) (vb : BitVec 6) : Statement (.vmin fmt vd va vb) := by
  intro sl hs _
  cases (show some Slot.v0 = some sl from hs)
  have d (w : BitVec 32) (h : fN w 24 8 = 0x7) : candidate .v0 w = (Fmt.ofCode (fN w 3 3)).bind fun fmt => some (.vmin fmt (fB w 18 6) (fB w 12 6) (fB w 6 6)) := by
    show candVector w = _
    unfold candVector; rw [h]; rfl
  obtain ⟨e0, e1, e2, e3, e4⟩ := fields11 0x7 (by decide) fmt vd va vb
  show candidate .v0 (mkW 0x7 (vd.toNat * 262144 + va.toNat * 4096 + vb.toNat * 64 + fmt.code * 8)) = _
  rw [d _ e0, e1, Fmt.ofCode_code fmt, e2, e3, e4]
  rfl

theorem vmax (fmt : Fmt) (vd : BitVec 6) (va : BitVec 6) (vb : BitVec 6) : Statement (.vmax fmt vd va vb) := by
  intro sl hs _
  cases (show some Slot.v0 = some sl from hs)
  have d (w : BitVec 32) (h : fN w 24 8 = 0x8) : candidate .v0 w = (Fmt.ofCode (fN w 3 3)).bind fun fmt => some (.vmax fmt (fB w 18 6) (fB w 12 6) (fB w 6 6)) := by
    show candVector w = _
    unfold candVector; rw [h]; rfl
  obtain ⟨e0, e1, e2, e3, e4⟩ := fields11 0x8 (by decide) fmt vd va vb
  show candidate .v0 (mkW 0x8 (vd.toNat * 262144 + va.toNat * 4096 + vb.toNat * 64 + fmt.code * 8)) = _
  rw [d _ e0, e1, Fmt.ofCode_code fmt, e2, e3, e4]
  rfl

theorem vabs (fmt : Fmt) (vd : BitVec 6) (va : BitVec 6) : Statement (.vabs fmt vd va) := by
  intro sl hs _
  cases (show some Slot.v0 = some sl from hs)
  have d (w : BitVec 32) (h : fN w 24 8 = 0x9) : candidate .v0 w = (Fmt.ofCode (fN w 3 3)).bind fun fmt => some (.vabs fmt (fB w 18 6) (fB w 12 6)) := by
    show candVector w = _
    unfold candVector; rw [h]; rfl
  obtain ⟨e0, e1, e2, e3⟩ := fields12 0x9 (by decide) fmt vd va
  show candidate .v0 (mkW 0x9 (vd.toNat * 262144 + va.toNat * 4096 + fmt.code * 8)) = _
  rw [d _ e0, e1, Fmt.ofCode_code fmt, e2, e3]
  rfl

theorem vneg (fmt : Fmt) (vd : BitVec 6) (va : BitVec 6) : Statement (.vneg fmt vd va) := by
  intro sl hs _
  cases (show some Slot.v0 = some sl from hs)
  have d (w : BitVec 32) (h : fN w 24 8 = 0xa) : candidate .v0 w = (Fmt.ofCode (fN w 3 3)).bind fun fmt => some (.vneg fmt (fB w 18 6) (fB w 12 6)) := by
    show candVector w = _
    unfold candVector; rw [h]; rfl
  obtain ⟨e0, e1, e2, e3⟩ := fields12 0xa (by decide) fmt vd va
  show candidate .v0 (mkW 0xa (vd.toNat * 262144 + va.toNat * 4096 + fmt.code * 8)) = _
  rw [d _ e0, e1, Fmt.ofCode_code fmt, e2, e3]
  rfl

theorem vand (vd : BitVec 6) (va : BitVec 6) (vb : BitVec 6) : Statement (.vand vd va vb) := by
  intro sl hs _
  cases (show some Slot.v0 = some sl from hs)
  have d (w : BitVec 32) (h : fN w 24 8 = 0xb) : candidate .v0 w = some (.vand (fB w 18 6) (fB w 12 6) (fB w 6 6)) := by
    show candVector w = _
    unfold candVector; rw [h]; rfl
  obtain ⟨e0, e1, e2, e3⟩ := fields13 0xb (by decide) vd va vb
  show candidate .v0 (mkW 0xb (vd.toNat * 262144 + va.toNat * 4096 + vb.toNat * 64 + 24)) = _
  rw [d _ e0, e1, e2, e3]

theorem vor (vd : BitVec 6) (va : BitVec 6) (vb : BitVec 6) : Statement (.vor vd va vb) := by
  intro sl hs _
  cases (show some Slot.v0 = some sl from hs)
  have d (w : BitVec 32) (h : fN w 24 8 = 0xc) : candidate .v0 w = some (.vor (fB w 18 6) (fB w 12 6) (fB w 6 6)) := by
    show candVector w = _
    unfold candVector; rw [h]; rfl
  obtain ⟨e0, e1, e2, e3⟩ := fields13 0xc (by decide) vd va vb
  show candidate .v0 (mkW 0xc (vd.toNat * 262144 + va.toNat * 4096 + vb.toNat * 64 + 24)) = _
  rw [d _ e0, e1, e2, e3]

theorem vxor (vd : BitVec 6) (va : BitVec 6) (vb : BitVec 6) : Statement (.vxor vd va vb) := by
  intro sl hs _
  cases (show some Slot.v0 = some sl from hs)
  have d (w : BitVec 32) (h : fN w 24 8 = 0xd) : candidate .v0 w = some (.vxor (fB w 18 6) (fB w 12 6) (fB w 6 6)) := by
    show candVector w = _
    unfold candVector; rw [h]; rfl
  obtain ⟨e0, e1, e2, e3⟩ := fields13 0xd (by decide) vd va vb
  show candidate .v0 (mkW 0xd (vd.toNat * 262144 + va.toNat * 4096 + vb.toNat * 64 + 24)) = _
  rw [d _ e0, e1, e2, e3]

theorem vshl (fmt : IFmt) (vd : BitVec 6) (va : BitVec 6) (vb : BitVec 6) : Statement (.vshl fmt vd va vb) := by
  intro sl hs _
  cases (show some Slot.v0 = some sl from hs)
  have d (w : BitVec 32) (h : fN w 24 8 = 0xe) : candidate .v0 w = (IFmt.ofCode (fN w 3 3)).bind fun fmt => some (.vshl fmt (fB w 18 6) (fB w 12 6) (fB w 6 6)) := by
    show candVector w = _
    unfold candVector; rw [h]; rfl
  obtain ⟨e0, e1, e2, e3, e4⟩ := fields14 0xe (by decide) fmt vd va vb
  show candidate .v0 (mkW 0xe (vd.toNat * 262144 + va.toNat * 4096 + vb.toNat * 64 + fmt.code * 8)) = _
  rw [d _ e0, e1, IFmt.ofCode_code fmt, e2, e3, e4]
  rfl

theorem vshr (fmt : IFmt) (vd : BitVec 6) (va : BitVec 6) (vb : BitVec 6) : Statement (.vshr fmt vd va vb) := by
  intro sl hs _
  cases (show some Slot.v0 = some sl from hs)
  have d (w : BitVec 32) (h : fN w 24 8 = 0xf) : candidate .v0 w = (IFmt.ofCode (fN w 3 3)).bind fun fmt => some (.vshr fmt (fB w 18 6) (fB w 12 6) (fB w 6 6)) := by
    show candVector w = _
    unfold candVector; rw [h]; rfl
  obtain ⟨e0, e1, e2, e3, e4⟩ := fields14 0xf (by decide) fmt vd va vb
  show candidate .v0 (mkW 0xf (vd.toNat * 262144 + va.toNat * 4096 + vb.toNat * 64 + fmt.code * 8)) = _
  rw [d _ e0, e1, IFmt.ofCode_code fmt, e2, e3, e4]
  rfl

theorem vsra (fmt : IFmt) (vd : BitVec 6) (va : BitVec 6) (vb : BitVec 6) : Statement (.vsra fmt vd va vb) := by
  intro sl hs _
  cases (show some Slot.v0 = some sl from hs)
  have d (w : BitVec 32) (h : fN w 24 8 = 0x10) : candidate .v0 w = (IFmt.ofCode (fN w 3 3)).bind fun fmt => some (.vsra fmt (fB w 18 6) (fB w 12 6) (fB w 6 6)) := by
    show candVector w = _
    unfold candVector; rw [h]; rfl
  obtain ⟨e0, e1, e2, e3, e4⟩ := fields14 0x10 (by decide) fmt vd va vb
  show candidate .v0 (mkW 0x10 (vd.toNat * 262144 + va.toNat * 4096 + vb.toNat * 64 + fmt.code * 8)) = _
  rw [d _ e0, e1, IFmt.ofCode_code fmt, e2, e3, e4]
  rfl

theorem vadds (fmt : IFmt) (vd : BitVec 6) (va : BitVec 6) (vb : BitVec 6) : Statement (.vadds fmt vd va vb) := by
  intro sl hs _
  cases (show some Slot.v0 = some sl from hs)
  have d (w : BitVec 32) (h : fN w 24 8 = 0x11) : candidate .v0 w = (IFmt.ofCode (fN w 3 3)).bind fun fmt => some (.vadds fmt (fB w 18 6) (fB w 12 6) (fB w 6 6)) := by
    show candVector w = _
    unfold candVector; rw [h]; rfl
  obtain ⟨e0, e1, e2, e3, e4⟩ := fields14 0x11 (by decide) fmt vd va vb
  show candidate .v0 (mkW 0x11 (vd.toNat * 262144 + va.toNat * 4096 + vb.toNat * 64 + fmt.code * 8)) = _
  rw [d _ e0, e1, IFmt.ofCode_code fmt, e2, e3, e4]
  rfl

theorem vsubs (fmt : IFmt) (vd : BitVec 6) (va : BitVec 6) (vb : BitVec 6) : Statement (.vsubs fmt vd va vb) := by
  intro sl hs _
  cases (show some Slot.v0 = some sl from hs)
  have d (w : BitVec 32) (h : fN w 24 8 = 0x12) : candidate .v0 w = (IFmt.ofCode (fN w 3 3)).bind fun fmt => some (.vsubs fmt (fB w 18 6) (fB w 12 6) (fB w 6 6)) := by
    show candVector w = _
    unfold candVector; rw [h]; rfl
  obtain ⟨e0, e1, e2, e3, e4⟩ := fields14 0x12 (by decide) fmt vd va vb
  show candidate .v0 (mkW 0x12 (vd.toNat * 262144 + va.toNat * 4096 + vb.toNat * 64 + fmt.code * 8)) = _
  rw [d _ e0, e1, IFmt.ofCode_code fmt, e2, e3, e4]
  rfl

theorem vcmp (cc : VCond) (fmt : Fmt) (pd : BitVec 4) (va : BitVec 6) (vb : BitVec 6) : Statement (.vcmp cc fmt pd va vb) := by
  intro sl hs _
  cases (show some Slot.v0 = some sl from hs)
  have := cc.code_lt; have := fmt.code_lt; have := pd.isLt; have := va.isLt; have := vb.isLt
  have d (w : BitVec 32) (h : fN w 24 8 = 0x13) : candidate .v0 w = (VCond.ofCode (fN w 0 3)).bind fun cc => (Fmt.ofCode (fN w 3 3)).bind fun fmt => some (.vcmp cc fmt (fB w 18 4) (fB w 12 6) (fB w 6 6)) := by
    show candVector w = _
    unfold candVector; rw [h]; rfl
  show candidate .v0 (mkW 0x13 (pd.toNat * 262144 + va.toNat * 4096 + vb.toNat * 64 + fmt.code * 8 + cc.code)) = _
  rw [d _ (fN_op _ _ (by decide) (by omega))]
  rw [fN_eq 3 _ _ 0 cc.code (by decide) (by omega) (by omega),
    VCond.ofCode_code cc,
    fN_eq 3 _ _ 3 fmt.code (by decide) (by omega) (by omega),
    Fmt.ofCode_code fmt,
    fB_eq 4 _ _ 18 pd (by decide) (by omega) (by omega),
    fB_eq 6 _ _ 12 va (by decide) (by omega) (by omega),
    fB_eq 6 _ _ 6 vb (by decide) (by omega) (by omega)]
  rfl

theorem vsel (vd : BitVec 6) (va : BitVec 6) (vb : BitVec 6) (pc : BitVec 4) : Statement (.vsel vd va vb pc) := by
  intro sl hs _
  cases (show some Slot.v0 = some sl from hs)
  have := vd.isLt; have := va.isLt; have := vb.isLt; have := pc.isLt
  have d (w : BitVec 32) (h : fN w 24 8 = 0x14) : candidate .v0 w = some (.vsel (fB w 18 6) (fB w 12 6) (fB w 6 6) (fB w 2 4)) := by
    show candVector w = _
    unfold candVector; rw [h]; rfl
  show candidate .v0 (mkW 0x14 (vd.toNat * 262144 + va.toNat * 4096 + vb.toNat * 64 + pc.toNat * 4)) = _
  rw [d _ (fN_op _ _ (by decide) (by omega))]
  rw [fB_eq 6 _ _ 18 vd (by decide) (by omega) (by omega),
    fB_eq 6 _ _ 12 va (by decide) (by omega) (by omega),
    fB_eq 6 _ _ 6 vb (by decide) (by omega) (by omega),
    fB_eq 4 _ _ 2 pc (by decide) (by omega) (by omega)]

theorem vmov (vd : BitVec 6) (va : BitVec 6) : Statement (.vmov vd va) := by
  intro sl hs _
  cases (show some Slot.v0 = some sl from hs)
  have d (w : BitVec 32) (h : fN w 24 8 = 0x15) : candidate .v0 w = some (.vmov (fB w 18 6) (fB w 12 6)) := by
    show candVector w = _
    unfold candVector; rw [h]; rfl
  obtain ⟨e0, e1, e2⟩ := fields2 0x15 (by decide) vd va
  show candidate .v0 (mkW 0x15 (vd.toNat * 262144 + va.toNat * 4096)) = _
  rw [d _ e0, e1, e2]

theorem vbcst (vd : BitVec 6) (ra : BitVec 6) : Statement (.vbcst vd ra) := by
  intro sl hs _
  cases (show some Slot.v0 = some sl from hs)
  have d (w : BitVec 32) (h : fN w 24 8 = 0x16) : candidate .v0 w = some (.vbcst (fB w 18 6) (fB w 12 6)) := by
    show candVector w = _
    unfold candVector; rw [h]; rfl
  obtain ⟨e0, e1, e2⟩ := fields2 0x16 (by decide) vd ra
  show candidate .v0 (mkW 0x16 (vd.toNat * 262144 + ra.toNat * 4096)) = _
  rw [d _ e0, e1, e2]

theorem vext (rd : BitVec 6) (va : BitVec 6) (rb : BitVec 6) : Statement (.vext rd va rb) := by
  intro sl hs _
  cases (show some Slot.v0 = some sl from hs)
  have d (w : BitVec 32) (h : fN w 24 8 = 0x17) : candidate .v0 w = some (.vext (fB w 18 6) (fB w 12 6) (fB w 6 6)) := by
    show candVector w = _
    unfold candVector; rw [h]; rfl
  obtain ⟨e0, e1, e2, e3⟩ := fields1 0x17 (by decide) rd va rb
  show candidate .v0 (mkW 0x17 (rd.toNat * 262144 + va.toNat * 4096 + rb.toNat * 64)) = _
  rw [d _ e0, e1, e2, e3]

theorem vins (vd : BitVec 6) (ra : BitVec 6) (rb : BitVec 6) : Statement (.vins vd ra rb) := by
  intro sl hs _
  cases (show some Slot.v0 = some sl from hs)
  have d (w : BitVec 32) (h : fN w 24 8 = 0x18) : candidate .v0 w = some (.vins (fB w 18 6) (fB w 12 6) (fB w 6 6)) := by
    show candVector w = _
    unfold candVector; rw [h]; rfl
  obtain ⟨e0, e1, e2, e3⟩ := fields1 0x18 (by decide) vd ra rb
  show candidate .v0 (mkW 0x18 (vd.toNat * 262144 + ra.toNat * 4096 + rb.toNat * 64)) = _
  rw [d _ e0, e1, e2, e3]

theorem viota (vd : BitVec 6) : Statement (.viota vd) := by
  intro sl hs _
  cases (show some Slot.v0 = some sl from hs)
  have d (w : BitVec 32) (h : fN w 24 8 = 0x19) : candidate .v0 w = some (.viota (fB w 18 6)) := by
    show candVector w = _
    unfold candVector; rw [h]; rfl
  obtain ⟨e0, e1⟩ := fields15 0x19 (by decide) vd
  show candidate .v0 (mkW 0x19 (vd.toNat * 262144)) = _
  rw [d _ e0, e1]

theorem vcvt (fmt : Fmt) (rm : RM) (sfmt : Fmt) (vd : BitVec 6) (va : BitVec 6) : Statement (.vcvt fmt rm sfmt vd va) := by
  intro sl hs _
  cases (show some Slot.v0 = some sl from hs)
  have := fmt.code_lt; have := rm.code_lt; have := sfmt.code_lt; have := vd.isLt; have := va.isLt
  have d (w : BitVec 32) (h : fN w 24 8 = 0x1a) : candidate .v0 w = (Fmt.ofCode (fN w 3 3)).bind fun fmt => (RM.ofCode (fN w 0 3)).bind fun rm => (Fmt.ofCode (fN w 9 3)).bind fun sfmt => some (.vcvt fmt rm sfmt (fB w 18 6) (fB w 12 6)) := by
    show candVector w = _
    unfold candVector; rw [h]; rfl
  show candidate .v0 (mkW 0x1a (vd.toNat * 262144 + va.toNat * 4096 + sfmt.code * 512 + fmt.code * 8 + rm.code)) = _
  rw [d _ (fN_op _ _ (by decide) (by omega))]
  rw [fN_eq 3 _ _ 3 fmt.code (by decide) (by omega) (by omega),
    Fmt.ofCode_code fmt,
    fN_eq 3 _ _ 0 rm.code (by decide) (by omega) (by omega),
    RM.ofCode_code rm,
    fN_eq 3 _ _ 9 sfmt.code (by decide) (by omega) (by omega),
    Fmt.ofCode_code sfmt,
    fB_eq 6 _ _ 18 vd (by decide) (by omega) (by omega),
    fB_eq 6 _ _ 12 va (by decide) (by omega) (by omega)]
  rfl

theorem vcmpr (vd : BitVec 6) (va : BitVec 6) (pb : BitVec 4) : Statement (.vcmpr vd va pb) := by
  intro sl hs _
  cases (show some Slot.v0 = some sl from hs)
  have d (w : BitVec 32) (h : fN w 24 8 = 0x1b) : candidate .v0 w = some (.vcmpr (fB w 18 6) (fB w 12 6) (fB w 6 4)) := by
    show candVector w = _
    unfold candVector; rw [h]; rfl
  obtain ⟨e0, e1, e2, e3⟩ := fields16 0x1b (by decide) vd va pb
  show candidate .v0 (mkW 0x1b (vd.toNat * 262144 + va.toNat * 4096 + pb.toNat * 64)) = _
  rw [d _ e0, e1, e2, e3]

theorem vexpd (vd : BitVec 6) (va : BitVec 6) (pb : BitVec 4) : Statement (.vexpd vd va pb) := by
  intro sl hs _
  cases (show some Slot.v0 = some sl from hs)
  have d (w : BitVec 32) (h : fN w 24 8 = 0x1c) : candidate .v0 w = some (.vexpd (fB w 18 6) (fB w 12 6) (fB w 6 4)) := by
    show candVector w = _
    unfold candVector; rw [h]; rfl
  obtain ⟨e0, e1, e2, e3⟩ := fields16 0x1c (by decide) vd va pb
  show candidate .v0 (mkW 0x1c (vd.toNat * 262144 + va.toNat * 4096 + pb.toNat * 64)) = _
  rw [d _ e0, e1, e2, e3]

theorem vrsum (fmt : Fmt) (rm : RM) (rd : BitVec 6) (va : BitVec 6) (pb : BitVec 4) : Statement (.vrsum fmt rm rd va pb) := by
  intro sl hs _
  cases (show some Slot.v0 = some sl from hs)
  have := fmt.code_lt; have := rm.code_lt; have := rd.isLt; have := va.isLt; have := pb.isLt
  have d (w : BitVec 32) (h : fN w 24 8 = 0x1d) : candidate .v0 w = (Fmt.ofCode (fN w 3 3)).bind fun fmt => (RM.ofCode (fN w 0 3)).bind fun rm => some (.vrsum fmt rm (fB w 18 6) (fB w 12 6) (fB w 6 4)) := by
    show candVector w = _
    unfold candVector; rw [h]; rfl
  show candidate .v0 (mkW 0x1d (rd.toNat * 262144 + va.toNat * 4096 + pb.toNat * 64 + fmt.code * 8 + rm.code)) = _
  rw [d _ (fN_op _ _ (by decide) (by omega))]
  rw [fN_eq 3 _ _ 3 fmt.code (by decide) (by omega) (by omega),
    Fmt.ofCode_code fmt,
    fN_eq 3 _ _ 0 rm.code (by decide) (by omega) (by omega),
    RM.ofCode_code rm,
    fB_eq 6 _ _ 18 rd (by decide) (by omega) (by omega),
    fB_eq 6 _ _ 12 va (by decide) (by omega) (by omega),
    fB_eq 4 _ _ 6 pb (by decide) (by omega) (by omega)]
  rfl

theorem vrmax (fmt : Fmt) (rd : BitVec 6) (va : BitVec 6) (pb : BitVec 4) : Statement (.vrmax fmt rd va pb) := by
  intro sl hs _
  cases (show some Slot.v0 = some sl from hs)
  have d (w : BitVec 32) (h : fN w 24 8 = 0x1e) : candidate .v0 w = (Fmt.ofCode (fN w 3 3)).bind fun fmt => some (.vrmax fmt (fB w 18 6) (fB w 12 6) (fB w 6 4)) := by
    show candVector w = _
    unfold candVector; rw [h]; rfl
  obtain ⟨e0, e1, e2, e3, e4⟩ := fields17 0x1e (by decide) fmt rd va pb
  show candidate .v0 (mkW 0x1e (rd.toNat * 262144 + va.toNat * 4096 + pb.toNat * 64 + fmt.code * 8)) = _
  rw [d _ e0, e1, Fmt.ofCode_code fmt, e2, e3, e4]
  rfl

theorem vrmin (fmt : Fmt) (rd : BitVec 6) (va : BitVec 6) (pb : BitVec 4) : Statement (.vrmin fmt rd va pb) := by
  intro sl hs _
  cases (show some Slot.v0 = some sl from hs)
  have d (w : BitVec 32) (h : fN w 24 8 = 0x1f) : candidate .v0 w = (Fmt.ofCode (fN w 3 3)).bind fun fmt => some (.vrmin fmt (fB w 18 6) (fB w 12 6) (fB w 6 4)) := by
    show candVector w = _
    unfold candVector; rw [h]; rfl
  obtain ⟨e0, e1, e2, e3, e4⟩ := fields17 0x1f (by decide) fmt rd va pb
  show candidate .v0 (mkW 0x1f (rd.toNat * 262144 + va.toNat * 4096 + pb.toNat * 64 + fmt.code * 8)) = _
  rw [d _ e0, e1, Fmt.ofCode_code fmt, e2, e3, e4]
  rfl

theorem xcopy (vd : BitVec 6) (va : BitVec 6) (rb : BitVec 6) : Statement (.xcopy vd va rb) := by
  intro sl hs _
  cases (show some Slot.v2 = some sl from hs)
  have d (w : BitVec 32) (h : fN w 24 8 = 0x20) : candidate .v2 w = some (.xcopy (fB w 18 6) (fB w 12 6) (fB w 6 6)) := by
    show orElseI (candVector w) (candCross w) = _
    unfold candVector candCross; rw [h]; rfl
  obtain ⟨e0, e1, e2, e3⟩ := fields1 0x20 (by decide) vd va rb
  show candidate .v2 (mkW 0x20 (vd.toNat * 262144 + va.toNat * 4096 + rb.toNat * 64)) = _
  rw [d _ e0, e1, e2, e3]

theorem pand (pd : BitVec 4) (pa : BitVec 4) (pb : BitVec 4) : Statement (.pand pd pa pb) := by
  intro sl hs _
  cases (show some Slot.v0 = some sl from hs)
  have d (w : BitVec 32) (h : fN w 24 8 = 0x28) : candidate .v0 w = some (.pand (fB w 18 4) (fB w 12 4) (fB w 6 4)) := by
    show candVector w = _
    unfold candVector; rw [h]; rfl
  obtain ⟨e0, e1, e2, e3⟩ := fields18 0x28 (by decide) pd pa pb
  show candidate .v0 (mkW 0x28 (pd.toNat * 262144 + pa.toNat * 4096 + pb.toNat * 64)) = _
  rw [d _ e0, e1, e2, e3]

theorem por (pd : BitVec 4) (pa : BitVec 4) (pb : BitVec 4) : Statement (.por pd pa pb) := by
  intro sl hs _
  cases (show some Slot.v0 = some sl from hs)
  have d (w : BitVec 32) (h : fN w 24 8 = 0x29) : candidate .v0 w = some (.por (fB w 18 4) (fB w 12 4) (fB w 6 4)) := by
    show candVector w = _
    unfold candVector; rw [h]; rfl
  obtain ⟨e0, e1, e2, e3⟩ := fields18 0x29 (by decide) pd pa pb
  show candidate .v0 (mkW 0x29 (pd.toNat * 262144 + pa.toNat * 4096 + pb.toNat * 64)) = _
  rw [d _ e0, e1, e2, e3]

theorem pxor (pd : BitVec 4) (pa : BitVec 4) (pb : BitVec 4) : Statement (.pxor pd pa pb) := by
  intro sl hs _
  cases (show some Slot.v0 = some sl from hs)
  have d (w : BitVec 32) (h : fN w 24 8 = 0x2a) : candidate .v0 w = some (.pxor (fB w 18 4) (fB w 12 4) (fB w 6 4)) := by
    show candVector w = _
    unfold candVector; rw [h]; rfl
  obtain ⟨e0, e1, e2, e3⟩ := fields18 0x2a (by decide) pd pa pb
  show candidate .v0 (mkW 0x2a (pd.toNat * 262144 + pa.toNat * 4096 + pb.toNat * 64)) = _
  rw [d _ e0, e1, e2, e3]

theorem pandn (pd : BitVec 4) (pa : BitVec 4) (pb : BitVec 4) : Statement (.pandn pd pa pb) := by
  intro sl hs _
  cases (show some Slot.v0 = some sl from hs)
  have d (w : BitVec 32) (h : fN w 24 8 = 0x2b) : candidate .v0 w = some (.pandn (fB w 18 4) (fB w 12 4) (fB w 6 4)) := by
    show candVector w = _
    unfold candVector; rw [h]; rfl
  obtain ⟨e0, e1, e2, e3⟩ := fields18 0x2b (by decide) pd pa pb
  show candidate .v0 (mkW 0x2b (pd.toNat * 262144 + pa.toNat * 4096 + pb.toNat * 64)) = _
  rw [d _ e0, e1, e2, e3]

theorem pnot (pd : BitVec 4) (pa : BitVec 4) : Statement (.pnot pd pa) := by
  intro sl hs _
  cases (show some Slot.v0 = some sl from hs)
  have := pd.isLt; have := pa.isLt
  have d (w : BitVec 32) (h : fN w 24 8 = 0x2c) : candidate .v0 w = some (.pnot (fB w 18 4) (fB w 12 4)) := by
    show candVector w = _
    unfold candVector; rw [h]; rfl
  show candidate .v0 (mkW 0x2c (pd.toNat * 262144 + pa.toNat * 4096)) = _
  rw [d _ (fN_op _ _ (by decide) (by omega))]
  rw [fB_eq 4 _ _ 18 pd (by decide) (by omega) (by omega),
    fB_eq 4 _ _ 12 pa (by decide) (by omega) (by omega)]

theorem pcnt (rd : BitVec 6) (pa : BitVec 4) : Statement (.pcnt rd pa) := by
  intro sl hs _
  cases (show some Slot.v0 = some sl from hs)
  have d (w : BitVec 32) (h : fN w 24 8 = 0x2d) : candidate .v0 w = some (.pcnt (fB w 18 6) (fB w 12 4)) := by
    show candVector w = _
    unfold candVector; rw [h]; rfl
  obtain ⟨e0, e1, e2⟩ := fields19 0x2d (by decide) rd pa
  show candidate .v0 (mkW 0x2d (rd.toNat * 262144 + pa.toNat * 4096)) = _
  rw [d _ e0, e1, e2]

theorem pfirst (rd : BitVec 6) (pa : BitVec 4) : Statement (.pfirst rd pa) := by
  intro sl hs _
  cases (show some Slot.v0 = some sl from hs)
  have d (w : BitVec 32) (h : fN w 24 8 = 0x2e) : candidate .v0 w = some (.pfirst (fB w 18 6) (fB w 12 4)) := by
    show candVector w = _
    unfold candVector; rw [h]; rfl
  obtain ⟨e0, e1, e2⟩ := fields19 0x2e (by decide) rd pa
  show candidate .v0 (mkW 0x2e (rd.toNat * 262144 + pa.toNat * 4096)) = _
  rw [d _ e0, e1, e2]

theorem exp2 (fmt : Fmt) (rm : RM) (vd : BitVec 6) (va : BitVec 6) : Statement (.exp2 fmt rm vd va) := by
  intro sl hs _
  cases (show some Slot.f = some sl from hs)
  have d (w : BitVec 32) (h : fN w 24 8 = 0x1) : candidate .f w = (Fmt.ofCode (fN w 3 3)).bind fun fmt => (RM.ofCode (fN w 0 3)).bind fun rm => some (.exp2 fmt rm (fB w 18 6) (fB w 12 6)) := by
    show candSpecial w = _
    unfold candSpecial; rw [h]; rfl
  obtain ⟨e0, e1, e2, e3, e4⟩ := fields20 0x1 (by decide) fmt rm vd va
  show candidate .f (mkW 0x1 (vd.toNat * 262144 + va.toNat * 4096 + fmt.code * 8 + rm.code)) = _
  rw [d _ e0, e1, Fmt.ofCode_code fmt, e2, RM.ofCode_code rm, e3, e4]
  rfl

theorem log2 (fmt : Fmt) (rm : RM) (vd : BitVec 6) (va : BitVec 6) : Statement (.log2 fmt rm vd va) := by
  intro sl hs _
  cases (show some Slot.f = some sl from hs)
  have d (w : BitVec 32) (h : fN w 24 8 = 0x2) : candidate .f w = (Fmt.ofCode (fN w 3 3)).bind fun fmt => (RM.ofCode (fN w 0 3)).bind fun rm => some (.log2 fmt rm (fB w 18 6) (fB w 12 6)) := by
    show candSpecial w = _
    unfold candSpecial; rw [h]; rfl
  obtain ⟨e0, e1, e2, e3, e4⟩ := fields20 0x2 (by decide) fmt rm vd va
  show candidate .f (mkW 0x2 (vd.toNat * 262144 + va.toNat * 4096 + fmt.code * 8 + rm.code)) = _
  rw [d _ e0, e1, Fmt.ofCode_code fmt, e2, RM.ofCode_code rm, e3, e4]
  rfl

theorem rcp (fmt : Fmt) (rm : RM) (vd : BitVec 6) (va : BitVec 6) : Statement (.rcp fmt rm vd va) := by
  intro sl hs _
  cases (show some Slot.f = some sl from hs)
  have d (w : BitVec 32) (h : fN w 24 8 = 0x3) : candidate .f w = (Fmt.ofCode (fN w 3 3)).bind fun fmt => (RM.ofCode (fN w 0 3)).bind fun rm => some (.rcp fmt rm (fB w 18 6) (fB w 12 6)) := by
    show candSpecial w = _
    unfold candSpecial; rw [h]; rfl
  obtain ⟨e0, e1, e2, e3, e4⟩ := fields20 0x3 (by decide) fmt rm vd va
  show candidate .f (mkW 0x3 (vd.toNat * 262144 + va.toNat * 4096 + fmt.code * 8 + rm.code)) = _
  rw [d _ e0, e1, Fmt.ofCode_code fmt, e2, RM.ofCode_code rm, e3, e4]
  rfl

theorem rsq (fmt : Fmt) (rm : RM) (vd : BitVec 6) (va : BitVec 6) : Statement (.rsq fmt rm vd va) := by
  intro sl hs _
  cases (show some Slot.f = some sl from hs)
  have d (w : BitVec 32) (h : fN w 24 8 = 0x4) : candidate .f w = (Fmt.ofCode (fN w 3 3)).bind fun fmt => (RM.ofCode (fN w 0 3)).bind fun rm => some (.rsq fmt rm (fB w 18 6) (fB w 12 6)) := by
    show candSpecial w = _
    unfold candSpecial; rw [h]; rfl
  obtain ⟨e0, e1, e2, e3, e4⟩ := fields20 0x4 (by decide) fmt rm vd va
  show candidate .f (mkW 0x4 (vd.toNat * 262144 + va.toNat * 4096 + fmt.code * 8 + rm.code)) = _
  rw [d _ e0, e1, Fmt.ofCode_code fmt, e2, RM.ofCode_code rm, e3, e4]
  rfl

theorem sin (fmt : Fmt) (rm : RM) (vd : BitVec 6) (va : BitVec 6) : Statement (.sin fmt rm vd va) := by
  intro sl hs _
  cases (show some Slot.f = some sl from hs)
  have d (w : BitVec 32) (h : fN w 24 8 = 0x5) : candidate .f w = (Fmt.ofCode (fN w 3 3)).bind fun fmt => (RM.ofCode (fN w 0 3)).bind fun rm => some (.sin fmt rm (fB w 18 6) (fB w 12 6)) := by
    show candSpecial w = _
    unfold candSpecial; rw [h]; rfl
  obtain ⟨e0, e1, e2, e3, e4⟩ := fields20 0x5 (by decide) fmt rm vd va
  show candidate .f (mkW 0x5 (vd.toNat * 262144 + va.toNat * 4096 + fmt.code * 8 + rm.code)) = _
  rw [d _ e0, e1, Fmt.ofCode_code fmt, e2, RM.ofCode_code rm, e3, e4]
  rfl

theorem cos (fmt : Fmt) (rm : RM) (vd : BitVec 6) (va : BitVec 6) : Statement (.cos fmt rm vd va) := by
  intro sl hs _
  cases (show some Slot.f = some sl from hs)
  have d (w : BitVec 32) (h : fN w 24 8 = 0x6) : candidate .f w = (Fmt.ofCode (fN w 3 3)).bind fun fmt => (RM.ofCode (fN w 0 3)).bind fun rm => some (.cos fmt rm (fB w 18 6) (fB w 12 6)) := by
    show candSpecial w = _
    unfold candSpecial; rw [h]; rfl
  obtain ⟨e0, e1, e2, e3, e4⟩ := fields20 0x6 (by decide) fmt rm vd va
  show candidate .f (mkW 0x6 (vd.toNat * 262144 + va.toNat * 4096 + fmt.code * 8 + rm.code)) = _
  rw [d _ e0, e1, Fmt.ofCode_code fmt, e2, RM.ofCode_code rm, e3, e4]
  rfl

theorem tanh (fmt : Fmt) (rm : RM) (vd : BitVec 6) (va : BitVec 6) : Statement (.tanh fmt rm vd va) := by
  intro sl hs _
  cases (show some Slot.f = some sl from hs)
  have d (w : BitVec 32) (h : fN w 24 8 = 0x7) : candidate .f w = (Fmt.ofCode (fN w 3 3)).bind fun fmt => (RM.ofCode (fN w 0 3)).bind fun rm => some (.tanh fmt rm (fB w 18 6) (fB w 12 6)) := by
    show candSpecial w = _
    unfold candSpecial; rw [h]; rfl
  obtain ⟨e0, e1, e2, e3, e4⟩ := fields20 0x7 (by decide) fmt rm vd va
  show candidate .f (mkW 0x7 (vd.toNat * 262144 + va.toNat * 4096 + fmt.code * 8 + rm.code)) = _
  rw [d _ e0, e1, Fmt.ofCode_code fmt, e2, RM.ofCode_code rm, e3, e4]
  rfl

theorem erf (fmt : Fmt) (rm : RM) (vd : BitVec 6) (va : BitVec 6) : Statement (.erf fmt rm vd va) := by
  intro sl hs _
  cases (show some Slot.f = some sl from hs)
  have d (w : BitVec 32) (h : fN w 24 8 = 0x8) : candidate .f w = (Fmt.ofCode (fN w 3 3)).bind fun fmt => (RM.ofCode (fN w 0 3)).bind fun rm => some (.erf fmt rm (fB w 18 6) (fB w 12 6)) := by
    show candSpecial w = _
    unfold candSpecial; rw [h]; rfl
  obtain ⟨e0, e1, e2, e3, e4⟩ := fields20 0x8 (by decide) fmt rm vd va
  show candidate .f (mkW 0x8 (vd.toNat * 262144 + va.toNat * 4096 + fmt.code * 8 + rm.code)) = _
  rw [d _ e0, e1, Fmt.ofCode_code fmt, e2, RM.ofCode_code rm, e3, e4]
  rfl

theorem rnd (fmt : Fmt) (vd : BitVec 6) : Statement (.rnd fmt vd) := by
  intro sl hs _
  cases (show some Slot.f = some sl from hs)
  have := fmt.code_lt; have := vd.isLt
  have d (w : BitVec 32) (h : fN w 24 8 = 0x9) : candidate .f w = (Fmt.ofCode (fN w 3 3)).bind fun fmt => some (.rnd fmt (fB w 18 6)) := by
    show candSpecial w = _
    unfold candSpecial; rw [h]; rfl
  show candidate .f (mkW 0x9 (vd.toNat * 262144 + fmt.code * 8)) = _
  rw [d _ (fN_op _ _ (by decide) (by omega))]
  rw [fN_eq 3 _ _ 3 fmt.code (by decide) (by omega) (by omega),
    Fmt.ofCode_code fmt,
    fB_eq 6 _ _ 18 vd (by decide) (by omega) (by omega)]
  rfl

theorem seed (ra : BitVec 6) : Statement (.seed ra) := by
  intro sl hs _
  cases (show some Slot.f = some sl from hs)
  have d (w : BitVec 32) (h : fN w 24 8 = 0xa) : candidate .f w = some (.seed (fB w 12 6)) := by
    show candSpecial w = _
    unfold candSpecial; rw [h]; rfl
  obtain ⟨e0, e1⟩ := fields7 0xa (by decide) ra
  show candidate .f (mkW 0xa (ra.toNat * 4096)) = _
  rw [d _ e0, e1]

theorem cxs (kf : KF) (desc : Bool) (vd : BitVec 6) (va : BitVec 6) (j : BitVec 3) (db : BitVec 3) : Statement (.cxs kf desc vd va j db) := by
  intro sl hs _
  cases (show some Slot.k = some sl from hs)
  have d (w : BitVec 32) (h : fN w 24 8 = 0x1) : candidate .k w = (KF.ofCode (fN w 0 2)).bind fun kf => some (.cxs kf (fT w 2) (fB w 18 6) (fB w 12 6) (fB w 3 3) (fB w 6 3)) := by
    show candSort w = _
    unfold candSort; rw [h]; rfl
  obtain ⟨e0, e1, e2, e3, e4, e5, e6⟩ := fields21 0x1 (by decide) kf desc vd va j db
  show candidate .k (mkW 0x1 (vd.toNat * 262144 + va.toNat * 4096 + db.toNat * 64 + j.toNat * 8 + boolCode desc * 4 + kf.code)) = _
  rw [d _ e0, e1, KF.ofCode_code kf, e2, e3, e4, e5, e6]
  rfl

theorem cxsi (kf : KF) (desc : Bool) (vd : BitVec 6) (va : BitVec 6) (j : BitVec 3) (db : BitVec 3) : Statement (.cxsi kf desc vd va j db) := by
  intro sl hs _
  cases (show some Slot.k = some sl from hs)
  have d (w : BitVec 32) (h : fN w 24 8 = 0x2) : candidate .k w = (KF.ofCode (fN w 0 2)).bind fun kf => some (.cxsi kf (fT w 2) (fB w 18 6) (fB w 12 6) (fB w 3 3) (fB w 6 3)) := by
    show candSort w = _
    unfold candSort; rw [h]; rfl
  obtain ⟨e0, e1, e2, e3, e4, e5, e6⟩ := fields21 0x2 (by decide) kf desc vd va j db
  show candidate .k (mkW 0x2 (vd.toNat * 262144 + va.toNat * 4096 + db.toNat * 64 + j.toNat * 8 + boolCode desc * 4 + kf.code)) = _
  rw [d _ e0, e1, KF.ofCode_code kf, e2, e3, e4, e5, e6]
  rfl

theorem vmaxi (kf : KF) (rd : BitVec 6) (va : BitVec 6) (pb : BitVec 4) : Statement (.vmaxi kf rd va pb) := by
  intro sl hs _
  cases (show some Slot.k = some sl from hs)
  have d (w : BitVec 32) (h : fN w 24 8 = 0x3) : candidate .k w = (KF.ofCode (fN w 0 2)).bind fun kf => some (.vmaxi kf (fB w 18 6) (fB w 12 6) (fB w 6 4)) := by
    show candSort w = _
    unfold candSort; rw [h]; rfl
  obtain ⟨e0, e1, e2, e3, e4⟩ := fields22 0x3 (by decide) kf rd va pb
  show candidate .k (mkW 0x3 (rd.toNat * 262144 + va.toNat * 4096 + pb.toNat * 64 + kf.code)) = _
  rw [d _ e0, e1, KF.ofCode_code kf, e2, e3, e4]
  rfl

theorem vmini (kf : KF) (rd : BitVec 6) (va : BitVec 6) (pb : BitVec 4) : Statement (.vmini kf rd va pb) := by
  intro sl hs _
  cases (show some Slot.k = some sl from hs)
  have d (w : BitVec 32) (h : fN w 24 8 = 0x4) : candidate .k w = (KF.ofCode (fN w 0 2)).bind fun kf => some (.vmini kf (fB w 18 6) (fB w 12 6) (fB w 6 4)) := by
    show candSort w = _
    unfold candSort; rw [h]; rfl
  obtain ⟨e0, e1, e2, e3, e4⟩ := fields22 0x4 (by decide) kf rd va pb
  show candidate .k (mkW 0x4 (rd.toNat * 262144 + va.toNat * 4096 + pb.toNat * 64 + kf.code)) = _
  rw [d _ e0, e1, KF.ofCode_code kf, e2, e3, e4]
  rfl

theorem vnormsel (kf : KF) (vd : BitVec 6) (va : BitVec 6) (pb : BitVec 4) (j : BitVec 3) : Statement (.vnormsel kf vd va pb j) := by
  intro sl hs _
  cases (show some Slot.k = some sl from hs)
  have := kf.code_lt; have := vd.isLt; have := va.isLt; have := pb.isLt; have := j.isLt
  have d (w : BitVec 32) (h : fN w 24 8 = 0x5) : candidate .k w = (KF.ofCode (fN w 0 2)).bind fun kf => some (.vnormsel kf (fB w 18 6) (fB w 12 6) (fB w 6 4) (fB w 3 3)) := by
    show candSort w = _
    unfold candSort; rw [h]; rfl
  show candidate .k (mkW 0x5 (vd.toNat * 262144 + va.toNat * 4096 + pb.toNat * 64 + j.toNat * 8 + kf.code)) = _
  rw [d _ (fN_op _ _ (by decide) (by omega))]
  rw [fN_eq 2 _ _ 0 kf.code (by decide) (by omega) (by omega),
    KF.ofCode_code kf,
    fB_eq 6 _ _ 18 vd (by decide) (by omega) (by omega),
    fB_eq 6 _ _ 12 va (by decide) (by omega) (by omega),
    fB_eq 4 _ _ 6 pb (by decide) (by omega) (by omega),
    fB_eq 3 _ _ 3 j (by decide) (by omega) (by omega)]
  rfl

theorem ld (sz : Size) (ep : BitVec 2) (na : Bool) (rd : BitVec 6) (ra : BitVec 6) (off : BitVec 6) : Statement (.ld sz ep na rd ra off) := by
  intro sl hs _
  cases (show some Slot.m0 = some sl from hs)
  have d (w : BitVec 32) (h : fN w 24 8 = 0x1) : candidate .m0 w = (Size.ofCode (fN w 3 3)).bind fun sz => some (.ld sz (fB w 1 2) (fT w 0) (fB w 18 6) (fB w 12 6) (fB w 6 6)) := by
    show candMemory w = _
    unfold candMemory; rw [h]; rfl
  obtain ⟨e0, e1, e2, e3, e4, e5, e6⟩ := fields23 0x1 (by decide) sz ep na rd ra off
  show candidate .m0 (mkW 0x1 (rd.toNat * 262144 + ra.toNat * 4096 + off.toNat * 64 + sz.code * 8 + ep.toNat * 2 + boolCode na)) = _
  rw [d _ e0, e1, Size.ofCode_code sz, e2, e3, e4, e5, e6]
  rfl

theorem ldS (sz : Size) (ep : BitVec 2) (na : Bool) (rd : BitVec 6) (ra : BitVec 6) (off : BitVec 6) : Statement (.ldS sz ep na rd ra off) := by
  intro sl hs _
  cases (show some Slot.m0 = some sl from hs)
  have d (w : BitVec 32) (h : fN w 24 8 = 0x2) : candidate .m0 w = (Size.ofCode (fN w 3 3)).bind fun sz => some (.ldS sz (fB w 1 2) (fT w 0) (fB w 18 6) (fB w 12 6) (fB w 6 6)) := by
    show candMemory w = _
    unfold candMemory; rw [h]; rfl
  obtain ⟨e0, e1, e2, e3, e4, e5, e6⟩ := fields23 0x2 (by decide) sz ep na rd ra off
  show candidate .m0 (mkW 0x2 (rd.toNat * 262144 + ra.toNat * 4096 + off.toNat * 64 + sz.code * 8 + ep.toNat * 2 + boolCode na)) = _
  rw [d _ e0, e1, Size.ofCode_code sz, e2, e3, e4, e5, e6]
  rfl

theorem st (sz : Size) (ep : BitVec 2) (na : Bool) (rd : BitVec 6) (ra : BitVec 6) (off : BitVec 6) : Statement (.st sz ep na rd ra off) := by
  intro sl hs _
  cases (show some Slot.m0 = some sl from hs)
  have d (w : BitVec 32) (h : fN w 24 8 = 0x3) : candidate .m0 w = (Size.ofCode (fN w 3 3)).bind fun sz => some (.st sz (fB w 1 2) (fT w 0) (fB w 18 6) (fB w 12 6) (fB w 6 6)) := by
    show candMemory w = _
    unfold candMemory; rw [h]; rfl
  obtain ⟨e0, e1, e2, e3, e4, e5, e6⟩ := fields23 0x3 (by decide) sz ep na rd ra off
  show candidate .m0 (mkW 0x3 (rd.toNat * 262144 + ra.toNat * 4096 + off.toNat * 64 + sz.code * 8 + ep.toNat * 2 + boolCode na)) = _
  rw [d _ e0, e1, Size.ofCode_code sz, e2, e3, e4, e5, e6]
  rfl

theorem stS (sz : Size) (ep : BitVec 2) (na : Bool) (rd : BitVec 6) (ra : BitVec 6) (off : BitVec 6) : Statement (.stS sz ep na rd ra off) := by
  intro sl hs _
  cases (show some Slot.m0 = some sl from hs)
  have d (w : BitVec 32) (h : fN w 24 8 = 0x4) : candidate .m0 w = (Size.ofCode (fN w 3 3)).bind fun sz => some (.stS sz (fB w 1 2) (fT w 0) (fB w 18 6) (fB w 12 6) (fB w 6 6)) := by
    show candMemory w = _
    unfold candMemory; rw [h]; rfl
  obtain ⟨e0, e1, e2, e3, e4, e5, e6⟩ := fields23 0x4 (by decide) sz ep na rd ra off
  show candidate .m0 (mkW 0x4 (rd.toNat * 262144 + ra.toNat * 4096 + off.toNat * 64 + sz.code * 8 + ep.toNat * 2 + boolCode na)) = _
  rw [d _ e0, e1, Size.ofCode_code sz, e2, e3, e4, e5, e6]
  rfl

theorem vld (fmt : Fmt) (ep : BitVec 2) (na : Bool) (vd : BitVec 6) (ra : BitVec 6) (off : BitVec 6) : Statement (.vld fmt ep na vd ra off) := by
  intro sl hs _
  cases (show some Slot.m0 = some sl from hs)
  have d (w : BitVec 32) (h : fN w 24 8 = 0x5) : candidate .m0 w = (Fmt.ofCode (fN w 3 3)).bind fun fmt => some (.vld fmt (fB w 1 2) (fT w 0) (fB w 18 6) (fB w 12 6) (fB w 6 6)) := by
    show candMemory w = _
    unfold candMemory; rw [h]; rfl
  obtain ⟨e0, e1, e2, e3, e4, e5, e6⟩ := fields24 0x5 (by decide) fmt ep na vd ra off
  show candidate .m0 (mkW 0x5 (vd.toNat * 262144 + ra.toNat * 4096 + off.toNat * 64 + fmt.code * 8 + ep.toNat * 2 + boolCode na)) = _
  rw [d _ e0, e1, Fmt.ofCode_code fmt, e2, e3, e4, e5, e6]
  rfl

theorem vldS (fmt : Fmt) (ep : BitVec 2) (na : Bool) (vd : BitVec 6) (ra : BitVec 6) (off : BitVec 6) : Statement (.vldS fmt ep na vd ra off) := by
  intro sl hs _
  cases (show some Slot.m0 = some sl from hs)
  have d (w : BitVec 32) (h : fN w 24 8 = 0x6) : candidate .m0 w = (Fmt.ofCode (fN w 3 3)).bind fun fmt => some (.vldS fmt (fB w 1 2) (fT w 0) (fB w 18 6) (fB w 12 6) (fB w 6 6)) := by
    show candMemory w = _
    unfold candMemory; rw [h]; rfl
  obtain ⟨e0, e1, e2, e3, e4, e5, e6⟩ := fields24 0x6 (by decide) fmt ep na vd ra off
  show candidate .m0 (mkW 0x6 (vd.toNat * 262144 + ra.toNat * 4096 + off.toNat * 64 + fmt.code * 8 + ep.toNat * 2 + boolCode na)) = _
  rw [d _ e0, e1, Fmt.ofCode_code fmt, e2, e3, e4, e5, e6]
  rfl

theorem vst (fmt : Fmt) (ep : BitVec 2) (na : Bool) (vd : BitVec 6) (ra : BitVec 6) (off : BitVec 6) : Statement (.vst fmt ep na vd ra off) := by
  intro sl hs _
  cases (show some Slot.m0 = some sl from hs)
  have d (w : BitVec 32) (h : fN w 24 8 = 0x7) : candidate .m0 w = (Fmt.ofCode (fN w 3 3)).bind fun fmt => some (.vst fmt (fB w 1 2) (fT w 0) (fB w 18 6) (fB w 12 6) (fB w 6 6)) := by
    show candMemory w = _
    unfold candMemory; rw [h]; rfl
  obtain ⟨e0, e1, e2, e3, e4, e5, e6⟩ := fields24 0x7 (by decide) fmt ep na vd ra off
  show candidate .m0 (mkW 0x7 (vd.toNat * 262144 + ra.toNat * 4096 + off.toNat * 64 + fmt.code * 8 + ep.toNat * 2 + boolCode na)) = _
  rw [d _ e0, e1, Fmt.ofCode_code fmt, e2, e3, e4, e5, e6]
  rfl

theorem vstS (fmt : Fmt) (ep : BitVec 2) (na : Bool) (vd : BitVec 6) (ra : BitVec 6) (off : BitVec 6) : Statement (.vstS fmt ep na vd ra off) := by
  intro sl hs _
  cases (show some Slot.m0 = some sl from hs)
  have d (w : BitVec 32) (h : fN w 24 8 = 0x8) : candidate .m0 w = (Fmt.ofCode (fN w 3 3)).bind fun fmt => some (.vstS fmt (fB w 1 2) (fT w 0) (fB w 18 6) (fB w 12 6) (fB w 6 6)) := by
    show candMemory w = _
    unfold candMemory; rw [h]; rfl
  obtain ⟨e0, e1, e2, e3, e4, e5, e6⟩ := fields24 0x8 (by decide) fmt ep na vd ra off
  show candidate .m0 (mkW 0x8 (vd.toNat * 262144 + ra.toNat * 4096 + off.toNat * 64 + fmt.code * 8 + ep.toNat * 2 + boolCode na)) = _
  rw [d _ e0, e1, Fmt.ofCode_code fmt, e2, e3, e4, e5, e6]
  rfl

theorem ldf (rd : BitVec 6) (ra : BitVec 6) (off : BitVec 6) : Statement (.ldf rd ra off) := by
  intro sl hs _
  cases (show some Slot.m0 = some sl from hs)
  have d (w : BitVec 32) (h : fN w 24 8 = 0x9) : candidate .m0 w = some (.ldf (fB w 18 6) (fB w 12 6) (fB w 6 6)) := by
    show candMemory w = _
    unfold candMemory; rw [h]; rfl
  obtain ⟨e0, e1, e2, e3⟩ := fields1 0x9 (by decide) rd ra off
  show candidate .m0 (mkW 0x9 (rd.toNat * 262144 + ra.toNat * 4096 + off.toNat * 64)) = _
  rw [d _ e0, e1, e2, e3]

theorem ste (rd : BitVec 6) (ra : BitVec 6) (off : BitVec 6) : Statement (.ste rd ra off) := by
  intro sl hs _
  cases (show some Slot.m0 = some sl from hs)
  have d (w : BitVec 32) (h : fN w 24 8 = 0xa) : candidate .m0 w = some (.ste (fB w 18 6) (fB w 12 6) (fB w 6 6)) := by
    show candMemory w = _
    unfold candMemory; rw [h]; rfl
  obtain ⟨e0, e1, e2, e3⟩ := fields1 0xa (by decide) rd ra off
  show candidate .m0 (mkW 0xa (rd.toNat * 262144 + ra.toNat * 4096 + off.toNat * 64)) = _
  rw [d _ e0, e1, e2, e3]

theorem preft (tag : BitVec 6) (ra : BitVec 6) (off : BitVec 6) (ep : BitVec 2) : Statement (.preft tag ra off ep) := by
  intro sl hs _
  cases (show some Slot.m0 = some sl from hs)
  have := tag.isLt; have := ra.isLt; have := off.isLt; have := ep.isLt
  have d (w : BitVec 32) (h : fN w 24 8 = 0xb) : candidate .m0 w = some (.preft (fB w 18 6) (fB w 12 6) (fB w 6 6) (fB w 1 2)) := by
    show candMemory w = _
    unfold candMemory; rw [h]; rfl
  show candidate .m0 (mkW 0xb (tag.toNat * 262144 + ra.toNat * 4096 + off.toNat * 64 + ep.toNat * 2)) = _
  rw [d _ (fN_op _ _ (by decide) (by omega))]
  rw [fB_eq 6 _ _ 18 tag (by decide) (by omega) (by omega),
    fB_eq 6 _ _ 12 ra (by decide) (by omega) (by omega),
    fB_eq 6 _ _ 6 off (by decide) (by omega) (by omega),
    fB_eq 2 _ _ 1 ep (by decide) (by omega) (by omega)]

theorem pin (win : BitVec 3) (ra : BitVec 6) (rb : BitVec 6) : Statement (.pin win ra rb) := by
  intro sl hs _
  cases (show some Slot.m0 = some sl from hs)
  have := win.isLt; have := ra.isLt; have := rb.isLt
  have d (w : BitVec 32) (h : fN w 24 8 = 0xc) : candidate .m0 w = some (.pin (fB w 18 3) (fB w 12 6) (fB w 6 6)) := by
    show candMemory w = _
    unfold candMemory; rw [h]; rfl
  show candidate .m0 (mkW 0xc (win.toNat * 262144 + ra.toNat * 4096 + rb.toNat * 64)) = _
  rw [d _ (fN_op _ _ (by decide) (by omega))]
  rw [fB_eq 3 _ _ 18 win (by decide) (by omega) (by omega),
    fB_eq 6 _ _ 12 ra (by decide) (by omega) (by omega),
    fB_eq 6 _ _ 6 rb (by decide) (by omega) (by omega)]

theorem unpin (win : BitVec 3) : Statement (.unpin win) := by
  intro sl hs _
  cases (show some Slot.m0 = some sl from hs)
  have := win.isLt
  have d (w : BitVec 32) (h : fN w 24 8 = 0xd) : candidate .m0 w = some (.unpin (fB w 18 3)) := by
    show candMemory w = _
    unfold candMemory; rw [h]; rfl
  show candidate .m0 (mkW 0xd (win.toNat * 262144)) = _
  rw [d _ (fN_op _ _ (by decide) (by omega))]
  rw [fB_eq 3 _ _ 18 win (by decide) (by omega) (by omega)]

theorem phase (ra : BitVec 6) (rb : BitVec 6) : Statement (.phase ra rb) := by
  intro sl hs _
  cases (show some Slot.m0 = some sl from hs)
  have := ra.isLt; have := rb.isLt
  have d (w : BitVec 32) (h : fN w 24 8 = 0xe) : candidate .m0 w = some (.phase (fB w 12 6) (fB w 6 6)) := by
    show candMemory w = _
    unfold candMemory; rw [h]; rfl
  show candidate .m0 (mkW 0xe (ra.toNat * 4096 + rb.toNat * 64)) = _
  rw [d _ (fN_op _ _ (by decide) (by omega))]
  rw [fB_eq 6 _ _ 12 ra (by decide) (by omega) (by omega),
    fB_eq 6 _ _ 6 rb (by decide) (by omega) (by omega)]

theorem qalign  : Statement (.qalign) := by
  intro sl hs _
  cases (show some Slot.m0 = some sl from hs)
  have d (w : BitVec 32) (h : fN w 24 8 = 0xf) : candidate .m0 w = some .qalign := by
    show candMemory w = _
    unfold candMemory; rw [h]; rfl
  show candidate .m0 (mkW 0xf (0)) = _
  rw [d _ (fN_op _ _ (by decide) (by omega))]
  

theorem fence (sc : Scope) : Statement (.fence sc) := by
  intro sl hs _
  cases (show some Slot.m0 = some sl from hs)
  have := sc.code_lt
  have d (w : BitVec 32) (h : fN w 24 8 = 0x10) : candidate .m0 w = (Scope.ofCode (fN w 18 6)).bind fun sc => some (.fence sc) := by
    show candMemory w = _
    unfold candMemory; rw [h]; rfl
  show candidate .m0 (mkW 0x10 (sc.code * 262144)) = _
  rw [d _ (fN_op _ _ (by decide) (by omega))]
  rw [fN_eq 6 _ _ 18 sc.code (by decide) (by omega) (by omega),
    Scope.ofCode_code sc]
  rfl

theorem xfence (pf : Path) (pt : Path) : Statement (.xfence pf pt) := by
  intro sl hs _
  cases (show some Slot.m0 = some sl from hs)
  have := pf.code_lt; have := pt.code_lt
  have d (w : BitVec 32) (h : fN w 24 8 = 0x11) : candidate .m0 w = (Path.ofCode (fN w 18 6)).bind fun pf => (Path.ofCode (fN w 12 6)).bind fun pt => some (.xfence pf pt) := by
    show candMemory w = _
    unfold candMemory; rw [h]; rfl
  show candidate .m0 (mkW 0x11 (pf.code * 262144 + pt.code * 4096)) = _
  rw [d _ (fN_op _ _ (by decide) (by omega))]
  rw [fN_eq 6 _ _ 18 pf.code (by decide) (by omega) (by omega),
    Path.ofCode_code pf,
    fN_eq 6 _ _ 12 pt.code (by decide) (by omega) (by omega),
    Path.ofCode_code pt]
  rfl

theorem qpop (vd : BitVec 6) (q : BitVec 3) : Statement (.qpop vd q) := by
  intro sl hs _
  cases (show some Slot.m0 = some sl from hs)
  have := vd.isLt; have := q.isLt
  have d (w : BitVec 32) (h : fN w 24 8 = 0x12) : candidate .m0 w = some (.qpop (fB w 18 6) (fB w 12 3)) := by
    show candMemory w = _
    unfold candMemory; rw [h]; rfl
  show candidate .m0 (mkW 0x12 (vd.toNat * 262144 + q.toNat * 4096)) = _
  rw [d _ (fN_op _ _ (by decide) (by omega))]
  rw [fB_eq 6 _ _ 18 vd (by decide) (by omega) (by omega),
    fB_eq 3 _ _ 12 q (by decide) (by omega) (by omega)]

theorem rbrel (ring : BitVec 5) : Statement (.rbrel ring) := by
  intro sl hs _
  cases (show some Slot.m0 = some sl from hs)
  have d (w : BitVec 32) (h : fN w 24 8 = 0x13) : candidate .m0 w = some (.rbrel (fB w 0 5)) := by
    show candMemory w = _
    unfold candMemory; rw [h]; rfl
  obtain ⟨e0, e1⟩ := fields9 0x13 (by decide) ring
  show candidate .m0 (mkW 0x13 (ring.toNat)) = _
  rw [d _ e0, e1]

theorem aadd (sz : ASize) (rd : BitVec 6) (ra : BitVec 6) (rb : BitVec 6) : Statement (.aadd sz rd ra rb) := by
  intro sl hs _
  cases (show some Slot.m0 = some sl from hs)
  have d (w : BitVec 32) (h : fN w 24 8 = 0x20) : candidate .m0 w = (ASize.ofCode (fN w 4 2)).bind fun sz => some (.aadd sz (fB w 18 6) (fB w 12 6) (fB w 6 6)) := by
    show candMemory w = _
    unfold candMemory; rw [h]; rfl
  obtain ⟨e0, e1, e2, e3, e4⟩ := fields25 0x20 (by decide) sz rd ra rb
  show candidate .m0 (mkW 0x20 (rd.toNat * 262144 + ra.toNat * 4096 + rb.toNat * 64 + sz.code * 16)) = _
  rw [d _ e0, e1, ASize.ofCode_code sz, e2, e3, e4]
  rfl

theorem aand (sz : ASize) (rd : BitVec 6) (ra : BitVec 6) (rb : BitVec 6) : Statement (.aand sz rd ra rb) := by
  intro sl hs _
  cases (show some Slot.m0 = some sl from hs)
  have d (w : BitVec 32) (h : fN w 24 8 = 0x21) : candidate .m0 w = (ASize.ofCode (fN w 4 2)).bind fun sz => some (.aand sz (fB w 18 6) (fB w 12 6) (fB w 6 6)) := by
    show candMemory w = _
    unfold candMemory; rw [h]; rfl
  obtain ⟨e0, e1, e2, e3, e4⟩ := fields25 0x21 (by decide) sz rd ra rb
  show candidate .m0 (mkW 0x21 (rd.toNat * 262144 + ra.toNat * 4096 + rb.toNat * 64 + sz.code * 16)) = _
  rw [d _ e0, e1, ASize.ofCode_code sz, e2, e3, e4]
  rfl

theorem aor (sz : ASize) (rd : BitVec 6) (ra : BitVec 6) (rb : BitVec 6) : Statement (.aor sz rd ra rb) := by
  intro sl hs _
  cases (show some Slot.m0 = some sl from hs)
  have d (w : BitVec 32) (h : fN w 24 8 = 0x22) : candidate .m0 w = (ASize.ofCode (fN w 4 2)).bind fun sz => some (.aor sz (fB w 18 6) (fB w 12 6) (fB w 6 6)) := by
    show candMemory w = _
    unfold candMemory; rw [h]; rfl
  obtain ⟨e0, e1, e2, e3, e4⟩ := fields25 0x22 (by decide) sz rd ra rb
  show candidate .m0 (mkW 0x22 (rd.toNat * 262144 + ra.toNat * 4096 + rb.toNat * 64 + sz.code * 16)) = _
  rw [d _ e0, e1, ASize.ofCode_code sz, e2, e3, e4]
  rfl

theorem axor (sz : ASize) (rd : BitVec 6) (ra : BitVec 6) (rb : BitVec 6) : Statement (.axor sz rd ra rb) := by
  intro sl hs _
  cases (show some Slot.m0 = some sl from hs)
  have d (w : BitVec 32) (h : fN w 24 8 = 0x23) : candidate .m0 w = (ASize.ofCode (fN w 4 2)).bind fun sz => some (.axor sz (fB w 18 6) (fB w 12 6) (fB w 6 6)) := by
    show candMemory w = _
    unfold candMemory; rw [h]; rfl
  obtain ⟨e0, e1, e2, e3, e4⟩ := fields25 0x23 (by decide) sz rd ra rb
  show candidate .m0 (mkW 0x23 (rd.toNat * 262144 + ra.toNat * 4096 + rb.toNat * 64 + sz.code * 16)) = _
  rw [d _ e0, e1, ASize.ofCode_code sz, e2, e3, e4]
  rfl

theorem amin (sz : ASize) (rd : BitVec 6) (ra : BitVec 6) (rb : BitVec 6) : Statement (.amin sz rd ra rb) := by
  intro sl hs _
  cases (show some Slot.m0 = some sl from hs)
  have d (w : BitVec 32) (h : fN w 24 8 = 0x24) : candidate .m0 w = (ASize.ofCode (fN w 4 2)).bind fun sz => some (.amin sz (fB w 18 6) (fB w 12 6) (fB w 6 6)) := by
    show candMemory w = _
    unfold candMemory; rw [h]; rfl
  obtain ⟨e0, e1, e2, e3, e4⟩ := fields25 0x24 (by decide) sz rd ra rb
  show candidate .m0 (mkW 0x24 (rd.toNat * 262144 + ra.toNat * 4096 + rb.toNat * 64 + sz.code * 16)) = _
  rw [d _ e0, e1, ASize.ofCode_code sz, e2, e3, e4]
  rfl

theorem amax (sz : ASize) (rd : BitVec 6) (ra : BitVec 6) (rb : BitVec 6) : Statement (.amax sz rd ra rb) := by
  intro sl hs _
  cases (show some Slot.m0 = some sl from hs)
  have d (w : BitVec 32) (h : fN w 24 8 = 0x25) : candidate .m0 w = (ASize.ofCode (fN w 4 2)).bind fun sz => some (.amax sz (fB w 18 6) (fB w 12 6) (fB w 6 6)) := by
    show candMemory w = _
    unfold candMemory; rw [h]; rfl
  obtain ⟨e0, e1, e2, e3, e4⟩ := fields25 0x25 (by decide) sz rd ra rb
  show candidate .m0 (mkW 0x25 (rd.toNat * 262144 + ra.toNat * 4096 + rb.toNat * 64 + sz.code * 16)) = _
  rw [d _ e0, e1, ASize.ofCode_code sz, e2, e3, e4]
  rfl

theorem aswp (sz : ASize) (rd : BitVec 6) (ra : BitVec 6) (rb : BitVec 6) : Statement (.aswp sz rd ra rb) := by
  intro sl hs _
  cases (show some Slot.m0 = some sl from hs)
  have d (w : BitVec 32) (h : fN w 24 8 = 0x26) : candidate .m0 w = (ASize.ofCode (fN w 4 2)).bind fun sz => some (.aswp sz (fB w 18 6) (fB w 12 6) (fB w 6 6)) := by
    show candMemory w = _
    unfold candMemory; rw [h]; rfl
  obtain ⟨e0, e1, e2, e3, e4⟩ := fields25 0x26 (by decide) sz rd ra rb
  show candidate .m0 (mkW 0x26 (rd.toNat * 262144 + ra.toNat * 4096 + rb.toNat * 64 + sz.code * 16)) = _
  rw [d _ e0, e1, ASize.ofCode_code sz, e2, e3, e4]
  rfl

theorem cas (sz : ASize) (rd : BitVec 6) (ra : BitVec 6) (rb : BitVec 6) : Statement (.cas sz rd ra rb) := by
  intro sl hs _
  cases (show some Slot.m0 = some sl from hs)
  have d (w : BitVec 32) (h : fN w 24 8 = 0x27) : candidate .m0 w = (ASize.ofCode (fN w 4 2)).bind fun sz => some (.cas sz (fB w 18 6) (fB w 12 6) (fB w 6 6)) := by
    show candMemory w = _
    unfold candMemory; rw [h]; rfl
  obtain ⟨e0, e1, e2, e3, e4⟩ := fields25 0x27 (by decide) sz rd ra rb
  show candidate .m0 (mkW 0x27 (rd.toNat * 262144 + ra.toNat * 4096 + rb.toNat * 64 + sz.code * 16)) = _
  rw [d _ e0, e1, ASize.ofCode_code sz, e2, e3, e4]
  rfl

theorem afadd (rd : BitVec 6) (ra : BitVec 6) (rb : BitVec 6) : Statement (.afadd rd ra rb) := by
  intro sl hs _
  cases (show some Slot.m0 = some sl from hs)
  have d (w : BitVec 32) (h : fN w 24 8 = 0x28) : candidate .m0 w = some (.afadd (fB w 18 6) (fB w 12 6) (fB w 6 6)) := by
    show candMemory w = _
    unfold candMemory; rw [h]; rfl
  obtain ⟨e0, e1, e2, e3⟩ := fields1 0x28 (by decide) rd ra rb
  show candidate .m0 (mkW 0x28 (rd.toNat * 262144 + ra.toNat * 4096 + rb.toNat * 64)) = _
  rw [d _ e0, e1, e2, e3]

theorem ared (op : BitVec 6) (ra : BitVec 6) (rb : BitVec 6) (rv : BitVec 6) : Statement (.ared op ra rb rv) := by
  intro sl hs _
  cases (show some Slot.m0 = some sl from hs)
  have d (w : BitVec 32) (h : fN w 24 8 = 0x29) : candidate .m0 w = some (.ared (fB w 0 6) (fB w 12 6) (fB w 6 6) (fB w 18 6)) := by
    show candMemory w = _
    unfold candMemory; rw [h]; rfl
  obtain ⟨e0, e1, e2, e3, e4⟩ := fields26 0x29 (by decide) op ra rb rv
  show candidate .m0 (mkW 0x29 (rv.toNat * 262144 + ra.toNat * 4096 + rb.toNat * 64 + op.toNat)) = _
  rw [d _ e0, e1, e2, e3, e4]

theorem loop (ra : BitVec 6) (imm : BitVec 14) : Statement (.loop ra imm) := by
  intro sl hs _
  cases (show some Slot.a = some sl from hs)
  have := ra.isLt; have := imm.isLt
  have d (w : BitVec 32) (h : fN w 24 8 = 0x1) : candidate .a w = some (.loop (fB w 14 6) (fB w 0 14)) := by
    show candAddress w = _
    unfold candAddress; rw [h]; rfl
  show candidate .a (mkW 0x1 (ra.toNat * 16384 + imm.toNat)) = _
  rw [d _ (fN_op _ _ (by decide) (by omega))]
  rw [fB_eq 6 _ _ 14 ra (by decide) (by omega) (by omega),
    fB_eq 14 _ _ 0 imm (by decide) (by omega) (by omega)]

theorem replay (s : BitVec 4) (ra : BitVec 6) (imm : BitVec 14) : Statement (.replay s ra imm) := by
  intro sl hs _
  cases (show some Slot.a = some sl from hs)
  have d (w : BitVec 32) (h : fN w 24 8 = 0x2) : candidate .a w = some (.replay (fB w 20 4) (fB w 14 6) (fB w 0 14)) := by
    show candAddress w = _
    unfold candAddress; rw [h]; rfl
  obtain ⟨e0, e1, e2, e3⟩ := fields27 0x2 (by decide) s ra imm
  show candidate .a (mkW 0x2 (s.toNat * 1048576 + ra.toNat * 16384 + imm.toNat)) = _
  rw [d _ e0, e1, e2, e3]

theorem aset (ad : BitVec 4) (ra : BitVec 6) (imm : BitVec 14) : Statement (.aset ad ra imm) := by
  intro sl hs _
  cases (show some Slot.a = some sl from hs)
  have d (w : BitVec 32) (h : fN w 24 8 = 0x3) : candidate .a w = some (.aset (fB w 20 4) (fB w 14 6) (fB w 0 14)) := by
    show candAddress w = _
    unfold candAddress; rw [h]; rfl
  obtain ⟨e0, e1, e2, e3⟩ := fields27 0x3 (by decide) ad ra imm
  show candidate .a (mkW 0x3 (ad.toNat * 1048576 + ra.toNat * 16384 + imm.toNat)) = _
  rw [d _ e0, e1, e2, e3]

theorem ainc (rd : BitVec 6) (ad : BitVec 4) (imm : BitVec 14) : Statement (.ainc rd ad imm) := by
  intro sl hs _
  cases (show some Slot.a = some sl from hs)
  have := rd.isLt; have := ad.isLt; have := imm.isLt
  have d (w : BitVec 32) (h : fN w 24 8 = 0x4) : candidate .a w = some (.ainc (fB w 14 6) (fB w 20 4) (fB w 0 14)) := by
    show candAddress w = _
    unfold candAddress; rw [h]; rfl
  show candidate .a (mkW 0x4 (ad.toNat * 1048576 + rd.toNat * 16384 + imm.toNat)) = _
  rw [d _ (fN_op _ _ (by decide) (by omega))]
  rw [fB_eq 6 _ _ 14 rd (by decide) (by omega) (by omega),
    fB_eq 4 _ _ 20 ad (by decide) (by omega) (by omega),
    fB_eq 14 _ _ 0 imm (by decide) (by omega) (by omega)]

theorem astr (ad : BitVec 4) (ra : BitVec 6) (lvl : BitVec 3) : Statement (.astr ad ra lvl) := by
  intro sl hs _
  cases (show some Slot.a = some sl from hs)
  have d (w : BitVec 32) (h : fN w 24 8 = 0x5) : candidate .a w = some (.astr (fB w 20 4) (fB w 14 6) (fB w 0 3)) := by
    show candAddress w = _
    unfold candAddress; rw [h]; rfl
  obtain ⟨e0, e1, e2, e3⟩ := fields28 0x5 (by decide) ad ra lvl
  show candidate .a (mkW 0x5 (ad.toNat * 1048576 + ra.toNat * 16384 + lvl.toNat)) = _
  rw [d _ e0, e1, e2, e3]

theorem scl (e : BitVec 4) (ra : BitVec 6) (c : BitVec 3) : Statement (.scl e ra c) := by
  intro sl hs _
  cases (show some Slot.a = some sl from hs)
  have d (w : BitVec 32) (h : fN w 24 8 = 0x6) : candidate .a w = some (.scl (fB w 20 4) (fB w 14 6) (fB w 0 3)) := by
    show candAddress w = _
    unfold candAddress; rw [h]; rfl
  obtain ⟨e0, e1, e2, e3⟩ := fields28 0x6 (by decide) e ra c
  show candidate .a (mkW 0x6 (e.toNat * 1048576 + ra.toNat * 16384 + c.toNat)) = _
  rw [d _ e0, e1, e2, e3]

theorem mma (mf : MF) (td : BitVec 4) (ra : BitVec 6) (rb : BitVec 6) (n : BitVec 4) : Statement (.mma mf td ra rb n) := by
  intro sl hs _
  cases (show some Slot.e = some sl from hs)
  have := mf.code_lt; have := td.isLt; have := ra.isLt; have := rb.isLt; have := n.isLt
  have d (w : BitVec 32) (h : fN w 24 8 = 0x1) : candidate .e w = (MF.ofCode (fN w 0 2)).bind fun mf => some (.mma mf (fB w 20 4) (fB w 12 6) (fB w 6 6) (fB w 2 4)) := by
    show candEngine w = _
    unfold candEngine; rw [h]; rfl
  show candidate .e (mkW 0x1 (td.toNat * 1048576 + ra.toNat * 4096 + rb.toNat * 64 + n.toNat * 4 + mf.code)) = _
  rw [d _ (fN_op _ _ (by decide) (by omega))]
  rw [fN_eq 2 _ _ 0 mf.code (by decide) (by omega) (by omega),
    MF.ofCode_code mf,
    fB_eq 4 _ _ 20 td (by decide) (by omega) (by omega),
    fB_eq 6 _ _ 12 ra (by decide) (by omega) (by omega),
    fB_eq 6 _ _ 6 rb (by decide) (by omega) (by omega),
    fB_eq 4 _ _ 2 n (by decide) (by omega) (by omega)]
  rfl

theorem mmr (mf : MF) (mode : MMode) (td : BitVec 4) (ra : BitVec 6) (rb : BitVec 6) : Statement (.mmr mf mode td ra rb) := by
  intro sl hs _
  cases (show some Slot.e = some sl from hs)
  have := mf.code_lt; have := mode.code_lt; have := td.isLt; have := ra.isLt; have := rb.isLt
  have d (w : BitVec 32) (h : fN w 24 8 = 0x2) : candidate .e w = (MF.ofCode (fN w 0 2)).bind fun mf => (MMode.ofCode (fN w 18 2)).bind fun mode => some (.mmr mf mode (fB w 20 4) (fB w 12 6) (fB w 6 6)) := by
    show candEngine w = _
    unfold candEngine; rw [h]; rfl
  show candidate .e (mkW 0x2 (td.toNat * 1048576 + mode.code * 262144 + ra.toNat * 4096 + rb.toNat * 64 + mf.code)) = _
  rw [d _ (fN_op _ _ (by decide) (by omega))]
  rw [fN_eq 2 _ _ 0 mf.code (by decide) (by omega) (by omega),
    MF.ofCode_code mf,
    fN_eq 2 _ _ 18 mode.code (by decide) (by omega) (by omega),
    MMode.ofCode_code mode,
    fB_eq 4 _ _ 20 td (by decide) (by omega) (by omega),
    fB_eq 6 _ _ 12 ra (by decide) (by omega) (by omega),
    fB_eq 6 _ _ 6 rb (by decide) (by omega) (by omega)]
  rfl

theorem mload (td : BitVec 4) (ra : BitVec 6) : Statement (.mload td ra) := by
  intro sl hs _
  cases (show some Slot.e = some sl from hs)
  have := td.isLt; have := ra.isLt
  have d (w : BitVec 32) (h : fN w 24 8 = 0x3) : candidate .e w = some (.mload (fB w 20 4) (fB w 12 6)) := by
    show candEngine w = _
    unfold candEngine; rw [h]; rfl
  show candidate .e (mkW 0x3 (td.toNat * 1048576 + ra.toNat * 4096)) = _
  rw [d _ (fN_op _ _ (by decide) (by omega))]
  rw [fB_eq 4 _ _ 20 td (by decide) (by omega) (by omega),
    fB_eq 6 _ _ 12 ra (by decide) (by omega) (by omega)]

theorem mdrain (of_ : OFmt) (clr : Bool) (q : BitVec 3) (td : BitVec 4) : Statement (.mdrain of_ clr q td) := by
  intro sl hs _
  cases (show some Slot.e = some sl from hs)
  have := of_.code_lt; have := boolCode_lt clr; have := q.isLt; have := td.isLt
  have d (w : BitVec 32) (h : fN w 24 8 = 0x4) : candidate .e w = (OFmt.ofCode (fN w 2 4)).bind fun of_ => some (.mdrain of_ (fT w 6) (fB w 12 3) (fB w 20 4)) := by
    show candEngine w = _
    unfold candEngine; rw [h]; rfl
  show candidate .e (mkW 0x4 (td.toNat * 1048576 + q.toNat * 4096 + boolCode clr * 64 + of_.code * 4)) = _
  rw [d _ (fN_op _ _ (by decide) (by omega))]
  rw [fN_eq 4 _ _ 2 of_.code (by decide) (by omega) (by omega),
    OFmt.ofCode_code of_,
    fT_eq _ _ 6 clr (by decide) (by omega) (by omega),
    fB_eq 3 _ _ 12 q (by decide) (by omega) (by omega),
    fB_eq 4 _ _ 20 td (by decide) (by omega) (by omega)]
  rfl

theorem mzero (td : BitVec 4) (n : BitVec 4) : Statement (.mzero td n) := by
  intro sl hs _
  cases (show some Slot.e = some sl from hs)
  have d (w : BitVec 32) (h : fN w 24 8 = 0x5) : candidate .e w = some (.mzero (fB w 20 4) (fB w 2 4)) := by
    show candEngine w = _
    unfold candEngine; rw [h]; rfl
  obtain ⟨e0, e1, e2⟩ := fields29 0x5 (by decide) td n
  show candidate .e (mkW 0x5 (td.toNat * 1048576 + n.toNat * 4)) = _
  rw [d _ e0, e1, e2]

theorem mxsave (ra : BitVec 6) : Statement (.mxsave ra) := by
  intro sl hs _
  cases (show some Slot.e = some sl from hs)
  have d (w : BitVec 32) (h : fN w 24 8 = 0x6) : candidate .e w = some (.mxsave (fB w 12 6)) := by
    show candEngine w = _
    unfold candEngine; rw [h]; rfl
  obtain ⟨e0, e1⟩ := fields7 0x6 (by decide) ra
  show candidate .e (mkW 0x6 (ra.toNat * 4096)) = _
  rw [d _ e0, e1]

theorem mxrest (ra : BitVec 6) : Statement (.mxrest ra) := by
  intro sl hs _
  cases (show some Slot.e = some sl from hs)
  have d (w : BitVec 32) (h : fN w 24 8 = 0x7) : candidate .e w = some (.mxrest (fB w 12 6)) := by
    show candEngine w = _
    unfold candEngine; rw [h]; rfl
  obtain ⟨e0, e1⟩ := fields7 0x7 (by decide) ra
  show candidate .e (mkW 0x7 (ra.toNat * 4096)) = _
  rw [d _ e0, e1]

theorem mtalloc (n : BitVec 4) (m : BitVec 4) : Statement (.mtalloc n m) := by
  intro sl hs _
  cases (show some Slot.e = some sl from hs)
  have d (w : BitVec 32) (h : fN w 24 8 = 0x8) : candidate .e w = some (.mtalloc (fB w 20 4) (fB w 2 4)) := by
    show candEngine w = _
    unfold candEngine; rw [h]; rfl
  obtain ⟨e0, e1, e2⟩ := fields29 0x8 (by decide) n m
  show candidate .e (mkW 0x8 (n.toNat * 1048576 + m.toNat * 4)) = _
  rw [d _ e0, e1, e2]

theorem mtfree  : Statement (.mtfree) := by
  intro sl hs _
  cases (show some Slot.e = some sl from hs)
  have d (w : BitVec 32) (h : fN w 24 8 = 0x9) : candidate .e w = some .mtfree := by
    show candEngine w = _
    unfold candEngine; rw [h]; rfl
  show candidate .e (mkW 0x9 (0)) = _
  rw [d _ (fN_op _ _ (by decide) (by omega))]
  

theorem cpy (dr : Bool) (sr : Bool) (ra : BitVec 6) (rb : BitVec 6) (tag : BitVec 6) : Statement (.cpy dr sr ra rb tag) := by
  intro sl hs _
  cases (show some Slot.e = some sl from hs)
  have := boolCode_lt dr; have := boolCode_lt sr; have := ra.isLt; have := rb.isLt; have := tag.isLt
  have d (w : BitVec 32) (h : fN w 24 8 = 0x10) : candidate .e w = some (.cpy (fT w 6) (fT w 7) (fB w 18 6) (fB w 12 6) (fB w 0 6)) := by
    show candEngine w = _
    unfold candEngine; rw [h]; rfl
  show candidate .e (mkW 0x10 (ra.toNat * 262144 + rb.toNat * 4096 + boolCode sr * 128 + boolCode dr * 64 + tag.toNat)) = _
  rw [d _ (fN_op _ _ (by decide) (by omega))]
  rw [fT_eq _ _ 6 dr (by decide) (by omega) (by omega),
    fT_eq _ _ 7 sr (by decide) (by omega) (by omega),
    fB_eq 6 _ _ 18 ra (by decide) (by omega) (by omega),
    fB_eq 6 _ _ 12 rb (by decide) (by omega) (by omega),
    fB_eq 6 _ _ 0 tag (by decide) (by omega) (by omega)]

theorem cpym (ra : BitVec 6) (rb : BitVec 6) (rc : BitVec 6) (tag : BitVec 6) : Statement (.cpym ra rb rc tag) := by
  intro sl hs _
  cases (show some Slot.e = some sl from hs)
  have d (w : BitVec 32) (h : fN w 24 8 = 0x11) : candidate .e w = some (.cpym (fB w 18 6) (fB w 12 6) (fB w 6 6) (fB w 0 6)) := by
    show candEngine w = _
    unfold candEngine; rw [h]; rfl
  obtain ⟨e0, e1, e2, e3, e4⟩ := fields30 0x11 (by decide) ra rb rc tag
  show candidate .e (mkW 0x11 (ra.toNat * 262144 + rb.toNat * 4096 + rc.toNat * 64 + tag.toNat)) = _
  rw [d _ e0, e1, e2, e3, e4]

theorem cpyr (op : BitVec 6) (ra : BitVec 6) (rb : BitVec 6) (tag : BitVec 6) : Statement (.cpyr op ra rb tag) := by
  intro sl hs _
  cases (show some Slot.e = some sl from hs)
  have d (w : BitVec 32) (h : fN w 24 8 = 0x12) : candidate .e w = some (.cpyr (fB w 6 6) (fB w 18 6) (fB w 12 6) (fB w 0 6)) := by
    show candEngine w = _
    unfold candEngine; rw [h]; rfl
  obtain ⟨e0, e1, e2, e3, e4⟩ := fields31 0x12 (by decide) op ra rb tag
  show candidate .e (mkW 0x12 (ra.toNat * 262144 + rb.toNat * 4096 + op.toNat * 64 + tag.toNat)) = _
  rw [d _ e0, e1, e2, e3, e4]

theorem rbinit (ring : BitVec 5) (ra : BitVec 6) (rb : BitVec 6) : Statement (.rbinit ring ra rb) := by
  intro sl hs _
  cases (show some Slot.e = some sl from hs)
  have := ring.isLt; have := ra.isLt; have := rb.isLt
  have d (w : BitVec 32) (h : fN w 24 8 = 0x13) : candidate .e w = some (.rbinit (fB w 0 5) (fB w 18 6) (fB w 12 6)) := by
    show candEngine w = _
    unfold candEngine; rw [h]; rfl
  show candidate .e (mkW 0x13 (ra.toNat * 262144 + rb.toNat * 4096 + ring.toNat)) = _
  rw [d _ (fN_op _ _ (by decide) (by omega))]
  rw [fB_eq 5 _ _ 0 ring (by decide) (by omega) (by omega),
    fB_eq 6 _ _ 18 ra (by decide) (by omega) (by omega),
    fB_eq 6 _ _ 12 rb (by decide) (by omega) (by omega)]

theorem svinit (ra : BitVec 6) (rb : BitVec 6) (tag : BitVec 6) : Statement (.svinit ra rb tag) := by
  intro sl hs _
  cases (show some Slot.e = some sl from hs)
  have d (w : BitVec 32) (h : fN w 24 8 = 0x20) : candidate .e w = some (.svinit (fB w 18 6) (fB w 12 6) (fB w 0 6)) := by
    show candEngine w = _
    unfold candEngine; rw [h]; rfl
  obtain ⟨e0, e1, e2, e3⟩ := fields5 0x20 (by decide) ra rb tag
  show candidate .e (mkW 0x20 (ra.toNat * 262144 + rb.toNat * 4096 + tag.toNat)) = _
  rw [d _ e0, e1, e2, e3]

theorem svapply (ra : BitVec 6) (rb : BitVec 6) (tag : BitVec 6) : Statement (.svapply ra rb tag) := by
  intro sl hs _
  cases (show some Slot.e = some sl from hs)
  have d (w : BitVec 32) (h : fN w 24 8 = 0x21) : candidate .e w = some (.svapply (fB w 18 6) (fB w 12 6) (fB w 0 6)) := by
    show candEngine w = _
    unfold candEngine; rw [h]; rfl
  obtain ⟨e0, e1, e2, e3⟩ := fields5 0x21 (by decide) ra rb tag
  show candidate .e (mkW 0x21 (ra.toNat * 262144 + rb.toNat * 4096 + tag.toNat)) = _
  rw [d _ e0, e1, e2, e3]

theorem svdiag (ra : BitVec 6) (rb : BitVec 6) (tag : BitVec 6) : Statement (.svdiag ra rb tag) := by
  intro sl hs _
  cases (show some Slot.e = some sl from hs)
  have d (w : BitVec 32) (h : fN w 24 8 = 0x22) : candidate .e w = some (.svdiag (fB w 18 6) (fB w 12 6) (fB w 0 6)) := by
    show candEngine w = _
    unfold candEngine; rw [h]; rfl
  obtain ⟨e0, e1, e2, e3⟩ := fields5 0x22 (by decide) ra rb tag
  show candidate .e (mkW 0x22 (ra.toNat * 262144 + rb.toNat * 4096 + tag.toNat)) = _
  rw [d _ e0, e1, e2, e3]

theorem svprob (ra : BitVec 6) (rb : BitVec 6) (rc : BitVec 6) (tag : BitVec 6) : Statement (.svprob ra rb rc tag) := by
  intro sl hs _
  cases (show some Slot.e = some sl from hs)
  have d (w : BitVec 32) (h : fN w 24 8 = 0x23) : candidate .e w = some (.svprob (fB w 18 6) (fB w 12 6) (fB w 6 6) (fB w 0 6)) := by
    show candEngine w = _
    unfold candEngine; rw [h]; rfl
  obtain ⟨e0, e1, e2, e3, e4⟩ := fields30 0x23 (by decide) ra rb rc tag
  show candidate .e (mkW 0x23 (ra.toNat * 262144 + rb.toNat * 4096 + rc.toNat * 64 + tag.toNat)) = _
  rw [d _ e0, e1, e2, e3, e4]

theorem svnorm (ra : BitVec 6) (rb : BitVec 6) (tag : BitVec 6) : Statement (.svnorm ra rb tag) := by
  intro sl hs _
  cases (show some Slot.e = some sl from hs)
  have d (w : BitVec 32) (h : fN w 24 8 = 0x24) : candidate .e w = some (.svnorm (fB w 18 6) (fB w 12 6) (fB w 0 6)) := by
    show candEngine w = _
    unfold candEngine; rw [h]; rfl
  obtain ⟨e0, e1, e2, e3⟩ := fields5 0x24 (by decide) ra rb tag
  show candidate .e (mkW 0x24 (ra.toNat * 262144 + rb.toNat * 4096 + tag.toNat)) = _
  rw [d _ e0, e1, e2, e3]

theorem svmap (ra : BitVec 6) (rb : BitVec 6) (tag : BitVec 6) : Statement (.svmap ra rb tag) := by
  intro sl hs _
  cases (show some Slot.e = some sl from hs)
  have d (w : BitVec 32) (h : fN w 24 8 = 0x25) : candidate .e w = some (.svmap (fB w 18 6) (fB w 12 6) (fB w 0 6)) := by
    show candEngine w = _
    unfold candEngine; rw [h]; rfl
  obtain ⟨e0, e1, e2, e3⟩ := fields5 0x25 (by decide) ra rb tag
  show candidate .e (mkW 0x25 (ra.toNat * 262144 + rb.toNat * 4096 + tag.toNat)) = _
  rw [d _ e0, e1, e2, e3]

theorem fsend (ra : BitVec 6) (rb : BitVec 6) (tag : BitVec 6) : Statement (.fsend ra rb tag) := by
  intro sl hs _
  cases (show some Slot.e = some sl from hs)
  have d (w : BitVec 32) (h : fN w 24 8 = 0x30) : candidate .e w = some (.fsend (fB w 18 6) (fB w 12 6) (fB w 0 6)) := by
    show candEngine w = _
    unfold candEngine; rw [h]; rfl
  obtain ⟨e0, e1, e2, e3⟩ := fields5 0x30 (by decide) ra rb tag
  show candidate .e (mkW 0x30 (ra.toNat * 262144 + rb.toNat * 4096 + tag.toNat)) = _
  rw [d _ e0, e1, e2, e3]

theorem frecv (ra : BitVec 6) (rb : BitVec 6) (tag : BitVec 6) : Statement (.frecv ra rb tag) := by
  intro sl hs _
  cases (show some Slot.e = some sl from hs)
  have d (w : BitVec 32) (h : fN w 24 8 = 0x31) : candidate .e w = some (.frecv (fB w 18 6) (fB w 12 6) (fB w 0 6)) := by
    show candEngine w = _
    unfold candEngine; rw [h]; rfl
  obtain ⟨e0, e1, e2, e3⟩ := fields5 0x31 (by decide) ra rb tag
  show candidate .e (mkW 0x31 (ra.toNat * 262144 + rb.toNat * 4096 + tag.toNat)) = _
  rw [d _ e0, e1, e2, e3]

theorem fput (ra : BitVec 6) (rb : BitVec 6) (tag : BitVec 6) : Statement (.fput ra rb tag) := by
  intro sl hs _
  cases (show some Slot.e = some sl from hs)
  have d (w : BitVec 32) (h : fN w 24 8 = 0x32) : candidate .e w = some (.fput (fB w 18 6) (fB w 12 6) (fB w 0 6)) := by
    show candEngine w = _
    unfold candEngine; rw [h]; rfl
  obtain ⟨e0, e1, e2, e3⟩ := fields5 0x32 (by decide) ra rb tag
  show candidate .e (mkW 0x32 (ra.toNat * 262144 + rb.toNat * 4096 + tag.toNat)) = _
  rw [d _ e0, e1, e2, e3]

theorem fputS (ra : BitVec 6) (rb : BitVec 6) (tag : BitVec 6) : Statement (.fputS ra rb tag) := by
  intro sl hs _
  cases (show some Slot.e = some sl from hs)
  have d (w : BitVec 32) (h : fN w 24 8 = 0x33) : candidate .e w = some (.fputS (fB w 18 6) (fB w 12 6) (fB w 0 6)) := by
    show candEngine w = _
    unfold candEngine; rw [h]; rfl
  obtain ⟨e0, e1, e2, e3⟩ := fields5 0x33 (by decide) ra rb tag
  show candidate .e (mkW 0x33 (ra.toNat * 262144 + rb.toNat * 4096 + tag.toNat)) = _
  rw [d _ e0, e1, e2, e3]

theorem fputR (op : BitVec 6) (ra : BitVec 6) (rb : BitVec 6) (tag : BitVec 6) : Statement (.fputR op ra rb tag) := by
  intro sl hs _
  cases (show some Slot.e = some sl from hs)
  have d (w : BitVec 32) (h : fN w 24 8 = 0x34) : candidate .e w = some (.fputR (fB w 6 6) (fB w 18 6) (fB w 12 6) (fB w 0 6)) := by
    show candEngine w = _
    unfold candEngine; rw [h]; rfl
  obtain ⟨e0, e1, e2, e3, e4⟩ := fields31 0x34 (by decide) op ra rb tag
  show candidate .e (mkW 0x34 (ra.toNat * 262144 + rb.toNat * 4096 + op.toNat * 64 + tag.toNat)) = _
  rw [d _ e0, e1, e2, e3, e4]

theorem fget (ra : BitVec 6) (rb : BitVec 6) (tag : BitVec 6) : Statement (.fget ra rb tag) := by
  intro sl hs _
  cases (show some Slot.e = some sl from hs)
  have d (w : BitVec 32) (h : fN w 24 8 = 0x35) : candidate .e w = some (.fget (fB w 18 6) (fB w 12 6) (fB w 0 6)) := by
    show candEngine w = _
    unfold candEngine; rw [h]; rfl
  obtain ⟨e0, e1, e2, e3⟩ := fields5 0x35 (by decide) ra rb tag
  show candidate .e (mkW 0x35 (ra.toNat * 262144 + rb.toNat * 4096 + tag.toNat)) = _
  rw [d _ e0, e1, e2, e3]

theorem fexpect (clr : Bool) (ra : BitVec 6) (rb : BitVec 6) (tag : BitVec 6) : Statement (.fexpect clr ra rb tag) := by
  intro sl hs _
  cases (show some Slot.e = some sl from hs)
  have := boolCode_lt clr; have := ra.isLt; have := rb.isLt; have := tag.isLt
  have d (w : BitVec 32) (h : fN w 24 8 = 0x36) : candidate .e w = some (.fexpect (fT w 6) (fB w 18 6) (fB w 12 6) (fB w 0 6)) := by
    show candEngine w = _
    unfold candEngine; rw [h]; rfl
  show candidate .e (mkW 0x36 (ra.toNat * 262144 + rb.toNat * 4096 + boolCode clr * 64 + tag.toNat)) = _
  rw [d _ (fN_op _ _ (by decide) (by omega))]
  rw [fT_eq _ _ 6 clr (by decide) (by omega) (by omega),
    fB_eq 6 _ _ 18 ra (by decide) (by omega) (by omega),
    fB_eq 6 _ _ 12 rb (by decide) (by omega) (by omega),
    fB_eq 6 _ _ 0 tag (by decide) (by omega) (by omega)]

theorem fport (ra : BitVec 6) (rb : BitVec 6) (tag : BitVec 6) : Statement (.fport ra rb tag) := by
  intro sl hs _
  cases (show some Slot.e = some sl from hs)
  have d (w : BitVec 32) (h : fN w 24 8 = 0x37) : candidate .e w = some (.fport (fB w 18 6) (fB w 12 6) (fB w 0 6)) := by
    show candEngine w = _
    unfold candEngine; rw [h]; rfl
  obtain ⟨e0, e1, e2, e3⟩ := fields5 0x37 (by decide) ra rb tag
  show candidate .e (mkW 0x37 (ra.toNat * 262144 + rb.toNat * 4096 + tag.toNat)) = _
  rw [d _ e0, e1, e2, e3]

theorem froute (rd : BitVec 6) (rb : BitVec 6) (port : Bool) : Statement (.froute rd rb port) := by
  intro sl hs _
  cases (show some Slot.e = some sl from hs)
  have := rd.isLt; have := rb.isLt; have := boolCode_lt port
  have d (w : BitVec 32) (h : fN w 24 8 = 0x38) : candidate .e w = some (.froute (fB w 18 6) (fB w 12 6) (fT w 6)) := by
    show candEngine w = _
    unfold candEngine; rw [h]; rfl
  show candidate .e (mkW 0x38 (rd.toNat * 262144 + rb.toNat * 4096 + boolCode port * 64)) = _
  rw [d _ (fN_op _ _ (by decide) (by omega))]
  rw [fB_eq 6 _ _ 18 rd (by decide) (by omega) (by omega),
    fB_eq 6 _ _ 12 rb (by decide) (by omega) (by omega),
    fT_eq _ _ 6 port (by decide) (by omega) (by omega)]

theorem coll (ra : BitVec 6) (tag : BitVec 6) : Statement (.coll ra tag) := by
  intro sl hs _
  cases (show some Slot.e = some sl from hs)
  have d (w : BitVec 32) (h : fN w 24 8 = 0x40) : candidate .e w = some (.coll (fB w 18 6) (fB w 0 6)) := by
    show candEngine w = _
    unfold candEngine; rw [h]; rfl
  obtain ⟨e0, e1, e2⟩ := fields32 0x40 (by decide) ra tag
  show candidate .e (mkW 0x40 (ra.toNat * 262144 + tag.toNat)) = _
  rw [d _ e0, e1, e2]

theorem collw (ra : BitVec 6) : Statement (.collw ra) := by
  intro sl hs _
  cases (show some Slot.e = some sl from hs)
  have d (w : BitVec 32) (h : fN w 24 8 = 0x41) : candidate .e w = some (.collw (fB w 18 6)) := by
    show candEngine w = _
    unfold candEngine; rw [h]; rfl
  obtain ⟨e0, e1⟩ := fields15 0x41 (by decide) ra
  show candidate .e (mkW 0x41 (ra.toNat * 262144)) = _
  rw [d _ e0, e1]

theorem agb (pc : BitVec 4) (rb : BitVec 6) : Statement (.agb pc rb) := by
  intro sl hs _
  cases (show some Slot.e = some sl from hs)
  have := pc.isLt; have := rb.isLt
  have d (w : BitVec 32) (h : fN w 24 8 = 0x42) : candidate .e w = some (.agb (fB w 18 4) (fB w 12 6)) := by
    show candEngine w = _
    unfold candEngine; rw [h]; rfl
  show candidate .e (mkW 0x42 (pc.toNat * 262144 + rb.toNat * 4096)) = _
  rw [d _ (fN_op _ _ (by decide) (by omega))]
  rw [fB_eq 4 _ _ 18 pc (by decide) (by omega) (by omega),
    fB_eq 6 _ _ 12 rb (by decide) (by omega) (by omega)]

theorem agbx (ra : BitVec 6) (rb : BitVec 6) : Statement (.agbx ra rb) := by
  intro sl hs _
  cases (show some Slot.e = some sl from hs)
  have d (w : BitVec 32) (h : fN w 24 8 = 0x43) : candidate .e w = some (.agbx (fB w 18 6) (fB w 12 6)) := by
    show candEngine w = _
    unfold candEngine; rw [h]; rfl
  obtain ⟨e0, e1, e2⟩ := fields2 0x43 (by decide) ra rb
  show candidate .e (mkW 0x43 (ra.toNat * 262144 + rb.toNat * 4096)) = _
  rw [d _ e0, e1, e2]

theorem agwait  : Statement (.agwait) := by
  intro sl hs _
  cases (show some Slot.e = some sl from hs)
  have d (w : BitVec 32) (h : fN w 24 8 = 0x44) : candidate .e w = some .agwait := by
    show candEngine w = _
    unfold candEngine; rw [h]; rfl
  show candidate .e (mkW 0x44 (0)) = _
  rw [d _ (fN_op _ _ (by decide) (by omega))]
  

theorem barr (rb : BitVec 6) (tag : BitVec 6) : Statement (.barr rb tag) := by
  intro sl hs _
  cases (show some Slot.e = some sl from hs)
  have := rb.isLt; have := tag.isLt
  have d (w : BitVec 32) (h : fN w 24 8 = 0x45) : candidate .e w = some (.barr (fB w 12 6) (fB w 0 6)) := by
    show candEngine w = _
    unfold candEngine; rw [h]; rfl
  show candidate .e (mkW 0x45 (rb.toNat * 4096 + tag.toNat)) = _
  rw [d _ (fN_op _ _ (by decide) (by omega))]
  rw [fB_eq 6 _ _ 12 rb (by decide) (by omega) (by omega),
    fB_eq 6 _ _ 0 tag (by decide) (by omega) (by omega)]

theorem tlbi (ra : BitVec 6) (rb : BitVec 6) (tag : BitVec 6) : Statement (.tlbi ra rb tag) := by
  intro sl hs _
  cases (show some Slot.e = some sl from hs)
  have d (w : BitVec 32) (h : fN w 24 8 = 0x50) : candidate .e w = some (.tlbi (fB w 18 6) (fB w 12 6) (fB w 0 6)) := by
    show candEngine w = _
    unfold candEngine; rw [h]; rfl
  obtain ⟨e0, e1, e2, e3⟩ := fields5 0x50 (by decide) ra rb tag
  show candidate .e (mkW 0x50 (ra.toNat * 262144 + rb.toNat * 4096 + tag.toNat)) = _
  rw [d _ e0, e1, e2, e3]

theorem ckpt (ra : BitVec 6) (tag : BitVec 6) : Statement (.ckpt ra tag) := by
  intro sl hs _
  cases (show some Slot.e = some sl from hs)
  have d (w : BitVec 32) (h : fN w 24 8 = 0x51) : candidate .e w = some (.ckpt (fB w 18 6) (fB w 0 6)) := by
    show candEngine w = _
    unfold candEngine; rw [h]; rfl
  obtain ⟨e0, e1, e2⟩ := fields32 0x51 (by decide) ra tag
  show candidate .e (mkW 0x51 (ra.toNat * 262144 + tag.toNat)) = _
  rw [d _ e0, e1, e2]

theorem aaddH (sz : ASize) (rd : BitVec 6) (ra : BitVec 6) (rb : BitVec 6) : Statement (.aaddH sz rd ra rb) := by
  intro sl hs _
  cases (show some Slot.e = some sl from hs)
  have d (w : BitVec 32) (h : fN w 24 8 = 0x60) : candidate .e w = (ASize.ofCode (fN w 4 2)).bind fun sz => some (.aaddH sz (fB w 18 6) (fB w 12 6) (fB w 6 6)) := by
    show candEngine w = _
    unfold candEngine; rw [h]; rfl
  obtain ⟨e0, e1, e2, e3, e4⟩ := fields25 0x60 (by decide) sz rd ra rb
  show candidate .e (mkW 0x60 (rd.toNat * 262144 + ra.toNat * 4096 + rb.toNat * 64 + sz.code * 16)) = _
  rw [d _ e0, e1, ASize.ofCode_code sz, e2, e3, e4]
  rfl

theorem aandH (sz : ASize) (rd : BitVec 6) (ra : BitVec 6) (rb : BitVec 6) : Statement (.aandH sz rd ra rb) := by
  intro sl hs _
  cases (show some Slot.e = some sl from hs)
  have d (w : BitVec 32) (h : fN w 24 8 = 0x61) : candidate .e w = (ASize.ofCode (fN w 4 2)).bind fun sz => some (.aandH sz (fB w 18 6) (fB w 12 6) (fB w 6 6)) := by
    show candEngine w = _
    unfold candEngine; rw [h]; rfl
  obtain ⟨e0, e1, e2, e3, e4⟩ := fields25 0x61 (by decide) sz rd ra rb
  show candidate .e (mkW 0x61 (rd.toNat * 262144 + ra.toNat * 4096 + rb.toNat * 64 + sz.code * 16)) = _
  rw [d _ e0, e1, ASize.ofCode_code sz, e2, e3, e4]
  rfl

theorem aorH (sz : ASize) (rd : BitVec 6) (ra : BitVec 6) (rb : BitVec 6) : Statement (.aorH sz rd ra rb) := by
  intro sl hs _
  cases (show some Slot.e = some sl from hs)
  have d (w : BitVec 32) (h : fN w 24 8 = 0x62) : candidate .e w = (ASize.ofCode (fN w 4 2)).bind fun sz => some (.aorH sz (fB w 18 6) (fB w 12 6) (fB w 6 6)) := by
    show candEngine w = _
    unfold candEngine; rw [h]; rfl
  obtain ⟨e0, e1, e2, e3, e4⟩ := fields25 0x62 (by decide) sz rd ra rb
  show candidate .e (mkW 0x62 (rd.toNat * 262144 + ra.toNat * 4096 + rb.toNat * 64 + sz.code * 16)) = _
  rw [d _ e0, e1, ASize.ofCode_code sz, e2, e3, e4]
  rfl

theorem axorH (sz : ASize) (rd : BitVec 6) (ra : BitVec 6) (rb : BitVec 6) : Statement (.axorH sz rd ra rb) := by
  intro sl hs _
  cases (show some Slot.e = some sl from hs)
  have d (w : BitVec 32) (h : fN w 24 8 = 0x63) : candidate .e w = (ASize.ofCode (fN w 4 2)).bind fun sz => some (.axorH sz (fB w 18 6) (fB w 12 6) (fB w 6 6)) := by
    show candEngine w = _
    unfold candEngine; rw [h]; rfl
  obtain ⟨e0, e1, e2, e3, e4⟩ := fields25 0x63 (by decide) sz rd ra rb
  show candidate .e (mkW 0x63 (rd.toNat * 262144 + ra.toNat * 4096 + rb.toNat * 64 + sz.code * 16)) = _
  rw [d _ e0, e1, ASize.ofCode_code sz, e2, e3, e4]
  rfl

theorem aminH (sz : ASize) (rd : BitVec 6) (ra : BitVec 6) (rb : BitVec 6) : Statement (.aminH sz rd ra rb) := by
  intro sl hs _
  cases (show some Slot.e = some sl from hs)
  have d (w : BitVec 32) (h : fN w 24 8 = 0x64) : candidate .e w = (ASize.ofCode (fN w 4 2)).bind fun sz => some (.aminH sz (fB w 18 6) (fB w 12 6) (fB w 6 6)) := by
    show candEngine w = _
    unfold candEngine; rw [h]; rfl
  obtain ⟨e0, e1, e2, e3, e4⟩ := fields25 0x64 (by decide) sz rd ra rb
  show candidate .e (mkW 0x64 (rd.toNat * 262144 + ra.toNat * 4096 + rb.toNat * 64 + sz.code * 16)) = _
  rw [d _ e0, e1, ASize.ofCode_code sz, e2, e3, e4]
  rfl

theorem amaxH (sz : ASize) (rd : BitVec 6) (ra : BitVec 6) (rb : BitVec 6) : Statement (.amaxH sz rd ra rb) := by
  intro sl hs _
  cases (show some Slot.e = some sl from hs)
  have d (w : BitVec 32) (h : fN w 24 8 = 0x65) : candidate .e w = (ASize.ofCode (fN w 4 2)).bind fun sz => some (.amaxH sz (fB w 18 6) (fB w 12 6) (fB w 6 6)) := by
    show candEngine w = _
    unfold candEngine; rw [h]; rfl
  obtain ⟨e0, e1, e2, e3, e4⟩ := fields25 0x65 (by decide) sz rd ra rb
  show candidate .e (mkW 0x65 (rd.toNat * 262144 + ra.toNat * 4096 + rb.toNat * 64 + sz.code * 16)) = _
  rw [d _ e0, e1, ASize.ofCode_code sz, e2, e3, e4]
  rfl

theorem aswpH (sz : ASize) (rd : BitVec 6) (ra : BitVec 6) (rb : BitVec 6) : Statement (.aswpH sz rd ra rb) := by
  intro sl hs _
  cases (show some Slot.e = some sl from hs)
  have d (w : BitVec 32) (h : fN w 24 8 = 0x66) : candidate .e w = (ASize.ofCode (fN w 4 2)).bind fun sz => some (.aswpH sz (fB w 18 6) (fB w 12 6) (fB w 6 6)) := by
    show candEngine w = _
    unfold candEngine; rw [h]; rfl
  obtain ⟨e0, e1, e2, e3, e4⟩ := fields25 0x66 (by decide) sz rd ra rb
  show candidate .e (mkW 0x66 (rd.toNat * 262144 + ra.toNat * 4096 + rb.toNat * 64 + sz.code * 16)) = _
  rw [d _ e0, e1, ASize.ofCode_code sz, e2, e3, e4]
  rfl

theorem casH (sz : ASize) (rd : BitVec 6) (ra : BitVec 6) (rb : BitVec 6) : Statement (.casH sz rd ra rb) := by
  intro sl hs _
  cases (show some Slot.e = some sl from hs)
  have d (w : BitVec 32) (h : fN w 24 8 = 0x67) : candidate .e w = (ASize.ofCode (fN w 4 2)).bind fun sz => some (.casH sz (fB w 18 6) (fB w 12 6) (fB w 6 6)) := by
    show candEngine w = _
    unfold candEngine; rw [h]; rfl
  obtain ⟨e0, e1, e2, e3, e4⟩ := fields25 0x67 (by decide) sz rd ra rb
  show candidate .e (mkW 0x67 (rd.toNat * 262144 + ra.toNat * 4096 + rb.toNat * 64 + sz.code * 16)) = _
  rw [d _ e0, e1, ASize.ofCode_code sz, e2, e3, e4]
  rfl

theorem afaddH (rd : BitVec 6) (ra : BitVec 6) (rb : BitVec 6) : Statement (.afaddH rd ra rb) := by
  intro sl hs _
  cases (show some Slot.e = some sl from hs)
  have d (w : BitVec 32) (h : fN w 24 8 = 0x68) : candidate .e w = some (.afaddH (fB w 18 6) (fB w 12 6) (fB w 6 6)) := by
    show candEngine w = _
    unfold candEngine; rw [h]; rfl
  obtain ⟨e0, e1, e2, e3⟩ := fields1 0x68 (by decide) rd ra rb
  show candidate .e (mkW 0x68 (rd.toNat * 262144 + ra.toNat * 4096 + rb.toNat * 64)) = _
  rw [d _ e0, e1, e2, e3]

theorem aredH (op : BitVec 6) (ra : BitVec 6) (rb : BitVec 6) (rv : BitVec 6) : Statement (.aredH op ra rb rv) := by
  intro sl hs _
  cases (show some Slot.e = some sl from hs)
  have d (w : BitVec 32) (h : fN w 24 8 = 0x69) : candidate .e w = some (.aredH (fB w 0 6) (fB w 12 6) (fB w 6 6) (fB w 18 6)) := by
    show candEngine w = _
    unfold candEngine; rw [h]; rfl
  obtain ⟨e0, e1, e2, e3, e4⟩ := fields26 0x69 (by decide) op ra rb rv
  show candidate .e (mkW 0x69 (rv.toNat * 262144 + ra.toNat * 4096 + rb.toNat * 64 + op.toNat)) = _
  rw [d _ e0, e1, e2, e3, e4]

theorem bundleIssue (k : Nat) : Statement (.bundleIssue k) := event rfl
theorem lsAccessPerformed (c : Nat) (n : Nat) (act : LsAct) : Statement (.lsAccessPerformed c n act) := event rfl
theorem bankAtomicPerformed (c : Nat) (home : Bool) : Statement (.bankAtomicPerformed c home) := event rfl
theorem bktsetDataArrival (c : Nat) : Statement (.bktsetDataArrival c) := event rfl
theorem preemption (c : Nat) : Statement (.preemption c) := event rfl
theorem frecvCopyComplete (c : Nat) (n : Nat) : Statement (.frecvCopyComplete c n) := event rfl
theorem watchdogExpiry (c : Nat) : Statement (.watchdogExpiry c) := event rfl
theorem prefetchComplete (k : Nat) (n : Nat) : Statement (.prefetchComplete k n) := event rfl
theorem ringSlotClaim (k : Nat) (n : Nat) : Statement (.ringSlotClaim k n) := event rfl
theorem copyPageReach (k : Nat) (n : Nat) (len : Nat) : Statement (.copyPageReach k n len) := event rfl
theorem cpymLanding (k : Nat) (n : Nat) : Statement (.cpymLanding k n) := event rfl
theorem copyComplete (k : Nat) (n : Nat) : Statement (.copyComplete k n) := event rfl
theorem matrixAllocGrant (k : Nat) : Statement (.matrixAllocGrant k) := event rfl
theorem matrixCommandComplete (k : Nat) : Statement (.matrixCommandComplete k) := event rfl
theorem matrixLineFetch (k : Nat) : Statement (.matrixLineFetch k) := event rfl
theorem matrixCommandStart (k : Nat) : Statement (.matrixCommandStart k) := event rfl
theorem recordPop (c : Nat) : Statement (.recordPop c) := event rfl
theorem eddyCommandComplete (d : Nat) : Statement (.eddyCommandComplete d) := event rfl
theorem exchangeData (d : Nat) (data : List (BitVec 8)) : Statement (.exchangeData d data) := event rfl
theorem eddyCommandStart (d : Nat) : Statement (.eddyCommandStart d) := event rfl
theorem collectiveStart (d : Nat) (n : Nat) : Statement (.collectiveStart d n) := event rfl
theorem barrArrivalSend (d : Nat) (n : Nat) : Statement (.barrArrivalSend d n) := event rfl
theorem ckptComplete (d : Nat) (n : Nat) : Statement (.ckptComplete d n) := event rfl
theorem phaseDrainEnd (d : Nat) : Statement (.phaseDrainEnd d) := event rfl
theorem budgetPeriod (d : Nat) (r : Nat) : Statement (.budgetPeriod d r) := event rfl
theorem serviceRingPoll (d : Nat) (top : Nat) : Statement (.serviceRingPoll d top) := event rfl
theorem packetArrival (d : Nat) (pf : PktFrom) : Statement (.packetArrival d pf) := event rfl
theorem tlbiComplete (d : Nat) (n : Nat) : Statement (.tlbiComplete d n) := event rfl
theorem openNoticeArrival (d : Nat) (m : GMsg) : Statement (.openNoticeArrival d m) := event rfl
theorem planStepArrival (d : Nat) (m : GMsg) : Statement (.planStepArrival d m) := event rfl
theorem abortNoticeArrival (d : Nat) (m : GMsg) : Statement (.abortNoticeArrival d m) := event rfl
theorem barrArrivalReceive (d : Nat) (m : GMsg) : Statement (.barrArrivalReceive d m) := event rfl
theorem huddleContributionArrival (d : Nat) (m : GMsg) : Statement (.huddleContributionArrival d m) := event rfl
theorem huddleOutcomeArrival (d : Nat) (m : GMsg) : Statement (.huddleOutcomeArrival d m) := event rfl
theorem voidRequestArrival (d : Nat) (m : GMsg) : Statement (.voidRequestArrival d m) := event rfl
theorem fabricSlotBoundary (plane : Nat) : Statement (.fabricSlotBoundary plane) := event rfl
theorem ackArrival (d : Nat) (a : Ack) : Statement (.ackArrival d a) := event rfl
theorem staleNotice (d : Nat) (top : Nat) (src : Nat) (dst : Nat) (seq : Nat) (ver : Nat) : Statement (.staleNotice d top src dst seq ver) := event rfl
theorem authFailNotice (d : Nat) (top : Nat) (src : Nat) (dst : Nat) (seq : Nat) : Statement (.authFailNotice d top src dst seq) := event rfl
theorem exchangeHandshake (d gid serial b g : Nat) : Statement (.exchangeHandshake d gid serial b g) := event rfl
theorem registerWriteback (c : Nat) : Statement (.registerWriteback c) := event rfl
theorem loadDataReturn (c : Nat) (n : Nat) : Statement (.loadDataReturn c n) := event rfl
theorem quantumExpiry (c : Nat) : Statement (.quantumExpiry c) := event rfl
theorem budgetExhausted (d : Nat) (r : Nat) : Statement (.budgetExhausted d r) := event rfl
theorem trapEntry (c : Nat) : Statement (.trapEntry c) := event rfl
theorem pinLineFetch (c : Nat) (w : Nat) (n : Nat) : Statement (.pinLineFetch c w n) := event rfl
theorem framingReceived (plane : Nat) (slot : Nat) (sender : Nat) : Statement (.framingReceived plane slot sender) := event rfl
theorem ringSaturation (ring : Nat) : Statement (.ringSaturation ring) := event rfl
theorem dataWindowStart (plane : Nat) : Statement (.dataWindowStart plane) := event rfl
theorem heldPacketTimeout (d : Nat) (n : Nat) : Statement (.heldPacketTimeout d n) := event rfl
theorem staleRetransmitTimeout (d : Nat) (n : Nat) : Statement (.staleRetransmitTimeout d n) := event rfl
theorem routeWaitTimeout (d : Nat) (n : Nat) : Statement (.routeWaitTimeout d n) := event rfl
theorem frecvTimeout (c : Nat) : Statement (.frecvTimeout c) := event rfl
theorem wakeHint (port : Nat) : Statement (.wakeHint port) := event rfl
theorem collectiveTimeout (d : Nat) (n : Nat) : Statement (.collectiveTimeout d n) := event rfl
theorem memberLostReport (d : Nat) (top : Nat) (rank : Nat) : Statement (.memberLostReport d top rank) := event rfl
theorem huddleTimeout (c : Nat) : Statement (.huddleTimeout c) := event rfl
theorem outcomeResend (d : Nat) (n : Nat) (mem : Nat) : Statement (.outcomeResend d n mem) := event rfl
theorem linkKeyInstall (d : Nat) (slot : Nat) (top : Nat) (opened : Option Nat) : Statement (.linkKeyInstall d slot top opened) := event rfl
theorem powerOn (t : BootTry) : Statement (.powerOn t) := event rfl
theorem bootRetry (t : BootTry) : Statement (.bootRetry t) := event rfl
theorem pkgreset : Statement (.pkgreset) := event rfl
theorem hqprod (w : Word) : Statement (.hqprod w) := event rfl
theorem bar0RegisterWrite (off : Nat) (w : Word) : Statement (.bar0RegisterWrite off w) := event rfl
theorem functionLevelReset : Statement (.functionLevelReset) := event rfl
theorem currentLimit (on : Bool) : Statement (.currentLimit on) := event rfl
theorem thermalThrottle (d : Nat) (on : Bool) : Statement (.thermalThrottle d on) := event rfl
theorem thermalTrip (d : Nat) : Statement (.thermalTrip d) := event rfl
theorem ringHeatWrite (ring : Nat) (heat : Nat) : Statement (.ringHeatWrite ring heat) := event rfl
theorem createRegion (q : Req) (rcb : BitVec 2048) : Statement (.createRegion q rcb) := event rfl
theorem changeRegion (q : Req) (rcb : BitVec 2048) : Statement (.changeRegion q rcb) := event rfl
theorem makeRunnable (q : Req) : Statement (.makeRunnable q) := event rfl
theorem makeNotRunnable (q : Req) : Statement (.makeNotRunnable q) := event rfl
theorem destroyRegion (q : Req) : Statement (.destroyRegion q) := event rfl
theorem bindKernel (q : Req) (image : List Byte) (kid : Nat) (mask : Word) (vbase : Word) : Statement (.bindKernel q image kid mask vbase) := event rfl
theorem pushRecords (q : Req) (recs : List (BitVec 256)) : Statement (.pushRecords q recs) := event rfl
theorem handlerVector (q : Req) (kid : Nat) (entry : Nat) : Statement (.handlerVector q kid entry) := event rfl
theorem breakpoint (q : Req) (num : Nat) (kid : Nat) (pc : Nat) (en : Bool) : Statement (.breakpoint q num kid pc en) := event rfl
theorem routeTable (q : Req) (ents : List Word) (ver : Nat) : Statement (.routeTable q ents ver) := event rfl
theorem groupEntry (q : Req) (gid : Nat) (ent : Word) (ranks : List Nat) : Statement (.groupEntry q gid ent ranks) := event rfl
theorem assignKeySlot (q : Req) (slot : Nat) : Statement (.assignKeySlot q slot) := event rfl
theorem reclaimKeySlot (q : Req) (slot : Nat) : Statement (.reclaimKeySlot q slot) := event rfl
theorem pageTableRoot (q : Req) (root : Word) : Statement (.pageTableRoot q root) := event rfl
theorem frameOwner (q : Req) (kind : FrameKind) (frame : Nat) (owner : Owner) : Statement (.frameOwner q kind frame owner) := event rfl
theorem cisternAllotment (q : Req) (size : Nat) : Statement (.cisternAllotment q size) := event rfl
theorem attest (q : Req) (nonce : BitVec 256) : Statement (.attest q nonce) := event rfl
theorem readRingStatus (q : Req) (ring : Nat) : Statement (.readRingStatus q ring) := event rfl
theorem registerServiceRing (q : Req) (va : Word) : Statement (.registerServiceRing q va) := event rfl
theorem withdrawServiceRing (q : Req) : Statement (.withdrawServiceRing q) := event rfl
theorem framingLost (plane : Nat) : Statement (.framingLost plane) := event rfl
theorem softError (site : ErrSite) (correctable : Bool) : Statement (.softError site correctable) := event rfl
theorem exchangePartnerTimeout (d : Nat) (lost : Bool) : Statement (.exchangePartnerTimeout d lost) := event rfl

end Sys2Proof.Laws.Coding
end

