-- ==== Sys2Proof/Tests/Slice0.lean ====
section
/-!
SUPPORT. Tests: ill-formed terms that WellFormed refuses, words of every family written out from the spec and what they
decode to, single steps; and for every statement with hypotheses a state and operands that meet them.
-/

namespace Sys2Proof.Tests

open Sys2Proof Sys2Proof.Machine Sys2Proof.Claims

set_option maxRecDepth 20000
set_option exponentiation.threshold 2100

/-- The program's region: counters, a group of ranks 0 and 1, a handler at KID 0, PC 16. -/
def reg : Region :=
  { rcb := hostRcb, runnable := true, counters := List.replicate 256 {}, vector := some (0, 16)
    groups := [{ gid := 0, gen := 1, valid := true, self := 0, ranks := [0, 1] }] }

/-- A DRAM page at 0x1_0000, a scratchpad page at 0x2_0000, a code page at 0, all under key slot 1. -/
def pages : List TlbEntry :=
  [{ top := 1, vbase := 0x10000, size := 0x10000, leaf := 0x0010000000010039#64 },
   { top := 1, vbase := 0x20000, size := 0x10000, leaf := 0x0010100000000039#64 },
   { top := 1, vbase := 0, size := 0x10000, leaf := codeLeaf }]

def die0 : Die :=
  { inReset := false, regions := [reg], tlb := pages
    frames := [(.dram, 0, .top 1), (.dram, 1, .top 1), (.scratch, 0, .slot 1)] }

def rec0 : RecInfo := { rid := 1, prio := 0, qpri := 0, frame := 0x10000#64, joinptr := 0#64, kid := 0, entry := 0 }

def ctx0 : Ctx := { Ctx.init with status := .active, record := some rec0, savearea := 0x10000#64 }

def core0 : Core := { kernels := [placedKernel .s0 0#32], issuing := some 0 }

/-- Key slots: 0 of firmware, 1 a memory key and 2 a link key of the program, 3 assigned to it, the rest free. -/
def keys0 : List KeySlot :=
  { state := .live } :: { state := .live, die := 0, top := 1 } :: { state := .live, link := true, die := 0, top := 1 } ::
    { state := .assigned, die := 0, top := 1 } :: List.replicate 4092 {}

def base : State :=
  { State.reset with
    dies := die0 :: List.replicate 3 { inReset := false }, cores := core0 :: List.replicate 255 {}
    ctxs := ctx0 :: List.replicate 1023 Ctx.init, keys := keys0, bootstat := 3#64, tape := List.replicate 200 0 }

theorem sized_base : Sized base := by
  constructor <;> simp [base, keys0, State.reset, -List.reduceReplicate]

theorem sized_die {s : State} (h : Sized s) (d : Nat) (f : Die → Die) : Sized (modDie d f s) :=
  ⟨by simpa [modDie] using h.dies, h.cores, h.ctxs, h.keys⟩

theorem sized_core {s : State} (h : Sized s) (k : Nat) (f : Core → Core) : Sized (modCore k f s) :=
  ⟨h.dies, by simpa [modCore] using h.cores, h.ctxs, h.keys⟩

theorem sized_ctx {s : State} (h : Sized s) (c : Nat) (f : Ctx → Ctx) : Sized (modCtx c f s) := by
  unfold modCtx
  split
  · exact ⟨h.dies, h.cores, by simpa using h.ctxs, h.keys⟩
  · exact ⟨h.dies, h.cores, h.ctxs, h.keys⟩

/-- The package with context 0, core 0 and die 0 changed. -/
def with0 (x : Ctx → Ctx) (k : Core → Core := id) (d : Die → Die := id) : State := modCtx 0 x (modCore 0 k (modDie 0 d base))

theorem sized_with0 (x : Ctx → Ctx) (k : Core → Core) (d : Die → Die) : Sized (with0 x k d) :=
  sized_ctx (sized_core (sized_die sized_base 0 d) 0 k) 0 x

/-- Context 0 with values in its scalar registers from x1 on. -/
def regs (xs : List Word) (x : Ctx) : Ctx := { x with arch := { x.arch with x := 0#64 :: xs ++ List.replicate (63 - xs.length) 0#64 } }

/-- What Ready asks besides the size of the package. -/
def readyB (i : Instr) (s : State) : Bool :=
  decide (s.cur < 1024) && !s.hdr.fin && decide (decodeFault (getCtx (atIssue s) s.cur) s.hdr [i] = none) &&
  decide (interlocked (getArch (atIssue s) s.cur) (namedRegs (getArch (atIssue s) s.cur) s.hdr [i]) = false) &&
  decide (bktStalls (getCtx (atIssue s) s.cur) [i] = false) &&
  decide (stageState (getArch (atIssue s) s.cur) s.hdr = (false, true)) &&
  decide ((runsAhead (getCtx (atIssue s) s.cur) && heldBack i) = false) &&
  decide (takesEffect (guardOf (getArch (atIssue s) s.cur) s.hdr) i = true) &&
  decide (((getArch (atIssue s) s.cur).poisoned.any fun d =>
    (implicitReads (getArch (atIssue s) s.cur) s.hdr true ++ (srcs i).map (destOf (getArch (atIssue s) s.cur))).contains d) = false) &&
  decide (noRoom (getCtx (atIssue s) s.cur) s.hdr [i] = false)

theorem ready_of {i : Instr} {s : State} (hs : Sized s) (h : readyB i s = true) : Ready i s := by
  simp only [readyB, Bool.and_eq_true, decide_eq_true_eq, Bool.not_eq_true'] at h
  obtain ⟨⟨⟨⟨⟨⟨⟨⟨⟨h1, h2⟩, h3⟩, h4⟩, h5⟩, h6⟩, h7⟩, h8⟩, h9⟩, h10⟩ := h
  exact ⟨hs, h1, h2, h3, h4, h5, h6, h7, h8, h9, h10⟩

/-- What an answer holds, if it is no fault. -/
def got {ε α β : Type} (r : Except ε α × β) : Option α := match r.1 with | .ok a => some a | .error _ => none

theorem ok_of {ε α β : Type} {r : Except ε α × β} {a : α} (h : got r = some a) : r = (.ok a, r.2) := by
  obtain ⟨e, b⟩ := r
  cases e with
  | error _ => simp [got] at h
  | ok _ => simp only [got, Option.some.injEq] at h; rw [h]

theorem some_of {α β : Type} {r : Option α × β} {a : α} (h : r.1 = some a) : r = (some a, r.2) := Prod.ext h rfl

theorem memOk_of {s : State} (h : (s.dies.all fun d => Memory.wf d.mem) = true) : MemOk s := by
  simpa [MemOk] using h

/-- Three results in flight: two for v5 whole, the later in issue due first, and one for x3 that is not due at 20. -/
def aF : Arch := { (getArch base 0) with inflight := [
  { id := 1, dest := .v 5, due := 20, ready := 0, val := .lanes pall (List.replicate 128 7#32), flags := 2#8 },
  { id := 2, dest := .v 5, due := 19, ready := 0, val := .lanes pall (List.replicate 128 9#32), flags := 1#8 },
  { id := 3, dest := .x 3, due := 21, ready := 0, val := .word 5#64, flags := 4#8 }] }

theorem ex_some {α : Type} {o : Option α} (h : o.isSome = true) : ∃ a, o = some a := Option.isSome_iff_exists.mp h

theorem ex_okE {ε α : Type} {r : Except ε α} (h : (match r with | .ok _ => true | .error _ => false) = true) : ∃ a, r = .ok a := by
  cases r with
  | error _ => cases h
  | ok a => exact ⟨a, rfl⟩

/-- An answer that is no error, with what it satisfies. -/
theorem ex_ok {ε α β : Type} {r : Except ε α × β} {P : α → β → Prop} [∀ a b, Decidable (P a b)]
    (h : (match r.1 with | .ok a => decide (P a r.2) | .error _ => false) = true) : ∃ a b, r = (.ok a, b) ∧ P a b := by
  obtain ⟨e, b⟩ := r
  cases e with
  | error _ => cases h
  | ok a => exact ⟨a, b, rfl, of_decide_eq_true h⟩

/-- An answer that is the error e. -/
theorem ex_err {ε α β : Type} {r : Except ε α × β} {e : ε} [DecidableEq ε] (h : (match r.1 with | .ok _ => false | .error f => decide (f = e)) = true) :
    ∃ b, r = (.error e, b) := by
  obtain ⟨f, b⟩ := r
  cases f with
  | ok _ => cases h
  | error f => exact ⟨b, by rw [of_decide_eq_true h]⟩

/-- An answer is the value a. -/
def okIs {ε α : Type} [DecidableEq α] (r : Except ε α) (a : α) : Bool := match r with | .ok b => decide (b = a) | .error _ => false

theorem linked_of {s : State} (h : s.keys = keys0) (hd : dieOf s.cur = 0) (ht : domOf s s.cur = 1) : linked s :=
  ⟨{ state := .live, link := true, die := 0, top := 1 }, by rw [h]; exact .tail _ (.tail _ (.head _)), rfl, rfl, by rw [hd], by rw [ht]⟩

theorem acts0 (x : Ctx → Ctx) (k : Core → Core) (d : Die → Die) (h : (getDie (with0 x k d) 0).inReset = false ∧ (getDie (with0 x k d) 0).tripped = false) :
    Acts (with0 x k d) 0 := ⟨sized_with0 x k d, by decide, h⟩

theorem keyed_none {s : State} {d : Nat} (g : Seg) (h : (getDie s d).lineKeys = []) : keyed s d g := by
  intro _ l _ w hw
  simp [lineKey, h] at hw

theorem unawaited_none {s : State} {d : Nat} (g : Seg) (h : (getDie s d).waiters = []) : unawaited s d g := by
  simp [unawaited, h]

theorem owned_none {s : State} {d : Nat} {g : Seg} (h : isDirect g.pa = false) : owned s d g := by
  simp [owned, h]

/-- A place of the scratchpad and one of DRAM. -/
def gS (n : Nat) : Seg := { pa := scratchBase + 64, len := n, va := 0x20040, okey := 1 }
def gD (n : Nat) : Seg := { pa := 0x10000, len := n, va := 0x10000, okey := 1 }

/-- A page by its number. -/
def pg (i : Nat) : TlbEntry := pages.getD i { top := 0, vbase := 0, size := 0, leaf := 0#64 }

theorem sized_same {s t : State} (h : Sized s) (hd : t.dies = s.dies) (hc : t.cores = s.cores) (hx : t.ctxs = s.ctxs) (hk : t.keys = s.keys) : Sized t :=
  ⟨hd ▸ h.dies, hc ▸ h.cores, hx ▸ h.ctxs, hk ▸ h.keys⟩

/-- A property of every context: of context 0 and of one that is idle. -/
theorem ctxs_all {P : Ctx → Prop} {s : State} {x : Ctx} (hs : s.ctxs = x :: List.replicate 1023 Ctx.init) (hv : s.saved = []) (hx : P x) (hi : P Ctx.init) :
    ∀ c, P (getCtx s c) := by
  intro c
  have h : ∀ y ∈ x :: List.replicate 1023 Ctx.init, P y := by
    intro y hy
    rcases List.mem_cons.mp hy with rfl | hy
    · exact hx
    · rw [List.eq_of_mem_replicate hy]; exact hi
  unfold getCtx
  split
  · rw [hs, List.getD_eq_getElem?_getD]
    cases hy : (x :: List.replicate 1023 Ctx.init)[c]? with
    | none => exact hi
    | some y => exact h y (List.mem_of_getElem? hy)
  · rw [hv]; exact hi

theorem ctxs_rest {P : Ctx → Prop} {s : State} {x : Ctx} (hs : s.ctxs = x :: List.replicate 1023 Ctx.init) (hv : s.saved = []) (hi : P Ctx.init) :
    ∀ c, c ≠ 0 → P (getCtx s c) := by
  intro c hc
  unfold getCtx
  split
  · rw [hs]
    cases c with
    | zero => exact absurd rfl hc
    | succ c =>
      rw [List.getD_cons_succ, List.getD_eq_getElem?_getD]
      cases hy : (List.replicate 1023 Ctx.init)[c]? with
      | none => exact hi
      | some y => rw [List.eq_of_mem_replicate (List.mem_of_getElem? hy)]; exact hi
  · rw [hv]; exact hi

/-! Scalar, predicate and vector results -/

/-- x1 = 5, x2 = 7, x3 = the least signed number, x4 = 0. -/
def sX : State := with0 (regs [5#64, 7#64, 0x8000000000000000#64, 0#64])

theorem witness_ScalarResults :
    scalarResult (.add 3#6 1#6 2#6) (getArch (atIssue sX) sX.cur) = some (3#6, 0, 12#64, 0#8) ∧ Ready (.add 3#6 1#6 2#6) sX ∧
    scalarResult (.div 5#6 1#6 4#6) (getArch (atIssue sX) sX.cur) = some (5#6, 2, BitVec.allOnes 64, fDZ) ∧ Ready (.div 5#6 1#6 4#6) sX :=
  ⟨by decide, ready_of (sized_with0 _ _ _) (by decide), by decide, ready_of (sized_with0 _ _ _) (by decide)⟩

theorem witness_PredicateResults :
    predicateResult (.cmp .lt 1#4 3#6 1#6) (getArch (atIssue sX) sX.cur) =
      some (1#4, fun _ => holdsX .lt (xAt (getArch (atIssue sX) sX.cur) 3#6) (xAt (getArch (atIssue sX) sX.cur) 1#6)) ∧
    Ready (.cmp .lt 1#4 3#6 1#6) sX := ⟨rfl, ready_of (sized_with0 _ _ _) (by decide)⟩

/-- v1 holds 1.0, v2 the lane numbers times 2^24, v3 minus infinity; p1 has the even lanes. -/
def sV : State := with0 fun x => regs [5#64, 7#64] { x with arch := { x.arch with
  v := vzero :: List.replicate 128 0x3F800000#32 :: ((List.range 128).map fun l => BitVec.ofNat 32 (l * 16777216)) ::
    List.replicate 128 0xFF800000#32 :: List.replicate 60 vzero
  p := pall :: 0x55555555555555555555555555555555#128 :: List.replicate 14 0#128 } }

theorem witness_IntegerVectorResults :
    integerLane (.vadd .i32 .fctl 4#6 1#6 2#6) = some (.i32, 4#6, 1#6, 2#6, fun _ x y _ => x + y) ∧ Fmt.i32.isFloat = false ∧
    Ready (.vadd .i32 .fctl 4#6 1#6 2#6) sV := ⟨rfl, rfl, ready_of (sized_with0 _ _ _) (by decide)⟩

theorem witness_VectorMoves :
    movedLane (.vmov 4#6 2#6) (guardIn sV) (getArch (atIssue sV) sV.cur) =
      some (4#6, guardIn sV, lane (rdV (getArch (atIssue sV) sV.cur) 2#6), 3) ∧ Ready (.vmov 4#6 2#6) sV :=
  ⟨rfl, ready_of (sized_with0 _ _ _) (by decide)⟩

theorem witness_RoundedResults :
    ∃ r, rounded (.vadd .f32 .rs 4#6 1#6 2#6) (getArch (atIssue sV) sV.cur) = some r ∧ Ready (.vadd .f32 .rs 4#6 1#6 2#6) sV :=
  ⟨_, rfl, ready_of (sized_with0 _ _ _) (by decide)⟩

theorem witness_Reductions :
    (∃ w, reducedWord (.vext 3#6 2#6 1#6) (guardIn sV) (getArch (atIssue sV) sV.cur) = some (3#6, 3, w) ∧ Ready (.vext 3#6 2#6 1#6) sV) ∧
    (Fmt.f32.isFloat = true ∧ Ready (.vrsum .f32 .rs 3#6 1#6 1#4) sV) ∧
    (indexedForm (.vmaxi .f32 3#6 2#6 1#4) = some (true, .f32, 3#6, 2#6, 1#4) ∧ Ready (.vmaxi .f32 3#6 2#6 1#4) sV) :=
  ⟨⟨_, rfl, ready_of (sized_with0 _ _ _) (by decide)⟩, ⟨rfl, ready_of (sized_with0 _ _ _) (by decide)⟩, rfl,
    ready_of (sized_with0 _ _ _) (by decide)⟩

theorem witness_SortResults :
    Ready (.cxs .f32 true 4#6 2#6 0#3 7#3) sV ∧ Ready (.cxsi .f32 false 6#6 2#6 6#3 6#3) sV ∧ Ready (.vnormsel .f32 4#6 1#6 1#4 2#3) sV :=
  ⟨ready_of (sized_with0 _ _ _) (by decide), ready_of (sized_with0 _ _ _) (by decide), ready_of (sized_with0 _ _ _) (by decide)⟩

theorem witness_RandomNumbers : Ready (.rnd .f32 4#6) sV ∧ Ready (.seed 1#6) sV :=
  ⟨ready_of (sized_with0 _ _ _) (by decide), ready_of (sized_with0 _ _ _) (by decide)⟩

/-! Branches, waits, special registers, keys -/

/-- Context 0 within a loop whose range is PC 0 to 3, with bucket 0 of table 1 at capacity 5 and PC 9. -/
def sB : State := with0 fun x => regs [5#64, 7#64] { x with arch := { x.arch with
  loops := [{ kind := .loop, count := 2, start := 0, exit := 4 }]
  disp := [List.replicate 8 {}, { cap := 5, pc := 9 } :: List.replicate 7 {}, List.replicate 8 {}, List.replicate 8 {}] } }

theorem witness_Branches :
    (takenTo (.br 3#19) (getArch (atIssue sB) sB.cur) = some 3 ∧ Ready (.br 3#19) sB) ∧
    (takenTo (.bktj 1#2 1#6) (getArch (atIssue sB) sB.cur) = some 9 ∧ Ready (.bktj 1#2 1#6) sB) ∧
    (bit (rdP (getArch (atIssue sB) sB.cur) 1#4) 0 = false ∧ Ready (.brc 1#4 false 4#19) sB) ∧ Ready (.call 3#6 4#18) sB ∧ Ready (.ret 2#6) sB :=
  ⟨⟨by decide, ready_of (sized_with0 _ _ _) (by decide)⟩, ⟨by decide, ready_of (sized_with0 _ _ _) (by decide)⟩,
    ⟨by decide, ready_of (sized_with0 _ _ _) (by decide)⟩, ready_of (sized_with0 _ _ _) (by decide), ready_of (sized_with0 _ _ _) (by decide)⟩

/-- TAGS of context 0 is 5. -/
def sT : State := with0 fun x => regs [5#64, 2#64] { x with tags := 5#64, busy := ~~~5#64 }

theorem witness_Waits :
    (waitOver (.waitt 1#6) (started sT) ∧ Ready (.waitt 1#6) sT) ∧ Ready .yield sT ∧
    (waitKind (.waitt 2#6) = some .watched ∧ ¬waitOver (.waitt 2#6) (started sT) ∧ waitNames (.waitt 2#6) (started sT) ∧ Ready (.waitt 2#6) sT) ∧
    (waitKind (.waitany 2#6) = some .watched ∧ ¬waitOver (.waitany 2#6) (started sT) ∧ waitNames (.waitany 2#6) (started sT) ∧ Ready (.waitany 2#6) sT) ∧
    (xAt (getArch (atIssue sT) sT.cur) 0#6 = 0#64 ∧ Ready (.waitany 0#6) sT) :=
  ⟨⟨by unfold waitOver; decide, ready_of (sized_with0 _ _ _) (by decide)⟩, ready_of (sized_with0 _ _ _) (by decide),
    ⟨rfl, by unfold waitOver; decide, trivial, ready_of (sized_with0 _ _ _) (by decide)⟩,
    ⟨rfl, by unfold waitOver; decide, by unfold waitNames; decide, ready_of (sized_with0 _ _ _) (by decide)⟩,
    by decide, ready_of (sized_with0 _ _ _) (by decide)⟩

/-- A round is under way, a checkpoint of the domain too, and ring 0 is empty. -/
def sW : State := with0 (fun x => { x with level := 1, round := some { word := 0#64, contribution := 0, gid := 0, seq := 0, gen := 1, agbx := false, level := 1 } }) id fun d => { d with
  ckpts := [{ ctx := 1, top := 1, tag := 3, level := 0, word := 0#64 }] }

theorem witness_Waits_engines :
    (waitKind (.rbwait 0#5) = some .watched ∧ ¬waitOver (.rbwait 0#5) (started sW) ∧ waitNames (.rbwait 0#5) (started sW) ∧ Ready (.rbwait 0#5) sW) ∧
    (waitKind .agwait = some .huddle ∧ ¬waitOver .agwait (started sW) ∧ waitNames .agwait (started sW) ∧ Ready .agwait sW) ∧
    (waitKind .ckwait = some .watched ∧ ¬waitOver .ckwait (started sW) ∧ waitNames .ckwait (started sW) ∧ Ready .ckwait sW) :=
  ⟨⟨rfl, by unfold waitOver; decide, trivial, ready_of (sized_with0 _ _ _) (by decide)⟩,
    ⟨rfl, by unfold waitOver; intro h; exact absurd (h _ rfl).1 (by decide), trivial, ready_of (sized_with0 _ _ _) (by decide)⟩,
    rfl, by unfold waitOver; intro h; exact absurd (h _ (.head _)) (by decide), trivial, ready_of (sized_with0 _ _ _) (by decide)⟩

/-- No context of core 0 is chosen; the last was 3, so that the next to try are 0, 1, 2 and 3: contexts 0 and 1 have records. -/
def sN : State := modCtx 1 (fun _ => ctx0) (with0 id (fun k => { k with issuing := none, last := 3 }))

theorem witness_Waits_issue :
    (getCore sN 0).issuing = none ∧ (getCore sN 0).last = 3 ∧ DieUp sN 0 ∧ Passed 0 [] (noteReady 0 sN) (noteReady 0 sN) ∧
      (attempt 0 (noteReady 0 sN)).1 = true :=
  ⟨by decide, by decide, by unfold DieUp; decide, rfl, by decide⟩

theorem witness_StatusReads :
    (∃ w, statusRead (.mfs 3#6 0x001#12) (started sT) = some (3#6, w) ∧ Ready (.mfs 3#6 0x001#12) sT) ∧
    (∃ w, statusRead (.ffrdy 3#6 1#6) (started sT) = some (3#6, w) ∧ Ready (.ffrdy 3#6 1#6) sT) ∧
    (∃ w, statusRead (.froute 3#6 1#6 true) (started sT) = some (3#6, w) ∧ Ready (.froute 3#6 1#6 true) sT ∧ linked (started sT)) :=
  ⟨⟨_, rfl, ready_of (sized_with0 _ _ _) (by decide)⟩, ⟨_, rfl, ready_of (sized_with0 _ _ _) (by decide)⟩, _, rfl,
    ready_of (sized_with0 _ _ _) (by decide), linked_of (by decide) (by decide) (by decide)⟩

/-- The same at level 1. -/
def sH : State := with0 fun x => regs [0x8000000000000155#64, 2#64] { x with tags := 5#64, busy := 8#64, level := 1 }

theorem witness_SpecialWrites :
    (Ready (.mts 0x023#12 1#6) sH ∧ ∃ y, specialWritten (nowOf (started sH) sH.cur) (.mts 0x023#12 1#6) (getCtx (started sH) sH.cur) = some y) ∧
    (Ready (.tagsWrite 1#6) sH ∧ ∃ y, specialWritten (nowOf (started sH) sH.cur) (.tagsWrite 1#6) (getCtx (started sH) sH.cur) = some y) :=
  ⟨⟨ready_of (sized_with0 _ _ _) (by decide), _, rfl⟩, ready_of (sized_with0 _ _ _) (by decide), _, rfl⟩

/-- x1 = 3 names an assigned key slot, x2 = 1 a live one; frame 0 of the scratchpads belongs to slot 1 and is not zero. -/
def sK : State := with0 (fun x => regs [3#64, 1#64] { x with level := 1 }) id fun d => { d with
  mem := [(scratchBase, 7#8), (scratchBase + 65536, 9#8)] }

/-- The same while a load to a page under slot 1 has not been performed. -/
def sKh : State := with0 fun x => regs [3#64, 1#64] { x with level := 1, lsq := [
  { id := 7, inL := true, inS := false, strong := false, kind := .load, segs := [⟨0x10000, 8, 0x10000, 1⟩], got := List.replicate 8 none, level := 0 }] }

theorem witness_Keys :
    (Ready (.keyselGen 1#6) sK ∧ ((started sK).keys.getD 3 {}).state = .assigned ∧ ((started sK).keys.getD 3 {}).die = dieOf sK.cur ∧
      ((started sK).keys.getD 3 {}).top = domOf (started sK) sK.cur ∧ ((started sK).keys.getD 3 {}).top ≠ 0 ∧
      (xAt (getArch (atIssue sK) sK.cur) 1#6).toNat = 3) ∧
    (Ready (.keyselKill 2#6) sK ∧ ((started sK).keys.getD 1 {}).state = .live ∧ ((started sK).keys.getD 1 {}).die = dieOf sK.cur ∧
      ((started sK).keys.getD 1 {}).top = domOf (started sK) sK.cur ∧ (xAt (getArch (atIssue sK) sK.cur) 2#6).toNat = 1 ∧
      keyHeld (started sK) (dieOf sK.cur) 1 = false ∧ (.scratch, 0, .slot 1) ∈ (getDie (started sK) (dieOf sK.cur)).frames) ∧
    (Ready (.keyselKill 2#6) sKh ∧ ((started sKh).keys.getD 1 {}).state = .live ∧ (xAt (getArch (atIssue sKh) sKh.cur) 2#6).toNat = 1 ∧
      keyHeld (started sKh) (dieOf sKh.cur) 1 = true) :=
  ⟨⟨ready_of (sized_with0 _ _ _) (by decide), by decide, by decide, by decide, by decide, by decide⟩,
    ⟨ready_of (sized_with0 _ _ _) (by decide), by decide, by decide, by decide, by decide, by decide, by decide⟩,
    ready_of (sized_with0 _ _ _) (by decide), by decide, by decide, by decide⟩

/-! Accesses -/

/-- x1 in the DRAM page, x2 in the scratchpad page, x3 misaligned, x4 a value; the group has set bytes in both pages. -/
def sL : State := with0 (regs [0x10008#64, 0x20008#64, 0x10001#64, 0x1122334455667788#64]) id fun d => { d with
  mem := [(0x10008, 0x2A#8), (scratchBase + 8, 0x2B#8)], lineKeys := [(0x10000 / 128, 1, 0)] }

/-- The load and the store of the first witness. -/
def fL : Access := (loadOf (.ld .d64 0#2 false 5#6 1#6 0#6) (guardIn sL) (getArch (atIssue sL) sL.cur)).getD (wordAccess 0#64 {})
def fS : Access := (storeOf (.vst .bf16 0#2 false 5#6 2#6 0#6) (guardIn sL) (getArch (atIssue sL) sL.cur)).getD (wordAccess 0#64 {})

theorem witness_Loads : ∃ segs t, loadOf (.ld .d64 0#2 false 5#6 1#6 0#6) (guardIn sL) (getArch (atIssue sL) sL.cur) = some fL ∧
    Ready (.ld .d64 0#2 false 5#6 1#6 0#6) sL ∧ Places fL sL segs t :=
  ⟨[⟨0x10008, 8, 0x10008, 1⟩], _, rfl, ready_of (sized_with0 _ _ _) (by decide), ok_of (by decide)⟩

/-- The same while the context runs ahead. -/
def sA : State := modCtx 0 (fun x => { x with ckpt := some x.arch, round := some { word := 0x2000000#64, contribution := 0, gid := 0, seq := 0, gen := 1, agbx := false } }) sL

theorem witness_Stores :
    (∃ segs t, storeOf (.vst .bf16 0#2 false 5#6 2#6 0#6) (guardIn sL) (getArch (atIssue sL) sL.cur) = some fS ∧
      Ready (.vst .bf16 0#2 false 5#6 2#6 0#6) sL ∧ Places fS sL segs t ∧ runsAhead (getCtx t sL.cur) = false) ∧
    (∃ f segs t, storeOf (.st .d64 0#2 false 4#6 1#6 0#6) (guardIn sA) (getArch (atIssue sA) sA.cur) = some f ∧
      Ready (.st .d64 0#2 false 4#6 1#6 0#6) sA ∧ Places f sA segs t ∧ runsAhead (getCtx t sA.cur) = true ∧
      holdCount (getCtx t sA.cur) + (heldOf f.strong segs f.data f.ep f.na).length ≤ 1024) :=
  ⟨⟨[⟨scratchBase + 8, 256, 0x20008, 1⟩], _, rfl, ready_of (sized_with0 _ _ _) (by decide), ok_of (by decide), by decide⟩,
    ⟨_, [⟨0x10008, 8, 0x10008, 1⟩], _, rfl, ready_of (sized_ctx (sized_with0 _ _ _) _ _) (by decide), ok_of (by decide), by decide, by decide⟩⟩

theorem witness_MisalignedAccess : ∃ f, (loadOf (.ld .d64 0#2 false 5#6 3#6 0#6) (guardIn sL) (getArch (atIssue sL) sL.cur) = some f ∨
      storeOf (.ld .d64 0#2 false 5#6 3#6 0#6) (guardIn sL) (getArch (atIssue sL) sL.cur) = some f) ∧
    Ready (.ld .d64 0#2 false 5#6 3#6 0#6) sL ∧ f.base.toNat % f.align ≠ 0 :=
  ⟨_, .inl rfl, ready_of (sized_with0 _ _ _) (by decide), by decide⟩

theorem witness_Atomics :
    (∃ segs t, atomicOf (.aadd .d32 5#6 2#6 4#6) = some (false, 0, 4, 5#6, 2#6, 4#6) ∧ Ready (.aadd .d32 5#6 2#6 4#6) sL ∧
      accessSegs sL.cur 4 (atomicNeed false (fmtAtomic 0 4)) (xAt (getArch (atIssue sL) sL.cur) 2#6) [(0, 4)] (started sL) = (.ok segs, t)) ∧
    (∃ segs t, atomicOf (.casH .d64 5#6 1#6 4#6) = some (true, 7, 8, 5#6, 1#6, 4#6) ∧ Ready (.casH .d64 5#6 1#6 4#6) sL ∧
      accessSegs sL.cur 8 (atomicNeed true (fmtAtomic 7 8)) (xAt (getArch (atIssue sL) sL.cur) 1#6) [(0, 8)] (started sL) = (.ok segs, t)) :=
  ⟨⟨[⟨scratchBase + 8, 4, 0x20008, 1⟩], _, rfl, ready_of (sized_with0 _ _ _) (by decide), ok_of (by decide)⟩,
    ⟨[⟨0x10008, 8, 0x10008, 1⟩], _, rfl, ready_of (sized_with0 _ _ _) (by decide), ok_of (by decide)⟩⟩

theorem witness_ReductionsShipped : ∃ segs t u, reduceOf (.ared 0#6 2#6 4#6 0#6) = some (false, 0#6, 2#6, 4#6, 0#6) ∧ Ready (.ared 0#6 2#6 4#6 0#6) sL ∧
    accessSegs sL.cur 4 (atomicNeed false (fmtOp 0)) (xAt (getArch (atIssue sL) sL.cur) 2#6) [(0, 4)] (started sL) = (.ok segs, t) ∧
    directedSeg sL.cur 4 (fmtOp 0) (xAt (getArch (atIssue sL) sL.cur) 0#6) t = (.ok none, u) :=
  ⟨[⟨scratchBase + 8, 4, 0x20008, 1⟩], _, _, rfl, ready_of (sized_with0 _ _ _) (by decide), ok_of (by decide), ok_of (by decide)⟩

/-- A word of the scratchpad, empty or full. -/
def gW : Seg := ⟨scratchBase + 8, 4, 0x20008, 1⟩
def sE : State := modDie 0 (fun d => { d with empties := [scratchBase + 8] }) sL

/-- An STE of another context waits for the word to be emptied. -/
def waitE : BankWait := { seg := gW, top := 1, ctx := 3, level := 0, kind := .ste, val := 0x55667788, op := 12 }
def sLw : State := modDie 0 (fun d => { d with waiters := [waitE] }) sL

/-- The state at the head of both queues. -/
def atHead (s : State) (r : BitVec 6) (need : Need) : State :=
  let f := wordAccess (at_ (xAt (getArch (atIssue s) s.cur) r) 0#6 4) need
  drainLs s.cur (accessSegs s.cur f.align f.need f.base f.runs (started s)).2

theorem witness_FullEmptyWords :
    (Ready (.ldf 5#6 2#6 0#6) sL ∧ AtHead (wordAccess (at_ (xAt (getArch (atIssue sL) sL.cur) 2#6) 0#6 4) { r := true }) sL gW (atHead sL 2#6 { r := true }) ∧
      isFull (getDie (atHead sL 2#6 { r := true }) (dieOf sL.cur)) gW.pa = true) ∧
    (Ready (.ste 4#6 2#6 0#6) sE ∧ AtHead (wordAccess (at_ (xAt (getArch (atIssue sE) sE.cur) 2#6) 0#6 4) { w := true }) sE gW (atHead sE 2#6 { w := true }) ∧
      isFull (getDie (atHead sE 2#6 { w := true }) (dieOf sE.cur)) gW.pa = false) ∧
    (Ready (.ldf 5#6 2#6 0#6) sLw ∧
      (∃ t, Places (wordAccess (at_ (xAt (getArch (atIssue sLw) sLw.cur) 2#6) 0#6 4) { r := true }) sLw [gW] t ∧ atHead sLw 2#6 { r := true } = drainLs sLw.cur t) ∧
      isScratch gW.pa = true ∧ gW.pa % 4 = 0 ∧ gW.len = 4 ∧ MemOk (atHead sLw 2#6 { r := true }) ∧
      (getDie (atHead sLw 2#6 { r := true }) (dieOf sLw.cur)).poison = [] ∧ (getDie (atHead sLw 2#6 { r := true }) (dieOf sLw.cur)).unseen = [] ∧
      isFull (getDie (atHead sLw 2#6 { r := true }) (dieOf sLw.cur)) gW.pa = true ∧
      (getDie (atHead sLw 2#6 { r := true }) (dieOf sLw.cur)).waiters = [waitE] ∧ waitE.seg.pa = gW.pa ∧ waitE.kind = .ste ∧ waitE.done = none) :=
  ⟨⟨ready_of (sized_with0 _ _ _) (by decide), ⟨⟨_, ok_of (by decide), rfl⟩, by decide, by decide, by decide, by decide, memOk_of (by decide)⟩, by decide⟩,
    ⟨ready_of (sized_die (sized_with0 _ _ _) _ _) (by decide), ⟨⟨_, ok_of (by decide), rfl⟩, by decide, by decide, by decide, by decide, memOk_of (by decide)⟩, by decide⟩,
    ready_of (sized_die (sized_with0 _ _ _) _ _) (by decide), ⟨_, ok_of (by decide), rfl⟩, by decide, by decide, by decide, memOk_of (by decide), by decide, by decide, by decide, by decide, rfl, rfl, rfl⟩

/-- x4 to x7 hold a record of region 1 for the region's own queue, x1 a place for buckets, x2 a join counter of zero. -/
def sR : State := with0 (regs [0x10040#64, 0x20010#64, 0#64, 0x0000000000000010#64, 0x10000#64, 0x20010#64, 0x0001000000000000#64])

theorem witness_RecordAccesses :
    (∃ segs t, Ready (.bktset 1#2 1#6) sR ∧ (xAt (getArch (atIssue sR) sR.cur) 1#6).toNat % 64 = 0 ∧
      checkAccess sR.cur { r := true } (xAt (getArch (atIssue sR) sR.cur) 1#6) 64 (started sR) = (.ok segs, t)) ∧
    (∃ r : BitVec 256, Ready (.spawn 4#6) sR ∧
      (∀ k < 4, (r.toNat / 2 ^ (64 * k)) % 2 ^ 64 = (xAt (getArch (atIssue sR) sR.cur) (BitVec.ofNat 6 ((4#6).toNat + k))).toNat) ∧
      1 = bitsN r 251 240 ∧ 0 = min (bitsN r 239 236) (effPrio (getDie (started sR) 0) 1) ∧ bitsN r 255 252 = 0 ∧ bitsN r 235 192 = 0 ∧ bitsN r 59 24 = 0 ∧
      bitsN r 127 64 % 64 = 0 ∧ bitsN r 191 128 % 4 = 0 ∧ 1 = issuingRegion (started sR) sR.cur ∧ (region? (getDie (started sR) 0) 1).isSome ∧
      occOf (getDie (started sR) 0) 1 0 < 2 ^ effQlog (getDie (started sR) 0) 1) ∧
    (Ready (.join 0#6) sR ∧ ((getCtx (started sR) sR.cur).record.map (·.joinptr)).getD 0#64 = 0#64) ∧
    (∃ segs t, Ready (.join 2#6) sR ∧ Places (wordAccess (xAt (getArch (atIssue sR) sR.cur) 2#6) { r := true, w := true, fmt := fmtInt 4 }) sR segs t) ∧
    (Ready (.joinW 2#6) sR ∧ readRun (getDie (atHead sR 2#6 { r := true, w := true, fmt := fmtInt 4 }) 0).mem (scratchBase + 16) 4 = [0#8, 0#8, 0#8, 0#8] ∧
      AtHead (wordAccess (xAt (getArch (atIssue sR) sR.cur) 2#6) { r := true, w := true, fmt := fmtInt 4 }) sR ⟨scratchBase + 16, 4, 0x20010, 1⟩
        (atHead sR 2#6 { r := true, w := true, fmt := fmtInt 4 })) :=
  ⟨⟨[⟨0x10040, 64, 0x10040, 1⟩], _, ready_of (sized_with0 _ _ _) (by decide), by decide, ok_of (by decide)⟩,
    ⟨0x0001000000000000000000000002001000000000000100000000000000000010#256, ready_of (sized_with0 _ _ _) (by decide), by decide, by decide, by decide, by decide, by decide,
      by decide, by decide, by decide, by decide, by decide, by decide⟩,
    ⟨ready_of (sized_with0 _ _ _) (by decide), by decide⟩,
    ⟨[⟨scratchBase + 16, 4, 0x20010, 1⟩], _, ready_of (sized_with0 _ _ _) (by decide), ok_of (by decide)⟩,
    ready_of (sized_with0 _ _ _) (by decide), by decide, ⟨⟨_, ok_of (by decide), rfl⟩, by decide, by decide, by decide, by decide, memOk_of (by decide)⟩⟩

/-! Ordering, loops, address registers, basin, copies, engine commands, fabric waits -/

/-- A ring of core 0 with a ready slot; x1 = 2, x2 = 0, x3 the slices 0 and 1, x4 = 8, x6 and x7 a range of DRAM; a level 0 of the loop unit is free. -/
def sO : State := with0 (regs [2#64, 0#64, 3#64, 8#64, 0#64, 0x10000#64, 0x80#64]) fun k => { k with rings := { base := 0x20000#64, size := 64, n := 4, wptr := 1, rptr := 0 } :: List.replicate 31 {} }

/-- Two strong stores stand in the store queue, and a matrix command is not complete. -/
def sQ : State := with0 fun x => { x with
  lsq := (List.range 2).map fun n => { id := n, inL := false, inS := true, strong := true, kind := .store, segs := [⟨0x10000 + 8 * n, 8, 0x10000 + 8 * n, 1⟩]
                                       data := List.replicate 8 7#8 }
  mx := { x.mx with cmds := [{ instr := .mzero 0#4 1#4 }] } }

theorem witness_OrderingInstructions :
    (∃ e, (getCtx sQ 0).lsq[1]? = some e ∧ ¬inOrder ((getCtx sQ 0).lsq.take 1) e) ∧
    Ready .qalign sO ∧ Ready (.fence .pkg) sO ∧ (Ready (.xfence .cp .mx) sO ∧ ∀ r, pathIdle (started sO) r) ∧
    (Ready (.xfence .mx .ls) sQ ∧ ¬pathIdle (started sQ) .mx) ∧
    (Ready (.rbrel 0#5) sO ∧ ((getCore (started sO) (coreOf sO.cur)).rings.getD 0 {}).wptr ≠ ((getCore (started sO) (coreOf sO.cur)).rings.getD 0 {}).rptr) :=
  ⟨⟨_, rfl, fun h => absurd ((h.2 _ (.head _) (by decide)).2.2 (by decide)).1 (by decide)⟩, ready_of (sized_with0 _ _ _) (by decide), ready_of (sized_with0 _ _ _) (by decide),
    ⟨ready_of (sized_with0 _ _ _) (by decide), fun r => by cases r <;> unfold pathIdle <;> decide⟩,
    ⟨ready_of (sized_with0 _ _ _) (by decide), by unfold pathIdle; decide⟩, ready_of (sized_with0 _ _ _) (by decide), by decide⟩

theorem witness_LoopInstructions :
    (Ready (.loop 2#6 5#14) sO ∧ xAt (getArch (atIssue sO) sO.cur) 2#6 = 0#64) ∧
    (Ready (.loop 1#6 5#14) sO ∧ xAt (getArch (atIssue sO) sO.cur) 1#6 ≠ 0#64 ∧ (getArch (atIssue sO) sO.cur).loops.length < 4 ∧ inReplay (getArch (atIssue sO) sO.cur) = false) ∧
    (Ready (.replay 3#4 2#6 5#14) sO ∧ xAt (getArch (atIssue sO) sO.cur) 2#6 = 0#64) ∧
    (Ready (.replay 3#4 1#6 5#14) sO ∧ xAt (getArch (atIssue sO) sO.cur) 1#6 ≠ 0#64 ∧ (getArch (atIssue sO) sO.cur).loops.length < 4 ∧
      inReplay (getArch (atIssue sO) sO.cur) = false) :=
  ⟨⟨ready_of (sized_with0 _ _ _) (by decide), by decide⟩, ⟨ready_of (sized_with0 _ _ _) (by decide), by decide, by decide, by decide⟩,
    ⟨ready_of (sized_with0 _ _ _) (by decide), by decide⟩, ready_of (sized_with0 _ _ _) (by decide), by decide, by decide, by decide⟩

theorem witness_AddressRegisters : Ready (.aset 1#4 1#6 0x3FFF#14) sO ∧ Ready (.astr 1#4 1#6 2#3) sO ∧ Ready (.ainc 5#6 1#4 0x3FFF#14) sO ∧ Ready (.scl 8#4 6#6 7#3) sO :=
  ⟨ready_of (sized_with0 _ _ _) (by decide), ready_of (sized_with0 _ _ _) (by decide), ready_of (sized_with0 _ _ _) (by decide), ready_of (sized_with0 _ _ _) (by decide)⟩

/-- A descriptor of one run in every dimension, for a ring or not. -/
def descN (base run rb ring : Nat) : Nat := base + run * 2 ^ 128 + ring * 2 ^ 160 + rb * 2 ^ 167 + (List.range 6).foldl (fun n d => n + 2 ^ (168 + 56 * d)) 0

/-- Descriptors in the scratchpad page: at 0x2_0040 a DRAM range of 64 bytes, at 0x2_0080 a scratchpad range, at 0x2_00C0 ring 0; registers name them;
x8 to x15 and x16 to x23 hold the first two. -/
def sD : State := with0 (fun x => regs ([0x20040#64, 0x20080#64, 0x200C0#64, 0xFFFFFFFFFFFFFFFF#64, 0x20000#64, 0x40040#64, 0#64] ++
    ((List.range 8).map fun k => BitVec.ofNat 64 (descN 0x10000 64 0 0 / 2 ^ (64 * k))) ++ (List.range 8).map fun k => BitVec.ofNat 64 (descN 0x20400 64 0 0 / 2 ^ (64 * k))) x)
  (fun k => { k with rings := { base := 0x20000#64, size := 64, n := 4 } :: List.replicate 31 {} })
  (fun d => { d with mem := cellsOf (scratchBase + 64) (bytesOf 64 (descN 0x10000 64 0 0) ++ bytesOf 64 (descN 0x20400 64 0 0) ++ bytesOf 64 (descN 0 64 1 0)) })

theorem witness_BasinInstructions :
    (Ready (.pin 7#3 6#6 3#6) sO ∧ (6#6).toNat % 2 = 0 ∧ (xAt (getArch (atIssue sO) sO.cur) 6#6).toNat % 128 = 0 ∧ (xAt (getArch (atIssue sO) sO.cur) 7#6).toNat % 128 = 0 ∧
      xAt (getArch (atIssue sO) sO.cur) 7#6 ≠ 0#64 ∧ xAt (getArch (atIssue sO) sO.cur) 3#6 ≠ 0#64 ∧ ((getCtx (started sO) sO.cur).pins.getD 7 {}).isOpen = false ∧
      ∀ sl < 64, bit (xAt (getArch (atIssue sO) sO.cur) 3#6) sl = true → pinFits (started sO) 0 (ridOf (started sO) sO.cur)
        { isOpen := true, start := 0x10000#64, len := 0x80#64, mask := 3#64, age := (getDie (started sO) 0).pinSeq + 1 } sl = true) ∧
    (Ready (.unpin 7#3) sO ∧ (getCtx (started sO) sO.cur).pins.length = 8) ∧
    (Ready (.phase 3#6 4#6) sO ∧ (xAt (getArch (atIssue sO) sO.cur) 4#6).toNat ≤ 8 ∧ xAt (getArch (atIssue sO) sO.cur) 3#6 ≠ 0#64 ∧
      (getDie (started sO) 0).slices.length = 64 ∧ ∀ i < 64, bit (xAt (getArch (atIssue sO) sO.cur) 3#6) i = true →
        ((getDie (started sO) 0).slices.getD i {}).drain = none ∧ (((getDie (started sO) 0).slices.getD i {}).direct ≠ 8 →
        (((getDie (started sO) 0).slices.getD i {}).direct = 0 ∨ ((getDie (started sO) 0).slices.getD i {}).owner = ridOf (started sO) sO.cur) ∧
          phaseFits (started sO) 0 (ridOf (started sO) sO.cur) 8 i = true)) ∧
    (∃ segs t n w, Ready (.preft 63#6 1#6 0#6 2#2) sD ∧ descSegs 64 (at_ (xAt (getArch (atIssue sD) sD.cur) 1#6) 0#6 64) (started sD) = (.ok segs, t) ∧
      descRead segs t = (.ok n, w) ∧ descOk false n = true ∧ freeTag 63#6 sD) := by
  refine ⟨⟨ready_of (sized_with0 _ _ _) (by decide), by decide, by decide, by decide, by decide, by decide, by decide, by decide⟩,
    ⟨ready_of (sized_with0 _ _ _) (by decide), by decide⟩, ⟨ready_of (sized_with0 _ _ _) (by decide), by decide, by decide, by decide, by decide⟩, ?_⟩
  exact ⟨[⟨scratchBase + 64, 64, 0x20040, 1⟩], _, descN 0x10000 64 0 0, _, ready_of (sized_with0 _ _ _) (by decide), ok_of (by decide), ok_of (by decide), by decide, by unfold freeTag; decide⟩

theorem copyReady_of {s t u v w : State} {dr sr : Bool} {ra rb tag : BitVec 6} {x y : Nat} {gd gs : List Seg}
    (room : (getCore (started s) (coreOf s.cur)).copies.length < 64)
    (align : (dr = true ∨ (xAt (getArch (atIssue s) s.cur) ra).toNat % 64 = 0) ∧ (sr = true ∨ (xAt (getArch (atIssue s) s.cur) rb).toNat % 64 = 0))
    (block : (dr = true → ra.toNat % 8 = 0 ∧ ra ≠ 0#6) ∧ (sr = true → rb.toNat % 8 = 0 ∧ rb ≠ 0#6))
    (h1 : descriptorPages dr ra (getArch (atIssue s) s.cur) (started s) = (.ok gd, t))
    (h2 : descriptorPages sr rb (getArch (atIssue s) s.cur) t = (.ok gs, u))
    (h3 : descriptor dr ra (getArch (atIssue s) s.cur) gd u = (.ok x, v)) (h4 : descriptor sr rb (getArch (atIssue s) s.cur) gs v = (.ok y, w))
    (free : freeTag tag s) (size : descLen (descOf x) = descLen (descOf y)) (src : descOk false y = true) :
    CopyReady s dr sr ra rb tag x y w := ⟨room, align, block, ⟨gd, t, gs, u, v, h1, h2, h3, h4⟩, free, size, src⟩

theorem witness_CopyInstructions :
    (∃ w, Ready (.cpy false false 3#6 1#6 63#6) sD ∧ CopyReady sD false false 3#6 1#6 63#6 (descN 0 64 1 0) (descN 0x10000 64 0 0) w ∧ descOk true (descN 0 64 1 0) = true ∧
      descLen (descOf (descN 0 64 1 0)) ≤ ((getCore w 0).rings.getD 0 {}).size) ∧
    (∃ w, Ready (.cpy true true 16#6 8#6 0#6) sD ∧ CopyReady sD true true 16#6 8#6 0#6 (descN 0x20400 64 0 0) (descN 0x10000 64 0 0) w ∧ descOk true (descN 0x20400 64 0 0) = true) ∧
    (∃ w, Ready (.cpym 2#6 1#6 4#6 63#6) sD ∧ CopyReady sD false false 2#6 1#6 63#6 (descN 0x20400 64 0 0) (descN 0x10000 64 0 0) w ∧ descOk true (descN 0x20400 64 0 0) = true ∧
      xAt (getArch (atIssue sD) sD.cur) 4#6 ≠ 0#64) ∧
    (∃ w, Ready (.cpyr 0#6 2#6 1#6 63#6) sD ∧ CopyReady sD false false 2#6 1#6 63#6 (descN 0x20400 64 0 0) (descN 0x10000 64 0 0) w ∧ descOk false (descN 0x20400 64 0 0) = true ∧
      descLen (descOf (descN 0x20400 64 0 0)) % opSize 0 = 0) ∧
    (∃ segs t, Ready (.rbinit 31#5 5#6 6#6) sD ∧ checkAccess sD.cur { kind := onlyScratch } (xAt (getArch (atIssue sD) sD.cur) 5#6) 64 (started sD) = (.ok segs, t) ∧
      (∀ g ∈ segs, (g.pa - scratchBase) / 2097152 = coreInDie sD.cur) ∧ bitsN (xAt (getArch (atIssue sD) sD.cur) 6#6) 15 0 = 64 ∧ bitsN (xAt (getArch (atIssue sD) sD.cur) 6#6) 23 16 = 4 ∧
      bitsN (xAt (getArch (atIssue sD) sD.cur) 6#6) 63 24 = 0) :=
  ⟨⟨_, ready_of (sized_with0 _ _ _) (by decide), copyReady_of (gd := [⟨scratchBase + 0xC0, 64, 0x200C0, 1⟩]) (gs := [⟨scratchBase + 0x40, 64, 0x20040, 1⟩]) (by decide) (by decide) (by decide)
      (ok_of (by decide)) (ok_of (by decide)) (ok_of (by decide)) (ok_of (by decide)) (by unfold freeTag; decide) (by decide) (by decide), by decide, by decide⟩,
    ⟨_, ready_of (sized_with0 _ _ _) (by decide), copyReady_of (gd := []) (gs := []) (by decide) (by decide) (by decide)
      (ok_of (by decide)) (ok_of (by decide)) (ok_of (by decide)) (ok_of (by decide)) (by unfold freeTag; decide) (by decide) (by decide), by decide⟩,
    ⟨_, ready_of (sized_with0 _ _ _) (by decide), copyReady_of (gd := [⟨scratchBase + 0x80, 64, 0x20080, 1⟩]) (gs := [⟨scratchBase + 0x40, 64, 0x20040, 1⟩]) (by decide) (by decide) (by decide)
      (ok_of (by decide)) (ok_of (by decide)) (ok_of (by decide)) (ok_of (by decide)) (by unfold freeTag; decide) (by decide) (by decide), by decide, by decide⟩,
    ⟨_, ready_of (sized_with0 _ _ _) (by decide), copyReady_of (gd := [⟨scratchBase + 0x80, 64, 0x20080, 1⟩]) (gs := [⟨scratchBase + 0x40, 64, 0x20040, 1⟩]) (by decide) (by decide) (by decide)
      (ok_of (by decide)) (ok_of (by decide)) (ok_of (by decide)) (ok_of (by decide)) (by unfold freeTag; decide) (by decide) (by decide), by decide, by decide⟩,
    ⟨[⟨scratchBase, 64, 0x20000, 1⟩], _, ready_of (sized_with0 _ _ _) (by decide), ok_of (by decide), by decide, by decide, by decide, by decide⟩⟩

/-! Engine commands and fabric waits -/

/-- x1 = 0x2_0040, x2 = 0x1_0000, x3 = 0x1_0080 for pairs from x2 on, x4 a fabric word of 64 bytes to rank 1, x5 the same with counter 255, x6 = 255, x7 = 1. -/
def sF : State := with0 (regs [0x20040#64, 0x10000#64, 0x10080#64, 0x0000000100000040#64, 0x13FC000100000040#64, 255#64, 1#64, 7#64]) id fun d => { d with
  linkqs := [{ top := 1, src := 1, msgs := [[1#8, 2#8, 3#8, 4#8], [5#8]] }] }

theorem linked_sF : linked (started sF) := ⟨{ state := .live, link := true, die := 0, top := 1 }, by
  rw [show (started sF).keys = keys0 from by rfl]
  simp [keys0], rfl, rfl, rfl, rfl⟩

theorem wordValid_of {kind : Nat} {w : Word} (h : (bitsN w 63 62 == 0 && bitsN w 59 58 == 0 && bitsN w 49 42 == 0 && fwLen w != 0 && fwLen w % 4 == 0 &&
    decide (fwLen w ≤ 16777216) && (!fwCen w || decide (kind = 2 ∨ kind = 3 ∨ kind = 4)) && (fwCen w || fwCtr w == 0) &&
    (!decide (kind < 2) || decide (fwLen w ≤ 65536))) = true) : wordValid kind w := by
  simp only [Bool.and_eq_true, Bool.or_eq_true, decide_eq_true_eq, beq_iff_eq, bne_iff_ne, Bool.not_eq_true', decide_eq_false_iff_not] at h
  obtain ⟨⟨⟨⟨⟨⟨⟨⟨h1, h2⟩, h3⟩, h4⟩, h5⟩, h6⟩, h7⟩, h8⟩, h9⟩ := h
  refine ⟨h1, h2, h3, h4, h5, h6, fun h => ?_, fun h => ?_, fun h => ?_⟩
  · rcases h7 with h7 | h7
    · rw [h7] at h; cases h
    · exact h7
  · rcases h8 with h8 | h8
    · rw [h8] at h; cases h
    · exact h8
  · rcases h9 with h9 | h9
    · exact absurd h h9
    · exact h9

/-- The queue of the Eddy engine is full, and a fence orders a put that is not complete. -/
def sQF : State := with0 (fun x => { regs [0x20040#64, 0x10000#64, 0x10080#64, 0x0000000100000040#64, 0x13FC000100000040#64] x with
  fb := [{ plainCmd 2 with id := 5, tag := 9, loc := 0x20040#64, rem := 0x10000#64, len := 64, rank := 1 }], fbFence := [(5, false)] }) id fun d => { d with
  eddy := List.replicate 32 { id := 4, ctx := 1, top := 1, tag := 3, level := 0, instr := .svmap 1#6 1#6 63#6, xa := 0#64, xb := 0#64, xc := 0#64 } }

theorem witness_EngineCommands :
    (eddyOf (.svmap 1#6 1#6 63#6) = some (1#6, 1#6, 0#6, 63#6, 64) ∧ Ready (.svmap 1#6 1#6 63#6) sF ∧ (getDie (started sF) (dieOf sF.cur)).eddy.length < 32 ∧
      (xAt (getArch (atIssue sF) sF.cur) 1#6).toNat % 64 = 0 ∧ freeTag 63#6 sF) ∧
    (transferOf (.fputS 2#6 5#6 63#6) (getArch (atIssue sF) sF.cur) = some (3, 0#6, 0x10000#64, some 0x10080#64, 0x13FC000100000040#64, 63#6, 4) ∧ Ready (.fputS 2#6 5#6 63#6) sF ∧
      (getCtx (started sF) sF.cur).fb.length < 32 ∧ fencesOver (started sF) ∧ wordValid 3 0x13FC000100000040#64 ∧ (0x10000#64).toNat % 4 = 0 ∧ (∀ r, some 0x10080#64 = some r → r.toNat % 4 = 0) ∧
      fwLen 0x13FC000100000040#64 % 4 = 0 ∧ freeTag 63#6 sF ∧ linked (started sF)) ∧
    (Ready (.svmap 1#6 1#6 63#6) sQF ∧ (eddyOf (.svmap 1#6 1#6 63#6)).isSome ∧ 32 ≤ (getDie (started sQF) (dieOf sQF.cur)).eddy.length) ∧
    (Ready (.fputS 2#6 5#6 62#6) sQF ∧ (transferOf (.fputS 2#6 5#6 62#6) (getArch (atIssue sQF) sQF.cur)).isSome ∧ ¬fencesOver (started sQF)) :=
  ⟨⟨rfl, ready_of (sized_with0 _ _ _) (by decide), by decide, by decide, by unfold freeTag; decide⟩,
    ⟨by rfl, ready_of (sized_with0 _ _ _) (by decide), by decide, by unfold fencesOver; decide, wordValid_of (by decide), by decide, by intro r h; cases h; decide, by decide, by unfold freeTag; decide, linked_sF⟩,
    ⟨ready_of (sized_with0 _ _ _) (by decide), rfl, by decide⟩, ready_of (sized_with0 _ _ _) (by decide), rfl, by unfold fencesOver; decide⟩

/-- Arrival counter 255 has counted 8. -/
def sC : State := with0 (fun x => { regs [255#64, 7#64, 9#64, 0x10000#64, 1#64, 0xFFFFFF#64, 63#64] x with level := 1 }) id fun d => { d with
  regions := [{ reg with counters := List.replicate 255 {} ++ [{ cnt := 8, mark := 1 }] }] }

theorem linked_sC : linked (started sC) := ⟨{ state := .live, link := true, die := 0, top := 1 }, by
  rw [show (started sC).keys = keys0 from by rfl]
  simp [keys0], rfl, rfl, rfl, rfl⟩

theorem witness_FabricWaits :
    (Ready (.frecv 1#6 4#6 63#6) sF ∧ (getCtx (started sF) sF.cur).fb.length < 32 ∧ fencesOver (started sF) ∧ wordValid 1 (xAt (getArch (atIssue sF) sF.cur) 4#6) ∧
      (xAt (getArch (atIssue sF) sF.cur) 1#6).toNat % 4 = 0 ∧ freeTag 63#6 sF ∧ linked (started sF) ∧
      (linkq (getDie (started sF) 0) (domOf (started sF) sF.cur) (fwRank (xAt (getArch (atIssue sF) sF.cur) 4#6))).msgs = [1#8, 2#8, 3#8, 4#8] :: [[5#8]] ∧
      [1#8, 2#8, 3#8, 4#8].length ≤ fwLen (xAt (getArch (atIssue sF) sF.cur) 4#6)) ∧
    (Ready (.fexpect false 1#6 5#6 63#6) sC ∧ (xAt (getArch (atIssue sC) sC.cur) 1#6).toNat = 255 ∧ (counterOf (started sC) 0 1 255).armed = none ∧
      (counterOf (started sC) 0 1 255).mark + (xAt (getArch (atIssue sC) sC.cur) 5#6).toNat = 2 ∧ freeTag 63#6 sC ∧ linked (started sC)) ∧
    (Ready (.fexpect true 1#6 6#6 63#6) sC ∧ (xAt (getArch (atIssue sC) sC.cur) 6#6).toNat = 16777215 ∧ freeTag 63#6 sC ∧ linked (started sC)) ∧
    (Ready (.fport 7#6 2#6 63#6) sC ∧ (getCtx (started sC) sC.cur).fb.length < 32 ∧ (xAt (getArch (atIssue sC) sC.cur) 7#6).toNat = 63 ∧
      (xAt (getArch (atIssue sC) sC.cur) 2#6).toNat = 7 ∧ freeTag 63#6 sC ∧ linked (started sC)) ∧
    (Ready (.tlbi 4#6 0#6 63#6) sC ∧ (getCtx (started sC) sC.cur).fb.length < 32 ∧ xAt (getArch (atIssue sC) sC.cur) 0#6 = 0#64 ∧
      (xAt (getArch (atIssue sC) sC.cur) 4#6).toNat < 2 ^ 48 ∧ freeTag 63#6 sC) ∧
    (Ready (.tlbi 4#6 5#6 63#6) sC ∧ xAt (getArch (atIssue sC) sC.cur) 5#6 = 1#64) :=
  ⟨⟨ready_of (sized_with0 _ _ _) (by decide), by decide, by unfold fencesOver; decide, wordValid_of (by decide), by decide, by unfold freeTag; decide, linked_sF, by decide, by decide⟩,
    ⟨ready_of (sized_with0 _ _ _) (by decide), by decide, by decide, by decide, by unfold freeTag; decide, linked_sC⟩,
    ⟨ready_of (sized_with0 _ _ _) (by decide), by decide, by unfold freeTag; decide, linked_sC⟩,
    ⟨ready_of (sized_with0 _ _ _) (by decide), by decide, by decide, by decide, by unfold freeTag; decide, linked_sC⟩,
    ⟨ready_of (sized_with0 _ _ _) (by decide), by decide, by decide, by decide, by unfold freeTag; decide⟩,
    ready_of (sized_with0 _ _ _) (by decide), by decide⟩

/-! Matrix commands -/

/-- An allocation of 16 tiles and 4 queues with 7 commands; queue 3 has three entries, the first of them ready and its last
pair of rows due next; x2 = 0x1_0000 with 64 lines of stride 0x80 in x3. -/
def sM : State := with0 (fun x => { regs [0#64, 0x10000#64, 0x0040000000000080#64, 0x10000#64, 0x80#64] x with
  mx := { alloc := true, tiles := List.replicate 16 (List.replicate 4096 0#32), pops := [0, 0, 0, 31]
          queues := [[], [], [], [{ fmt := .bf16, elems := List.replicate 4096 1#32, ready := true }, { fmt := .f32, elems := [], ready := false }, { fmt := .f32, elems := [], ready := false }]]
          cmds := List.replicate 7 { instr := .mzero 0#4 0#4 } } })

/-- No allocation; x1 names a page of 2 MiB whose matrix area holds so many tiles. -/
def sNt (n : Nat) : State := with0 (regs [0x200000#64]) id fun d => { d with
  tlb := { top := 1, vbase := 0x200000, size := 0x200000, leaf := 0x0010000000200039#64 } :: d.tlb
  frames := ((List.range 32).map fun i => (.dram, 32 + i, .top 1)) ++ d.frames
  mem := if n = 0 then [] else cellsOf 0x200002 [BitVec.ofNat 8 n] }
def sN6 : State := sNt 1

/-- The core has no free tile. -/
def sNw : State := modCore 0 (fun k => { k with freeTiles := 0 }) sN6

/-- No context of the core waits for tiles. -/
theorem noneFits_of {s : State} {k : Nat} {free : Nat × Nat} (h : (getCore s k).mxWait = []) : noneFits s k free := by
  intro c hc
  rw [h] at hc
  cases hc

def sMf : State := modCtx 0 (fun x => { x with mx := { x.mx with cmds := [] } }) (modCore 0 (fun k => { k with freeTiles := 0, freeQueues := 4 }) sM)

theorem witness_MatrixQueue :
    (matrixCmd (.mma .bf16 15#4 2#6 4#6 0#4) (getArch (atIssue sM) sM.cur) = some { instr := .mma .bf16 15#4 2#6 4#6 0#4, xa0 := 0x10000#64, xa1 := 0x0040000000000080#64, xb0 := 0x10000#64, xb1 := 0x80#64 } ∧
      Ready (.mma .bf16 15#4 2#6 4#6 0#4) sM ∧ ownMatrix (getCtx (started sM) sM.cur) ∧ (getCtx (started sM) sM.cur).mx.cmds.length = 7 ∧
      tilesFor (.mma .bf16 15#4 2#6 4#6 0#4) = (getCtx (started sM) sM.cur).mx.tiles.length ∧
      operandsOk (started sM) { instr := .mma .bf16 15#4 2#6 4#6 0#4, xa0 := 0x10000#64, xa1 := 0x0040000000000080#64, xb0 := 0x10000#64, xb1 := 0x80#64 }) ∧
    (Ready (.mdrain .f16 true 3#3 15#4) sM ∧ ownMatrix (getCtx (started sM) sM.cur) ∧ (15#4).toNat < (getCtx (started sM) sM.cur).mx.tiles.length ∧
      (3#3).toNat < (getCtx (started sM) sM.cur).mx.queues.length ∧ ((getCtx (started sM) sM.cur).mx.queues.getD 3 []).length = 3 ∧
      matrixCmd (.mdrain .f16 true 3#3 15#4) (getArch (atIssue sM) sM.cur) = some { instr := .mdrain .f16 true 3#3 15#4 }) :=
  ⟨⟨by rfl, ready_of (sized_with0 _ _ _) (by decide), by unfold ownMatrix; decide, by decide, by decide, by unfold operandsOk denseOk; decide⟩,
    ready_of (sized_with0 _ _ _) (by decide), by unfold ownMatrix; decide, by decide, by decide, by decide, by rfl⟩

theorem witness_MatrixAllocation :
    (Ready (.mtalloc 15#4 8#4) sN6 ∧ ownMatrix (getCtx (started sN6) sN6.cur) ∧ (getCtx (started sN6) sN6.cur).granted = false ∧
      (getCtx (started sN6) sN6.cur).wantMx = none ∧ (getCtx (started sN6) sN6.cur).mx.alloc = false ∧
      (15#4).toNat + 1 = (getCore (started sN6) (coreOf sN6.cur)).freeTiles ∧
      (8#4).toNat = (getCore (started sN6) (coreOf sN6.cur)).freeQueues ∧ noneFits (started sN6) (coreOf sN6.cur) (0, 0)) ∧
    (Ready .mtfree sMf ∧ ownMatrix (getCtx (started sMf) sMf.cur) ∧ (getCtx (started sMf) sMf.cur).mx.cmds = [] ∧
      (getCore (started sMf) (coreOf sMf.cur)).mxWait = [] ∧ (getCtx (started sMf) sMf.cur).granted = false ∧ (getCtx (started sMf) sMf.cur).mx.alloc = true) ∧
    (∃ e, Ready (.qpop 63#6 3#3) sM ∧ ownMatrix (getCtx (started sM) sM.cur) ∧ (3#3).toNat < (getCtx (started sM) sM.cur).mx.queues.length ∧
      ((getCtx (started sM) sM.cur).mx.queues.getD 3 [])[31 / 32]? = some e ∧
      e.ready = true ∧ e.poisoned = false ∧ (getCtx (started sM) sM.cur).mx.pops.getD 3 0 = 31) ∧
    (Ready (.mxsave 1#6) sN6 ∧ (xAt (getArch (atIssue sN6) sN6.cur) 1#6).toNat % 4096 = 0 ∧ (getCtx (started sN6) sN6.cur).mx.cmds = [] ∧
      mxBad (getCtx (started sN6) sN6.cur).mx = [] ∧
      ∃ w, writeParts sN6.cur .mx { w := true } (xAt (getArch (atIssue sN6) sN6.cur) 1#6) (mxParts (getCtx (started sN6) sN6.cur).mx) (started sN6) = .ok w) ∧
    (∀ n, n < 2 → Ready (.mxrest 1#6) (sNt n)) ∧
    (ownMatrix (getCtx (started sN6) sN6.cur) ∧ (getCtx (started sN6) sN6.cur).granted = false ∧ (getCtx (started sN6) sN6.cur).wantMx = none ∧
      (xAt (getArch (atIssue sN6) sN6.cur) 1#6).toNat % 4096 = 0 ∧
      ∃ m u, readMx sN6.cur .mx (xAt (getArch (atIssue sN6) sN6.cur) 1#6) (started sN6) = (.ok m, u) ∧
        let m' := withFlags (getCtx (started sN6) sN6.cur).mxFlags (fixPops (getArch u sN6.cur) (dropAbandoned m))
        m'.alloc = true ∧ m'.tiles.length = 1 ∧ m'.queues.length = 0 ∧ 1 ≤ (getCore (releaseMx sN6.cur u) (coreOf sN6.cur)).freeTiles ∧
          (getCore (releaseMx sN6.cur u) (coreOf sN6.cur)).mxWait = []) ∧
    (Ready (.mxrest 1#6) sNw ∧ ownMatrix (getCtx (started sNw) sNw.cur) ∧ (getCtx (started sNw) sNw.cur).granted = false ∧ (getCtx (started sNw) sNw.cur).wantMx = none ∧
      ∃ m u, readMx sNw.cur .mx (xAt (getArch (atIssue sNw) sNw.cur) 1#6) (started sNw) = (.ok m, u) ∧
        let m' := withFlags (getCtx (started sNw) sNw.cur).mxFlags (fixPops (getArch u sNw.cur) (dropAbandoned m))
        m'.alloc = true ∧ (getCore (releaseMx sNw.cur u) (coreOf sNw.cur)).freeTiles < m'.tiles.length) ∧
    (∃ m u, readMx (sNt 0).cur .mx (xAt (getArch (atIssue (sNt 0)) (sNt 0).cur) 1#6) (started (sNt 0)) = (.ok m, u) ∧
        (withFlags (getCtx (started (sNt 0)) (sNt 0).cur).mxFlags (fixPops (getArch u (sNt 0).cur) (dropAbandoned m))).alloc = false) :=
  ⟨⟨ready_of (sized_with0 _ _ _) (by decide), by unfold ownMatrix; decide, by decide, by decide, by decide, by decide, by decide, noneFits_of (by decide)⟩,
    ⟨ready_of (sized_ctx (sized_core (sized_with0 _ _ _) _ _) _ _) (by decide), by unfold ownMatrix; decide, by decide, by decide, by decide, by decide⟩,
    ⟨_, ready_of (sized_with0 _ _ _) (by decide), by unfold ownMatrix; decide, by decide, rfl, rfl, rfl, by decide⟩,
    ⟨ready_of (sized_with0 _ _ _) (by decide), by decide, by decide, by decide, ex_okE (by decide)⟩,
    fun n h => ready_of (sized_with0 _ _ _) (by revert n; decide),
    ⟨by unfold ownMatrix; decide, by decide, by decide, by decide, ex_ok (by decide +kernel)⟩,
    ⟨ready_of (sized_core (sized_with0 _ _ _) _ _) (by decide), by unfold ownMatrix; decide, by decide, by decide, ex_ok (by decide +kernel)⟩, ex_ok (by decide +kernel)⟩

/-! Group operations -/

/-- The descriptor of a collective of group 0 with root 1, the last member, and type 6. -/
def collN : Nat := 6 * 2 ^ 96 + 0xFF * 2 ^ 104 + 2 ^ 128

/-- A collective descriptor at 0x2_0040 that x1 names; x3 = 1 a checkpoint word; x5 an agreement word with RA and x6 one
without, of group 0; x7 = 65,535; collective 5 has ended. -/
def sG : State := with0 (regs [0x20040#64, 0#64, 1#64, 0#64, 0x0000FFFF03000000#64, 0x0000FFFF00000000#64, 0xFFFF#64]) id fun d => { d with
  mem := cellsOf (scratchBase + 64) (bytesOf 64 collN)
  regions := [{ reg with allotment := 16384 }] }

/-- The same in supervisor level. -/
def sG1 : State := modCtx 0 (fun x => { x with level := 1 }) sG

/-- The ended collective that a COLLW waited for. -/
def coll5 : Coll := {
  id := 5, ctx := 0, top := 1, rid := 1, tag := none, level := 0, gid := 0, gen := 1, seq := 0, sig := .coll 6 0xFF 1 0, self := 0
  desc := 0#64, plan := 0#64, sbuf := 0#64, rbuf := 0#64, oper := 0xFF, ended := true }
def sH7 : State := with0 (fun x => { x with waitColl := some (5, 0) }) id fun d => { d with colls := [coll5] }

/-- An opened collective of a descriptor that is read with success. -/
theorem coll_of {al : Nat} {va : Word} {s : State} {P : List Seg → State → Nat → State → Prop} [∀ g t n w, Decidable (P g t n w)]
    (h : (match (descSegs al va s).1 with
      | .ok g => match (descRead g (descSegs al va s).2).1 with | .ok n => decide (P g (descSegs al va s).2 n (descRead g (descSegs al va s).2).2) | .error _ => false
      | .error _ => false) = true) : ∃ g t n w, descSegs al va s = (.ok g, t) ∧ descRead g t = (.ok n, w) ∧ P g t n w := by
  generalize hr : descSegs al va s = r at h
  obtain ⟨e, t⟩ := r
  cases e with
  | error _ => cases h
  | ok g =>
    generalize hq : descRead g t = q at h
    obtain ⟨o, w⟩ := q
    cases o with
    | error _ => simp only [hq] at h; cases h
    | ok n => simp only [hq] at h; exact ⟨g, t, n, w, rfl, hq, of_decide_eq_true h⟩

theorem witness_GroupOperations :
    (Ready (.coll 1#6 63#6) sG ∧ collFull (started sG) = false ∧ freeTag 63#6 sG ∧
      ∃ g t n w, descSegs 64 (xAt (getArch (atIssue sG) sG.cur) 1#6) (started sG) = (.ok g, t) ∧ descRead g t = (.ok n, w) ∧
        (collOk w sG.cur n = true ∧ w.keys = keys0 ∧ dieOf w.cur = 0 ∧ domOf w w.cur = 1)) ∧
    (Ready (.collw 1#6) sG ∧ (getCtx (started sG) sG.cur).waitColl = none) ∧
    (Ready (.collw 1#6) sH7 ∧ (getCtx (started sH7) sH7.cur).waitColl = some (5, (getArch sH7 sH7.cur).pc) ∧
      ((getDie (started sH7) 0).colls.find? fun q => q.ctx == sH7.cur && q.id == 5) = some coll5 ∧ coll5.ended = true ∧ coll5.ending = none) ∧
    (∃ g, Ready (.barr 0#6 63#6) sG ∧ (xAt (getArch (atIssue sG) sG.cur) 0#6).toNat < 1024 ∧ nameable (started sG) sG.cur 0 = some g ∧ freeTag 63#6 sG ∧ linked (started sG)) ∧
    (∃ g, Ready (.ckpt 3#6 63#6) sG1 ∧ region? (getDie (started sG1) 0) (domOf (started sG1) sG1.cur) = some g ∧ (getDie (started sG1) 0).ckpts = [] ∧
      ckptOk g (linkKey (started sG1) 0 1) g.rank (xAt (getArch (atIssue sG1) sG1.cur) 3#6) = true ∧ imageBytes (markedPages (getDie (started sG1) 0) 1) = g.allotment / 4 ∧
      linked (started sG1) ∧ freeTag 63#6 sG1) :=
  ⟨⟨ready_of (sized_with0 _ _ _) (by decide), by decide, by unfold freeTag; decide, coll_of (by decide)⟩,
    ⟨ready_of (sized_with0 _ _ _) (by decide), by decide⟩,
    ⟨ready_of (sized_with0 _ _ _) (by decide), by decide, by decide, rfl, rfl⟩,
    ⟨_, ready_of (sized_with0 _ _ _) (by decide), by decide, rfl, by unfold freeTag; decide, linked_of rfl (by decide) (by decide)⟩,
    ⟨_, ready_of (sized_ctx (sized_with0 _ _ _) 0 _) (by decide), rfl, by decide, by decide, by decide,
      linked_of rfl (by decide) (by decide), by unfold freeTag; decide⟩⟩

theorem witness_AgreedBranches :
    (∃ w g, agreement (.agb 0#4 5#6) (getArch (atIssue sG) sG.cur) = some (false, w, 1) ∧ Ready (.agb 0#4 5#6) sG ∧ (getCtx (started sG) sG.cur).round = none ∧
      agreementValid w ∧ nameable (started sG) sG.cur (bitsN w 9 0) = some g ∧ linked (started sG) ∧ bit w 25 = true) ∧
    (∃ w g, agreement (.agbx 7#6 6#6) (getArch (atIssue sG) sG.cur) = some (true, w, 65535) ∧ Ready (.agbx 7#6 6#6) sG ∧
      agreementValid w ∧ nameable (started sG) sG.cur (bitsN w 9 0) = some g ∧ linked (started sG) ∧ bit w 25 = false) :=
  ⟨⟨_, _, rfl, ready_of (sized_with0 _ _ _) (by decide), by decide, by unfold agreementValid; decide, rfl, linked_of rfl (by decide) (by decide), by decide⟩,
    ⟨_, _, rfl, ready_of (sized_with0 _ _ _) (by decide), by unfold agreementValid; decide, rfl, linked_of rfl (by decide) (by decide), by decide⟩⟩

/-! Exceptions, returns, records -/

/-- A page of 2 MiB of the scratchpad at 0x20_0000 holds the save area. -/
def sT8 (f : Ctx → Ctx) : State := with0 (fun x => f { regs [0x200000#64, 0x123456789#64] x with savearea := 0x200000#64 }) id fun d => { d with
  tlb := { top := 1, vbase := 0x200000, size := 0x200000, leaf := 0x0010100000000039#64 } :: d.tlb }

/-- Its handler, in which two tags of the interrupted state are held, and a suspended fabric command. -/
def sS : State := sT8 fun x => { x with
  level := 1, trapcode := 0x0000000001000020#64, trappc := 0x100000000000000A#64, heldTags := BitVec.allOnes 64, heldFlags := 1#8
  faults := [{ code := 1#64, addr := 2#64 }] }

/-- No handler is bound. -/
def sU : State := with0 id id fun d => { d with regions := [{ reg with vector := none }] }

theorem witness_Exceptions :
    Ready (.trap 0x3FFFF#18) (sT8 id) ∧
    (Sized (sT8 id) ∧ (getCtx (sT8 id) 0).level = 0 ∧ handlerOf (sT8 id) 0 = some (0, 16) ∧
      ∃ v, writeParts 0 .ls { r := true, w := true } (getCtx (landNow 0 (settle 0 (unwait 0 (sT8 id)))) 0).savearea
        (trapParts (boundary (landNow 0 (settle 0 (unwait 0 (sT8 id)))) 0) (getCtx (landNow 0 (settle 0 (unwait 0 (sT8 id)))) 0))
        (landNow 0 (settle 0 (unwait 0 (sT8 id)))) = .ok v) ∧
    (Sized sS ∧ (getCtx sS 0).level = 1) ∧ (Sized sU ∧ handlerOf sU 0 = none) :=
  ⟨ready_of (sized_with0 _ _ _) (by decide), ⟨sized_with0 _ _ _, by decide, by decide, ex_okE (by decide +kernel)⟩,
    ⟨sized_with0 _ _ _, by decide⟩, sized_with0 _ _ _, by decide⟩

/-- An instruction meets, or breaks, the header, syllable and in-bundle rules at a state. -/
def validAt (s : State) (i : Instr) : Bool := headerOk (getCtx (atIssue s) s.cur).arch s.hdr && i.wf && groupOk [i] && (opOf i).isSome

/-- A header that names a guard of stage 15 of no level. -/
def sHd : State := { sT8 id with hdr := { (sT8 id).hdr with guard := 1#4, stage := 3 } }

theorem witness_DecodeExceptions :
    (headerOk (getCtx (atIssue sHd) sHd.cur).arch sHd.hdr = false ∧ (opOf (.trap 0#18)).isSome = true) ∧
    ((Instr.mma .bf16 0#4 1#6 2#6 0#4).wf = false ∧ (opOf (.mma .bf16 0#4 1#6 2#6 0#4)).isSome = true) ∧
    ([.rfe, .halt 0#6, .keyselGen 0#6, .keyselKill 0#6, .ckwait, .fport 1#6 2#6 3#6, .tlbi 1#6 2#6 3#6, .ckpt 1#6 2#6, .mfs 1#6 0x020#12, .mfs 1#6 0x023#12,
      .mts 0x021#12 1#6, .mts 0x023#12 1#6, .tagsWrite 1#6, .rowprogWrite 1#6].all (validAt (sT8 id)) = true ∧ (getCtx (atIssue (sT8 id)) (sT8 id).cur).level = 0) ∧
    (supervisorOnly .rfe ∧ supervisorOnly (.ckpt 1#6 2#6) ∧ supervisorOnly (.mfs 1#6 0x023#12) ∧ supervisorOnly (.mts 0x023#12 1#6) ∧ supervisorOnly (.rowprogWrite 1#6)) ∧
    ([.mts 0x004#12 1#6, .mts 0x020#12 1#6, .mts 0x022#12 1#6, .mts 0xFFF#12 1#6].all (fun i => !i.wf || validAt (sT8 id) i) = true ∧ validAt (sT8 id) (.mts 0x022#12 1#6) = true ∧
      unwritable (.mts 0x022#12 1#6)) ∧
    ([.mfs 1#6 0x000#12, .mfs 1#6 0x003#12, .trap 0#18].all (validAt (sT8 id)) = true ∧ ¬unwritable (.mfs 1#6 0x003#12) ∧ ¬supervisorOnly (.mfs 1#6 0x003#12)) ∧
    ([.rfe, .mts 0x023#12 1#6].all (validAt sS) = true ∧ 1 ≤ (getCtx (atIssue sS) sS.cur).level) :=
  ⟨by decide, by decide, ⟨by decide, by decide⟩, ⟨trivial, trivial, by unfold supervisorOnly; decide, by unfold supervisorOnly; decide, trivial⟩,
    ⟨by decide, by decide, by unfold unwritable; decide⟩, ⟨by decide, by simp [unwritable], by unfold supervisorOnly; decide⟩, by decide, by decide⟩

theorem sized_hdr {s : State} (h : Sized s) (f : Flow) (g : Hdr) : Sized { s with flow := f, hdr := g } := ⟨h.dies, h.cores, h.ctxs, h.keys⟩

/-- Guard p1 is clear in every lane. -/
def sOff : State := { sT8 id with hdr := { (sT8 id).hdr with guard := 1#4 } }

theorem turnedOff_of {i : Instr} {s : State} (hs : Sized s) (h : (decide (s.cur < 1024) && !s.hdr.fin && decide (decodeFault (getCtx (atIssue s) s.cur) s.hdr [i] = none) &&
    !interlocked (getArch (atIssue s) s.cur) (namedRegs (getArch (atIssue s) s.cur) s.hdr [i]) && !bktStalls (getCtx (atIssue s) s.cur) [i] && !(stageState (getArch (atIssue s) s.cur) s.hdr).1 &&
    (!(stageState (getArch (atIssue s) s.cur) s.hdr).2 || !takesEffect (guardOf (getArch (atIssue s) s.cur) s.hdr) i) &&
    !(runsAhead (getCtx (atIssue s) s.cur) && heldBack i) &&
    !(getArch (atIssue s) s.cur).poisoned.any (fun d => (implicitReads (getArch (atIssue s) s.cur) s.hdr
      (stageState (getArch (atIssue s) s.cur) s.hdr).2).contains d) &&
    decide ((getArch (atIssue s) s.cur).inflight.length ≤ 96)) = true) : TurnedOff i s := by
  simp only [Bool.and_eq_true, decide_eq_true_eq, Bool.not_eq_true', Bool.or_eq_true] at h
  obtain ⟨⟨⟨⟨⟨⟨⟨⟨⟨h1, h2⟩, h3⟩, h4⟩, h5⟩, h6⟩, h7⟩, h8⟩, h9⟩, h10⟩ := h
  exact ⟨hs, h1, h2, h3, h4, h5, h6, h7, h8, h9, h10⟩

theorem witness_TurnedOffOperations : (∃ f, opOf (.trap 0#18) = some f ∧ TurnedOff (.trap 0#18) sOff) ∧
    (∃ f, opOf (.vst .f32 0#2 false 1#6 2#6 0#6) = some f ∧ TurnedOff (.vst .f32 0#2 false 1#6 2#6 0#6) sOff) :=
  ⟨⟨_, rfl, turnedOff_of (sized_hdr (sized_with0 _ _ _) _ _) (by decide)⟩, _, rfl, turnedOff_of (sized_hdr (sized_with0 _ _ _) _ _) (by decide)⟩

/-- Runs of zeros read as zeros. -/
theorem runReader_zeros {rs : List (Nat × List Seg × List Byte)} (h : ∀ r ∈ rs, ∀ b ∈ r.2.2, b = 0#8) :
    runReader rs = fun _ n => List.replicate n 0#8 := by
  funext o n
  unfold runReader
  split
  · rename_i r hr
    have hz : ∀ b ∈ (r.2.2.drop (o - r.1)).take n, b = 0#8 := fun b hb =>
      h r (List.mem_of_find?_eq_some hr) b (List.mem_of_mem_drop (List.mem_of_mem_take hb))
    rw [List.eq_replicate_of_mem hz, padTo, List.length_replicate, List.replicate_append_replicate]
    congr 1
    simp only [List.length_take]
    omega
  · rfl

theorem area_zeros : areaOk (fun _ n => List.replicate n 0#8) false = true := by decide

theorem readFrom_high (n a : Nat) (m : Memory) (h : ∀ e ∈ m, a + n ≤ e.1) : ∀ b ∈ readFrom n m a, b = 0#8 := by
  induction n generalizing a with
  | zero => simp [readFrom]
  | succ n ih =>
    have step : ∀ b ∈ readFrom n m (a + 1), b = 0#8 := ih (a + 1) fun e he => by have := h e he; omega
    cases m with
    | nil => simpa [readFrom, unlisted] using step
    | cons e m =>
      have hne : ¬e.1 = a := by have := h e List.mem_cons_self; omega
      simpa [readFrom, unlisted, hne] using step

/-- A place beside DRAM from whose end on a die's memory begins reads as zeros. -/
theorem readRunBy_high {s : State} {d a n : Nat} (hm : ∀ e ∈ (getDie s d).mem, a + n ≤ e.1) (hu : (getDie s d).unseen = []) (ha : isDram a = false) (p : Path)
    (w k e : Nat) (na : Bool) : ∀ b ∈ (readRunBy w d p a n k e na s).1, b = 0#8 := by
  simp [readRunBy, hu, hiddenCount, readMissing, ha, readRun]
  exact readFrom_high n a _ fun c hc => hm c ((List.dropWhile_sublist _).subset hc)

/-- The save area in the scratchpad. -/
def segT : Seg := { pa := scratchBase, len := 90112, va := 0x200000, okey := 1 }

/-- The handler's record as RFE finds it, and what it reads of the save area. -/
def leaving (s : State) : State := settle s.cur (started s)
def areaRead (s : State) : Except (Nat × Word) (List (Nat × List Seg × List Byte)) × State :=
  readRuns s.cur .ls (getCtx (leaving s) s.cur).savearea [(0, 90112)] (seeOrs s.cur (getCtx (leaving s) s.cur).savearea (leaving s))

theorem area_of {s : State} (h : (match (areaRead s).1 with
      | .ok runs => decide (specialBad (getDie (areaRead s).2 (dieOf s.cur)) (runs.flatMap (·.2.1)) (runReader runs) = false)
      | .error _ => false) = true)
    (hc : (match (checkAccess s.cur { r := true } ((getCtx (leaving s) s.cur).savearea + BitVec.ofNat 64 0) 90112
        (seeOrs s.cur (getCtx (leaving s) s.cur).savearea (leaving s))) with
      | (.ok segs, t) => decide (segs = [segT] ∧ (∀ e ∈ (getDie t (dieOf s.cur)).mem, scratchBase + 90112 ≤ e.1) ∧ (getDie t (dieOf s.cur)).unseen = [])
      | _ => false) = true) :
    ∃ runs, areaRead s = (.ok runs, (areaRead s).2) ∧ specialBad (getDie (areaRead s).2 (dieOf s.cur)) (runs.flatMap (·.2.1)) (runReader runs) = false ∧
      areaOk (runReader runs) false = true := by
  generalize hq : checkAccess s.cur { r := true } ((getCtx (leaving s) s.cur).savearea + BitVec.ofNat 64 0) 90112
        (seeOrs s.cur (getCtx (leaving s) s.cur).savearea (leaving s)) = q at hc
  obtain ⟨e, t⟩ := q
  cases e with
  | error _ => cases hc
  | ok segs =>
    obtain ⟨rfl, hm, hu⟩ := of_decide_eq_true hc
    have hr : (areaRead s).1 = .ok [(0, [segT], (readRunBy 4 (dieOf s.cur) .ls segT.pa segT.len segT.okey 0 false t).1)] := by
      unfold areaRead
      simp only [readRuns, hq, readSegs, readSegsBy, List.append_nil]
    rw [hr] at h
    refine ⟨_, Prod.ext hr rfl, of_decide_eq_true h, ?_⟩
    rw [runReader_zeros, area_zeros]
    intro r hm'
    rw [List.mem_singleton] at hm'
    rw [hm']
    exact readRunBy_high hm hu rfl .ls 4 1 0 false

/-- The same record with its matrix state saved, of n tiles, where the core has f free tiles. -/
def sSx (n f : Nat) : State := modDie 0 (fun d => { d with mem := if n = 0 then [] else cellsOf (scratchBase + 90114) [BitVec.ofNat 8 n] })
  (modCore 0 (fun k => { k with freeTiles := f }) (modCtx 0 (fun x => { x with mxSaved := true }) sS))

/-- The handler runs ahead; its tag 0 is not set; its matrix state was saved and it has a command in its queue. -/
def sSa : State := modCtx 0 (fun x => { x with ckpt := some aF, ckptAt1 := true }) sS
def sSt8 : State := modCtx 0 (fun x => { x with tags := BitVec.allOnes 64 <<< 1 }) sS
def sSc : State := modCtx 0 (fun x => { x with mxSaved := true, mx := { alloc := true, tiles := [[]], cmds := [{ instr := .mzero 0#4 0#4 }] } }) sS

theorem witness_ExceptionReturn :
    Ready .rfe sS ∧ runsAhead (getCtx (started sS) sS.cur) = false ∧ (getCtx (started sS) sS.cur).tags = BitVec.allOnes 64 ∧
    (getCtx (started sS) sS.cur).mxSaved = false ∧ (getCtx (leaving sS) sS.cur).mxSaved = false ∧
    ∃ runs, areaRead sS = (.ok runs, (areaRead sS).2) ∧
      specialBad (getDie (areaRead sS).2 (dieOf sS.cur)) (runs.flatMap (·.2.1)) (runReader runs) = false ∧ areaOk (runReader runs) false = true :=
  ⟨ready_of (sized_with0 _ _ _) (by decide), by decide, by decide, by decide, by decide, area_of (by decide +kernel) (by decide +kernel)⟩

theorem sized_sSx (n f : Nat) : Sized (sSx n f) := sized_die (sized_core (sized_ctx (sized_with0 _ _ _) _ _) _ _) _ _

/-- A saved matrix state without an allocation, one that finds its tiles free, and one that waits for them. -/
theorem witness_ExceptionReturn_matrix : ∀ q ∈ [(0, 16), (1, 1), (1, 0)], Ready .rfe (sSx q.1 q.2) ∧ runsAhead (getCtx (started (sSx q.1 q.2)) 0) = false ∧
    (getCtx (started (sSx q.1 q.2)) 0).tags = BitVec.allOnes 64 ∧
    (getCtx (started (sSx q.1 q.2)) 0).mxSaved = true ∧ (getCtx (leaving (sSx q.1 q.2)) 0).mxSaved = true ∧ (getCtx (started (sSx q.1 q.2)) 0).mx.cmds = [] := by
  intro q hq
  simp only [List.mem_cons, List.not_mem_nil, or_false] at hq
  obtain rfl | rfl | rfl := hq <;> exact ⟨ready_of (sized_sSx _ _) (by decide), by decide, by decide, by decide, by decide, by decide⟩

theorem witness_ExceptionReturn_read : ∀ q ∈ [(0, 16), (1, 1), (1, 0)], ∃ runs, areaRead (sSx q.1 q.2) = (.ok runs, (areaRead (sSx q.1 q.2)).2) ∧
      specialBad (getDie (areaRead (sSx q.1 q.2)).2 (dieOf 0)) (runs.flatMap (·.2.1)) (runReader runs) = false ∧ areaOk (runReader runs) false = true := by
  intro q hq
  simp only [List.mem_cons, List.not_mem_nil, or_false] at hq
  obtain rfl | rfl | rfl := hq
  · exact area_of (s := sSx 0 16) (by decide +kernel) (by decide +kernel)
  · exact area_of (s := sSx 1 1) (by decide +kernel) (by decide +kernel)
  · exact area_of (s := sSx 1 0) (by decide +kernel) (by decide +kernel)

theorem witness_ExceptionReturn_saved : ∀ q ∈ [(0, 16), (1, 1), (1, 0)], ∃ m z, readMx 0 .mx ((getCtx (leaving (sSx q.1 q.2)) 0).savearea + 90112#64) (areaRead (sSx q.1 q.2)).2 = (.ok m, z) ∧
      (m.alloc = decide (q.1 ≠ 0) ∧ m.tiles.length = q.1 ∧ m.queues.length = 0 ∧ (getCore z 0).mxWait = [] ∧ (getCtx z 0).granted = false ∧
        (getCore z 0).freeTiles + (ownMx (getCtx z 0)).1 = q.2 ∧ (getCtx (leaving (sSx q.1 q.2)) 0).mxPends = []) := by
  intro q hq
  simp only [List.mem_cons, List.not_mem_nil, or_false] at hq
  obtain rfl | rfl | rfl := hq <;> exact ex_ok (by decide +kernel)

theorem witness_ExceptionReturn_waits :
    (Ready .rfe sSa ∧ runsAhead (getCtx (started sSa) sSa.cur) = true) ∧
    (Ready .rfe sSt8 ∧ runsAhead (getCtx (started sSt8) sSt8.cur) = false ∧ (getCtx (started sSt8) sSt8.cur).tags ≠ BitVec.allOnes 64) ∧
    (Ready .rfe sSc ∧ runsAhead (getCtx (started sSc) sSc.cur) = false ∧ (getCtx (started sSc) sSc.cur).mxSaved = true ∧ (getCtx (started sSc) sSc.cur).mx.cmds ≠ []) :=
  ⟨⟨ready_of (sized_ctx (sized_with0 _ _ _) _ _) (by decide), by decide⟩, ⟨ready_of (sized_ctx (sized_with0 _ _ _) _ _) (by decide), by decide, by decide⟩,
    ready_of (sized_ctx (sized_with0 _ _ _) _ _) (by decide), by decide, by decide, by decide⟩

/-- A record that runs ahead. -/
def sDa : State := modCtx 0 (fun x => { x with ckpt := some aF }) (sT8 id)

theorem witness_RecordEnds :
    (Ready .done (sT8 id) ∧ (getCtx (started (sT8 id)) 0).ckpt = none ∧ nothingPending (getCtx (started (sT8 id)) 0)) ∧
    (Ready .done sDa ∧ (getCtx (started sDa) sDa.cur).ckpt ≠ none) ∧ (Ready (.halt 2#6) sSa ∧ runsAhead (getCtx (started sSa) sSa.cur) = true) ∧
    (Ready (.halt 2#6) sS ∧ runsAhead (getCtx (started sS) sS.cur) = false ∧ savedTags sS.cur (abandonAll sS.cur (started sS)) = BitVec.allOnes 64 ∧
      nothingPending (getCtx (abandonAll sS.cur (started sS)) sS.cur)) :=
  ⟨⟨ready_of (sized_with0 _ _ _) (by decide), by decide, by unfold nothingPending; decide⟩, ⟨ready_of (sized_ctx (sized_with0 _ _ _) _ _) (by decide), by decide⟩,
    ⟨ready_of (sized_ctx (sized_with0 _ _ _) _ _) (by decide), by decide⟩, ready_of (sized_with0 _ _ _) (by decide), by decide, by decide,
    by unfold nothingPending; decide⟩

/-- The innermost level is l and the bundle ends it; a1 is linked to the level, and so is a2, for which the bundle has queued a result. -/
def sL8 (l : LoopLevel) : State := { with0 (fun x => { x with arch := { x.arch with
  loops := [{ kind := .loop, count := 9, start := 1, exit := 8 }, l], p := (List.range 16).map fun k => BitVec.ofNat 128 k
  a := [{}, { addr := 5#64, stride := 7#64, lvl := 2#3 }, { addr := 8#64, stride := 16#64, lvl := 2#3 }, { addr := 1#64, stride := 1#64, lvl := 1#3 }] ++ List.replicate 12 {}
  inflight := [{ id := 3, dest := .a 2, due := 12, ready := 0, val := .areg none (some 4#64) none }, { id := 4, dest := .x 3, due := 30, ready := 0, val := .word 5#64 }] } }) with
  flow := { nextPc := 77, tags0 := 0#64, id0 := 3 }, hdr := { (base).hdr with fin := true } }

theorem atEnd_of (l : LoopLevel) : AtEnd (sL8 l) 0 3 77 l :=
  ⟨sized_hdr (sized_with0 _ _ _) _ _, by decide, ⟨3, 0#64, [], 0, rfl⟩, rfl, rfl⟩

theorem witness_LoopEnds :
    (∀ n, AtEnd (sL8 { kind := .loop, count := n, start := 3, exit := 6 }) 0 3 77 { kind := .loop, count := n, start := 3, exit := 6 }) ∧
    (∀ ps, AtEnd (sL8 { kind := .replay, count := 1, start := 3, exit := 6, stages := 8, pass := ps }) 0 3 77 { kind := .replay, count := 1, start := 3, exit := 6, stages := 8, pass := ps } ∧
      (getArch (sL8 { kind := .replay, count := 1, start := 3, exit := 6, stages := 8, pass := ps }) 0).p.length = 16) ∧
    ((7 : Nat) = 1 + 8 - 2 ∧ 2 ≤ 1 + 8) ∧ 6 + 2 < 1 + 8 ∧
    (∀ l, let a := getArch (sL8 l) 0
      ((a.a.getD 1 {}).lvl.toNat = a.loops.length ∧ ∀ f ∈ a.inflight, ¬writesA 3 1 f) ∧
      ((a.a.getD 2 {}).lvl.toNat = a.loops.length ∧ ∃ f, a.inflight[0]? = some f ∧ writesA 3 2 f ∧ f.val = .areg none (some 4#64) none) ∧
      (a.a.getD 3 {}).lvl.toNat ≠ a.loops.length) :=
  ⟨fun _ => atEnd_of _, fun _ => ⟨atEnd_of _, by rfl⟩, by decide, by decide, fun l =>
    ⟨⟨by rfl, fun f hf => by
        rw [show (getArch (sL8 l) 0).inflight = [{ id := 3, dest := .a 2, due := 12, ready := 0, val := .areg none (some 4#64) none },
          { id := 4, dest := .x 3, due := 30, ready := 0, val := .word 5#64 }] from rfl] at hf
        simp only [List.mem_cons, List.not_mem_nil, or_false] at hf
        rcases hf with rfl | rfl <;> simp [writesA]⟩, ⟨by rfl, _, rfl, by simp [writesA], rfl⟩, by
      rw [show ((getArch (sL8 l) 0).a.getD 3 {}).lvl.toNat = 1 from rfl, show (getArch (sL8 l) 0).loops.length = 2 from rfl]; decide⟩⟩

/-! Landing, bundles, reset, the step -/

theorem witness_ResultsLand :
    ∃ r pre post, aF.inflight = pre ++ r :: post ∧ landsBy 20 r = true ∧ fits r.dest r.val ∧
      (∀ q ∈ pre, landsBy 20 q = true → q.dest = r.dest → landAt q ≤ landAt r) ∧
      (∃ q ∈ post, landsBy 20 q = true ∧ q.dest = r.dest) ∧ (∀ q ∈ post, landsBy 20 q = true → q.dest = r.dest → landAt q < landAt r) ∧
      ∀ q ∈ aF.inflight, landsBy 20 q = true → q.dest ≠ .x 3 :=
  ⟨_, [], _, rfl, by decide, rfl, by decide, by decide, by decide, by decide⟩

theorem emptyReady_base : EmptyReady base where
  sized := sized_base
  cur := by decide
  noEnd := by decide
  legal := by decide
  free := by decide
  stage := by decide
  clean := by decide
  room := by decide

theorem witness_EmptyBundles :
    (0x00FFFFFF#32).toNat / 2 ^ 24 = 0 ∧
    ((0x001FF800#32).toNat % 2 ^ 11 = 0 ∧ (0x001FF800#32).toNat / 2 ^ 21 = 0 ∧ (List.replicate 11 0#32).length = 11) ∧
    (∃ ws : List (BitVec 32), ws.length = 11 ∧ 10 < 11 ∧ (0#32).getLsbD 10 = false ∧ ws.getD 10 0#32 ≠ 0#32) ∧ EmptyReady base :=
  ⟨by decide, by decide, ⟨List.replicate 10 0#32 ++ [1#32], by decide⟩, emptyReady_base⟩

/-- An attempt that passes every check. -/
def bootOk : BootTry := { addrOk := true, fetchOk := true, signatureOk := true, versionOk := true, lengthOk := true, image := [1#8] }

theorem sized_reset : Sized State.reset := by constructor <;> simp [State.reset, -List.reduceReplicate]

theorem witness_DiesLeaveReset : Sized State.reset ∧ bootCause bootOk = 0 := ⟨sized_reset, by decide⟩

theorem dieUp_base : DieUp base 0 := ⟨by decide, by decide⟩

/-- The package at a boundary of context 0 with a bundle of NOT x1, x2 in its dictionary. -/
def sB9 (i : Instr) : State := { with0 (regs [0#64, 7#64]) (fun k => { k with kernels := [placedKernel .s0 (encode i)] }) with agenda := [.bundleIssue 0] }
def sB0 (i : Instr) : State := { sB9 i with agenda := [] }

theorem inv_of {s : State} (h : (s.dies.all fun d => Memory.wf d.mem) = true) (hd : s.dies.length = 4) : Inv s := ⟨memOk_of h, hd⟩

theorem witness_StepKeepsInvariant : Inv (sB9 (.movhi 9#6 2#2 0x7734#16)) := inv_of (by decide) (by decide)
theorem witness_DecodeOfEncode : (slotOf (.pnot 15#4 15#4)).isSome = true ∧ Instr.wf (.pnot 15#4 15#4) = true := by decide
theorem witness_StepRunsAgenda : ((sB9 (.pnot 15#4 15#4)).agenda = .bundleIssue 0 :: [] ∧ Instr.wf (.bundleIssue 0) = true) ∧
    ({ base with agenda := [.bundleIssue 256] } : State).agenda = .bundleIssue 256 :: [] ∧ Instr.wf (.bundleIssue 256) = false := by decide

theorem atBoundary_of {k n : Nat} {s : State} (h : (decide (k < 256 ∧ n < 4) && !(getDie s (k / 64)).inReset && !(getDie s (k / 64)).tripped &&
    decide ((getCore s k).issuing = some n) && decide ((getCtx s (4 * k + n)).status = .active) && decide ((getCtx s (4 * k + n)).quantum < 65536) &&
    !waitsTiles (getCtx s (4 * k + n)) && (getCtx s (4 * k + n)).round.isNone && (getCtx s (4 * k + n)).restore.isNone &&
    (getCtx s (4 * k + n)).faults1.isEmpty && (getCtx s (4 * k + n)).faults.isEmpty && !(getCtx s (4 * k + n)).marked) = true)
    (hf : flushWaiting (4 * k + n) s = s) : AtBoundary k n s := by
  simp only [Bool.and_eq_true, decide_eq_true_eq, Bool.not_eq_true', Option.isNone_iff_eq_none, List.isEmpty_iff] at h
  obtain ⟨⟨⟨⟨⟨⟨⟨⟨⟨⟨⟨h0, h1⟩, h2⟩, h3⟩, h4⟩, h5⟩, h6⟩, h7⟩, h8⟩, h9⟩, h10⟩, h11⟩ := h
  exact ⟨h0, ⟨h1, h2⟩, h3, h4, h5, h6, h7, h8, hf, ⟨h9, fun _ => h10⟩, h11⟩

theorem witness_StepRunsBundle :
    (sB9 (.movhi 9#6 2#2 0x7734#16)).agenda = .bundleIssue 0 :: [] ∧ AtBoundary 0 0 (noteReady 0 (sB0 (.movhi 9#6 2#2 0x7734#16))) ∧
    ∃ r t, fetch (4 * 0 + 0) (noteReady 0 (sB0 (.movhi 9#6 2#2 0x7734#16))) = (.ok r, t) ∧ breakpointAt t (4 * 0 + 0) = none ∧
      (decodeBundle r.1).map (·.2) = some [.movhi 9#6 2#2 0x7734#16] ∧ r.2 = (getArch (sB0 (.movhi 9#6 2#2 0x7734#16)) 0).pc + 1 ∧
      (opOf (.movhi 9#6 2#2 0x7734#16)).isSome = true ∧
      (match issueOps r.2 (opsOf [.movhi 9#6 2#2 0x7734#16]) { t with cur := 4 * 0 + 0, hdr := ((decodeBundle r.1).map (·.1)).getD t.hdr } with
        | .went _ => true | _ => false) = true :=
  ⟨rfl, atBoundary_of (by decide) rfl, ex_ok (by decide)⟩

theorem witness_MemoryReadsBack : Memory.wf (cellsOf 0xFFFF [1#8, 2#8]) = true ∧ 0xFFFF ≤ 0x10000 ∧ 0x10000 < 0xFFFF + [1#8, 2#8].length := by decide
theorem witness_RoundingIsExact : (0xFF7FFFFF : Nat) < 2 ^ (ffF32.eb + ffF32.fb + 1) ∧ fxOf ffF32 0xFF7FFFFF ≠ .nan ∧
    (1 : Nat) < 2 ^ (ffBF16.eb + ffBF16.fb + 1) ∧ fxOf ffBF16 1 ≠ .nan ∧ fxOf ffF16 0x7C00 ≠ .nan := by decide

/-! Events of the contexts -/

/-- Core 0 at cycle 20 with a used quantum, context 0 with results in flight and blocked since cycle 0 on a bundle, context 1 active. -/
def sE10 : State := modCtx 1 (fun _ => { ctx0 with arch := { ctx0.arch with kid := 0 } }) (with0 (fun x => { x with arch := aF, quantum := 65536, block := some (.watched, 0) }) (fun k => { k with cycles := 2000 })
  fun d => { d with regions := [{ reg with rcb := { hostRcb with wdog := 1 } }] })

/-- A fault waits in context 0, of the interrupted state or of the handler. -/
def sP (h : Bool) : State := with0 fun x => { x with level := if h then 1 else 0, faults := [⟨1#64, 2#64⟩, ⟨3#64, 4#64⟩], faults1 := if h then [⟨5#64, 6#64⟩] else [] }

/-- Context 0 is marked; its frame is in a scratchpad page of 2 MiB. -/
def sV10 : State := with0 (fun x => { x with marked := true, record := some { rec0 with frame := 0x200000#64 } }) id fun d => { d with
  tlb := { top := 1, vbase := 0x200000, size := 0x200000, leaf := 0x0010100000000039#64 } :: d.tlb }

/-- Context 0 is idle; two records wait, of which the second has the higher level now; the pool of region 1 is empty. -/
def sQ10 : State := with0 (fun _ => Ctx.init) id fun d => { d with
  clock := 131072, queue := [{ bits := 16#256, rid := 1, level := 3, enq := 131072, order := (0, 0) }, { bits := 0x00000000000000070000000000010000000000000000000B#256, rid := 1, level := 2, enq := 0, order := (0, 1) }] }

def sZ : State := with0 id id fun d => { d with clock := 131072, regions := [{ reg with pool := some 0 }] }

/-- The pool of region 1 was set at the last multiple of its period. -/
def sZ1 : State := with0 id id fun d => { d with clock := 131072, regions := [{ reg with pool := some 7, poolAt := 131072 }] }

/-- Context 0 waits since cycle 0 on tag 5, which is not set; the watchdog of its region is one step of 1,024 cycles. -/
def sW10 : State := with0 (fun x => regs [32#64] { x with block := some (.watched, 0), tags := 0#64 })
  (fun k => { k with cycles := 2000, kernels := [placedKernel .s1 (encode (.waitt 1))] })
  fun d => { d with regions := [{ reg with rcb := { hostRcb with wdog := 1 } }] }

/-- The same with tag 5 set. -/
def sW10' : State := modCtx 0 (fun x => { x with tags := 32#64 }) sW10

/-- What a pre-emption of context 0 saves, and the state it saves from. -/
def saved10 (s : State) : State × Ctx :=
  let w := landNow 0 (settle 0 (quietMx 0 (unwait 0 s)))
  let x := getCtx w 0
  let y := { x with mx := x.mxHeld.getD x.mx }
  (w, { y with mx := { y.mx with run := y.mx.run.map fun q => { q with suspended := true } } })

theorem witness_ContextEvents :
    (ActsOn sE10 0 ∧ (getCtx sE10 0).rebase = false ∧ (∀ r ∈ (getArch sE10 0).inflight, known r = true) ∧ (getArch sE10 0).inflight.length = 3) ∧
    ((getCore sE10 (coreOf 0)).issuing = some (0 % 4) ∧ quantumOver (coreOf 0) (0 % 4) sE10 = true) ∧
    (ActsOn (sP false) 0 ∧ (getCtx (sP false) 0).status = .active ∧ waitsTiles (getCtx (sP false) 0) = false ∧ (getCtx (sP false) 0).faults1 = [] ∧ (getCtx (sP false) 0).level = 0 ∧
      (getCtx (sP false) 0).faults = ⟨1#64, 2#64⟩ :: [⟨3#64, 4#64⟩]) ∧
    (ActsOn (sP true) 0 ∧ (getCtx (sP true) 0).status = .active ∧ waitsTiles (getCtx (sP true) 0) = false ∧ (getCtx (sP true) 0).faults1 = ⟨5#64, 6#64⟩ :: []) ∧
    (ActsOn sQ10 0 ∧ (getCtx sQ10 0).status = .idle ∧ lowerReaches sQ10 0 = false ∧ choosePop sQ10 0 = some 1 ∧
      ((getDie sQ10 (dieOf 0)).queue[1]?.map fun q => bit q.bits 224) = some false) ∧
    (∃ g, Acts sZ 0 ∧ region? (getDie sZ 0) 1 = some g ∧ g.runnable = true ∧ g.pool = some 0) :=
  ⟨⟨⟨⟨sized_ctx (sized_with0 _ _ _) 1 _, by decide, by decide, by decide⟩, by decide⟩, by decide, by decide, by decide⟩, by decide +kernel,
    ⟨⟨acts0 _ _ _ (by decide), by decide⟩, by decide⟩, ⟨⟨acts0 _ _ _ (by decide), by decide⟩, by decide⟩,
    ⟨⟨acts0 _ _ _ (by decide), by decide⟩, by decide, by decide +kernel, by decide +kernel, by decide⟩, ⟨_, acts0 _ _ _ (by decide), rfl, rfl, rfl⟩⟩
theorem witness_ContextEvents_preemption : ActsOn sV10 0 ∧ (getCtx sV10 0).status = .active ∧ (getCtx sV10 0).marked = true ∧
      ∃ v, writeParts 0 .ls { r := true, w := true } 0x200000#64 (preemptParts (boundary (saved10 sV10).1 0) (saved10 sV10).2) (saved10 sV10).1 = .ok v :=
  ⟨⟨acts0 _ _ _ (by decide), by decide⟩, by decide, by decide, ex_okE (by decide +kernel)⟩

/-- A context that still waits when it is tried, and one that waits no longer. -/
theorem witness_ContextEvents_watchdog :
    (ActsOn sW10 0 ∧ (getCtx sW10 0).block.isSome = true ∧ ∃ u, attempt 0 sW10 = (false, u) ∧ (getCtx u 0).block = some (.watched, 0) ∧
      effWdog (getDie sW10 (dieOf 0)) (ridOf sW10 0) ≠ 0 ∧
      effWdog (getDie sW10 (dieOf 0)) (ridOf sW10 0) * 1024 < (getCtx u 0).waited + (nowOf u 0 - 0)) ∧
    (ActsOn sW10' 0 ∧ (getCtx sW10' 0).block.isSome = true ∧ (attempt 0 sW10').1 = true) :=
  ⟨⟨⟨acts0 _ _ _ (by decide), by decide⟩, by decide, (attempt 0 sW10).2, Prod.ext (by decide +kernel) rfl, by decide +kernel, by decide, by decide +kernel⟩,
    ⟨⟨sized_ctx (sized_with0 _ _ _) 0 _, by decide, by decide, by decide⟩, by decide⟩, by decide, by decide +kernel⟩

/-- A pool that is due at the first multiple of its period, and one that has been set there. -/
theorem witness_ContextEvents_pool :
    (∃ g, Acts sZ 0 ∧ region? (getDie sZ 0) 1 = some g ∧ g.runnable = true ∧ g.poolSince + 1 * max 1 (effPeriod (getDie sZ 0) 1) ≤ (getDie sZ 0).clock ∧
      g.poolAt < g.poolSince + 1 * max 1 (effPeriod (getDie sZ 0) 1)) ∧
    (∃ g, Acts sZ1 0 ∧ region? (getDie sZ1 0) 1 = some g ∧ g.runnable = true ∧ ∀ m, 0 < m →
      ¬(g.poolSince + m * max 1 (effPeriod (getDie sZ1 0) 1) ≤ (getDie sZ1 0).clock ∧ g.poolAt < g.poolSince + m * max 1 (effPeriod (getDie sZ1 0) 1))) :=
  ⟨⟨_, acts0 _ _ _ (by decide), rfl, rfl, by decide, by decide⟩, _, acts0 _ _ _ (by decide), rfl, rfl, fun _ _ h => absurd (Nat.lt_of_lt_of_le h.2 h.1) (by decide)⟩

/-- Context 0 with accesses in its queues. -/
def sA10 (es : List LsEntry) (bk : List LsEntry) : State := with0 (fun x => { x with lsq := es, bk := bk, arch := { x.arch with inflight := [
  { id := 1, dest := .x 3, due := 20, ready := 0, late := true, val := .pending }] } }) id fun d => { d with mem := cellsOf (0x10000) [0x80#8] }

def eStore : LsEntry := { id := 5, inL := false, inS := true, strong := false, kind := .store, segs := [gD 8], data := bytesOf 8 0x1122334455667788 }
def eLoad : LsEntry := { id := 6, inL := true, inS := false, strong := true, kind := .load, segs := [gD 2], got := [none, none], res := some 1 }
def eBank : LsEntry := { id := 7, inL := true, inS := true, strong := true, kind := .atomic 4 0#64, segs := [gD 4], data := bytesOf 4 0x80000000, res := some 1 }

theorem witness_AccessEvents :
    (ActsOn (sA10 [eStore] []) 0 ∧ MemOk (sA10 [eStore] []) ∧ (getCtx (sA10 [eStore] []) 0).lsq[0]? = some eStore ∧
      mayPerform ((getCtx (sA10 [eStore] []) 0).lsq.take 0) eStore = true ∧
      (∀ g ∈ eStore.segs, keyed (sA10 [eStore] []) 0 g ∧ unawaited (sA10 [eStore] []) 0 g ∧ owned (sA10 [eStore] []) 0 g ∧ ∀ h ∈ eStore.segs, keyTag (sA10 [eStore] []) h.okey = keyTag (sA10 [eStore] []) g.okey) ∧
      eStore.data.length = totalLen eStore.segs) ∧
    (ActsOn (sA10 [eLoad] []) 0 ∧ (getCtx (sA10 [eLoad] []) 0).lsq[0]? = some eLoad ∧ mayPerform ((getCtx (sA10 [eLoad] []) 0).lsq.take 0) eLoad = true ∧
      eLoad.strong = true ∧ eLoad.segs = [gD 2] ∧ keyed (sA10 [eLoad] []) 0 (gD 2) ∧ owned (sA10 [eLoad] []) 0 (gD 2) ∧
      eLoad.got = List.replicate (gD 2).len none ∧ eLoad.ovl = [] ∧ eLoad.bad = none ∧ eLoad.res = some 1 ∧
      (getDie (sA10 [eLoad] []) 0).unseen = [] ∧ (getDie (sA10 [eLoad] []) 0).poison = []) ∧
    (BankReady (sA10 [] [eBank]) 0 4 0#64 eBank (gD 4) ∧ (getCtx (sA10 [] [eBank]) 0).bk = eBank :: []) ∧
    (ActsOn (sA10 [eStore, eBank] []) 0 ∧ (getCtx (sA10 [eStore, eBank] []) 0).lsq.findIdx? (fun e => isAtomic e.kind) = some 1) :=
  ⟨⟨⟨acts0 _ _ _ (by decide), by decide⟩, memOk_of (by decide), by decide, by decide,
      fun g hg => ⟨keyed_none g rfl, unawaited_none g rfl, owned_none (by simp only [eStore, List.mem_singleton] at hg; rw [hg]; decide),
        fun h hh => by simp only [eStore, List.mem_singleton] at hg hh; rw [hg, hh]⟩, by decide⟩,
    ⟨⟨acts0 _ _ _ (by decide), by decide⟩, by decide, by decide, rfl, rfl, keyed_none _ rfl, owned_none (by decide), rfl, rfl, rfl, rfl, by decide, by decide⟩,
    ⟨⟨⟨acts0 _ _ _ (by decide), by decide⟩, memOk_of (by decide), ⟨rfl, by decide⟩, ⟨rfl, by decide⟩, keyed_none _ rfl, unawaited_none _ rfl, by decide, by decide⟩, by decide⟩,
    ⟨acts0 _ _ _ (by decide), by decide⟩, by decide⟩
/-- A store of a word for which an LDF waits; a load of two places, of which the second lies in basin-direct storage of region 2. -/
def eFill : LsEntry := { id := 8, inL := false, inS := true, strong := false, kind := .store, segs := [gS 4], data := bytesOf 4 0x11223344 }
def waits10 (k : WaitKind) (v : Nat := 0) : BankWait := { seg := gS 4, top := 1, ctx := 3, level := 0, kind := k, val := v }
def sL10 : State := with0 (fun x => { x with lsq := [eFill] }) id fun d => { d with waiters := [waits10 .ldf] }
def gB : Seg := { pa := directBase + 64, len := 4, va := 0x30040, okey := 1 }
def eLost : LsEntry := { eLoad with segs := [gD 4, gB], got := List.replicate 8 none }
def sB10 : State := with0 (fun x => { x with lsq := [eLost] }) id fun d => { d with slices := [{ direct := 2, owner := 2, drain := none }] }

theorem witness_AccessEvents_served :
    (ActsOn sL10 0 ∧ MemOk sL10 ∧ (getCtx sL10 0).lsq[0]? = some eFill ∧ mayPerform ((getCtx sL10 0).lsq.take 0) eFill = true ∧ eFill.segs = [gS 4] ∧
      eFill.data.length = 4 ∧ (gS 4).pa % 4 = 0 ∧ isScratch (gS 4).pa = true ∧ (getDie sL10 (dieOf 0)).poison = [] ∧
      (getDie sL10 (dieOf 0)).waiters = [waits10 .ldf] ∧ (waits10 .ldf).seg.pa = (gS 4).pa ∧ (waits10 .ldf).done = none) ∧
    (ActsOn sB10 0 ∧ (getCtx sB10 0).lsq[0]? = some eLost ∧ mayPerform ((getCtx sB10 0).lsq.take 0) eLost = true ∧ eLost.kind = .load ∧ eLost.level = 0 ∧
      eLost.segs = [gD 4] ++ gB :: [] ∧ (∀ h ∈ [gD 4], owned sB10 (dieOf 0) h) ∧ isDirect gB.pa = true ∧ bankOk sB10 (dieOf 0) gB = false) :=
  ⟨⟨⟨acts0 _ _ _ (by decide), by decide⟩, memOk_of (by decide), rfl, by decide, rfl, by decide, by decide, by decide, rfl, rfl, rfl, rfl⟩,
    ⟨acts0 _ _ _ (by decide), by decide⟩, rfl, by decide, rfl, rfl, rfl,
    fun h hh => owned_none (by simp only [List.mem_singleton] at hh; rw [hh]; decide), by decide, by decide⟩
/-- The descriptor of a BKTSET arrives: valid, or with capacities that do not rise. -/
def sK10 (lo : Nat) : State := with0 fun x => { x with bkt := [(3, 0x20040#64, bytesOf 64 (lo + 16 * 2 ^ 32 + 9 * 2 ^ 64 + 5 * 2 ^ 96), false)] }

theorem witness_AccessEvents_tables : (ActsOn (sK10 8) 0 ∧ bucketsValid (bucketsOf (bytesOf 64 (8 + 16 * 2 ^ 32 + 9 * 2 ^ 64 + 5 * 2 ^ 96))) = true) ∧
    (ActsOn (sK10 9) 0 ∧ bucketsValid (bucketsOf (bytesOf 64 (9 + 16 * 2 ^ 32 + 9 * 2 ^ 64 + 5 * 2 ^ 96))) = false ∧ (getCtx (sK10 9) 0).level = 0) :=
  ⟨⟨⟨acts0 _ _ _ (by decide), by decide⟩, by decide⟩, ⟨acts0 _ _ _ (by decide), by decide⟩, by decide, by decide⟩

/-! Events of the copy unit and the basin -/

/-- A stream of one run of a number of bytes. -/
def runD (base : Word) (n : Nat) : Desc := { base := base, run := n, rb := false, ring := 0, dims := List.replicate 6 (0, 1) }

/-- A copy of 64 bytes from DRAM to the scratchpad. -/
def cp0 : Copy := { id := 1, ctx := 0, kind := 0, tag := 63, level := 0, dst := runD 0x2FFC0#64 64, src := runD 0x10000#64 64, sleaf := some (pg 0), dpages := [pg 1] }

/-- A copy to a ring that has landed whole but for its slot. -/
def cpR (slots : List (Nat × Nat)) : Copy := { cp0 with pos := 64, dst := { cp0.dst with rb := true, ring := 31 }, slots := slots }

/-- A multicast of two words to the scratchpads of cores 0 and 63, before its first piece and with its stream at its end. -/
def cpM : Copy := { cp0 with kind := 1, mask := 0x8000000000000001#64, dst := runD 0x20040#64 8, src := runD 0x10000#64 8 }
def cpN : Copy := { cpM with pos := 8, bytes := [1#8, 2#8, 3#8, 4#8] }

/-- The first words at both receivers are empty. -/
def empty2 (d : Die) : Die := { d with empties := [scratchBase + 64, scratchBase + 63 * 2097152 + 64] }

def sX11 (m : Copy) (f : Die → Die) : State := with0 id (fun k => { k with copies := [m], rings := List.replicate 31 {} ++ [{ base := 0x20000#64, size := 64, n := 4, claim := 1, wptr := 0xFFFFFFFF, rptr := 0xFFFFFFFF }] }) fun d => f { d with
  mem := cellsOf 0x10000 (bytesOf 64 0x0123456789) }

theorem copyOf_of {s : State} {m : Copy} (h : (decide (dieOf m.ctx < 4) && !(getDie s (dieOf m.ctx)).inReset && !(getDie s (dieOf m.ctx)).tripped && decide (m.ctx < 1024) &&
    decide (coreOf m.ctx = 0) && decide ((getCore s 0).copies[0]? = some m) && decide (savedArea s m.ctx m.level = none) && decide (m.tag < 64)) = true) (hs : Sized s) : CopyOf s 0 0 m := by
  simp only [Bool.and_eq_true, decide_eq_true_eq, Bool.not_eq_true'] at h
  obtain ⟨⟨⟨⟨⟨⟨⟨h1, h2⟩, h3⟩, h4⟩, h5⟩, h6⟩, h7⟩, h8⟩ := h
  exact ⟨⟨⟨hs, h1, h2, h3⟩, h4⟩, h5.symm, h6, h7, h8⟩

theorem witness_CopyEvents_pieces :
    CopyOf (sX11 cp0 id) 0 0 cp0 ∧ MemOk (sX11 cp0 id) ∧ cp0.sleaf = some (pg 0) ∧ cp0.dpages = [pg 1] ∧ cp0.landed = false ∧ cp0.pos + 64 ≤ descLen cp0.src ∧
      64 ≤ runLeft cp0.src cp0.pos ∧ 64 ≤ runLeft cp0.dst cp0.pos ∧ (pg 0).vbase ≤ (streamAddr cp0.src cp0.pos).toNat ∧
      (streamAddr cp0.src cp0.pos).toNat + 64 ≤ (pg 0).vbase + (pg 0).size ∧ (pg 1).vbase ≤ (streamAddr cp0.dst cp0.pos).toNat ∧
      (streamAddr cp0.dst cp0.pos).toNat + 64 = (pg 1).vbase + (pg 1).size ∧ calmDie (sX11 cp0 id) (0 / 64) ∧
      (∀ g, keyed (sX11 cp0 id) (0 / 64) g ∧ unawaited (sX11 cp0 id) (0 / 64) g) ∧ (61 + 3) / 4 * 4 = 64 :=
  ⟨copyOf_of (by decide) (sized_with0 _ _ _), memOk_of (by decide), rfl, rfl, rfl, by decide, by decide, by decide, by decide, by decide, by decide, by decide,
    by unfold calmDie; decide, fun g => ⟨keyed_none g rfl, unawaited_none g rfl⟩, rfl⟩

theorem cast_of {s : State} {m : Copy} (h : CopyOf s 0 0 m) (hm : (s.dies.all fun d => Memory.wf d.mem) = true)
    (hr : m.kind = 1 ∧ m.dst.rb = false ∧ m.suspended = false ∧ m.ending = none ∧ m.landed = false ∧ m.dpages = [pg 1]) : Cast s 0 0 m (pg 1) :=
  ⟨h, memOk_of hm, ⟨hr.1, hr.2.1⟩, ⟨hr.2.2.1, hr.2.2.2.1, hr.2.2.2.2.1⟩, hr.2.2.2.2.2⟩

theorem witness_CopyEvents_multicast :
    (∀ f ∈ [id, empty2], Cast (sX11 cpM f) 0 0 cpM (pg 1) ∧ calmDie (sX11 cpM f) (0 / 64) ∧ ∀ g, keyed (sX11 cpM f) (0 / 64) g ∧ unawaited (sX11 cpM f) (0 / 64) g) ∧
    (cpM.sleaf = some (pg 0) ∧ cpM.pos + 8 = descLen cpM.src ∧ 8 ≤ runLeft cpM.src cpM.pos ∧ 8 ≤ runLeft cpM.dst cpM.pos ∧
      (pg 0).vbase ≤ (streamAddr cpM.src cpM.pos).toNat ∧ (streamAddr cpM.src cpM.pos).toNat + 8 ≤ (pg 0).vbase + (pg 0).size ∧
      (pg 1).vbase ≤ (streamAddr cpM.dst cpM.pos).toNat ∧ (streamAddr cpM.dst cpM.pos).toNat + 8 ≤ (pg 1).vbase + (pg 1).size ∧
      castAt (pg 1) (streamAddr cpM.dst cpM.pos).toNat 0 + 8 ≤ castAt (pg 1) (streamAddr cpM.dst cpM.pos).toNat 0 / 2097152 * 2097152 + 2097152) ∧
    (∀ r ∈ receivers (0 / 64) cpM.mask, isFull (getDie (sX11 cpM empty2) 0) (castAt (pg 1) (streamAddr cpM.dst cpM.pos).toNat r) = false) ∧
    (cpM.pos = 0 ∧ (∃ r ∈ receivers (0 / 64) cpM.mask, isFull (getDie (sX11 cpM id) 0) (castAt (pg 1) (streamAddr cpM.dst cpM.pos).toNat r) = true) ∧
      cpM.level = 0 ∧ (getCtx (sX11 cpM id) cpM.ctx).faults.length < 8) ∧
    (Cast (sX11 cpN empty2) 0 0 cpN (pg 1) ∧ descLen cpN.src ≤ cpN.pos ∧ cpN.bytes.length = 4 ∧ castAt (pg 1) (streamAddr cpN.dst 0).toNat 0 % 4 = 0 ∧
      ∀ g, unawaited (sX11 cpN empty2) (0 / 64) g) := by
  refine ⟨fun f hf => ?_, by decide, by decide, ⟨rfl, by decide, rfl, by decide⟩,
    cast_of (copyOf_of (by decide) (sized_with0 _ _ _)) (by decide) (by decide), by decide, by decide, by decide, fun g => unawaited_none g rfl⟩
  simp only [List.mem_cons, List.not_mem_nil, or_false] at hf
  obtain rfl | rfl := hf
  · exact ⟨cast_of (copyOf_of (by decide) (sized_with0 _ _ _)) (by decide) (by decide), by unfold calmDie; decide, fun g => ⟨keyed_none g rfl, unawaited_none g rfl⟩⟩
  · exact ⟨cast_of (copyOf_of (by decide) (sized_with0 _ _ _)) (by decide) (by decide), by unfold calmDie; decide, fun g => ⟨keyed_none g rfl, unawaited_none g rfl⟩⟩

/-- A window of one line of DRAM that slice 63 takes, and a slice whose drain ends now. -/
def sW11 : State := with0 (fun x => { x with pins := List.replicate 7 {} ++ [{ isOpen := true, start := 0x10000#64, len := 128#64, mask := 0x8000000000000000#64 }] }) id fun d => { d with
  clock := 100, slices := List.replicate 62 {} ++ [{ direct := 2, drain := some (8, 100) }, {}], mem := cellsOf (directBase + 62 * 2097152 + 262144) [1#8] ++ cellsOf (directBase + 62 * 2097152 + 524288) [1#8] }

theorem witness_CopyEvents :
    (CopyOf (sX11 { cp0 with pos := 64 } id) 0 0 { cp0 with pos := 64 } ∧ descLen cp0.src ≤ 64) ∧
    (CopyOf (sX11 (cpR [(0, 0xFFFFFFFF)]) id) 0 0 (cpR [(0, 0xFFFFFFFF)]) ∧ (getCore (sX11 (cpR [(0, 0xFFFFFFFF)]) id) 0).rings[31]? =
      some { base := 0x20000#64, size := 64, n := 4, claim := 1, wptr := 0xFFFFFFFF, rptr := 0xFFFFFFFF }) ∧
    (CopyOf (sX11 (cpR []) id) 0 0 (cpR []) ∧ (1 + 2 ^ 32 - 0xFFFFFFFF) % 2 ^ 32 < 4) ∧
    CopyOf (sX11 { cp0 with kind := 3 } id) 0 0 { cp0 with kind := 3 } ∧
    (∃ p e u, ActsOn sW11 0 ∧ (getCtx sW11 0).pins[7]? = some p ∧ p.isOpen = true ∧ 128 * p.next < p.len.toNat ∧ slicesOf p.mask = [63] ∧
      visit (tlbOf 0) (dieOf 0) (domOf sW11 0) none {} (p.start + BitVec.ofNat 64 (128 * p.next)).toNat
        (modCtx 0 (fun x => { x with pins := x.pins.set 7 { p with next := p.next + 1 } }) sW11) = (.ok e, u) ∧ leafKind e.leaf = 0 ∧
      windowsOf u (dieOf 0) (placeOf e (p.start + BitVec.ofNat 64 (128 * p.next)).toNat / 128) = [] ∧
      ((getDie u (dieOf 0)).basin.filter fun b => b.slice == 63).length < cacheLines ((getDie u (dieOf 0)).slices.getD 63 {})) ∧
    (Acts sW11 0 ∧ MemOk sW11 ∧ (getDie sW11 0).slices.length = 64 ∧ (getDie sW11 0).slices[62]? = some { direct := 2, drain := some (8, 100) } ∧ (getDie sW11 0).clock = 100) :=
  ⟨⟨copyOf_of (by decide) (sized_with0 _ _ _), by decide⟩, ⟨copyOf_of (by decide) (sized_with0 _ _ _), by decide⟩,
    ⟨copyOf_of (by decide) (sized_with0 _ _ _), by decide⟩,
    copyOf_of (by decide) (sized_with0 _ _ _),
    ⟨_, pg 0, _, ⟨⟨sized_with0 _ _ _, by decide, ⟨by decide, by decide⟩⟩, by decide⟩, rfl, rfl, by decide, by decide, ok_of (by decide), by decide, by decide, by decide⟩,
    ⟨sized_with0 _ _ _, by decide, ⟨by decide, by decide⟩⟩, memOk_of (by decide), by decide, by decide, by decide⟩

/-! Events of the matrix engine and of the Eddy engine -/

/-- Context 0 waits for 16 tiles and 8 queues, at its bundle or as a restored record; the core has them, or one tile less. -/
def sGr (b : Bool) (n : Nat) : State := with0 (fun x => { x with wantMx := some (16, 8), block := if b then some (.watched, 0) else none }) fun k => { k with mxWait := [0], freeTiles := n }

/-- Context 3 has a command; context 0 has one that is suspended. -/
def sSt : State := modCtx 3 (fun _ => { ctx0 with mx := { alloc := true, tiles := [[]], cmds := [{ instr := .mzero 0#4 0#4 }] } })
  (with0 fun x => { x with mx := { alloc := true, tiles := [[]], cmds := [{ instr := .mzero 0#4 0#4 }], run := some { suspended := true } } })

/-- An MLOAD of 64 lines from an address. -/
def mld (a : Word) : MxCmd := { instr := .mload 15#4 2#6, xa0 := a, xa1 := 0x0040000000000100#64 }

/-- Context 0 runs a command on the engine of core 0. -/
def sRun (m : MxCmd) (r : MxRun) : State := with0 (fun x => { x with mx := { alloc := true, tiles := List.replicate 16 (List.replicate 4096 0x3F800001#32), queues := [[], [{ fmt := .bf16, elems := [], ready := false }]], pops := [0, 0], cmds := [m], run := some r } }) fun k => { k with mxBusy := some 0 }

theorem run_of (m : MxCmd) (r : MxRun) : MatrixRun (sRun m r) 0 0 m [] r :=
  ⟨⟨⟨sized_with0 _ _ _, by decide, ⟨by rfl, by rfl⟩⟩, by decide⟩, by decide, by rfl, by rfl, by rfl, by rfl, ⟨by rfl, by
    rw [show (getCtx (sRun m r) 0).mx.pops = [0, 0] from by rfl]; decide⟩, by rfl⟩

theorem witness_MatrixEvents :
    (∀ b, ActsOn (sGr b 16) 0 ∧ (getCore (sGr b 16) (coreOf 0)).mxWait = [0] ∧ (getCtx (sGr b 16) 0).wantMx = some (16, 8) ∧ (getCtx (sGr b 16) 0).granted = false ∧
      16 ≤ (getCore (sGr b 16) (coreOf 0)).freeTiles + (ownMx (getCtx (sGr b 16) 0)).1 ∧ 8 ≤ (getCore (sGr b 16) (coreOf 0)).freeQueues + (ownMx (getCtx (sGr b 16) 0)).2 ∧
      (getCtx (sGr b 16) 0).block.isSome = b) ∧
    (ActsOn (sGr true 15) 0 ∧ ¬16 ≤ (getCore (sGr true 15) (coreOf 0)).freeTiles + (ownMx (getCtx (sGr true 15) 0)).1) ∧
    (Acts sSt (0 / 64) ∧ (getCore sSt 0).mxBusy = none ∧ (getCore sSt 0).mxLast = 3 ∧ (getCtx sSt 3).mx.cmds = [{ instr := .mzero 0#4 0#4 }] ∧ (getCtx sSt 3).mx.run = none ∧
      (getCtx sSt 0).mx.run = some { suspended := true } ∧ (getCtx sSt 1).mx.cmds = [] ∧ (getCtx sSt 2).mx.cmds = []) ∧
    (∃ r : MxRun, MatrixRun (sRun (mld 0x10000#64) r) 0 0 (mld 0x10000#64) [] r ∧ r.finished = false ∧ r.suspended = false ∧ r.aLines.length + 1 < (lineNeed (mld 0x10000#64)).1 ∧
      ∃ ln u, fetchLine 0 (mld 0x10000#64) none false r.kstep r.aLines.length (sRun (mld 0x10000#64) r) = (.ok ln, u) ∧ True) ∧
    (∃ r : MxRun, MatrixRun (sRun (mld 0x900000#64) r) 0 0 (mld 0x900000#64) [] r ∧ r.aLines.length < (lineNeed (mld 0x900000#64)).1 ∧
      (∃ u, fetchLine 0 (mld 0x900000#64) none false r.kstep r.aLines.length (sRun (mld 0x900000#64) r) = (.error (0x04, 0x903F00), u)) ∧ takesFault (sRun (mld 0x900000#64) r) 0 (mxLevel (getCtx (sRun (mld 0x900000#64) r) 0))) ∧
    (∃ r : MxRun, MatrixRun (sRun (mld 0x10000#64) r) 0 0 (mld 0x10000#64) [] r ∧ r.finished = false ∧ r.suspended = false ∧ (lineNeed (mld 0x10000#64)).1 = r.aLines.length ∧ (lineNeed (mld 0x10000#64)).2.1 ≤ r.bLines.length) ∧
    (∃ m r, MatrixRun (sRun m r) 0 0 m [] r ∧ r.finished = true ∧ m.instr = .mzero 15#4 0#4 ∧ ∀ f b q td, m.instr ≠ .mdrain f b q td) ∧
    (∃ m r, MatrixRun (sRun m r) 0 0 m [] r ∧ r.finished = true ∧ m.instr = .mdrain .bf16 true 1#3 15#4 ∧ (∃ tile, (getCtx (sRun m r) 0).mx.tiles[15]? = some tile) ∧
      (getCtx (sRun m r) 0).mx.queues[1]? = some ([] ++ { fmt := .bf16, elems := [], ready := false } :: [])) :=
  ⟨fun b => ⟨⟨acts0 _ _ _ (by cases b <;> decide), by cases b <;> decide⟩, by cases b <;> decide⟩, ⟨⟨acts0 _ _ _ (by decide), by decide⟩, by decide⟩,
    ⟨⟨sized_ctx (sized_with0 _ _ _) 3 _, by decide, ⟨by rfl, by rfl⟩⟩, by decide, by decide, by decide, by decide, by decide, by decide, by decide⟩,
    ⟨{ aLines := List.replicate 62 {} }, run_of _ _, rfl, rfl, by decide, ex_ok (by decide)⟩,
    ⟨{ aLines := List.replicate 63 {} }, run_of _ _, by decide, ex_err (by decide), by unfold takesFault; decide⟩,
    ⟨{ aLines := List.replicate 64 {} }, run_of _ _, rfl, rfl, by decide, by decide⟩,
    ⟨{ instr := .mzero 15#4 0#4 }, { finished := true }, run_of _ _, rfl, rfl, fun _ _ _ _ h => by cases h⟩,
    ⟨{ instr := .mdrain .bf16 true 1#3 15#4 }, { finished := true, flags := 1#8 }, run_of _ _, rfl, rfl, ⟨_, rfl⟩, rfl⟩⟩

/-- A descriptor of two qubits, one local, one of the die, with its array at 0x1_0000. -/
def svN : Nat := 0x10000 + 2 * 2 ^ 64 + 2 ^ 72 + 2 ^ 80 + 256 * 2 ^ 160

def eddyM (i : Instr) (c : Nat) : EddyCmd := { id := 1, ctx := c, top := 1, tag := 63, level := 0, instr := i, xa := 0x20040#64, xb := 1#64, xc := 0#64 }

def gA : Seg := { pa := 0x10000, len := 16, va := 0x10000, okey := 1 }

/-- A command whose exchange of bits 0 and 1 has agreed. -/
def eddyX (c serial : Nat) (shaken : Bool) : EddyCmd := { eddyM (.svmap 1#6 2#6 63#6) c with
  started := true, desc := svN, segs := [gA], map := [0, 1], serial := serial, swaps := [(0, 1)], shaken := shaken }

/-- A command that has finished. -/
def eddyF : EddyCmd := { eddyX 0 7 true with finished := true, flags := 1#8, swaps := [], map := (List.range 42).reverse, dsegs := [{ pa := scratchBase + 64, len := 64, va := 0x20040, okey := 1 }] }

/-- The group of ranks 0 and 1 on dies 0 and 1, each with its array and a command. -/
def dieE (self : Nat) (m : List EddyCmd) (d : Die) : Die := { d with
  inReset := false, tlb := pages, eddy := m, mem := cellsOf 0x10000 (bytesOf 16 (0x0101010101010101 * (self + 1) + 0xA0A0A0A0A0A0A0A0 * 2 ^ 64)) ++ cellsOf (scratchBase + 64) (bytesOf 64 svN)
  regions := [{ reg with groups := [{ gid := 0, gen := 1, valid := true, self := self, ranks := [0, 1] }], routes := [0x800000000200#64, 0x800000010200#64] }] }
def sSV (m o : List EddyCmd) : State := modDie 1 (dieE 1 o) (with0 id id (dieE 0 m))

/-- The command of die 0 waits for an exchange of bits 0 and 1 with handshakes and halves that have arrived. -/
def sSX (shaken : Bool) (hs : List Shake) (bs : List (Shake × List Byte)) : State :=
  modDie 0 (fun d => { d with shakes := hs, halves := bs }) (sSV [eddyX 0 7 shaken] [])

/-- The handshake that the partner of its exchange sends. -/
def mate : Shake := { top := 1, src := 1, gid := 0, serial := 7, b := 0, g := 1 }

theorem actsE (m o : List EddyCmd) (d : Nat) (h : d < 2) : Acts (sSV m o) d := by
  refine ⟨sized_die (sized_with0 _ _ _) 1 _, by omega, ?_⟩
  match d, h with
  | 0, _ => exact ⟨by rfl, by rfl⟩
  | 1, _ => exact ⟨by rfl, by rfl⟩

theorem runs0 (m : EddyCmd) (o : List EddyCmd) (h : m.ctx = 0 ∧ m.started = true ∧ m.suspended = false ∧ m.level = 0 ∧ m.tag < 64) : EddyRuns (sSV [m] o) 0 0 m :=
  ⟨actsE _ _ 0 (by decide), by rw [h.1]; decide, by rfl, ⟨h.2.1, h.2.2.1⟩, fun j hj => absurd hj (Nat.not_lt_zero j), by rw [h.1, h.2.2.2.1]; rfl, h.2.2.2.2⟩

theorem exch0 (shaken : Bool) (hs : List Shake) (bs : List (Shake × List Byte)) : Exchanges (sSX shaken hs bs) 0 0 (eddyX 0 7 shaken) 0 1 [] :=
  ⟨⟨⟨sized_die (sized_die (sized_with0 _ _ _) 1 _) 0 _, by decide, ⟨rfl, rfl⟩⟩, ⟨by cases shaken <;> decide, by cases shaken <;> decide⟩, rfl, ⟨rfl, rfl⟩, fun j hj => absurd hj (Nat.not_lt_zero j), rfl, by cases shaken <;> decide⟩,
    rfl, rfl, by cases shaken <;> decide⟩

/-- The array of the partner. -/
def theirs : List Byte := bytesOf 16 (0x0202020202020202 + 0xA0A0A0A0A0A0A0A0 * 2 ^ 64)

theorem witness_EddyEvents :
    (Acts (sSV [{ eddyM (.svinit 1#6 2#6 63#6) 0 with xa := 0x900000#64 }] []) 0 ∧
      (∃ u, svRead 0 { r := true, w := true } 0x900000 64 (sSV [{ eddyM (.svinit 1#6 2#6 63#6) 0 with xa := 0x900000#64 }] []) = (.error (0x04, 0x900000), u)) ∧
      takesFault (sSV [{ eddyM (.svinit 1#6 2#6 63#6) 0 with xa := 0x900000#64 }] []) 0 0) ∧
    (Acts (sSV [eddyM (.svinit 1#6 2#6 63#6) 0] []) 0 ∧ MemOk (sSV [eddyM (.svinit 1#6 2#6 63#6) 0] []) ∧
      (∃ r u, svRead 0 { r := true, w := true } 0x20040 64 (sSV [eddyM (.svinit 1#6 2#6 63#6) 0] []) = (.ok r, u) ∧ (natOf r.1 = svN ∧
        descValid (getDie u 0) 1 false svN = true ∧
        okIs (checkAccess 0 { w := true, fmt := fun f => f == 0 || f == 7 } (BitVec.ofNat 64 (svBase svN)) (8 * 2 ^ svLB svN) u).1 [gA] = true ∧
        (group? (getDie (checkAccess 0 { w := true, fmt := fun f => f == 0 || f == 7 } (BitVec.ofNat 64 (svBase svN)) (8 * 2 ^ svLB svN) u).2 0) 1 (svGroup svN)).isSome = true)) ∧
      1 < 2 ^ svNQ svN ∧ keyed (sSV [eddyM (.svinit 1#6 2#6 63#6) 0] []) 0 gA ∧ unawaited (sSV [eddyM (.svinit 1#6 2#6 63#6) 0] []) 0 gA ∧ gA.len = 8 * 2 ^ svLB svN) ∧
    (Exchanges (sSX true [] []) 0 0 (eddyX 0 7 true) 0 1 [] ∧ Exchanges (sSX false [] []) 0 0 (eddyX 0 7 false) 0 1 []) ∧
    (mateShake (sSX false [mate] []) 0 (eddyX 0 7 false) 0 1 = mate ∧ fromMate (sSX false [mate] []) 0 (eddyX 0 7 false) 1 mate ∧
      fromMate (sSX false [{ mate with serial := 8 }] []) 0 (eddyX 0 7 false) 1 { mate with serial := 8 } ∧ { mate with serial := 8 } ≠ mate ∧
      (eddyX 0 7 false).begun = false ∧ takesFault (sSX false [{ mate with serial := 8 }] []) 0 0 ∧
      group? (getDie (sSX false [mate] []) 0) 1 (svGroup svN) = some { gid := 0, gen := 1, valid := true, self := 0, ranks := [0, 1] } ∧
      arrayAt (sSX false [mate] []) 0 (eddyX 0 7 false) gA) ∧
    (Exchanges (sSX true [] [(mate, halfWith 0 false (ampsOf theirs))]) 0 0 (eddyX 0 7 true) 0 1 [] ∧ MemOk (sSX true [] [(mate, halfWith 0 false (ampsOf theirs))]) ∧
      mateShake (sSX true [] [(mate, halfWith 0 false (ampsOf theirs))]) 0 (eddyX 0 7 true) 0 1 = mate ∧ theirs.length = gA.len ∧ 0 < svLB svN ∧
      group? (getDie (sSX true [] [(mate, halfWith 0 false (ampsOf theirs))]) 0) 1 (svGroup svN) = some { gid := 0, gen := 1, valid := true, self := 0, ranks := [0, 1] } ∧
      (0 : Nat).testBit (1 - svLB svN) = false ∧ arrayAt (sSX true [] [(mate, halfWith 0 false (ampsOf theirs))]) 0 (eddyX 0 7 true) gA) ∧
    (EddyRuns (sSV [eddyX 0 7 true] []) 0 0 (eddyX 0 7 true) ∧ svLB svN = 1 ∧ takesFault (sSV [eddyX 0 7 true] []) 0 0) ∧
    (EddyRuns (sSV [eddyF] []) 0 0 eddyF ∧ MemOk (sSV [eddyF] []) ∧ eddyF.map.length = 42 ∧ (∀ g, keyed (sSV [eddyF] []) 0 g ∧ unawaited (sSV [eddyF] []) 0 g)) :=
  ⟨⟨actsE _ _ 0 (by decide), ex_err (by decide), by unfold takesFault; decide⟩,
    ⟨actsE _ _ 0 (by decide), memOk_of (by decide), ex_ok (by decide +kernel), by decide, keyed_none _ rfl, unawaited_none _ rfl, by decide⟩,
    ⟨exch0 _ _ _, exch0 _ _ _⟩,
    ⟨rfl, ⟨rfl, rfl⟩, ⟨rfl, rfl⟩, by decide, rfl, by unfold takesFault; decide, rfl, ⟨rfl, by decide, keyed_none _ rfl, unawaited_none _ rfl, by unfold calmDie; decide⟩⟩,
    ⟨exch0 _ _ _, memOk_of (by decide +kernel), rfl, by decide, by decide, rfl, by decide, ⟨rfl, by decide, keyed_none _ rfl, unawaited_none _ rfl, by unfold calmDie; decide⟩⟩,
    ⟨runs0 _ _ ⟨rfl, rfl, rfl, rfl, by decide⟩, by decide, by unfold takesFault; decide⟩,
    ⟨runs0 _ _ ⟨rfl, rfl, rfl, rfl, by decide⟩, memOk_of (by decide), by decide, fun g => ⟨keyed_none g rfl, unawaited_none g rfl⟩⟩⟩

/-! Events of the group operations -/

/-- A collective of group 0 of tag 63. -/
def collQ (started : Bool) : Coll := {
  id := 5, ctx := 0, top := 1, rid := 1, tag := some 63, level := 0, gid := 0, gen := 1, seq := 0xFFFFFFFF, sig := .coll 6 0xFF 1 0, self := 0
  desc := 0x20040#64, plan := 0x20040#64, sbuf := 0#64, rbuf := 0x10000#64, oper := 0xFF, started := started, expect := 3, count := 1, heard := [(1, 0, 0)] }

/-- Rank 0 on this die, rank 1 in another package. -/
def sC0 (f : Die → Die) : State := with0 id id fun d => f { d with
  mem := cellsOf (scratchBase + 64) (bytesOf 64 (2 ^ 32 + 8 * 2 ^ 64 + 7 * 2 ^ 72) ++ bytesOf 32 (2 ^ 96 + 4 * 2 ^ 224))
  regions := [{ reg with routes := [0x800100000200#64, 0x800107000000#64] }] }
def sCo (q : Coll) : State := sC0 fun d => { d with colls := [q] }

/-- A package whose die 0 has a group message to take. -/
def msgd (m : GMsg) (s : State) : State := { s with msgs := [(0, m)] }

theorem acts_msgd {m : GMsg} {s : State} {d : Nat} (h : Acts s d) : Acts (msgd m s) d := ⟨sized_same h.1 rfl rfl rfl rfl, h.2.1, h.2.2⟩

theorem one_of {α : Type} {a : α} {P : Nat → α → Prop} (h : P 0 a) : ∀ (j : Nat) (r : α), [a][j]? = some r → P j r := by
  intro j r hj
  cases j with
  | zero => cases hj; exact h
  | succ j => simp at hj

theorem actsC (f : Die → Die) (h : (getDie (sC0 f) 0).inReset = false ∧ (getDie (sC0 f) 0).tripped = false) : Acts (sC0 f) 0 := acts0 _ _ _ h

theorem collAt_of {q : Coll} (h : q.ended = false ∧ q.ctx = 0 ∧ q.tag = some 63 ∧ q.level = 0) : CollAt (sCo q) 0 0 q 63 :=
  ⟨actsC _ ⟨by rfl, by rfl⟩, by rfl, one_of fun _ => rfl, h.1, by rw [h.2.1]; decide, by rw [h.2.1, h.2.2.2]; rfl, ⟨h.2.2.1, by decide⟩,
    by rw [h.2.1, h.2.2.2]; exact ⟨rfl, Nat.zero_lt_succ 7⟩⟩

theorem collAt_msgd {q : Coll} (m : GMsg) (h : q.ended = false ∧ q.ctx = 0 ∧ q.tag = some 63 ∧ q.level = 0) : CollAt (msgd m (sCo q)) 0 0 q 63 :=
  ⟨acts_msgd (actsC _ ⟨by rfl, by rfl⟩), by rfl, one_of fun _ => rfl, h.1, by rw [h.2.1]; decide, by rw [h.2.1, h.2.2.2]; rfl, ⟨h.2.2.1, by decide⟩,
    by rw [h.2.1, h.2.2.2]; exact ⟨rfl, Nat.zero_lt_succ 7⟩⟩

/-- A message of member 1 under the number of the collective. -/
def msgQ (b : GBody) : GMsg := { dst := 0, src := 1, top := 1, gid := 0, gen := 1, seq := 0xFFFFFFFF, mem := 1, sig := .coll 6 0xFF 1 0, body := b }

/-- An abort of the next generation. -/
def newer : GMsg := { msgQ (.abort 0x10 1) with gen := 2 }

/-- A barrier of tag 63 that one member has reached. -/
def barrQ : Barrier := { ctx := 0, top := 1, tag := 63, level := 0, gid := 0, gen := 1, seq := 0, ls := [5], arrived := [0], self := 0 }
def msgB (mem : Nat) : GMsg := { dst := 0, src := 1, top := 1, gid := 0, gen := 1, seq := 0, mem := mem, sig := .barr, body := .barr }
def sBa : State := sC0 fun d => { d with barriers := [barrQ] }

theorem barrAt_of (mem : Nat) : BarrAt (msgd (msgB mem) sBa) 0 0 barrQ (msgB mem) :=
  ⟨acts_msgd (actsC _ ⟨by rfl, by rfl⟩), by rfl, one_of fun _ => rfl, fun q h => absurd ((show (getDie sBa 0).colls = [] from by rfl) ▸ h) (List.not_mem_nil),
    ⟨rfl, rfl, rfl, rfl, rfl, rfl, .head _⟩, rfl, by decide, by rfl, by decide⟩

theorem rounds_none (f : Die → Die) (c : Nat) : (getCtx (sC0 f) c).round = none := by
  have h : ∀ x ∈ ctx0 :: List.replicate 1023 Ctx.init, x.round = none := by
    intro x hx
    rcases List.mem_cons.mp hx with rfl | hx
    · rfl
    · rw [List.eq_of_mem_replicate hx]; rfl
  unfold getCtx
  split
  · have hs : (sC0 f).ctxs = ctx0 :: List.replicate 1023 Ctx.init := by rfl
    rw [hs, List.getD_eq_getElem?_getD]
    cases hx : (ctx0 :: List.replicate 1023 Ctx.init)[c]? with
    | none => rfl
    | some x => exact h x (List.mem_of_getElem? hx)
  · rfl

theorem witness_CollectiveEvents :
    (0, msgQ .barr) ∉ (sC0 id).msgs ∧
    (0 < (sC0 id).dies.length ∧ (∀ i < 2, i ∈ List.range 2) ∧ [0, 1].getD 0 0 = progRank (getDie (sC0 id) 0) 1 ∧ [0, 1].getD 1 0 ≠ progRank (getDie (sC0 id) 0) 1) ∧
    (CollAt (sCo (collQ true)) 0 0 (collQ true) 63 ∧ (collQ true).started = true ∧ (collQ true).count < (collQ true).expect) ∧
    (CollAt (sCo { collQ true with expect := 1 }) 0 0 { collQ true with expect := 1 } 63 ∧ ¬(collQ true).count < 1 ∧ (collQ true).entries = []) ∧
    (CollAt (sCo (collQ false)) 0 0 (collQ false) 63 ∧ fencePassed (sCo (collQ false)) 0 (collQ false).after = true ∧ (collQ false).plan.toNat % 64 = 0 ∧
      (collQ false).notices = [] ∧ (collQ false).heldSteps = [] ∧
      ∃ g hd u, group? (getDie (sCo (collQ false)) 0) 1 0 = some g ∧ readFb 0 1 { r := true } (collQ false).plan 64 (sCo (collQ false)) = (.ok hd, u) ∧
        (headOk (natOf hd) = true ∧ nbits (natOf hd) 32 13 = 1 ∧
          (match (readFb 0 1 { r := true } ((collQ false).plan + 64#64) 32 u).1 with | .ok bs => entryOk (collQ false).oper 2 (entryBits bs 0) | .error _ => false) = true)) ∧
    (CollAt (msgd (msgQ (.openNotice 0x10000#64)) (sCo (collQ false))) 0 0 (collQ false) 63 ∧ Claims.meets (msgQ (.openNotice 0x10000#64)) (collQ false)) ∧
    (Acts (msgd (msgQ (.openNotice 7#64)) (sC0 id)) 0 ∧ localSig (msgd (msgQ (.openNotice 7#64)) (sC0 id)) 0 1 0 0xFFFFFFFF = none ∧
      over? (msgd (msgQ (.openNotice 7#64)) (sC0 id)) 0 1 0 0xFFFFFFFF = none) ∧
    (CollAt (msgd (msgQ (.step 4095 (some 15))) (sCo (collQ true))) 0 0 (collQ true) 63 ∧ Claims.meets (msgQ (.step 4095 (some 15))) (collQ true) ∧
      (collQ true).notices = [] ∧ (collQ true).count + 1 < (collQ true).expect ∧ (collQ true).heard.length < (collQ true).expect ∧
      (msgQ (.step 4095 (some 15))).src ≠ progRank (getDie (sCo (collQ true)) 0) 1 ∧ rtValid (routeOf (getDie (sCo (collQ true)) 0) 1 1) = true ∧
      rtLocal (routeOf (getDie (sCo (collQ true)) 0) 1 1) = false) ∧
    (CollAt (msgd (msgQ (.abort 0x10 1)) (sCo (collQ true))) 0 0 (collQ true) 63 ∧ Claims.meets (msgQ (.abort 0x10 1)) (collQ true)) ∧
    (CollAt (msgd newer (sCo (collQ true))) 0 0 (collQ true) 63 ∧ ¬Claims.meets newer (collQ true) ∧ newer.body = .abort 0x10 1 ∧ (∀ x o l, (collQ true).sig ≠ .huddle x o l) ∧
      ∃ g, group? (getDie (msgd newer (sCo (collQ true))) 0) 1 0 = some g ∧ g.ranks = [0, 1] ∧ g.self = 0 ∧ 1 ≠ progRank (getDie (msgd newer (sCo (collQ true))) 0) 1) ∧
    (∃ g, (getDie (sCo (collQ true)) 0).colls = [collQ true] ∧ (getDie (sCo (collQ true)) 0).barriers = [] ∧ (getDie (sCo (collQ true)) 0).decisions = [] ∧
      (getDie (sCo (collQ true)) 0).ckpts = [] ∧ (getDie (sCo (collQ true)) 0).dropped = [] ∧ (∀ c, (getCtx (sCo (collQ true)) c).round = none) ∧
      group? (getDie (sCo (collQ true)) 0) 1 0 = some g ∧ 1 ∈ g.ranks) ∧
    (∃ g, Acts sBa 0 ∧ (getDie sBa 0).barriers[0]? = some barrQ ∧ barrQ.sent = false ∧ barrQ.ending = none ∧ group? (getDie sBa 0) 1 0 = some g ∧
      (∀ i ∈ barrQ.ls, ∀ e ∈ (getCtx sBa 0).lsq, e.id ≠ i) ∧ fencePassed sBa 0 barrQ.fb = true) ∧
    (BarrAt (msgd (msgB 0) sBa) 0 0 barrQ (msgB 0) ∧ ((msgB 0).mem :: barrQ.arrived).eraseDups.length < 2) ∧
    (BarrAt (msgd (msgB 1) sBa) 0 0 barrQ (msgB 1) ∧ 2 ≤ ((msgB 1).mem :: barrQ.arrived).eraseDups.length) :=
  ⟨List.not_mem_nil, ⟨by decide, by decide, by decide, by decide⟩, ⟨collAt_of ⟨rfl, rfl, rfl, rfl⟩, rfl, by decide⟩, ⟨collAt_of ⟨rfl, rfl, rfl, rfl⟩, by decide, rfl⟩,
    ⟨collAt_of ⟨rfl, rfl, rfl, rfl⟩, by decide, by decide, rfl, rfl, _, by
      obtain ⟨hd, u, h, hp⟩ := ex_ok (r := readFb 0 1 { r := true } (collQ false).plan 64 (sCo (collQ false)))
        (P := fun hd u => headOk (natOf hd) = true ∧ nbits (natOf hd) 32 13 = 1 ∧
          (match (readFb 0 1 { r := true } ((collQ false).plan + 64#64) 32 u).1 with | .ok bs => entryOk (collQ false).oper 2 (entryBits bs 0) | .error _ => false) = true) (by decide +kernel)
      exact ⟨hd, u, rfl, h, hp⟩⟩,
    ⟨collAt_msgd _ ⟨rfl, rfl, rfl, rfl⟩, by unfold Claims.meets; decide⟩, ⟨acts_msgd (actsC _ ⟨by rfl, by rfl⟩), by decide, by decide⟩,
    ⟨collAt_msgd _ ⟨rfl, rfl, rfl, rfl⟩, by unfold Claims.meets; decide, rfl, by decide, by decide, by decide, by decide, by decide⟩,
    ⟨collAt_msgd _ ⟨rfl, rfl, rfl, rfl⟩, by unfold Claims.meets; decide⟩,
    ⟨collAt_msgd _ ⟨rfl, rfl, rfl, rfl⟩, by unfold Claims.meets; decide, rfl, (by intro x o l h; cases h), _, rfl, rfl, rfl, by decide⟩,
    ⟨_, by rfl, by rfl, by rfl, by rfl, by rfl, rounds_none _, rfl, by decide⟩,
    ⟨_, actsC _ ⟨by rfl, by rfl⟩, by rfl, rfl, rfl, rfl, by decide, by decide⟩, ⟨barrAt_of 0, by decide⟩, ⟨barrAt_of 1, by decide⟩⟩

/-! Rounds of the agreed branches -/

def hsig : GSig := .huddle false 3 0xFFFF
def dec0 (sig : Option GSig) (v : Option Verdict) (cs : List (Nat × Nat)) : Decision := { top := 1, gid := 0, gen := 1, seq := 9, contributions := cs, sig := sig, verdict := v }
def msgH (b : GBody) : GMsg := { dst := 0, src := 1, top := 1, gid := 0, gen := 1, seq := 9, mem := 1, sig := hsig, body := b }

/-- The decision point of group 0, and context 0 with its round and perhaps a checkpoint. -/
def sDe (q : Decision) : State := sC0 fun d => { d with decisions := [q] }
def sRo (w : Word) (ck : Option Arch) : State := modCtx 0 (fun x => { x with
  round := some { word := w, contribution := 1, gid := 0, seq := 9, gen := 1, agbx := false }, agstate := 0xFFFF000000000006#64, ckpt := ck }) (sC0 id)

theorem decidesAt_of (m : GMsg) (sig : Option GSig) (v : Option Verdict) (cs : List (Nat × Nat)) :
    ∃ g, DecidesAt (msgd m (sDe (dec0 sig v cs))) 0 (dec0 sig v cs) g ∧ g.ranks = [0, 1] ∧ (0, m) ∈ (msgd m (sDe (dec0 sig v cs))).msgs :=
  ⟨_, ⟨acts_msgd (actsC _ ⟨by rfl, by rfl⟩), by rfl, rfl, ⟨fun r h => absurd ((show (getDie (sDe (dec0 sig v cs)) 0).colls = [] from by rfl) ▸ h) List.not_mem_nil,
    fun r h => absurd ((show (getDie (sDe (dec0 sig v cs)) 0).barriers = [] from by rfl) ▸ h) List.not_mem_nil⟩⟩, rfl, .head _⟩

def round0 (w : Word) : Round := { word := w, contribution := 1, gid := 0, seq := 9, gen := 1, agbx := false }

theorem roundAt_of (w : Word) (ck : Option Arch) (b : GBody) (h : roundCtx (msgd (msgH b) (sRo w ck)) 0 1 0 9 = some (0, round0 w)) :
    RoundAt (msgd (msgH b) (sRo w ck)) 0 0 (msgH b) (round0 w) :=
  ⟨⟨acts_msgd ⟨sized_ctx (sized_with0 _ _ _) 0 _, by decide, ⟨by rfl, by rfl⟩⟩, by decide⟩, by decide, h, by rfl, ⟨rfl, .head _⟩, ⟨by rfl, rfl, by rfl, by rfl, by rfl⟩⟩

/-- Context 0 with a round whose void has been asked for. -/
def sAsk : State := modCtx 0 (fun x => { x with round := some { round0 0#64 with asked := true }, agstate := 0xFFFF000000000006#64 }) (sC0 id)

/-- The same where rank 1 is the decision point. -/
def sAsk1 : State := modCtx 0 (fun x => { x with round := some { round0 0#64 with asked := true }, agstate := 0xFFFF000000000006#64 }) (sC0 fun d => { d with
  regions := [{ reg with routes := [0x800100000200#64, 0x800107000000#64], groups := [{ gid := 0, gen := 1, valid := true, self := 1, ranks := [1, 0] }] }] })

/-- A store that the hold buffer keeps. -/
def heldStore : Held := { va := 0x10000, strong := true, mask := 0xFF#64, data := bytesOf 64 7, segs := [gD 8] }
def sHo : State := modCtx 0 (fun x => { x with hold := [heldStore] }) (sRo 0x3000000#64 (some aF))

theorem witness_HuddleEvents :
    (∃ g, DecidesAt (msgd (msgH (.contrib 7)) (sDe (dec0 none none []))) 0 (dec0 none none []) g ∧ g.ranks = [0, 1] ∧
      (0, msgH (.contrib 7)) ∈ (msgd (msgH (.contrib 7)) (sDe (dec0 none none []))).msgs) ∧
    (∃ g, DecidesAt (msgd (msgH (.contrib 7)) (sDe (dec0 (some hsig) none [(0, 65535)]))) 0 (dec0 (some hsig) none [(0, 65535)]) g ∧ g.ranks = [0, 1] ∧
      (0, msgH (.contrib 7)) ∈ (msgd (msgH (.contrib 7)) (sDe (dec0 (some hsig) none [(0, 65535)]))).msgs) ∧
    (∃ g, DecidesAt (msgd (msgH (.contrib 7)) (sDe (dec0 (some (.huddle true 3 0xFFFF)) none [(0, 1)]))) 0 (dec0 (some (.huddle true 3 0xFFFF)) none [(0, 1)]) g ∧
      g.ranks = [0, 1] ∧ (0, msgH (.contrib 7)) ∈ (msgd (msgH (.contrib 7)) (sDe (dec0 (some (.huddle true 3 0xFFFF)) none [(0, 1)]))).msgs) ∧
    some (GSig.huddle true 3 0xFFFF) ≠ some (msgH (.contrib 7)).sig ∧
    (RoundAt (msgd (msgH (.outcome (.value 65535))) (sRo 0#64 none)) 0 0 (msgH (.outcome (.value 65535))) (round0 0#64) ∧ (getCtx (sRo 0#64 none) 0).ckpt = none) ∧
    (RoundAt (msgd (msgH (.outcome (.value 1))) sHo) 0 0 (msgH (.outcome (.value 1))) (round0 0x3000000#64) ∧ (getCtx sHo 0).ckpt = some aF ∧
      bitsN (round0 0x3000000#64).word 24 24 = 1) ∧
    (RoundAt (msgd (msgH (.outcome (.value 0))) sHo) 0 0 (msgH (.outcome (.value 0))) (round0 0x3000000#64) ∧ bitsN (round0 0x3000000#64).word 24 24 ≠ 0) ∧
    (RoundAt (msgd (msgH (.outcome (.mismatch 0x14))) (sRo 0#64 none)) 0 0 (msgH (.outcome (.mismatch 0x14))) (round0 0#64) ∧
      (getCtx (msgd (msgH (.outcome (.mismatch 0x14))) (sRo 0#64 none)) 0).faults.length < 8) ∧
    (∃ g, ActsOn (sRo 0#64 none) 0 ∧ (getCtx (sRo 0#64 none) 0).round = some (round0 0#64) ∧ (round0 0#64).decided = none ∧ (round0 0#64).asked = false ∧ (getCtx (sRo 0#64 none) 0).restore = none ∧
      group? (getDie (sRo 0#64 none) 0) (domOf (sRo 0#64 none) 0) 0 = some g) ∧
    (∀ s ∈ [sAsk, sAsk1], ∃ r, ActsOn s 0 ∧ (getCtx s 0).round = some r ∧ r.decided = none ∧ r.asked = true ∧ (getCtx s 0).level = 0 ∧ r.level = 0 ∧ (getCtx s 0).ckpt = none ∧
      (getCtx s 0).restore = none ∧ (getCtx s 0).round0 = none ∧ (getCtx s 0).faults.length < 8) ∧
    ((∃ g, group? (getDie sAsk (dieOf 0)) (domOf sAsk 0) 0 = some g ∧ g.ranks.getD 0 0 = progRank (getDie sAsk (dieOf 0)) (domOf sAsk 0)) ∧
      ∃ g, group? (getDie sAsk1 (dieOf 0)) (domOf sAsk1 0) 0 = some g ∧ g.ranks.getD 0 0 = 1 ∧ 1 ≠ progRank (getDie sAsk1 (dieOf 0)) (domOf sAsk1 0) ∧
        rtLocal (routeOf (getDie sAsk1 (dieOf 0)) (domOf sAsk1 0) 1) = false) ∧
    (∃ g, DecidesAt (msgd (msgH .voidReq) (sDe (dec0 (some hsig) none []))) 0 (dec0 (some hsig) none []) g ∧ g.ranks = [0, 1] ∧
      (0, msgH .voidReq) ∈ (msgd (msgH .voidReq) (sDe (dec0 (some hsig) none []))).msgs) ∧
    (∃ g, DecidesAt (msgd (msgH .voidReq) (sDe (dec0 (some hsig) (some (.value 3)) []))) 0 (dec0 (some hsig) (some (.value 3)) []) g ∧ g.ranks = [0, 1] ∧
      (0, msgH .voidReq) ∈ (msgd (msgH .voidReq) (sDe (dec0 (some hsig) (some (.value 3)) []))).msgs) :=
  ⟨decidesAt_of _ _ _ _, decidesAt_of _ _ _ _, decidesAt_of _ _ _ _, by decide, ⟨roundAt_of _ _ _ (by decide), by decide⟩,
    ⟨⟨⟨acts_msgd ⟨sized_ctx (sized_ctx (sized_with0 _ _ _) 0 _) 0 _, by decide, ⟨by rfl, by rfl⟩⟩, by decide⟩, by decide, by decide, by rfl, ⟨rfl, .head _⟩, by rfl, rfl, by rfl, by rfl, by rfl⟩,
      by rfl, by decide⟩,
    ⟨⟨⟨acts_msgd ⟨sized_ctx (sized_ctx (sized_with0 _ _ _) 0 _) 0 _, by decide, ⟨by rfl, by rfl⟩⟩, by decide⟩, by decide, by decide, by rfl, ⟨rfl, .head _⟩, by rfl, rfl, by rfl, by rfl, by rfl⟩,
      by decide⟩,
    ⟨roundAt_of _ _ _ (by decide), by decide⟩,
    ⟨_, ⟨⟨sized_ctx (sized_with0 _ _ _) 0 _, by decide, ⟨by rfl, by rfl⟩⟩, by decide⟩, by rfl, rfl, rfl, by rfl, rfl⟩,
    fun s hs => by
      simp only [List.mem_cons, List.not_mem_nil, or_false] at hs
      obtain rfl | rfl := hs
      · exact ⟨_, ⟨⟨sized_ctx (sized_with0 _ _ _) 0 _, by decide, ⟨by rfl, by rfl⟩⟩, by decide⟩, by rfl, rfl, rfl, by rfl, rfl, by rfl, by rfl, by rfl, by decide⟩
      · exact ⟨_, ⟨⟨sized_ctx (sized_with0 _ _ _) 0 _, by decide, ⟨by rfl, by rfl⟩⟩, by decide⟩, by rfl, rfl, rfl, by rfl, rfl, by rfl, by rfl, by rfl, by decide⟩,
    ⟨⟨_, rfl, by decide⟩, _, rfl, rfl, by decide, by decide⟩,
    decidesAt_of _ _ _ _, decidesAt_of _ _ _ _⟩

/-! Events of the fabric and its light -/

/-- Region 1 at version 0 of its route table; rank 1 is in package 7. -/
def reg7 : Region := { reg with rcb := { hostRcb with fshare := 64 }, routes := [0x800100000200#64, 0x800107000000#64] }
def sFa (f : Die → Die) : State := with0 id id fun d => f { d with regions := [reg7] }

/-- A packet of rank 1 for rank 0 that puts four bytes at the end of the page at 0x1_0000. -/
def pk (ver : Nat) : Pkt := {
  src := 1, dst := 0, top := 1, stop := 2, pkg := 0, die := 0, spkg := 7, sdie := 3, ver := ver, seq := 65535, ord := 0, strong := false, good := true, cmd := 1, cnt := 1
  ctr := none, pay := .put 0x1FFFC#64 [1#8, 2#8, 3#8, 4#8] }

theorem actsF (f : Die → Die) (h : (getDie (sFa f) 0).inReset = false ∧ (getDie (sFa f) 0).tripped = false) : Acts (sFa f) 0 := acts0 _ _ _ h

theorem quiet_of (f : Die → Die) (h : (getDie (sFa f) 0).colls = [] ∧ (getDie (sFa f) 0).sendq = [] ∧ ∀ q ∈ (getDie (sFa f) 0).flowsIn, q.window = []) :
    Quiet (sFa f) 0 :=
  ⟨fun c _ => ctxs_all (P := fun x => x.fb = []) (s := sFa f) rfl rfl rfl rfl c, h.1, h.2.1, h.2.2⟩

theorem linked_fa (f : Die → Die) : linkOk (sFa f) 0 1 = true := by
  unfold linkOk linkSlot
  rw [show (sFa f).keys = keys0 from by rfl]
  decide

theorem reaches_of (ver : Nat) (f : Die → Die) (hd : (getDie (sFa f) 0).inReset = false ∧ (getDie (sFa f) 0).tripped = false) (hr : region? (getDie (sFa f) 0) 1 = some reg7)
    (h : (getDie (sFa f) 0).colls = [] ∧ (getDie (sFa f) 0).sendq = [] ∧ ∀ q ∈ (getDie (sFa f) 0).flowsIn, q.window = []) : Reaches (sFa f) (pk ver) reg7 :=
  ⟨actsF f hd, ⟨rfl, by rw [show (sFa f).pkg = 0 from by rfl]; exact (by decide : (7 : Nat) ≠ 0)⟩, hr, ⟨rfl, linked_fa f⟩, quiet_of f h⟩

/-- A transfer of context 0 that has been cut into one packet for rank 1. -/
def fbM (kind : Nat) : FbCmd := { id := 4, ord := 3, kind := kind, tag := 63, loc := 0x10000#64, rem := 0x30000#64, len := 4, rank := 1, direct := true, ctr := none, cut := true, unacked := 1 }
def spk (retry auth sent : Bool) (need : Option Nat) : SendPkt := {
  pkt := { pk 0 with src := 0, dst := 1, stop := 1, top := 1, pkg := 7, spkg := 0, sdie := 0, cmd := 3 }, ctx := 0, rid := 1, direct := true, sent := sent, retry := retry, authRetry := auth, needVer := need }
def sTr (m : FbCmd) (p : SendPkt) : State := with0 (fun x => { x with fb := [m] }) id fun d => { d with regions := [reg7], sendq := [p] }

theorem transfer_of (m : FbCmd) (p : SendPkt) (h : p.ctx = 0 ∧ p.pkt.pay = .put 0x1FFFC#64 [1#8, 2#8, 3#8, 4#8] ∧ m.level = 0 ∧ m.tag < 64)
    (hm : m.ord = p.pkt.cmd ∧ m.kind < 5 ∧ m.ending = none ∧ m.cut = true ∧ m.suspended = false ∧ m.unacked = 1) : Transfer (sTr m p) 0 p m 0x1FFFC#64 [1#8, 2#8, 3#8, 4#8] :=
  ⟨acts0 _ _ _ ⟨by rfl, by rfl⟩, by rw [h.1]; decide, ⟨by rfl, by rw [h.1]; rfl, by rw [h.1]; exact ctxs_rest (P := fun x => x.fb = []) rfl rfl rfl⟩,
    ⟨by rfl, fun q hq => absurd ((show (getDie (sTr m p) 0).flowsIn = [] from by rfl) ▸ hq) List.not_mem_nil⟩, hm, h.2.1, by rw [h.1, h.2.2.1]; rfl, h.2.2.2,
    by rw [h.1, h.2.2.1]; exact ⟨rfl, Nat.zero_lt_succ 7⟩⟩

/-- FRECV has its message; TLBI waits for the page at 0x1_0000, which an access holds or not. -/
def fbR : FbCmd := { fbM 1 with loc := 0x1FFFC#64, bytes := [1#8, 2#8, 3#8, 4#8] }
def sTl (es : List LsEntry) : State := with0 (fun x => { x with fb := [{ fbM 7 with holds := [gD 2] }], lsq := es, block := some (.frecv, 0) }) id fun d => { d with regions := [reg7] }
def lsR : LsEntry := { id := 6, inL := true, inS := false, strong := true, kind := .load, segs := [gD 2], got := [none, none] }

/-- Context 0 waits for a message. -/
def sFr : State := with0 (fun x => regs [0#64, 0x10000#64, 0#64, 0x0000000100000040#64] { x with block := some (.frecv, 0) }) (fun k => { k with kernels := [placedKernel .e (encode (.frecv 2 4 63))] }) fun d => { d with regions := [reg7] }

theorem witness_FabricEvents :
    (Acts (sFa id) 0 ∧ (spk false false false none).pkt.pkg ≠ (sFa id).pkg) ∧
    (Reaches (sFa id) (pk 1) reg7 ∧ (pk 1).ver = (reg7.ver + 1) % 65536 ∧ ¬(((pk 1).ver + 1) % 65536 = reg7.ver ∧ reg7.grace ≠ 0)) ∧
    (Reaches (sFa id) (pk 65535) reg7 ∧ (pk 65535).ver ≠ reg7.ver ∧ (pk 65535).ver ≠ (reg7.ver + 1) % 65536 ∧ reg7.grace = 0) ∧
    (Reaches (sFa id) (pk 0) reg7 ∧ (pk 0).ver = reg7.ver ∧ (getDie (sFa id) 0).flowsIn = [] ∧ MemOk (sFa id) ∧ 4 = 65536 - (0x1FFFC#64).toNat % 65536 ∧
      (∃ g u, checkRun 0 1 { w := true } 0x1FFFC#64 4 (sFa id) = (.ok g, u) ∧ (g = [{ pa := 0x1FFFC, len := 4, va := 0x1FFFC, okey := 1 }])) ∧ ∀ g, keyed (sFa id) 0 g ∧ unawaited (sFa id) 0 g) ∧
    (∃ f : FlowIn, Reaches (sFa fun d => { d with flowsIn := [f] }) (pk 0) reg7 ∧ f.src = (pk 0).src ∧ f.top = (pk 0).top ∧ (pk 0).seq ∈ f.seen) ∧
    ({ pk 0 with good := false }.good = false ∧ Quiet (sFa id) 0) ∧
    Transfer (sTr (fbM 2) (spk false false true none)) 0 (spk false false true none) (fbM 2) 0x1FFFC#64 [1#8, 2#8, 3#8, 4#8] ∧
    Transfer (sTr (fbM 2) (spk true true true none)) 0 (spk true true true none) (fbM 2) 0x1FFFC#64 [1#8, 2#8, 3#8, 4#8] ∧
    Transfer (sTr (fbM 2) (spk true true false (some 1))) 0 (spk true true false (some 1)) (fbM 2) 0x1FFFC#64 [1#8, 2#8, 3#8, 4#8] ∧
    (Transfer (sTr (fbM 2) (spk false false false none)) 0 (spk false false false none) (fbM 2) 0x1FFFC#64 [1#8, 2#8, 3#8, 4#8] ∧
      rtLocal (routeOf (getDie (sTr (fbM 2) (spk false false false none)) 0) (domOf (sTr (fbM 2) (spk false false false none)) 0) 1) = false ∧
      ((sTr (fbM 2) (spk false false false none)).planes.getD 0 {}).framed = false) ∧
    (Transfer (sTr { fbM 2 with rank := 1023 } (spk true true false none)) 0 (spk true true false none) { fbM 2 with rank := 1023 } 0x1FFFC#64 [1#8, 2#8, 3#8, 4#8] ∧
      rtValid (routeOf (getDie (sTr { fbM 2 with rank := 1023 } (spk true true false none)) 0) (domOf (sTr { fbM 2 with rank := 1023 } (spk true true false none)) 0) 1023) = false) ∧
    (Acts (sFa fun d => { d with heldPkts := [pk 1] }) 0 ∧ (getDie (sFa fun d => { d with heldPkts := [pk 1] }) 0).heldPkts[0]? = some (pk 1) ∧ (pk 1).spkg ≠ 0) ∧
    (∃ e u, ActsOn (sTr fbR (spk true true true none)) 0 ∧ MemOk (sTr fbR (spk true true true none)) ∧
      ((getCtx (sTr fbR (spk true true true none)) 0).fb.filter fun f => f.kind == 1)[0]? = some fbR ∧
      visit (tlbOf 0) (dieOf 0) (domOf (sTr fbR (spk true true true none)) 0) fbR.page { w := true } fbR.loc.toNat (sTr fbR (spk true true true none)) = (.ok e, u) ∧ fbR.bytes.length = pageLeft e fbR.loc.toNat ∧
      ∀ g, keyed (sTr fbR (spk true true true none)) 0 g ∧ unawaited (sTr fbR (spk true true true none)) 0 g) ∧
    (∃ m, Acts (sTl [lsR]) 0 ∧ ((getCtx (sTl [lsR]) 0).fb.filter fun e => e.kind == 7)[0]? = some m ∧ pagesHeld (sTl [lsR]) 0 (domOf (sTl [lsR]) 0) m.holds = true ∧
      pagesHeld (sTl []) 0 (domOf (sTl []) 0) m.holds = false) :=
  ⟨⟨actsF id ⟨by rfl, by rfl⟩, by decide⟩,
    ⟨reaches_of _ id ⟨by rfl, by rfl⟩ (by decide) (by decide), by decide, by decide⟩, ⟨reaches_of _ id ⟨by rfl, by rfl⟩ (by decide) (by decide), by decide, by decide, by decide⟩,
    ⟨reaches_of _ id ⟨by rfl, by rfl⟩ (by decide) (by decide), by decide, by decide, memOk_of (by decide), by decide, ex_ok (by decide), fun g => ⟨keyed_none g rfl, unawaited_none g rfl⟩⟩,
    ⟨{ src := 1, top := 1, seen := [65535] }, reaches_of _ _ ⟨by rfl, by rfl⟩ (by decide) (by decide), rfl, rfl, by decide⟩,
    ⟨rfl, quiet_of id (by decide)⟩, transfer_of _ _ (by decide) (by decide), transfer_of _ _ (by decide) (by decide),
    transfer_of _ _ (by decide) (by decide), ⟨transfer_of _ _ (by decide) (by decide), by decide, by decide⟩,
    ⟨transfer_of _ _ (by decide) (by decide), by decide⟩,
    ⟨actsF _ ⟨by rfl, by rfl⟩, by decide, by decide⟩,
    ⟨pg 0, _, ⟨acts0 _ _ _ ⟨by rfl, by rfl⟩, by decide⟩, memOk_of (by decide), by decide, ok_of (by decide), by decide, fun g => ⟨keyed_none g rfl, unawaited_none g rfl⟩⟩,
    ⟨_, acts0 _ _ _ ⟨by rfl, by rfl⟩, rfl, by decide +kernel, by decide +kernel⟩⟩

theorem witness_FabricEvents_receive : ActsOn sFr 0 ∧ (getCtx sFr 0).block.isSome = true ∧ (attempt 0 sFr).1 = false ∧ (getCtx (attempt 0 sFr).2 0).block.map (·.1) = some .frecv :=
  ⟨⟨acts0 _ _ _ ⟨by rfl, by rfl⟩, by decide⟩, by decide, by decide +kernel, by decide +kernel⟩

/-- Plane 0 is framed, with one lane of its port and rotation over n packages; one packet waits for package 7's die 0 on plane 0 in slot 0. -/
def sLi0 (e : Word) : State := sFa fun d => { d with regions := [{ reg7 with routes := [0x800100000200#64, e], nextRoutes := some ([1#64], 1) }], sendq := [spk false false false none] }
def sLi (n : Nat) (e : Word) : State := { sLi0 e with
  openReq := some { die := 0, rid := 1, tag := 9, sup := none, rsv := false, ptr := 0#64 }
  rotN := n, planes := { active := true, framed := true } :: List.replicate 63 {}, ports := { locked := 1 } :: List.replicate 63 {} }

theorem sized_sLi (n : Nat) (e : Word) : Sized (sLi n e) := sized_same (s := sLi0 e) (sized_with0 _ _ _) rfl rfl rfl rfl

theorem witness_LightEvents :
    (∃ pl, Sized (sLi 2 0#64) ∧ (sLi 2 0#64).planes[0]? = some pl ∧ pl.active = true ∧ (∀ d < 4, (getDie (sLi 2 0#64) d).heldPkts = []) ∧
      ∃ g tbl v r, (getDie (sLi 2 0#64) 0).regions = [g] ∧ g.nextRoutes = some (tbl, v) ∧ (sLi 2 0#64).openReq = some r ∧ r.die = 0 ∧ r.rid = g.rcb.rid) ∧
    (distanceIn (sLi 3 0#64) 0 1 = 2 ∧ distanceIn (sLi 3 0#64) 0 2 = 3) ∧
    (∃ pl q, Sized (sLi 8 0x800101000000#64) ∧ (sLi 8 0x800101000000#64).planes[0]? = some pl ∧ pl.active = true ∧ pl.framed = true ∧ pl.window = false ∧
      txPeer (sLi 8 0x800101000000#64) 0 pl.slot = some 1 ∧ (∀ x < 4, x ≠ 0 → Quiet (sLi 8 0x800101000000#64) x) ∧ (∀ x < 4, (getDie (sLi 8 0x800101000000#64) x).relay = []) ∧
      (∀ c, (getCtx (sLi 8 0x800101000000#64) c).fb = []) ∧ (getDie (sLi 8 0x800101000000#64) 0).colls = [] ∧
      (getDie (sLi 8 0x800101000000#64) 0).sendq = [q] ∧ q.sent = false ∧ q.needVer = none ∧ q.flits = 0 ∧ q.via = none ∧
      q.pkt.strong = false ∧ q.pkt.pay = .put 0x1FFFC#64 [1#8, 2#8, 3#8, 4#8] ∧ (∀ f ∈ (getDie (sLi 8 0x800101000000#64) 0).flowsIn, f.window = []) ∧ routeOf (getDie (sLi 8 0x800101000000#64) 0) q.pkt.stop q.pkt.dst = 0x800101000000#64 ∧
      rtValid 0x800101000000#64 = true ∧ rtLocal 0x800101000000#64 = false ∧ rtPkg 0x800101000000#64 = 1 ∧ rtPlane 0x800101000000#64 = 0 ∧ rtPhase 0x800101000000#64 = pl.slot ∧
      1 ≤ windowFlits (sLi 8 0x800101000000#64) 0 ∧ ∀ r ∈ ancestry (getDie (sLi 8 0x800101000000#64) 0) q.rid, 64 = effFshare (getDie (sLi 8 0x800101000000#64) 0) r) ∧
    Acts (sFa id) 0 :=
  ⟨⟨_, sized_sLi _ _, rfl, rfl, by decide, _, _, _, _, rfl, rfl, rfl, rfl, rfl⟩, ⟨by decide, by decide⟩,
    ⟨_, _, sized_sLi _ _, rfl, rfl, rfl, rfl, by decide, by
      intro x hx hn
      refine ⟨fun c _ => ctxs_all (P := fun x => x.fb = []) rfl rfl rfl rfl c, ?_, ?_, ?_⟩ <;>
      · rcases (by omega : x = 1 ∨ x = 2 ∨ x = 3) with rfl | rfl | rfl <;> decide,
      by decide, ctxs_all (P := fun x => x.fb = []) rfl rfl rfl rfl, by decide, rfl, rfl, rfl, rfl, rfl, rfl, rfl, by decide, by decide, by decide, by decide, by decide, by decide, by decide, by decide, by decide⟩,
    actsF id ⟨by rfl, by rfl⟩⟩

/-! Recovery, reset, the host, the requests to firmware -/

/-- Images of generation 6 and rank 2: one without pages, one with a page that is not mapped. -/
def img (ps : List ImgPage) : Image := { gen := 6, rank := 2, mirror := false, key := 0, pages := ps, complete := true }
def pgX : ImgPage := { va := 0x10000, size := 65536, attr := 0, bytes := [], poison := [] }
def regI (ps : List ImgPage) : Region := { reg with images := [img ps] }
def ckq (w : Word) : CkptCmd := { ctx := 0, top := 1, tag := 63, level := 0, word := w }
def sCk (w : Word) (ps : List ImgPage) : State := with0 id id fun d => { d with ckpts := [ckq w], regions := [regI ps] }

theorem ckptAt_of (w : Word) (ps : List ImgPage) : CkptAt (sCk w ps) 0 0 (ckq w) (regI ps) :=
  ⟨acts0 _ _ _ ⟨by rfl, by rfl⟩, by rfl, by rfl, (by decide : 0 < 1024), by rfl, (by decide : 63 < 64), ⟨rfl, Nat.zero_lt_succ 7⟩, rfl, rfl⟩

/-- An attempt that passes every check, and one whose last check fails. -/
def boot0 (ok : Bool) : BootTry := { addrOk := true, fetchOk := true, signatureOk := true, versionOk := true, lengthOk := ok, image := [1#8] }

theorem sized_start : Sized State.reset := by constructor <;> simp [State.reset, -List.reduceReplicate]

theorem witness_RecoveryEvents :
    (CkptAt (sCk 1#64 []) 0 0 (ckq 1#64) (regI []) ∧ bitsN (ckq 1#64).word 61 60 = 0 ∧ bit (ckq 1#64).word 42 = false ∧ (getDie (sCk 1#64 []) 0).unseen = []) ∧
    (CkptAt (sCk 0x40100000001#64 []) 0 0 (ckq 0x40100000001#64) (regI []) ∧ bitsN (ckq 0x40100000001#64).word 61 60 = 0 ∧ bit (ckq 0x40100000001#64).word 42 = true) ∧
    (∃ f u, CkptAt (sCk 0x1000000200000006#64 []) 0 0 (ckq 0x1000000200000006#64) (regI []) ∧ bitsN (ckq 0x1000000200000006#64).word 61 60 ≠ 0 ∧ imageOf (regI []) (linkKey (sCk 0x1000000200000006#64 []) 0 1) 6 2 = some (img []) ∧
      restorePages 0 1 (opNum 0 0) (img []).pages (sCk 0x1000000200000006#64 []) = (f, u) ∧ f = none) ∧
    (∃ f u, CkptAt (sCk 0x1000000200000006#64 [pgX]) 0 0 (ckq 0x1000000200000006#64) (regI [pgX]) ∧ imageOf (regI [pgX]) (linkKey (sCk 0x1000000200000006#64 [pgX]) 0 1) 6 2 = some (img [pgX]) ∧
      restorePages 0 1 (opNum 0 0) (img [pgX]).pages (sCk 0x1000000200000006#64 [pgX]) = (f, u) ∧ f ≠ none) ∧
    (∃ k, Acts (sCk 1#64 []) 0 ∧ (sCk 1#64 []).keys[3]? = some k ∧ k.state = .assigned ∧ k.die = 0 ∧ k.top = 1) ∧
    (siteReg 3 15 ≠ .x 0 ∧ siteReg 3 15 ≠ .p 0 ∧ siteReg 0 64 = .x 0) ∧
    (Sized State.reset ∧ bit State.reset.bootstat 0 = false ∧ bootCause (boot0 true) = 0 ∧ bootCause (boot0 false) = 5 ∧ bit base.bootstat 0 = true) :=
  ⟨⟨ckptAt_of _ _, by decide, by decide, by decide⟩, ⟨ckptAt_of _ _, by decide, by decide⟩, ⟨_, _, ckptAt_of _ _, by decide, by decide, rfl, by decide⟩, ⟨_, _, ckptAt_of _ _, by decide, rfl, by decide⟩,
    ⟨_, acts0 _ _ _ ⟨by rfl, by rfl⟩, rfl, rfl, rfl, rfl⟩, by decide, sized_start, by decide, by decide, by decide, by decide⟩

/-- The host has a request; region 1 runs with a service ring or none. -/
def sHq (f : Die → Die) : State := { with0 id id f with hqprod := 1#64, hqsize := 16#64, cqsize := 65536#64 }
def rq (rid : Nat) (sup : Option Nat) (rsv : Bool) : Req := { die := 0, rid := rid, tag := 65535, sup := sup, rsv := rsv, ptr := 0#64 }

theorem hostAsks_of (f : Die → Die) (rid : Nat) (ht : (turns (sHq f)).find? (sourceWaits (sHq f)) = some none) : HostAsks (sHq f) (rq rid none false) :=
  ⟨by rw [show (sHq f).bootstat = 3#64 from rfl]; decide, rfl, rfl, by rw [show (sHq f).hqprod = 1#64 from rfl, show (sHq f).hqcons = 0#64 from rfl]; decide,
    ⟨4, 16, by decide, by decide, by decide, by decide, by rw [show (sHq f).hqsize = 16#64 from rfl]; decide, by rw [show (sHq f).cqsize = 65536#64 from rfl]; decide⟩, rfl, ht, (by decide : 0 < 4), sized_same (s := with0 id id f) (sized_with0 _ _ _) rfl rfl rfl rfl⟩

/-- A control block of a top region that is in order. -/
def rcbN (rid : Nat) : BitVec 2048 := BitVec.ofNat 2048 (rid + rid * 2 ^ 16 + 2 ^ 56 + (2 ^ 64 - 1) * 2 ^ 64 + (2 ^ 64 - 1) * 2 ^ 128 + 2 ^ 192 + 65536 * 2 ^ 224 + 4096 * 2 ^ 320 + 256 * 2 ^ 384 + 6 * 2 ^ 400 +
  1024 * 2 ^ 416 + 4095 * 2 ^ 432)

/-- An image of one entry and one halfword. -/
def imgK : List Byte := bytesOf 4 0x77340B1E ++ bytesOf 4 1 ++ bytesOf 4 1 ++ bytesOf 4 1 ++ bytesOf 8 128 ++ bytesOf 8 192 ++ List.replicate 16 7#8 ++ List.replicate 8 1#8 ++ [2#8] ++ List.replicate 7 1#8 ++
  List.replicate 64 0#8 ++ List.replicate 64 0#8 ++ [0#8, 0#8]

def regS : Region := { reg with serviceRing := some 0x10000#64, runnable := false }
def recR : BitVec 256 := BitVec.ofNat 256 (5 + 1 * 2 ^ 240 + 64 * 2 ^ 64 + 4 * 2 ^ 128)

/-- The service ring at 0x1_0000: PROD, CONS 1022, and an entry of an opcode for region 1. -/
def sSr (prod op : Nat) (f : Die → Die) : State := with0 id id fun d => f { d with regions := [regS], mem := cellsOf 0x10000 (bytesOf 8 prod ++ bytesOf 8 1022) ++ cellsOf (0x10000 + 64 + 64 * 1022) (bytesOf 8 (op + 0xFFFF * 2 ^ 16 + 2 ^ 48)) }

theorem witness_RegionRequests :
    (HostAsks (sHq id) (rq 4095 none false) ∧ (rcbOf (rcbN 4095)).rid = 4095 ∧ region? (getDie (sHq id) 0) 4095 = none ∧ rcbOk (getDie (sHq id) 0) (rcbN 4095) = true) ∧
    (∃ g, HostAsks (sHq id) (rq 1 none false) ∧ named (sHq id) (rq 1 none false) g ∧ (rcbOf (rcbN 1)).rid = 1 ∧ (rcbOf (rcbN 1)).parent = g.rcb.parent ∧ rcbOk (getDie (sHq id) 0) (rcbN 1) = true ∧ g.rcb.parent = 0) ∧
    (rcbOf (rcbN 4095)).rid ≠ 1 ∧
    (bindStatus (sHq id) 0 imgK 15 2#64 0#64 = 0 ∧ bindStatus (sHq id) 0 [] 15 2#64 0#64 = 1) ∧
    (recordReservedOk recR = true ∧ bitsN recR 127 64 % 64 = 0 ∧ bitsN recR 191 128 % 4 = 0 ∧ inSubtree (getDie (sHq id) 0) 1 (bitsN recR 251 240) = true ∧
      occOf (getDie (sHq id) 0) 1 0 < 2 ^ effQlog (getDie (sHq id) 0) 1 ∧ 2 ^ effQlog (getDie (sHq id) 0) 1 = occOf (getDie (sHq fun d => { d with occ := [(1, 0, 64)] }) 0) 1 0) ∧
    (∀ op ∈ [3, 4, 5, 7], Acts (sSr 1023 op id) 0 ∧ nextEntryIs (sSr 1023 op id) op 1 { rq 1 (some 1) false with tag := 0xFFFF } ∧
      ¬nextEntryIs (sSr 1022 op id) op 1 { rq 1 (some 1) false with tag := 0xFFFF }) ∧
    ({ rq 1 none true with rsv := false } = rq 1 none false ∧ (rq 1 none true).rsv = true) :=
  ⟨⟨hostAsks_of _ _ (by decide), by decide, by decide, by decide⟩, ⟨reg, hostAsks_of _ _ (by decide), by unfold named; decide, by decide, by decide, by decide, by decide⟩, by decide, by decide +kernel,
    by decide, by
      intro op h
      simp only [List.mem_cons, List.not_mem_nil, or_false] at h
      rcases h with rfl | rfl | rfl | rfl <;>
      exact ⟨acts0 _ _ _ ⟨by rfl, by rfl⟩, ⟨_, _, _, rfl, by decide +kernel, by decide +kernel, by decide +kernel⟩, fun ⟨a, e, n, h, _⟩ => by cases h⟩,
    rfl, rfl⟩

theorem witness_TableRequests :
    (∃ g, HostAsks (sHq id) (rq 1 none false) ∧ topNamed (sHq id) (rq 1 none false) g ∧ g.nextRoutes = none ∧ g.routes = [] ∧ g.serviceRing = none ∧
      region? (getDie (sHq id) 0) (topOf (getDie (sHq id) 0) 1) = some g) ∧
    (∃ g, topNamed (sHq fun d => { d with regions := [{ regS with routes := [0#64], ver := 65535, nextRoutes := some ([], 0) }] }) (rq 1 none false) g ∧ g.nextRoutes ≠ none ∧ g.routes ≠ [] ∧ (g.ver + 1) % 65536 = 0 ∧ g.serviceRing ≠ none) ∧
    (bitsN (0x800100000002#64) 46 42 = 0 ∧ bitsN (0x800100000002#64) 31 11 = 0 ∧ bit (0x800100000002#64) 47 = true ∧ [0, 1023].length = bitsN (0x800100000002#64) 10 0 ∧ bitsN (0x800100000002#64) 41 32 < [0, 1023].length ∧
      ∀ r ∈ [0, 1023], r < 1024) ∧
    ((∃ k, (sHq id).keys[4095]? = some k ∧ k.state = .free) ∧ (∃ k, (sHq id).keys[3]? = some k ∧ k.state = .assigned)) ∧
    (frameOwnerOf (getDie (sHq id) 0) .dram 786431 = .free ∧ frameOwnerOf (getDie (sHq fun d => { d with frames := [(.dram, 786431, .top 2)] }) 0) .dram 786431 ≠ .free) ∧
    (∃ r, (sHq id).rings[1151]? = some r) ∧
    (∃ g w u, Acts (sSr 1022 3 id) 0 ∧ region? (getDie (sSr 1022 3 id) 0) 1 = some g ∧ g.serviceRing = some 0x10000#64 ∧ bit (sSr 1022 3 id).bootstat 0 = true ∧
      readVa 0 1 0x10000#64 16 (sSr 1022 3 id) = (some w, u) ∧ natOf (w.take 8) = natOf ((w.drop 8).take 8)) ∧
    (∃ g w u, Acts (sSr 1023 3 id) 0 ∧ region? (getDie (sSr 1023 3 id) 0) 1 = some g ∧ g.serviceRing = some 0x10000#64 ∧
      readVa 0 1 0x10000#64 16 (sSr 1023 3 id) = (some w, u) ∧ natOf (w.take 8) ≠ natOf ((w.drop 8).take 8) ∧
      ((readVa 0 1 (0x10000#64 + BitVec.ofNat 64 (64 + 64 * 1022)) 64 u).1.isSome = true) ∧ (sSr 1023 3 id).openReq = none ∧
      (turns (sSr 1023 3 id)).find? (sourceWaits (sSr 1023 3 id)) = some (some (0, 1))) :=
  ⟨⟨reg, hostAsks_of _ _ (by decide), ⟨by unfold named; decide, rfl⟩, rfl, rfl, rfl, rfl⟩, ⟨_, ⟨rfl, rfl⟩, by decide, by decide, rfl, by decide⟩, by decide, ⟨⟨_, by rfl, rfl⟩, _, by rfl, rfl⟩, by decide, ⟨_, by rfl⟩,
    ⟨_, _, _, acts0 _ _ _ ⟨by rfl, by rfl⟩, rfl, rfl, by decide, rfl, by decide⟩,
    ⟨_, _, _, acts0 _ _ _ ⟨by rfl, by rfl⟩, rfl, rfl, rfl, by decide +kernel, by decide +kernel, rfl, by decide +kernel⟩⟩

/-! Well-formedness: one ill-formed term for each check, with the neighbour that passes -/

theorem test_wf_destinations : [Instr.cmp .lt 0#4 1#6 2#6, .vcmp .lt .f32 0#4 1#6 2#6, .pand 0#4 1#4 2#4, .por 0#4 1#4 2#4, .pxor 0#4 1#4 2#4, .pandn 0#4 1#4 2#4, .pnot 0#4 1#4].all (!·.wf) = true ∧
    [Instr.cmp .lt 1#4 1#6 2#6, .vcmp .lt .f32 1#4 1#6 2#6, .pand 1#4 1#4 2#4, .por 1#4 1#4 2#4, .pxor 1#4 1#4 2#4, .pandn 1#4 1#4 2#4, .pnot 1#4 1#4].all (·.wf) = true := by decide

theorem test_wf_rounding : [Instr.vadd .i32 .rne 1#6 2#6 3#6, .vsub .i8 .rz 1#6 2#6 3#6, .vmul .i32 .rs 1#6 2#6 3#6, .vfma .i8 .rne 1#6 2#6 3#6, .vfms .i32 .rne 1#6 2#6 3#6, .vfnma .i8 .rne 1#6 2#6 3#6,
      .vrsum .i32 .rne 1#6 2#6 3#4].all (!·.wf) = true ∧ [Instr.vadd .i32 .fctl 1#6 2#6 3#6, .vadd .bf16 .rs 1#6 2#6 3#6].all (·.wf) = true := by decide

theorem test_wf_conversions : [Instr.vcvt .f32 .fctl .f32 1#6 2#6, .vcvt .f32 .rne .bf16 1#6 2#6, .vcvt .i32 .rz .i8 1#6 2#6, .vcvt .i8 .rne .i32 1#6 2#6].all (!·.wf) = true ∧
    [Instr.vcvt .f32 .fctl .bf16 1#6 2#6, .vcvt .bf16 .rs .f32 1#6 2#6].all (·.wf) = true := by decide

theorem test_wf_special : [Instr.exp2 .i32 .fctl 1#6 2#6, .log2 .i8 .fctl 1#6 2#6, .rcp .i32 .fctl 1#6 2#6, .rsq .i8 .fctl 1#6 2#6, .sin .i32 .fctl 1#6 2#6, .cos .i8 .fctl 1#6 2#6, .tanh .i32 .fctl 1#6 2#6, .erf .i8 .fctl 1#6 2#6,
    .rnd .bf16 1#6, .cxs .f32 false 1#6 2#6 7#3 0#3, .cxsi .f32 false 2#6 4#6 7#3 0#3, .cxsi .f32 false 3#6 4#6 1#3 0#3, .vnormsel .i32 1#6 2#6 3#4 1#3].all (!·.wf) = true := by decide

theorem test_wf_control : [Instr.brc 0#4 true 5#19, .spawn 0#6, .spawn 6#6, .joinW 0#6, .mfs 1#6 0x005#12, .mts 0x005#12 1#6, .mts 0x001#12 1#6, .loop 1#6 0#14, .loop 1#6 0x2000#14, .replay 1#4 1#6 0#14].all (!·.wf) = true ∧
    [Instr.brc 0#4 false 5#19, .spawn 4#6, .joinW 1#6, .mfs 1#6 0x030#12, .loop 1#6 0x1FFF#14].all (·.wf) = true := by decide

theorem test_wf_memory : [Instr.pin 0#3 7#6 1#6, .xfence .cp .cp, .ared 6#6 1#6 2#6 0#6, .aredH 27#6 1#6 2#6 0#6, .cpyr 19#6 1#6 2#6 3#6, .fputR 7#6 2#6 4#6 0#6, .fput 3#6 4#6 0#6, .fputS 3#6 4#6 0#6, .fget 3#6 4#6 0#6,
    .astr 1#4 1#6 5#3, .scl 15#4 1#6 1#3].all (!·.wf) = true := by decide

theorem test_wf_matrix : [Instr.mma .bf16 0#4 1#6 2#6 0#4, .mma .bf16 0#4 2#6 1#6 0#4, .mmr .f16 .classical 2#4 2#6 4#6, .mmr .f16 .classical 4#4 3#6 4#6, .mload 0#4 1#6, .mtalloc 0#4 9#4].all (!·.wf) = true := by decide

theorem test_wf_acts : [Instr.bundleIssue 256, .registerWriteback 1024, .eddyCommandStart 4, .fabricSlotBoundary 64, .ringHeatWrite 1152 0, .makeRunnable (rq 4096 none false),
      .linkKeyInstall 4 0 0 (some 7)].all (!·.wf) = true ∧
    [Instr.bundleIssue 255, .registerWriteback 1023, .eddyCommandStart 3, .fabricSlotBoundary 63, .ringHeatWrite 1151 0, .makeRunnable (rq 4095 none false), .breakpoint (rq 1 none false) 4 0 0 true,
      .handlerVector (rq 1 none false) 16 0, .assignKeySlot (rq 1 none false) 4096, .readRingStatus (rq 1 none false) 1152].all (·.wf) = true := by decide

/-! Decode: words written out from the encodings of 02 R48 to R57 and the opcode tables -/

theorem test_decode_vector : okOf (decodeSyl .v0 0x040C1080#32) = some (.vfma .f32 .fctl 3#6 1#6 2#6) ∧ okOf (decodeSyl .f 0x02289000#32) = some (.log2 .f32 .fctl 10#6 9#6) := by decide

theorem test_decode_scalar : okOf (decodeSyl .s0 0x29267734#32) = some (.movhi 9#6 2#2 0x7734#16) ∧ okOf (decodeSyl .s0 0x15044142#32) = some (.cmp .lt 1#4 4#6 5#6) ∧
    okOf (decodeSyl .s1 0x4400C001#32) = some (.bktj 1#2 12#6) ∧ okOf (decodeSyl .s1 0x4D008000#32) = some (.spawn 8#6) ∧ okOf (decodeSyl .s1 0x4F000000#32) = some .done ∧
    okOf (decodeSyl .s1 0x4C000000#32) = some .yield ∧ okOf (decodeSyl .s1 0x54007001#32) = some (.keyselKill 7#6) := by decide

theorem test_decode_memory : okOf (decodeSyl .m0 0x01147080#32) = some (.ld .d64 0#2 false 5#6 7#6 2#6) ∧ okOf (decodeSyl .m0 0x12201000#32) = some (.qpop 8#6 1#3) ∧
    okOf (decodeSyl .m0 0x0F000000#32) = some .qalign ∧ okOf (decodeSyl .m0 0x11042000#32) = some (.xfence .cp .mx) ∧ okOf (decodeSyl .a 0x06324001#32) = some (.scl 3#4 9#6 1#3) := by decide

theorem test_decode_engine : okOf (decodeSyl .e 0x0130A304#32) = some (.mma .bf16 3#4 10#6 12#6 1#4) ∧ okOf (decodeSyl .e 0x02094580#32) = some (.mmr .bf16 .fallback 0#4 20#6 22#6) ∧
    okOf (decodeSyl .e 0x08300004#32) = some (.mtalloc 3#4 1#4) ∧ okOf (decodeSyl .e 0x04300000#32) = some (.mdrain .f32 false 0#3 3#4) := by decide

theorem test_decode_fabric : okOf (decodeSyl .e 0x33516005#32) = some (.fputS 20#6 22#6 5#6) ∧ okOf (decodeSyl .e 0x31516002#32) = some (.frecv 20#6 22#6 2#6) ∧ okOf (decodeSyl .e 0x40500003#32) = some (.coll 20#6 3#6) ∧
    okOf (decodeSyl .e 0x41500000#32) = some (.collw 20#6) ∧ okOf (decodeSyl .e 0x45008009#32) = some (.barr 8#6 9#6) ∧ okOf (decodeSyl .e 0x420C8000#32) = some (.agb 3#4 8#6) ∧
    okOf (decodeSyl .e 0x43148000#32) = some (.agbx 5#6 8#6) ∧ okOf (decodeSyl .e 0x44000000#32) = some .agwait ∧ okOf (decodeSyl .e 0x50515009#32) = some (.tlbi 20#6 21#6 9#6) := by decide

/-- Words that the programs of 16 to 20 list. -/
theorem test_decode_programs : okOf (decodeSyl .a 0x01050007#32) = some (.loop 20#6 7#14) ∧ okOf (decodeSyl .s0 0x0B40E3C0#32) = some (.or 16#6 14#6 15#6) ∧
    okOf (decodeSyl .a 0x04144001#32) = some (.ainc 17#6 1#4 1#14) ∧ okOf (decodeSyl .m0 0x07051018#32) = some (.vst .i32 0#2 false 1#6 17#6 0#6) ∧
    okOf (decodeSyl .m0 0x01A0C008#32) = some (.ld .d32 0#2 false 40#6 12#6 0#6) ∧ okOf (decodeSyl .m0 0x0430B108#32) = some (.stS .d32 0#2 false 12#6 11#6 4#6) ∧
    okOf (decodeSyl .k 0x02410044#32) = some (.cxsi .f32 true 16#6 16#6 0#3 1#3) ∧ okOf (decodeSyl .k 0x05510148#32) = some (.vnormsel .f32 20#6 16#6 5#4 1#3) ∧
    okOf (decodeSyl .a 0x05168000#32) = some (.astr 1#4 26#6 0#3) ∧ okOf (decodeSyl .f 0x09040000#32) = some (.rnd .f32 1#6) := by decide

/-- A code point that no table assigns, and a field that must be zero. -/
theorem test_decode_refused : okOf (decodeSyl .s0 0x00000000#32) = none ∧ okOf (decodeSyl .m0 0x0F000001#32) = none ∧ okOf (decodeSyl .v0 0x4F000000#32) = none := by decide

/-! Single steps -/

/-- Registers x1 = 2^63 − 1 and x2 = 1. -/
def sOne : State := with0 (regs [0x7FFFFFFFFFFFFFFF#64, 1#64, 0#64])

/-- The value that the newest result in flight of context 0 will write. -/
def newest (r : Result) : Option Val := match r with | .next t => (getArch t 0).inflight.getLast?.map (·.val) | _ => none

theorem test_add_wraps : newest (exec (.add 3#6 1#6 2#6) sOne) = some (.word 0x8000000000000000#64) := by decide
theorem test_sub_wraps : newest (exec (.sub 3#6 3#6 2#6) sOne) = some (.word 0xFFFFFFFFFFFFFFFF#64) := by decide
theorem test_div_by_zero : newest (exec (.div 3#6 2#6 0#6) sOne) = some (.word 0xFFFFFFFFFFFFFFFF#64) := by decide
theorem test_x0_reads_zero : newest (exec (.add 3#6 0#6 2#6) sOne) = some (.word 1#64) := by decide

/-- A word that the host places where context 0 fetches runs as the first bundle (02 R41, R44). -/
theorem test_placed_movi : (match step (State.reset.withFetchWord 32 0x29267734) with
    | .next t => (getArch t 0).inflight.map (fun r => r.dest) | _ => []) = [.x 9] := by decide

end Sys2Proof.Tests
end

section
/-!
Landing (02 R35, R36). The results that are due are put into a list in the order in which they land; what a register
holds afterwards is decided by the last entry of that list that names it.
-/

namespace Sys2Proof.Claims

open Sys2Proof Sys2Proof.Machine

/-! The order in which results land -/

/-- Results in the order of their cycles and, within a cycle, of their issue. -/
def landingOrder (rs : List InFlight) : List InFlight := rs.foldl (fun l r => insertLand r l) []

theorem landBy_eq (now : Nat) (a : Arch) : landBy now a =
    (landingOrder (a.inflight.filter (landsBy now))).foldl landOne { a with inflight := a.inflight.filter fun r => !landsBy now r } :=
  rfl

theorem perm_insertLand (r : InFlight) (l : List InFlight) : (insertLand r l).Perm (r :: l) := by
  induction l with
  | nil => exact .refl _
  | cons q l ih =>
    rw [insertLand]
    split
    · exact .refl _
    · exact (ih.cons q).trans (.swap r q l)

theorem perm_foldl_insertLand (rs : List InFlight) : ∀ l, (rs.foldl (fun l r => insertLand r l) l).Perm (rs ++ l) := by
  induction rs with
  | nil => exact fun l => .refl _
  | cons r rs ih => exact fun l => (ih _).trans (((perm_insertLand r l).append_left rs).trans List.perm_middle)

theorem perm_landingOrder (rs : List InFlight) : (landingOrder rs).Perm rs :=
  (perm_foldl_insertLand rs []).trans (.of_eq (List.append_nil rs))

/-- No result lands before one that stands earlier. -/
def InOrder (l : List InFlight) : Prop := l.Pairwise fun p q => landAt p ≤ landAt q

theorem InOrder.insertLand {l : List InFlight} (r : InFlight) (h : InOrder l) : InOrder (insertLand r l) := by
  induction l with
  | nil => exact List.pairwise_singleton ..
  | cons q l ih =>
    obtain ⟨hq, hl⟩ := List.pairwise_cons.1 h
    rw [Machine.insertLand]
    split
    · next hr =>
      refine List.pairwise_cons.2 ⟨fun p hp => ?_, h⟩
      rcases List.mem_cons.1 hp with rfl | hp
      · exact Nat.le_of_lt hr
      · exact Nat.le_trans (Nat.le_of_lt hr) (hq p hp)
    · next hr =>
      refine List.pairwise_cons.2 ⟨fun p hp => ?_, ih hl⟩
      rcases List.mem_cons.1 ((perm_insertLand r l).mem_iff.1 hp) with rfl | hp
      · exact Nat.not_lt.1 hr
      · exact hq p hp

theorem inOrder_landingOrder (rs : List InFlight) : InOrder (landingOrder rs) :=
  List.foldlRecOn rs _ List.Pairwise.nil fun _ h r _ => h.insertLand r

/-- The last entry of l for the destination of r is r. -/
def LastFor (r : InFlight) (l : List InFlight) : Prop := ∃ l₁ l₂, l = l₁ ++ r :: l₂ ∧ ∀ q ∈ l₂, q.dest ≠ r.dest

theorem LastFor.cons {r : InFlight} {l : List InFlight} (q : InFlight) : LastFor r l → LastFor r (q :: l)
  | ⟨l₁, l₂, hl, h⟩ => ⟨q :: l₁, l₂, by rw [hl, List.cons_append], h⟩

/-- A result that lands no earlier than those for its destination in a list becomes the last of them. -/
theorem lastFor_insertLand {r : InFlight} {l : List InFlight} (hs : InOrder l)
    (h : ∀ q ∈ l, q.dest = r.dest → landAt q ≤ landAt r) : LastFor r (insertLand r l) := by
  induction l with
  | nil => exact ⟨[], [], rfl, by simp⟩
  | cons q l ih =>
    obtain ⟨hq, hl⟩ := List.pairwise_cons.1 hs
    rw [insertLand]
    split
    · next hr =>
      refine ⟨[], q :: l, rfl, fun p hp hd => ?_⟩
      have hqp : landAt q ≤ landAt p := by
        rcases List.mem_cons.1 hp with rfl | hp
        · exact Nat.le_refl _
        · exact hq p hp
      exact absurd (h p hp hd) (by omega)
    · exact (ih hl fun p hp => h p (List.mem_cons_of_mem _ hp)).cons q

/-- A result for another destination, or one that lands earlier, leaves the last one where it is. -/
theorem LastFor.insertLand {r q : InFlight} {l : List InFlight} (h : LastFor r l)
    (hq : q.dest = r.dest → landAt q < landAt r) : LastFor r (insertLand q l) := by
  obtain ⟨l₁, l₂, rfl, hl⟩ := h
  induction l₁ with
  | nil =>
    rw [List.nil_append, Machine.insertLand]
    split
    · exact ⟨[q], l₂, rfl, hl⟩
    · next hn =>
      refine ⟨[], Machine.insertLand q l₂, rfl, fun p hp => ?_⟩
      rcases List.mem_cons.1 ((perm_insertLand q l₂).mem_iff.1 hp) with rfl | hp
      · exact fun hd => hn (hq hd)
      · exact hl p hp
  | cons p l₁ ih =>
    rw [List.cons_append, Machine.insertLand]
    split
    · exact ⟨q :: p :: l₁, l₂, rfl, hl⟩
    · exact ih.cons p

/-- The result that lands last at its destination, at a tie the one issued last, is the last for it in landing order. -/
theorem lastFor_landingOrder {r : InFlight} {pre post : List InFlight}
    (hpre : ∀ q ∈ pre, q.dest = r.dest → landAt q ≤ landAt r) (hpost : ∀ q ∈ post, q.dest = r.dest → landAt q < landAt r) :
    LastFor r (landingOrder (pre ++ r :: post)) := by
  rw [landingOrder, List.foldl_append, List.foldl_cons]
  refine List.foldlRecOn post _ ?_ fun l hl q hq => hl.insertLand (hpost q hq)
  exact lastFor_insertLand (inOrder_landingOrder pre) fun q hq => hpre q ((perm_landingOrder pre).mem_iff.1 hq)

/-! What landing moves -/

/-- Writing a destination moves the four register files only. -/
theorem putVal_keeps {β : Type} (p : Arch → β) (h : ∀ (a : Arch) x v q r, p { a with x := x, v := v, p := q, a := r } = p a)
    (d : Dest) (v : Val) (a : Arch) : p (putVal d v a) = p a := by
  unfold putVal setX
  split
  · split
    · rfl
    · exact h a _ _ _ _
  · exact h a _ _ _ _
  · split
    · rfl
    · exact h a _ _ _ _
  · exact h a _ _ _ _
  · rfl

theorem landOne_fstatus (a : Arch) (r : InFlight) : (landOne a r).fstatus = a.fstatus ||| r.flags :=
  congrArg (· ||| r.flags) (putVal_keeps Arch.fstatus (fun _ _ _ _ _ => rfl) r.dest r.val a)

/-- Landing moves the register files, the flags and the poison only. -/
theorem foldl_landOne_keeps {β : Type} (p : Arch → β)
    (h : ∀ (a : Arch) x v q r, p { a with x := x, v := v, p := q, a := r } = p a)
    (hf : ∀ (a : Arch) f l, p { a with fstatus := f, poisoned := l } = p a) (rs : List InFlight) (a : Arch) :
    p (rs.foldl landOne a) = p a :=
  List.foldlRecOn (motive := fun b => p b = p a) rs landOne rfl fun b hb r _ =>
    (hf _ _ _).trans ((putVal_keeps p h r.dest r.val b).trans hb)

/-- The flags of the results that land are ORed, in whichever order they land. -/
theorem landBy_fstatus (now : Nat) (a : Arch) :
    (landBy now a).fstatus = (a.inflight.filter (landsBy now)).foldl (fun f r => f ||| r.flags) a.fstatus := by
  rw [landBy_eq, ← List.foldl_hom Arch.fstatus (g₂ := fun f r => f ||| r.flags) fun b r => (landOne_fstatus b r).symm]
  exact (perm_landingOrder _).foldl_eq' (fun p _ q _ f => by rw [BitVec.or_assoc, BitVec.or_comm p.flags, BitVec.or_assoc]) _

/-! What a register holds -/

/-- What a register holds, before or after a write, is decided by the register files. -/
theorem content_congr {a b : Arch} (hx : a.x = b.x) (hv : a.v = b.v) (hp : a.p = b.p) (ha : a.a = b.a) (d : Dest) :
    content d a = content d b := by
  cases d <;> simp only [content, hx, hv, hp, ha]

theorem content_landOne (d : Dest) (a : Arch) (r : InFlight) : content d (landOne a r) = content d (putVal r.dest r.val a) :=
  content_congr rfl rfl rfl rfl d

theorem getD_set_ne {α : Type} (l : List α) {i j : Nat} (b z : α) (h : i ≠ j) : (l.set i b).getD j z = l.getD j z := by
  simp only [List.getD_eq_getElem?_getD, List.getElem?_set_ne h]

/-- Writing another destination leaves a register. -/
theorem content_putVal_ne {d e : Dest} (h : d ≠ e) (v : Val) (a : Arch) : content e (putVal d v a) = content e a := by
  unfold putVal setX
  split
  case h_1 n w =>
    split
    · rfl
    · cases e with
      | x m => simp only [content, getD_set_ne _ _ _ fun hnm : n = m => h (congrArg Dest.x hnm)]
      | _ => rfl
  case h_2 n _ _ =>
    cases e with
    | v m => simp only [content, getD_modify_ne _ _ _ _ _ fun hnm : n = m => h (congrArg Dest.v hnm)]
    | _ => rfl
  case h_3 n _ _ =>
    split
    · rfl
    · cases e with
      | p m => simp only [content, getD_modify_ne _ _ _ _ _ fun hnm : n = m => h (congrArg Dest.p hnm)]
      | _ => rfl
  case h_4 n _ _ _ =>
    cases e with
    | a m => simp only [content, getD_modify_ne _ _ _ _ _ fun hnm : n = m => h (congrArg Dest.a hnm)]
    | _ => rfl
  case h_5 => rfl

/-- A register that a write can change: the state has it, and it is neither x0 nor p0 (02 R43, R45). -/
def Writable (d : Dest) (a : Arch) : Prop :=
  match d with
  | .x n => n ≠ 0 ∧ n < a.x.length
  | .v n => n < a.v.length
  | .p n => n ≠ 0 ∧ n < a.p.length
  | .a n => n < a.a.length
  | .none => False

theorem lengths_putVal (d : Dest) (v : Val) (a : Arch) :
    (putVal d v a).x.length = a.x.length ∧ (putVal d v a).v.length = a.v.length ∧
      (putVal d v a).p.length = a.p.length ∧ (putVal d v a).a.length = a.a.length := by
  unfold putVal setX
  split
  · split <;> simp
  · simp
  · split <;> simp
  · simp
  · simp

theorem writable_putVal (d e : Dest) (v : Val) (a : Arch) : Writable d (putVal e v a) ↔ Writable d a := by
  obtain ⟨hx, hv, hp, ha⟩ := lengths_putVal e v a
  cases d <;> simp only [Writable, hx, hv, hp, ha]

theorem content_putVal_whole {d : Dest} {v : Val} {a : Arch} (h : fits d v) (hw : Writable d a) :
    content d (putVal d v a) = v := by
  cases d with
  | x n =>
    obtain ⟨hn, hl⟩ := hw
    cases v with
    | word w => simp [content, putVal, setX, hn, hl]
    | _ => exact h.elim
  | v n =>
    cases v with
    | lanes m r =>
      obtain rfl : m = pall := h
      rw [content, putVal, getD_modify_eq _ _ _ _ hw, if_pos rfl]
    | _ => exact h.elim
  | p n =>
    obtain ⟨hn, hl⟩ := hw
    cases v with
    | bits m r =>
      obtain rfl : m = pall := h
      rw [content, putVal, if_neg hn, getD_modify_eq _ _ _ _ hl, pall, BitVec.not_allOnes, BitVec.and_zero, BitVec.zero_or, BitVec.and_allOnes]
    | _ => exact h.elim
  | a n =>
    cases v with
    | areg ad st lv =>
      obtain ⟨had, hst, hlv⟩ := h
      obtain ⟨ad, rfl⟩ := Option.isSome_iff_exists.1 had
      obtain ⟨st, rfl⟩ := Option.isSome_iff_exists.1 hst
      obtain ⟨lv, rfl⟩ := Option.isSome_iff_exists.1 hlv
      rw [content, putVal, getD_modify_eq _ _ _ _ hw]
      rfl
    | _ => exact h.elim
  | none => exact hw.elim

theorem content_putVal_of_not_writable {d : Dest} {a : Arch} (hw : ¬Writable d a) (v : Val) :
    content d (putVal d v a) = content d a := by
  unfold putVal setX
  split
  case h_1 n w =>
    split
    · rfl
    · next hn => rw [List.set_eq_of_length_le (Nat.not_lt.1 fun hl => hw ⟨hn, hl⟩)]
  case h_2 n _ _ => rw [List.modify_eq_self (Nat.not_lt.1 hw)]
  case h_3 n _ _ =>
    split
    · rfl
    · next hn => rw [List.modify_eq_self (Nat.not_lt.1 fun hl => hw ⟨hn, hl⟩)]
  case h_4 n _ _ _ => rw [List.modify_eq_self (Nat.not_lt.1 hw)]
  case h_5 => rfl

/-- A write of a whole register overwrites what was written before it. -/
theorem content_putVal_overwrites {d : Dest} {v : Val} (h : fits d v) (e : Dest) (w : Val) (a : Arch) :
    content d (putVal d v (putVal e w a)) = content d (putVal d v a) := by
  by_cases hw : Writable d a
  · rw [content_putVal_whole h hw, content_putVal_whole h ((writable_putVal d e w a).2 hw)]
  · rw [content_putVal_of_not_writable hw, content_putVal_of_not_writable (mt (writable_putVal d e w a).1 hw)]
    by_cases he : e = d
    · subst he; exact content_putVal_of_not_writable hw w
    · exact content_putVal_ne he w a

/-- What a whole write leaves in a register is decided by the register files. -/
theorem content_putVal_congr {d : Dest} {v : Val} (h : fits d v) {a b : Arch} (hx : a.x = b.x) (hv : a.v = b.v)
    (hp : a.p = b.p) (ha : a.a = b.a) : content d (putVal d v a) = content d (putVal d v b) := by
  have hiff : Writable d a ↔ Writable d b := by cases d <;> simp only [Writable, hx, hv, hp, ha]
  by_cases hw : Writable d a
  · rw [content_putVal_whole h hw, content_putVal_whole h (hiff.1 hw)]
  · rw [content_putVal_of_not_writable hw, content_putVal_of_not_writable (mt hiff.2 hw)]
    exact content_congr hx hv hp ha d

/-- A register that no landing result names stays. -/
theorem content_foldl_landOne_of_ne {d : Dest} (rs : List InFlight) (h : ∀ q ∈ rs, q.dest ≠ d) (a : Arch) :
    content d (rs.foldl landOne a) = content d a :=
  List.foldlRecOn (motive := fun b => content d b = content d a) rs landOne rfl fun b hb q hq =>
    (content_landOne d b q).trans ((content_putVal_ne (h q hq) q.val b).trans hb)

/-- Whatever has landed before, a whole write leaves its value. -/
theorem content_putVal_foldl_landOne {d : Dest} {v : Val} (h : fits d v) (rs : List InFlight) (a : Arch) :
    content d (putVal d v (rs.foldl landOne a)) = content d (putVal d v a) :=
  List.foldlRecOn (motive := fun b => content d (putVal d v b) = content d (putVal d v a)) rs landOne rfl
    fun b hb q _ => calc content d (putVal d v (landOne b q))
      _ = content d (putVal d v (putVal q.dest q.val b)) := content_putVal_congr h rfl rfl rfl rfl
      _ = content d (putVal d v b) := content_putVal_overwrites h q.dest q.val b
      _ = content d (putVal d v a) := hb

/-- The last result for a register, where it writes the whole, decides what the register holds. -/
theorem LastFor.content_foldl_landOne {r : InFlight} {rs : List InFlight} (hl : LastFor r rs) (h : fits r.dest r.val)
    (a : Arch) : content r.dest (rs.foldl landOne a) = content r.dest (putVal r.dest r.val a) := by
  obtain ⟨l₁, l₂, rfl, hlast⟩ := hl
  rw [List.foldl_append, List.foldl_cons]
  calc content r.dest (l₂.foldl landOne (landOne (l₁.foldl landOne a) r))
    _ = content r.dest (landOne (l₁.foldl landOne a) r) := content_foldl_landOne_of_ne l₂ hlast _
    _ = content r.dest (putVal r.dest r.val (l₁.foldl landOne a)) := content_landOne ..
    _ = content r.dest (putVal r.dest r.val a) := content_putVal_foldl_landOne h l₁ a

/-- Settles O38: the due results form a list in landing order, and the last one for a register in it is the one that lands
last, at a tie the one issued last. -/
theorem resultsLand : Obligations.ResultsLand := by
  unfold Obligations.ResultsLand
  intro a now
  refine ⟨landBy_fstatus now a, ?_, ?_, ?_, ?_, ?_⟩
  · exact foldl_landOne_keeps Arch.inflight (fun _ _ _ _ _ => rfl) (fun _ _ _ => rfl) _ _
  · intro r pre post hsplit hdue hfit hpre hpost
    have hlast : LastFor r (landingOrder (a.inflight.filter (landsBy now))) := by
      rw [hsplit, List.filter_append, List.filter_cons_of_pos hdue]
      refine lastFor_landingOrder (fun q hq => ?_) fun q hq => ?_
      · obtain ⟨hq, hqdue⟩ := List.mem_filter.1 hq
        exact hpre q hq hqdue
      · obtain ⟨hq, hqdue⟩ := List.mem_filter.1 hq
        exact hpost q hq hqdue
    exact (hlast.content_foldl_landOne hfit _).trans (content_putVal_congr hfit rfl rfl rfl rfl)
  · intro d hd
    refine (content_foldl_landOne_of_ne _ (fun q hq => ?_) _).trans (content_congr rfl rfl rfl rfl d)
    obtain ⟨hq, hqdue⟩ := List.mem_filter.1 ((perm_landingOrder _).mem_iff.1 hq)
    exact hd q hq hqdue
  · exact foldl_landOne_keeps Arch.pc (fun _ _ _ _ _ => rfl) (fun _ _ _ => rfl) _ _
  · exact foldl_landOne_keeps Arch.loops (fun _ _ _ _ _ => rfl) (fun _ _ _ => rfl) _ _

end Sys2Proof.Claims
end

section
/-!
Bundles without an operation (02 R40 to R44). The decoder finds no operation in them, and their issue runs none.
-/

namespace Sys2Proof

/-! Opcode 0x00 -/

/-- No opcode space has an instruction at opcode 0x00. -/
theorem candidate_opcode_zero (sl : Slot) {w : BitVec 32} (h : fN w 24 8 = 0) : candidate sl w = none := by
  cases sl with
  | s0 => rw [candidate, candScalar, h]; rfl
  | s1 => rw [candidate, candScalar, candControl, h]; rfl
  | v0 | v1 => rw [candidate, candVector, h]; rfl
  | v2 => rw [candidate, candVector, candCross, h]; rfl
  | f => rw [candidate, candSpecial, h]; rfl
  | k => rw [candidate, candSort, h]; rfl
  | m0 | m1 => rw [candidate, candMemory, h]; rfl
  | a => rw [candidate, candAddress, h]; rfl
  | e => rw [candidate, candEngine, h]; rfl

theorem decodeSyl_opcode_zero (sl : Slot) {w : BitVec 32} (h : w.toNat / 2 ^ 24 = 0) :
    decodeSyl sl w = .error .unassigned := by
  rw [decodeSyl, candidate_opcode_zero sl (by rw [fN, h, Nat.zero_mod])]

end Sys2Proof

namespace Sys2Proof.Machine

open Sys2Proof

/-! Syllables whose occupancy bit is clear -/

/-- A syllable that is not empty and whose occupancy bit is clear makes the bundle invalid. -/
theorem decodeSyls_of_not_empty (occ : Nat) (sls : List Slot) :
    ∀ (n k : Nat) (ws : List (BitVec 32)), k < sls.length → occ.testBit (n + k) = false → ws.getD k 0#32 ≠ 0#32 →
      decodeSyls occ n sls ws = none := by
  induction sls with
  | nil => exact fun _ _ _ hk => absurd hk (Nat.not_lt_zero _)
  | cons sl sls ih =>
    intro n k ws hk hocc hw
    rw [decodeSyls]
    cases k with
    | zero =>
      have hhead : ws.headD 0#32 ≠ 0#32 := by cases ws <;> exact hw
      simp only [show occ.testBit n = false from hocc, Bool.false_eq_true, if_false, hhead]
    | succ k =>
      have hrest : decodeSyls occ (n + 1) sls ws.tail = none := by
        refine ih (n + 1) k ws.tail (Nat.lt_of_succ_lt_succ hk) (by rwa [Nat.add_right_comm]) ?_
        cases ws <;> exact hw
      simp only [hrest, Option.map_none, Option.bind_fun_none, ite_self]

/-- With no occupancy bit set, empty syllables name no operation. -/
theorem decodeSyls_of_empty (sls : List Slot) :
    ∀ (n : Nat) (ws : List (BitVec 32)), (∀ w ∈ ws, w = 0#32) → decodeSyls 0 n sls ws = some [] := by
  induction sls with
  | nil => exact fun _ _ _ => rfl
  | cons sl sls ih =>
    intro n ws hws
    have hhead : ws.headD 0#32 = 0#32 := by
      cases ws with
      | nil => rfl
      | cons w ws => exact hws w List.mem_cons_self
    rw [decodeSyls, Nat.zero_testBit, hhead]
    exact ih (n + 1) ws.tail fun w hw => hws w (List.mem_of_mem_tail hw)

theorem testBit_occupancy (h : BitVec 32) {k : Nat} (hk : k < 11) : (bitsN h 10 0).testBit k = h.getLsbD k := by
  rw [bitsN, Nat.testBit_mod_two_pow, Nat.pow_zero, Nat.div_one, BitVec.getLsbD]
  simp [hk]

theorem decodeBundle_of_not_empty {h : BitVec 32} {ws : List (BitVec 32)} {k : Nat} (hk : k < 11)
    (hocc : h.getLsbD k = false) (hw : ws.getD k 0#32 ≠ 0#32) : decodeBundle (h :: ws) = none := by
  have hsyls : decodeSyls (bitsN h 10 0) 0 slots ws = none :=
    decodeSyls_of_not_empty _ slots 0 k ws hk (by rw [Nat.zero_add, testBit_occupancy h hk, hocc]) hw
  unfold decodeBundle
  simp only [List.headD_cons, List.tail_cons, hsyls, Option.map_none, ite_self]

theorem decodeBundle_of_empty {h : BitVec 32} {ws : List (BitVec 32)} (hocc : h.toNat % 2 ^ 11 = 0)
    (hres : h.toNat / 2 ^ 21 = 0) (hws : ∀ w ∈ ws, w = 0#32) : decodeBundle (h :: ws) = some (hdrOf h, []) := by
  have hocc : bitsN h 10 0 = 0 := by rw [bitsN, Nat.pow_zero, Nat.div_one, hocc]
  have hres : bitsN h 31 21 = 0 := by rw [bitsN, hres, Nat.zero_mod]
  simp only [decodeBundle, List.headD_cons, List.tail_cons, hres, hocc, decodeSyls_of_empty slots 0 ws hws, ne_eq,
    not_true_eq_false, if_false, Option.map_some]

/-- A bundle that names no operation is valid when its syllables are empty, and only then. -/
theorem decodeBundle_unoccupied {h : BitVec 32} {ws : List (BitVec 32)} (hocc : h.toNat % 2 ^ 11 = 0)
    (hres : h.toNat / 2 ^ 21 = 0) (hlen : ws.length = 11) :
    decodeBundle (h :: ws) = if ∀ w ∈ ws, w = 0#32 then some (hdrOf h, []) else none := by
  split
  · next hws => exact decodeBundle_of_empty hocc hres hws
  · next hws =>
    obtain ⟨w, hw⟩ := Classical.not_forall.1 hws
    obtain ⟨hmem, hw⟩ := Classical.not_imp.1 hw
    obtain ⟨k, hk, rfl⟩ := List.mem_iff_getElem.1 hmem
    have hk11 : k < 11 := hlen ▸ hk
    refine decodeBundle_of_not_empty hk11 ?_ (by rwa [List.getD_eq_getElem?_getD, List.getElem?_eq_getElem hk, Option.getD_some])
    rw [← testBit_occupancy h hk11, bitsN, Nat.pow_zero, Nat.div_one, hocc, Nat.zero_testBit]

/-! The cycle that a bundle takes -/

theorem cores_charge (d n r : Nat) (s : State) : (charge d n r s).cores = s.cores := by
  unfold charge
  apply foldS_keeps State.cores
  intro a s
  split
  · rfl
  · rfl
  · split
    · exact foldS_keeps State.cores _ (fun _ _ => modCtx_cores ..) _ _
    · rfl

/-- The passing of cycles is counted on the core. -/
theorem getCore_tick (k n : Nat) (s : State) (hk : k < s.cores.length) :
    getCore (tick k n s) k = { getCore s k with cycles := (getCore s k).cycles + n } := by
  unfold tick
  rw [foldS_keeps (fun s => getCore s k), getCore_modDie, getCore_modCore_eq _ _ _ hk]
  intro c s
  split
  · exact congrArg (·.getD k {}) (cores_charge ..)
  · rfl

/-- A bundle without END whose operations left the flow at the next PC takes one cycle. -/
theorem cycles_finishBundle_plain (c id0 : Nat) (u : State) (n : Nat) (t0 : Word) (p0 : List Pred) (o0 : Nat)
    (hk : coreOf c < u.cores.length) (hf : u.flow = { nextPc := n, tags0 := t0, preds0 := p0, id0 := o0 }) (he : u.hdr.fin = false) :
    (getCore (finishBundle c id0 u) (coreOf c)).cycles = (getCore u (coreOf c)).cycles + 1 := by
  simp only [finishBundle, hf, goOn, modCtx_flow, modCtx_hdr, he, Bool.false_eq_true, if_false]
  show (getCore (tick _ _ _) (coreOf c)).cycles = _
  rw [getCore_tick _ _ _ (by simpa [modArch] using hk)]
  simp [modArch]

/-! The issue of a bundle without an operation -/

/-- The state on which the operations of a bundle act whose next PC is n. -/
def startedTo (n : Nat) (s : State) : State := { started s with flow := { (started s).flow with nextPc := n } }

theorem decodeFault_nil {x : Ctx} {h : Hdr} (hl : headerOk x.arch h = true) : decodeFault x h [] = none := by
  simp [decodeFault, hl, groupOk]

theorem noRoom_nil {x : Ctx} {h : Hdr} (he : h.fin = false) (hr : x.arch.inflight.length ≤ 96) : noRoom x h [] = false := by
  simp [noRoom, he, hr]

end Sys2Proof.Machine

namespace Sys2Proof.Claims

open Sys2Proof Sys2Proof.Machine

/-- A bundle without an operation runs none: it ends at once. -/
theorem EmptyReady.issueOps {s : State} (n : Nat) (h : EmptyReady s) :
    issueOps n [] s = .went (finishBundle s.cur (getCtx (atIssue s) s.cur).nextId (startedTo n s)) := by
  have hfree : interlocked (getCtx (atIssue s) s.cur).arch (namedRegs (getCtx (atIssue s) s.cur).arch s.hdr []) = false := by
    rw [namedRegs, List.flatMap_nil, List.append_nil]; exact h.free
  have hstage := h.stage
  have hclean := h.clean
  unfold getArch at hstage hclean
  have hhdr : ({ s.hdr with fin := false } : Hdr) = s.hdr := by rw [← h.noEnd]
  have hend : endPoisoned s.cur (startedTo n s) = false :=
    endPoisoned_noEnd _ _ ((congrArg Hdr.fin (atIssue_hdr s)).trans h.noEnd)
  have hat : landNow s.cur (rebaseNow s.cur s) = atIssue s := rfl
  have hbkt (x : Ctx) : bktStalls x [] = false := rfl
  unfold Machine.issueOps
  dsimp only
  simp only [hat, List.map_nil, decodeFault_nil h.legal, hfree, hbkt, hstage, hhdr, List.filter_nil, ite_self, List.flatMap_nil,
    List.append_nil, List.any_nil, Bool.and_false, Bool.or_self, hclean, noRoom_nil h.noEnd h.room, Bool.false_eq_true, if_false, runOps]
  exact congrArg Went.went (if_neg (Bool.eq_false_iff.1 hend))

/-- A bundle without an operation leaves the machine as it was but for the PC. -/
theorem EmptyReady.ends {s : State} (n id0 : Nat) (h : EmptyReady s) :
    Ends n (started s) (finishBundle s.cur id0 (startedTo n s)) := by
  have hlen : s.cur < (startedTo n s).ctxs.length := (len_started s h.sized.ctxs).symm ▸ h.cur
  obtain ⟨hcalm, harch⟩ := finishBundle_plain s.cur id0 (startedTo n s) n _ _ _ h.cur hlen rfl
    ((congrArg Hdr.fin (hdr_started s)).trans h.noEnd)
  have hcalm : State.calm s.cur (finishBundle s.cur id0 (startedTo n s)) = State.calm s.cur (started s) := hcalm
  rw [Ends, started_cur]
  exact ⟨hcalm, harch, fun d a => by rw [mem_of_calm hcalm]⟩

/-- A bundle without an operation takes one cycle. -/
theorem EmptyReady.cycles {s : State} (n id0 : Nat) (h : EmptyReady s) :
    (getCore (finishBundle s.cur id0 (startedTo n s)) (coreOf s.cur)).cycles =
      (getCore (atIssue s) (coreOf s.cur)).cycles + 1 := by
  have hcores : (startedTo n s).cores.length = 256 :=
    (congrArg (·.2.2.2.1) (fixedOf_started s)).trans h.sized.cores
  have hcore : coreOf s.cur < (startedTo n s).cores.length := by
    rw [hcores, coreOf]; exact Nat.div_lt_of_lt_mul h.cur
  exact cycles_finishBundle_plain s.cur id0 (startedTo n s) n _ _ _ hcore rfl
    ((congrArg Hdr.fin (hdr_started s)).trans h.noEnd)

/-- Settles O39: no opcode space assigns 0x00, the decoder compares every unoccupied syllable with zero, and the issue of no
operation is the end of its bundle. -/
theorem emptyBundles : Obligations.EmptyBundles := by
  unfold Obligations.EmptyBundles
  exact ⟨fun sl _ h => decodeSyl_opcode_zero sl h, fun _ _ hocc hres hlen => decodeBundle_unoccupied hocc hres hlen,
    fun _ _ _ _ hk hocc hw => decodeBundle_of_not_empty hk hocc hw,
    fun _ n h => ⟨_, h.issueOps n, h.ends n _, h.cycles n _⟩⟩

end Sys2Proof.Claims
end

section
/-!
The release of the dies from reset (15 R352, R353). What a die holds when it is released is said of `releasedDie`; a boot
attempt from power-on that succeeds gives every die of the package that state.
-/

namespace Sys2Proof.Machine

open Sys2Proof

/-! What a released die holds -/

/-- A memory that lists no address from a on reads zero there. -/
theorem readByte_of_all_below {m : Memory} {a : Nat} (h : ∀ e ∈ m, e.1 < a) : readByte m a = 0#8 := by
  induction m with
  | nil => rfl
  | cons e m ih =>
    have he : e.1 < a := h e List.mem_cons_self
    rw [readByte, if_neg (Nat.lt_asymm he), if_neg (Nat.ne_of_lt he)]
    exact ih fun e' he' => h e' (List.mem_cons_of_mem _ he')

/-- Only DRAM keeps its bytes: every address of the storage on the die reads zero. -/
theorem readByte_releasedDie (d : Die) {a : Nat} (ha : scratchBase ≤ a) : readByte (releasedDie d).mem a = 0#8 :=
  readByte_of_all_below fun _ he => Nat.lt_of_lt_of_le (of_decide_eq_true (List.mem_filter.1 he).2) ha

theorem isFull_releasedDie (d : Die) (a : Nat) : isFull (releasedDie d) a = true := rfl

theorem slices_releasedDie (d : Die) {sl : Slice} (h : sl ∈ (releasedDie d).slices) : sl = {} :=
  List.eq_of_mem_replicate h

theorem regions_releasedDie (d : Die) : (releasedDie d).regions = [] := rfl

theorem region?_of_no_regions {d : Die} (h : d.regions = []) (r : Nat) : region? d r = none := by
  rw [region?, h, List.find?_nil]

/-- Without a region there is no route table: every entry is invalid (11 R265). -/
theorem routeOf_invalid_of_no_regions {d : Die} (h : d.regions = []) (top rank : Nat) :
    rtValid (routeOf d top rank) = false := by
  rw [routeOf, region?_of_no_regions h, Option.map_none, Option.getD_none, rtValid, bit]
  exact BitVec.getLsbD_zero

/-- Without a region there is no group table (12 R288). -/
theorem group?_of_no_regions {d : Die} (h : d.regions = []) (top gid : Nat) : group? d top gid = none := by
  rw [group?, region?_of_no_regions h]; rfl

/-- Holding a die in reset already clears all that its release clears: the release adds nothing but the end of reset. -/
theorem releasedDie_held (d : Die) : releasedDie { releasedDie d with inReset := true } = releasedDie d := by
  simp only [releasedDie, List.filter_filter, Bool.and_self]

/-! What a boot attempt leaves of the package held in reset -/

theorem dies_bootTry {b : BootTry} (s : State) (hb : bootCause b = 0) : (bootTry b s).dies = s.dies.map releasedDie := by
  simp only [bootTry, hb]

theorem cores_bootTry (b : BootTry) (s : State) : (bootTry b s).cores = s.cores := by
  unfold bootTry; split <;> rfl

theorem keys_bootTry (b : BootTry) (s : State) : (bootTry b s).keys = s.keys := by
  unfold bootTry; split <;> rfl

/-- A successful attempt from power-on releases every die of the package. -/
theorem getDie_powerOn {s : State} {b : BootTry} {d : Nat} (hb : bootCause b = 0) (hd : d < s.dies.length) :
    getDie (bootTry b (holdReset s)) d = releasedDie (getDie s d) := by
  simp [getDie, dies_bootTry _ hb, holdReset, hd, releasedDie_held]

/-- The count of core cycles is zero on every core held in reset (02 R59). -/
theorem cycles_holdReset (s : State) (k : Nat) : (getCore (holdReset s) k).cycles = 0 := by
  have hcores : (holdReset s).cores = List.replicate 256 {} := rfl
  rw [getCore, hcores, List.getD_eq_getElem?_getD, List.getElem?_replicate]
  split <;> rfl

/-- Reset frees every key slot but slot 0, which is live (13 R319). -/
theorem keyState_holdReset {s : State} {n : Nat} (hn : n < s.keys.length) :
    ((holdReset s).keys.getD n {}).state = if n = 0 then .live else .free := by
  simp [holdReset, hn]

end Sys2Proof.Machine

namespace Sys2Proof.Claims

open Sys2Proof Sys2Proof.Machine

/-- Settles O40: power-on clears the package and holds it in reset, and an attempt that succeeds gives every die
the state that `releasedDie` describes and leaves the cores and the key slots as reset set them. -/
theorem diesLeaveReset : Obligations.DiesLeaveReset := by
  unfold Obligations.DiesLeaveReset
  intro s b hs hb
  have hkey (n : Nat) (hn : n < 4096) :
      ((bootTry b (holdReset s)).keys.getD n {}).state = if n = 0 then .live else .free := by
    rw [keys_bootTry, keyState_holdReset (by rw [hs.keys]; exact hn)]
  refine ⟨bootTry b (holdReset s), rfl, fun d hd => ?_, fun k _ => ?_, hkey 0 (by omega), fun n h0 hn => ?_⟩
  · have hdie : getDie (bootTry b (holdReset s)) d = releasedDie (getDie s d) :=
      getDie_powerOn hb (by rw [hs.dies]; exact hd)
    rw [DieUp, hdie]
    refine ⟨⟨rfl, rfl⟩, fun sl hsl => ?_, fun a ha _ => ⟨readByte_releasedDie _ ha, isFull_releasedDie _ a⟩,
      regions_releasedDie _, routeOf_invalid_of_no_regions rfl, group?_of_no_regions rfl⟩
    rw [slices_releasedDie _ hsl]
    exact ⟨rfl, rfl⟩
  · rw [getCore, cores_bootTry]; exact cycles_holdReset s k
  · rw [hkey n hn, if_neg (Nat.ne_of_gt h0)]

end Sys2Proof.Claims
end
